-- ==== Sys2Proof/Word.lean ====
section
/-! DEFINITION. The word type of the exchange RAM and the registers, the reference count and the angle
(00_scope.md sections 5.1, 5.3 and 5.4). -/

namespace Sys2Proof

/-- A word of the exchange RAM or of a register: 16 bits (00_scope.md section 5.1). -/
abbrev Word := BitVec 16

/-- The reference count and every instant derived from it: a 32-bit count of half-ticks (R3). -/
abbrev RefCount := BitVec 32

/-- An angle: 65536 units make one electrical turn, and sums wrap (00_scope.md section 5.4). -/
abbrev Angle := BitVec 16

end Sys2Proof
end

