-- ==== Sys2Proof/Syntax.lean ====
section
/-! DEFINITION. The commands of the block: one constructor for each row of spec/opcode_table.json,
and the names their operands use. -/

namespace Sys2Proof

/-- The three drive channels: drum, drain pump, circulation pump (00_scope.md section 3). -/
inductive ChannelId where
  | ch0
  | ch1
  | ch2
  deriving DecidableEq, Repr

/-- The three legs of a channel. -/
inductive Leg where
  | a
  | b
  | c
  deriving DecidableEq, Repr

/-- The two ends of a pulse of the edge set in force (R78). -/
inductive PulseEdge where
  | start
  | stop
  deriving DecidableEq, Repr

/-- The two shared converters (R88). -/
inductive Converter where
  | cva
  | cvb
  deriving DecidableEq, Repr

/-- The four kinds of sampling request (R5). -/
inductive RequestKind where
  | first
  | second
  | zero
  | link
  deriving DecidableEq, Repr

/-- The two fault lines (R86). -/
inductive FaultLine where
  | flt0
  | flt1
  deriving DecidableEq, Repr

/-- A command or an event of the block: one row of spec/opcode_table.json each.

A row that is a write of CMD carries the fields of CMD that the row leaves open: the channel field of
LOCK and SOFT_RESET (R164, R166: CMD reads it back), both fields of UNKNOWN_COMMAND and
COMMAND_DURING_LOCK. An event of one channel, leg, converter, entry or line names it. -/
inductive Instr where
  /-- LOCK (R164): CMD written with code 1 and this channel field. -/
  | lock (field : BitVec 2)
  /-- LOCK_END (R165). -/
  | lockEnd
  /-- START (R10, R11): CMD written with code 2 and this channel. -/
  | start (ch : ChannelId)
  /-- STOP (R12): CMD written with code 3 and this channel. -/
  | stop (ch : ChannelId)
  /-- RESUME (R15): CMD written with code 4 and this channel. -/
  | resume (ch : ChannelId)
  /-- SOFT_RESET (R166, R170): CMD written with code 5 and this channel field. -/
  | softReset (field : BitVec 2)
  /-- UNKNOWN_COMMAND (R166): CMD written with a code outside 1..5, or with 2, 3 or 4 and channel 3. -/
  | unknownCommand (code : BitVec 4) (field : BitVec 2)
  /-- COMMAND_DURING_LOCK (R164): CMD written with these fields while a LOCK is in progress. -/
  | commandDuringLock (code : BitVec 4) (field : BitVec 2)
  /-- NOTICE_WRITE (R153). -/
  | noticeWrite (value : Word)
  /-- NOTICE_EN_WRITE (R154). -/
  | noticeEnWrite (value : Word)
  /-- REGISTER_WRITE (R167): a host write at a word address of the 14-bit port. -/
  | registerWrite (address : BitVec 14) (value : Word)
  /-- POWER_ON_RESET (R168): the supply rises. -/
  | powerOnReset
  /-- POWER_ON_RESET_END (R168): the clock is running. -/
  | powerOnResetEnd
  /-- PIN_RESET (R169): the RESET line goes low. -/
  | pinReset
  /-- PIN_RESET_END (R169): the RESET line returns high. -/
  | pinResetEnd
  /-- STATUS_RESET_WRITE_END (R168, R169, R170). -/
  | statusResetWriteEnd
  /-- LOAD_EVENT (R8). -/
  | loadEvent (ch : ChannelId)
  /-- PLAN_FETCH_END (R19). -/
  | planFetchEnd (ch : ChannelId)
  /-- PEAK_EVENT (R9). -/
  | peakEvent (ch : ChannelId)
  /-- VECTOR_COMPUTATION_END (R38). -/
  | vectorComputationEnd (ch : ChannelId)
  /-- PLACEMENT_RUN_END (R53). -/
  | placementRunEnd (ch : ChannelId)
  /-- LEG_EDGE (R78): the start or the end of this leg's pulse. -/
  | legEdge (ch : ChannelId) (leg : Leg) (edge : PulseEdge)
  /-- PENDING_TURN_ON (R77). -/
  | pendingTurnOn (ch : ChannelId) (leg : Leg)
  /-- ENTRY_DUE (R93): the due time of this channel's entry of this kind. -/
  | entryDue (ch : ChannelId) (kind : RequestKind)
  /-- CONVERSION_COMPLETE (R89): the converter delivers this raw code. -/
  | conversionComplete (cv : Converter) (raw : BitVec 12)
  /-- ENTRY_MISSED (R96). -/
  | entryMissed (ch : ChannelId) (kind : RequestKind)
  /-- FAULT_LINE_CHANGE (R86): the line takes this level (true is high). -/
  | faultLineChange (line : FaultLine) (level : Bool)
  /-- FAULT_FILTER_EXPIRY (R87). -/
  | faultFilterExpiry (line : FaultLine)
  /-- HALL_LINE_CHANGE (R135): the raw code 4·HA + 2·HB + HC takes this value. -/
  | hallLineChange (code : BitVec 3)
  /-- HALL_FILTER_EXPIRY (R139). -/
  | hallFilterExpiry
  /-- POLL (R157). -/
  | poll
  /-- CAPTURE_COPY_END (R160). -/
  | captureCopyEnd
  /-- RECORD_TAKE (R146) for this channel's log. -/
  | recordTake (ch : ChannelId)
  /-- RECORD_WRITE_END (R146) for this channel's log. -/
  | recordWriteEnd (ch : ChannelId)
  deriving DecidableEq, Repr

end Sys2Proof
end

