-- ==== Sys2Proof/Decode.lean ====
section
/-! DEFINITION. The command a word spells by the bits of spec/opcode_table.json. The table gives no row
any bits (every row's "fields" is empty and none has a "fixed"), so no word spells a command. CMD's own
fields are read by `Sys2Proof.Machine.writeCmd` and `Sys2Proof.Machine.portWrite`. -/

namespace Sys2Proof

/-- No row of the table gives bits, so no word is a command's.
DESIGN CHOICE, notes/assumptions/4.md. -/
def decodeTableWord (_nbits _w : Nat) : Option Instr := none

end Sys2Proof
end

