-- ==== Sys2Proof/Config.lean ====
section
/-! DEFINITION. The constants the manual fixes and the free values it leaves open. A free value is a
constant with no body, applied to the model's own counter `freeIndex`: nothing can be proved of it. -/

namespace Sys2Proof.Config

/-- Tc, the conversion time in half-ticks (R89). -/
def conversionTime : Nat := 128

/-- The poll interval of the capture unit in half-ticks (R156). -/
def pollInterval : Nat := 32768

/-- How long a fault line must hold a level: 2 ticks, 4 half-ticks (R86). -/
def faultPersistence : Nat := 4

/-- Where the elapsed and run measures of the Hall timer stop: 65535·64 half-ticks (R138). -/
def measureLimit : Nat := 4194240

/-- The number of places of the request list (R90). -/
def requestPlaces : Nat := 12

/-- A piece of work whose end the manual bounds but does not date. -/
inductive Work where
  | lockCopy
  | statusWrite
  | planFetch (ch : ChannelId)
  | vectorComputation (ch : ChannelId)
  | placementRun (ch : ChannelId)
  | recordWrite (ch : ChannelId)
  | captureCopy
  deriving DecidableEq, Repr

/-- FREE VALUE: whether a piece of work in progress ends at the present instant, within its bound.
DESIGN CHOICE, notes/assumptions/5.md. -/
opaque workEnds : Work → Nat → Bool

/-- FREE VALUE: which of several events due at one instant is taken next.
DESIGN CHOICE, notes/assumptions/6.md. -/
opaque pick : Nat → Nat

/-- FREE VALUE: which of two effects of one instant that the manual lets come in either order is first.
DESIGN CHOICE, notes/assumptions/15.md. -/
opaque takenFirst : Nat → Bool

/-- FREE VALUE: whether LOV is evaluated before LUN from one link code.
DESIGN CHOICE, notes/assumptions/22.md. -/
opaque lovFirst : Nat → Bool

/-- FREE VALUE: how many more words a running copy or fetch has read before a host write is taken.
DESIGN CHOICE, notes/assumptions/12.md. -/
opaque wordsRead : Nat → Nat

/-- FREE VALUE: which words of a writing in progress have reached the exchange RAM.
DESIGN CHOICE, notes/assumptions/13.md. -/
opaque wordWritten : Nat → Nat → Bool

/-- FREE VALUE: the raw code a converter delivers for an input, when the outside world is not given.
DESIGN CHOICE, notes/assumptions/14.md. -/
opaque inputCode : Nat → Nat → BitVec 12

end Sys2Proof.Config
end

