-- ==== Sys2Proof/Machine/State.lean ====
section
/-! DEFINITION. The state of the part as plain data, block by block, and its value after reset. -/

namespace Sys2Proof.Machine

open Sys2Proof

/-! ### One value per channel, per leg, per kind -/

/-- One value for each channel. -/
structure PerChannel (α : Type) where
  ch0 : α
  ch1 : α
  ch2 : α
  deriving DecidableEq, Repr

/-- One value for each leg of a channel. -/
structure PerLeg (α : Type) where
  a : α
  b : α
  c : α
  deriving DecidableEq, Repr

/-- One value for each kind of sampling request. -/
structure PerKind (α : Type) where
  first : α
  second : α
  zero : α
  link : α
  deriving DecidableEq, Repr

/-! ### Plans (Chapter 2) -/

/-- The three states of a channel (section 1.6). -/
inductive ChannelState where
  | off
  | running
  | floated
  deriving DecidableEq, Repr

/-- The four plan modes (R35). -/
inductive Mode where
  | coast
  | brake
  | align
  | rotate
  deriving DecidableEq, Repr

/-- A plan in force: the fields of R18 inside their working ranges. -/
structure Plan where
  generation : Word
  mode : Mode
  setAngle : Bool
  snap : Bool
  inject : Bool
  modulus : Nat
  /-- V_t -/
  target : Nat
  /-- σ -/
  slew : Nat
  /-- ω -/
  rate : Int
  angle : Angle
  /-- Δθ -/
  adjust : Int
  guardHigh : Nat
  guardLow : Nat
  /-- R -/
  interval : Nat
  injectFirst : Int
  injectSecond : Int
  deriving DecidableEq, Repr

/-- The null plan with this modulus (R34). -/
def Plan.null (modulus : Nat) : Plan :=
  { generation := 0, mode := .coast, setAngle := false, snap := false, inject := false,
    modulus := modulus, target := 0, slew := 0, rate := 0, angle := 0, adjust := 0,
    guardHigh := 0, guardLow := 0, interval := 1, injectFirst := 0, injectSecond := 0 }

/-- A multi-word read of the exchange RAM in progress: the addresses still to read, in their order, and
the words read so far, in the order read (R19, R164). `since` is when it began. -/
structure WordReader where
  since : RefCount
  todo : List Nat
  got : List Word
  deriving DecidableEq, Repr

/-- A plan fetch in flight (R19), with the period whose load event started it (R24). -/
structure Fetch where
  period : BitVec 32
  reader : WordReader
  deriving DecidableEq, Repr

/-! ### Edge sets (R5) -/

/-- The drive of a leg in an edge set. A pulse holds its turn-on and turn-off positions. -/
inductive Drive where
  | pulse (start stop : Nat)
  | high
  | low
  | float
  deriving DecidableEq, Repr

/-- A leg's drive as the vector unit hands it to placement (R38, R49). -/
inductive LegDemand where
  | pulse (width : Nat)
  | high
  | low
  | float
  deriving DecidableEq, Repr

/-- The six leg orders of R54, each named max, mid, min. -/
inductive LegOrder where
  | abc
  | acb
  | bac
  | bca
  | cab
  | cba
  deriving DecidableEq, Repr

/-- The outcomes of a window (R64), and MISSED, which the arbiter may put in place of OK (R96). -/
inductive WindowOutcome where
  | ok
  | failedShort
  | failedLate
  | missed
  | absent
  deriving DecidableEq, Repr

/-- A sampling request of an edge set: positions in half-ticks (R5). -/
structure Request where
  kind : RequestKind
  due : Nat
  deadline : Nat
  deriving DecidableEq, Repr

/-- The vector values that travel with an edge set (R50). -/
structure VectorValues where
  thetaMid : Angle
  va : Nat
  u : PerLeg Int
  slewing : Bool
  deriving DecidableEq, Repr

/-- An edge set (R5). -/
structure EdgeSet where
  modulus : Nat
  drives : PerLeg Drive
  order : LegOrder
  s1 : Nat
  s2 : Nat
  first : WindowOutcome
  second : WindowOutcome
  requests : List Request
  vector : VectorValues
  deriving DecidableEq, Repr

/-! ### Vector unit and placement in progress -/

/-- The effective override of a channel (R119). -/
inductive Override where
  | none
  | zero
  | brake
  deriving DecidableEq, Repr

/-- A peak computation in progress: what it read at the peak (R38), and whether V_a has been set to 0
since (R41). -/
structure Computation where
  since : RefCount
  period : BitVec 32
  plan : Plan
  state : ChannelState
  override : Override
  hold : Bool
  theta : Angle
  q : BitVec 16
  va : Nat
  pendingAngle : Option Angle
  metric : Option Nat
  zeroed : Bool
  deriving DecidableEq, Repr

/-- A placement run in progress: what it received (R52). -/
structure PlacementRun where
  since : RefCount
  period : BitVec 32
  modulus : Nat
  demands : PerLeg LegDemand
  vector : VectorValues
  deriving DecidableEq, Repr

/-! ### Leg stage (Chapter 5) -/

/-- The two sides of a leg. -/
inductive Side where
  | high
  | low
  deriving DecidableEq, Repr

/-- A pending turn-on: the side and the reference count at which it turns on (section 5.2). -/
structure PendingTurnOn where
  side : Side
  instant : RefCount
  deriving DecidableEq, Repr

/-- The state of a leg: its two gates and at most one pending turn-on (section 5.2). -/
structure LegState where
  high : Bool
  low : Bool
  pending : Option PendingTurnOn
  deriving DecidableEq, Repr

/-- Both gates off and nothing pending. -/
def LegState.idle : LegState := { high := false, low := false, pending := none }

/-! ### Converter arbiter (Chapter 6) -/

/-- An entry of the request list (R90). Its input follows from its channel and kind (R88). -/
structure Entry where
  channel : ChannelId
  kind : RequestKind
  due : RefCount
  deadline : RefCount
  period : BitVec 32
  deriving DecidableEq, Repr

/-- A conversion in progress (R88). `discard` is set when its channel is stopped while it runs (R97). -/
structure Conversion where
  entry : Entry
  start : RefCount
  discard : Bool
  deriving DecidableEq, Repr

/-- What the arbiter reports of an entry that left the list (R100); a result adds raw and corrected code. -/
inductive Report where
  | started (cv : Converter) (start : RefCount) (lateness : Nat) (codes : Option (Nat × Nat))
  | missed
  | withdrawn
  deriving DecidableEq, Repr

/-! ### Conditioner (Chapter 7) -/

/-- A window sample with its corrected code (R107). -/
structure Sample where
  value : Int
  corrected : Nat
  deriving DecidableEq, Repr

/-- A zero sample: accepted or rejected, with the corrected code (R105). -/
structure ZeroSample where
  accepted : Bool
  code : Nat
  deriving DecidableEq, Repr

/-- The open-period buffer of a channel (R108). -/
structure PeriodBuffer where
  first : Option Sample
  second : Option Sample
  zero : Option ZeroSample
  link : Option Nat
  reports : PerKind (Option Report)
  deriving DecidableEq, Repr

/-- The buffer at the load event that opens a period (R108). -/
def PeriodBuffer.empty : PeriodBuffer :=
  { first := none, second := none, zero := none, link := none,
    reports := { first := none, second := none, zero := none, link := none } }

/-- A reconstructed current and its saturation mark (R112). -/
structure Current where
  value : Int
  saturated : Bool
  deriving DecidableEq, Repr

/-- A closed period as the conditioner hands it on (R115). -/
structure ClosedPeriod where
  number : BitVec 32
  loadTime : RefCount
  plan : Plan
  set : EdgeSet
  currents : PerLeg (Option Current)
  saturated : Bool
  injected : Bool
  metric : Option Nat
  zeroLevel : Nat
  zero : Option ZeroSample
  link : Option Nat
  reports : PerKind (Option Report)
  deriving DecidableEq, Repr

/-! ### Limit monitor (Chapter 8) -/

/-- One instance of a condition: asserted state, filter count and assertion count (R117, R132). -/
structure Condition where
  asserted : Bool
  count : Nat
  assertions : Word
  deriving DecidableEq, Repr

/-- Not asserted, all counts 0. -/
def Condition.clear : Condition := { asserted := false, count := 0, assertions := 0 }

/-- The four actions of a condition (R118). -/
inductive Action where
  | note
  | zero
  | brake
  | float
  deriving DecidableEq, Repr

/-- The fourteen condition instances (R117). -/
inductive ConditionId where
  | cur (ch : ChannelId)
  | zer (ch : ChannelId)
  | age (ch : ChannelId)
  | hal
  | lov
  | lun
  | fl0
  | fl1
  deriving DecidableEq, Repr

/-! ### Logs (Chapter 10) -/

/-- The event codes (R151). -/
inductive EventCode where
  | started
  | stopped
  | resumed
  | floated
  | conditionAsserted
  | conditionReleased
  | planRefused
  | hallSkip
  deriving DecidableEq, Repr

/-- An event record as a block hands it to the log writer (R151). -/
structure EventRecord where
  code : EventCode
  periodCount : BitVec 32
  condition : Nat
  value : Int
  action : Nat
  extra : Word
  state : ChannelState
  deriving DecidableEq, Repr

/-- A record handed to the log writer. -/
inductive LogItem where
  | period (p : ClosedPeriod)
  | event (e : EventRecord)
  deriving DecidableEq, Repr

/-- A record being written: its first word address and its 16 words (R146), and the code of an event record, none for a
period record. `kept` holds the addresses of its words that the part had written when a host write came: the host's word
stays there (R171). -/
structure LogWrite where
  since : RefCount
  place : Nat
  words : List Word
  event : Option EventCode
  kept : List Nat := []
  deriving DecidableEq, Repr

/-- The log writer's state for one channel (R155). `waiting` holds the records handed and not yet taken. -/
structure Log where
  /-- W -/
  written : Word
  /-- Rl_valid -/
  releaseValid : Word
  badRelease : Bool
  eventLost : Bool
  /-- group count: periods with a window not OK (R149) -/
  groupNotOk : Nat
  /-- group count: missed conversions (R149) -/
  groupMissed : Nat
  waiting : List LogItem
  writing : Option LogWrite
  deriving DecidableEq, Repr

/-- A log after each kind of reset (R155). -/
def Log.reset : Log :=
  { written := 0, releaseValid := 0, badRelease := false, eventLost := false,
    groupNotOk := 0, groupMissed := 0, waiting := [], writing := none }

/-- The ten counters of a channel (R162). -/
structure Counters where
  periods : Word
  acceptedPlans : Word
  refusedPlans : Word
  tornReads : Word
  shiftedPeriods : Word
  failedWindows : Word
  missedConversions : Word
  droppedRecords : Word
  hallSkips : Word
  hallSnaps : Word
  deriving DecidableEq, Repr

/-- Every counter at 0 (R162). -/
def Counters.zero : Counters :=
  { periods := 0, acceptedPlans := 0, refusedPlans := 0, tornReads := 0, shiftedPeriods := 0,
    failedWindows := 0, missedConversions := 0, droppedRecords := 0, hallSkips := 0, hallSnaps := 0 }

/-! ### A channel -/

/-- All the state the part holds for one channel. -/
structure Channel where
  -- channel controller (R17)
  state : ChannelState
  floatedLatch : Bool
  resumeHold : Bool
  /-- the timebase counter is counting down (R1); the counter itself is read by `timebaseCounter` -/
  falling : Bool
  periodCount : BitVec 32
  loadTime : RefCount
  staged : Option EdgeSet
  inForce : Option EdgeSet
  plan : Plan
  lastSeen : Word
  fetch : Option Fetch
  planAge : Nat
  clampedMark : Bool
  -- vector unit (R37, R51)
  theta : Angle
  q : BitVec 16
  va : Nat
  pendingAngle : Option Angle
  computation : Option Computation
  -- window placement (R52, R53)
  placement : Option PlacementRun
  -- leg stage (section 5.2, R83)
  legs : PerLeg LegState
  brakeHold : Bool
  -- conditioner (section 7.1)
  z8 : Nat
  lastMetric : Option Nat
  buffer : PeriodBuffer
  -- limit monitor, the channel's own conditions (R117)
  cur : Condition
  zer : Condition
  age : Condition
  -- counters and log
  counters : Counters
  log : Log
  deriving DecidableEq, Repr

/-- A channel after each kind of reset, its null plan with this modulus (R17, R51, R75, R116, R133, R155,
R162). The load time is the model's choice.
DESIGN CHOICE, notes/assumptions/9.md. -/
def Channel.reset (modulus : Nat) : Channel :=
  { state := .off, floatedLatch := false, resumeHold := false, falling := false,
    periodCount := 0, loadTime := 0, staged := none, inForce := none,
    plan := Plan.null modulus, lastSeen := 0, fetch := none, planAge := 0, clampedMark := false,
    theta := 0, q := 0, va := 0, pendingAngle := none, computation := none, placement := none,
    legs := { a := .idle, b := .idle, c := .idle }, brakeHold := false,
    z8 := 16384, lastMetric := none, buffer := .empty,
    cur := .clear, zer := .clear, age := .clear, counters := .zero, log := .reset }

/-! ### Fault lines and the Hall timer -/

/-- A fault line: its level at the pin (true is high), its filtered level (true is asserted), and the start
of the measure in progress (R86). -/
structure FaultFilter where
  level : Bool
  filtered : Bool
  since : Option RefCount
  deriving DecidableEq, Repr

/-- The classifications of an accepted transition (R137); `back` is RETURN. -/
inductive Direction where
  | none
  | forward
  | reverse
  | skip
  | invalid
  | back
  deriving DecidableEq, Repr

/-- A pending run of the Hall filter (section 9.1). -/
structure HallRun where
  first : RefCount
  last : RefCount
  measure : Nat
  deriving DecidableEq, Repr

/-- The Hall timer (section 9.1). `acquiring` is the instant from which the acquisition measures (R136). -/
structure HallTimer where
  raw : BitVec 3
  accepted : Option (BitVec 3)
  acquiring : Option RefCount
  run : Option HallRun
  refSector : Option Nat
  lastTransition : Option RefCount
  elapsed : Nat
  direction : Direction
  interval : Nat
  snapError : Option Int
  deriving DecidableEq, Repr

/-- The Hall timer after a reset, with the lines at this raw code (R144). -/
def HallTimer.reset (raw : BitVec 3) : HallTimer :=
  { raw := raw, accepted := none, acquiring := none, run := none, refSector := none,
    lastTransition := none, elapsed := 0, direction := .none, interval := 65535, snapError := none }

/-! ### Capture unit (Chapter 11) -/

/-- The condition of the capture unit. -/
inductive CaptureMode where
  | idle
  | armed
  | copying
  deriving DecidableEq, Repr

/-- The capture filters (section 11.1). -/
inductive CaptureFilter where
  | any
  | shifted
  | failed
  | condition
  deriving DecidableEq, Repr

/-- A condition change held by the working buffer (R158). -/
structure ConditionChange where
  identifier : Nat
  assertion : Bool
  value : Int
  action : Nat
  deriving DecidableEq, Repr

/-- What the working buffer gathers of a followed period before its close (R158): condition changes in their
order (the first eight are kept, as the capture area holds no more, and whether any was an assertion), their
number saturating at 255, up to four Hall transitions and the number of further ones saturating at 255.
DEDUCED, notes/assumptions/30.md. -/
structure CaptureBuffer where
  changes : List ConditionChange
  changeCount : Nat
  assertionSeen : Bool
  hall : List (RefCount × BitVec 3)
  hallFurther : Nat
  deriving DecidableEq, Repr

/-- The buffer at the load event that opens a followed period. -/
def CaptureBuffer.empty : CaptureBuffer :=
  { changes := [], changeCount := 0, assertionSeen := false, hall := [], hallFurther := 0 }

/-- A copy in progress: the words of the capture area from 0x0201 on (R160). `kept` is as for a record (R171). -/
structure CaptureCopy where
  since : RefCount
  words : List Word
  kept : List Nat := []
  deriving DecidableEq, Repr

/-- The capture unit (Chapter 11). `following` is the working buffer of the followed period, if one is. -/
structure CaptureUnit where
  mode : CaptureMode
  generation : Word
  channel : ChannelId
  filter : CaptureFilter
  skip : Nat
  lastServed : Word
  following : Option CaptureBuffer
  nextPoll : Option RefCount
  copy : Option CaptureCopy
  deriving DecidableEq, Repr

/-- The capture unit after a reset (R161); the armed values are the model's choice while it is IDLE.
DESIGN CHOICE, notes/assumptions/9.md. -/
def CaptureUnit.reset (nextPoll : Option RefCount) : CaptureUnit :=
  { mode := .idle, generation := 0, channel := .ch0, filter := .any, skip := 1, lastServed := 0,
    following := none, nextPoll := nextPoll, copy := none }

/-! ### Command port -/

/-- The result codes of CMD (R166). -/
inductive CmdResult where
  | none
  | done
  | inProgress
  | notLocked
  | wrongState
  | conditionPresent
  | setupInvalid
  | notEnabled
  | unknown
  deriving DecidableEq, Repr

/-- What CMD reads: the last result with its command code and channel (R166). -/
structure Cmd where
  result : CmdResult
  command : BitVec 4
  channel : BitVec 2
  deriving DecidableEq, Repr

/-- Which reset the writing of the status block's reset values follows. -/
inductive ResetKind where
  | powerOn
  | pin
  | soft
  deriving DecidableEq, Repr

/-- The writing of the status block's reset values in progress (R168 to R170), with the status words that it leaves as
they are: those that other blocks have written since the reset, and those that the host has written after it. -/
structure StatusWrite where
  kind : ResetKind
  since : RefCount
  touched : List Nat
  deriving DecidableEq, Repr

/-! ### The exchange RAM -/

/-- The exchange RAM: the words that are not 0, by rising word address. An unlisted word reads 0, which is
what a power-on reset leaves in every word (R168).
DESIGN CHOICE, notes/assumptions/7.md. -/
abbrev Memory := List (Nat × Word)

/-! ### The part -/

/-- All the state of the part. -/
structure Device where
  /-- the reference count (R3) -/
  refCount : RefCount
  /-- a power-on reset is in progress (R168) -/
  powerOn : Bool
  /-- the RESET line is low: a pin reset is held (R169) -/
  resetLow : Bool
  statusWrite : Option StatusWrite
  -- register set and command port (Chapter 12)
  cmd : Cmd
  setupErrorCode : BitVec 4
  setupErrorChannel : BitVec 2
  /-- the LOCK in progress: the copy of the setup words (R164) -/
  lockRun : Option WordReader
  /-- the locked setup copy, 128 words, or none while the part is not locked (R163) -/
  setup : Option (List Word)
  /-- NOTICE: thirteen bits (R153) -/
  notice : BitVec 13
  /-- NOTICE_EN (R154) -/
  noticeEn : BitVec 13
  ram : Memory
  /-- the gate outputs are driven (true) or high-impedance (false) (R75) -/
  outputsDriven : Bool
  -- fault lines and Hall timer
  flt0 : FaultFilter
  flt1 : FaultFilter
  hall : HallTimer
  -- channels
  channels : PerChannel Channel
  -- converter arbiter
  requests : List Entry
  cva : Option Conversion
  cvb : Option Conversion
  -- limit monitor: HAL of CH0 and the global conditions
  hal : Condition
  lov : Condition
  lun : Condition
  fl0 : Condition
  fl1 : Condition
  capture : CaptureUnit
  /-- the MODEL's own counter, to which the free values of `Config` are applied
  DESIGN CHOICE, notes/assumptions/10.md. -/
  freeIndex : Nat
  deriving DecidableEq, Repr

/-- The state of the machine: the part, and the commands and events waiting, first in, first out. -/
structure State extends Device where
  pending : List Instr
  deriving DecidableEq, Repr

/-- Why the machine stops. The manual names no fault that stops the part, and no command of it is left
without an effect, so no command raises one. -/
inductive Fault where
  /-- Raised by nothing: the manual gives every command of the table an effect. Safe: no run ends in it. -/
  | unreachable
  deriving DecidableEq, Repr

/-- Why a command is refused. -/
inductive Refusal where
  /-- Raised by `exec` for a command that has no meaning yet. Safe: the run stops. No arm raises it now. -/
  | notModelled (mnemonic : String)
  deriving DecidableEq, Repr

/-- The status words whose reset value is not 0 (R171). -/
def resetStatusWords : Memory :=
  [(0x0107, 2048), (0x0116, 0xFFFF), (0x0117, 0xFFFF), (0x0119, 0xFFFF), (0x0147, 2048), (0x0187, 2048)]

/-- The part once a power-on reset has ended and the status block's reset values are written: READY is high,
nothing is locked, every block holds its power-on values.
DESIGN CHOICE, notes/assumptions/8.md. -/
def Device.initial : Device :=
  { refCount := 0, powerOn := false, resetLow := false, statusWrite := none,
    cmd := { result := .none, command := 0, channel := 0 },
    setupErrorCode := 0, setupErrorChannel := 0, lockRun := none, setup := none,
    notice := 0, noticeEn := 0, ram := resetStatusWords, outputsDriven := false,
    flt0 := { level := true, filtered := false, since := none },
    flt1 := { level := true, filtered := false, since := none },
    hall := HallTimer.reset 0,
    channels := { ch0 := Channel.reset 0, ch1 := Channel.reset 0, ch2 := Channel.reset 0 },
    requests := [], cva := none, cvb := none,
    hal := .clear, lov := .clear, lun := .clear, fl0 := .clear, fl1 := .clear,
    capture := CaptureUnit.reset none, freeIndex := 0 }

/-- The machine right after reset: the part after a power-on reset, and no command waiting. -/
def State.reset : State := { Device.initial with pending := [] }

end Sys2Proof.Machine
end

