-- ==== Sys2Proof/Machine/Operands.lean ====
section
/-! DEFINITION. How the part reads the words the host writes: the fields of the setup copy and its checks
(R163, R165), of a plan slot (R18), of the capture request (R156), and the codes of the shared formats (R171). -/

namespace Sys2Proof.Machine

open Sys2Proof

/-! ### Access by channel, leg and kind -/

def PerChannel.get {α : Type} (v : PerChannel α) : ChannelId → α
  | .ch0 => v.ch0
  | .ch1 => v.ch1
  | .ch2 => v.ch2

def PerChannel.set {α : Type} (v : PerChannel α) (c : ChannelId) (x : α) : PerChannel α :=
  match c with
  | .ch0 => { v with ch0 := x }
  | .ch1 => { v with ch1 := x }
  | .ch2 => { v with ch2 := x }

def PerLeg.get {α : Type} (v : PerLeg α) : Leg → α
  | .a => v.a
  | .b => v.b
  | .c => v.c

def PerLeg.set {α : Type} (v : PerLeg α) (l : Leg) (x : α) : PerLeg α :=
  match l with
  | .a => { v with a := x }
  | .b => { v with b := x }
  | .c => { v with c := x }

def PerLeg.map {α β : Type} (f : α → β) (v : PerLeg α) : PerLeg β :=
  { a := f v.a, b := f v.b, c := f v.c }

def PerKind.get {α : Type} (v : PerKind α) : RequestKind → α
  | .first => v.first
  | .second => v.second
  | .zero => v.zero
  | .link => v.link

def PerKind.set {α : Type} (v : PerKind α) (k : RequestKind) (x : α) : PerKind α :=
  match k with
  | .first => { v with first := x }
  | .second => { v with second := x }
  | .zero => { v with zero := x }
  | .link => { v with link := x }

/-- The channels in the order CH0, CH1, CH2. -/
def allChannels : List ChannelId := [.ch0, .ch1, .ch2]

/-- The number n of CHn. -/
def channelIndex : ChannelId → Nat
  | .ch0 => 0
  | .ch1 => 1
  | .ch2 => 2

/-! ### Words as numbers -/

/-- The n bits of x from bit lo up. -/
def bitField (x lo n : Nat) : Nat := x / 2 ^ lo % 2 ^ n

/-- Bit k of x. -/
def bitSet (x k : Nat) : Bool := bitField x k 1 == 1

/-- A word of a list of words, as the number it holds. -/
def wordNat (words : List Word) (i : Nat) : Nat := (words.getD i 0).toNat

/-- A word of a list of words, read as two's complement (R171). -/
def wordInt (words : List Word) (i : Nat) : Int := (words.getD i 0).toInt

/-- A number as a word, signed or not. -/
def wordOf (x : Int) : Word := BitVec.ofInt 16 x

/-! ### The setup copy (R163, section 12.5) -/

/-- The settings of one channel's group of the setup block. -/
structure ChannelSetup where
  enabled : Bool
  link : Bool
  highActiveLow : Bool
  lowActiveLow : Bool
  m0 : Nat
  d : Nat
  wwin : Nat
  a : Nat
  lw : Nat
  kz : Nat
  zlo : Nat
  zhi : Nat
  level : Nat
  curLimit : Nat
  curH : Nat
  curF : Nat
  zerF : Nat
  curAction : Nat
  zerAction : Nat
  ageAction : Nat
  lovAction : Nat
  lunAction : Nat
  halAction : Nat
  amax : Nat
  deriving DecidableEq, Repr

/-- First word of a channel's group of the setup block (R163). -/
def setupBase : ChannelId → Nat
  | .ch0 => 0x00
  | .ch1 => 0x20
  | .ch2 => 0x40

/-- The fields of a channel's group, at the offsets and widths of section 12.5 (R163, R171). -/
def channelSetup (words : List Word) (c : ChannelId) : ChannelSetup :=
  let w := fun k => wordNat words (setupBase c + k)
  { enabled := bitSet (w 0) 0, link := bitSet (w 0) 1,
    highActiveLow := bitSet (w 0) 2, lowActiveLow := bitSet (w 0) 3,
    m0 := w 1, d := w 2, wwin := w 3, a := w 4, lw := w 5, kz := bitField (w 6) 0 8,
    zlo := w 7, zhi := w 8, level := w 9,
    curLimit := w 10, curH := bitField (w 11) 0 10,
    curF := bitField (w 12) 0 4, zerF := bitField (w 12) 4 4,
    curAction := bitField (w 13) 0 4, zerAction := bitField (w 13) 4 4,
    ageAction := bitField (w 13) 8 4, lovAction := bitField (w 13) 12 4,
    lunAction := bitField (w 14) 0 4, halAction := bitField (w 14) 4 4,
    amax := w 15 }

/-- The global group of the setup block, from word 0x60 (section 12.5). -/
structure GlobalSetup where
  lovLimit : Nat
  lovH : Nat
  lovF : Nat
  lunLimit : Nat
  lunH : Nat
  lunF : Nat
  deriving DecidableEq, Repr

def globalSetup (words : List Word) : GlobalSetup :=
  { lovLimit := wordNat words 0x64, lovH := bitField (wordNat words 0x65) 0 10,
    lovF := bitField (wordNat words 0x66) 0 4,
    lunLimit := wordNat words 0x67, lunH := bitField (wordNat words 0x68) 0 10,
    lunF := bitField (wordNat words 0x69) 0 4 }

/-- The gain trim G of input INi (section 12.5). -/
def gainTrim (words : List Word) (input : Nat) : Nat := wordNat words (0x60 + input)

/-- Bit n of the mask of a fault line maps channel n (section 12.5). -/
def faultMapped (words : List Word) (line : FaultLine) (c : ChannelId) : Bool :=
  match line with
  | .flt0 => bitSet (wordNat words 0x6A) (channelIndex c)
  | .flt1 => bitSet (wordNat words 0x6B) (channelIndex c)

/-- Th, in units of 128 half-ticks (R134). -/
def hallTh (words : List Word) : Nat := bitField (wordNat words 16) 0 8

/-- The filter time of the Hall timer in half-ticks (R135). -/
def hallHold (words : List Word) : Nat := hallTh words * 128

/-- Csnap (R134). -/
def hallCsnap (words : List Word) : Nat := bitField (wordNat words 17) 0 12

/-- The sector of a Hall code, or none for INVALID (R134, section 12.5). -/
def hallSector (words : List Word) (code : BitVec 3) : Option Nat :=
  let s := wordNat words (18 + code.toNat)
  if s ≤ 5 then some s else none

/-- The boundary angle b[i] (R134). -/
def hallBoundary (words : List Word) (i : Nat) : Angle := words.getD (26 + i) 0

/-- The records a channel's log holds (section 10.1). -/
def logCapacity : ChannelId → Nat
  | .ch0 => 128
  | .ch1 => 64
  | .ch2 => 64

/-- The first word of a channel's log (section 10.1). -/
def logBase : ChannelId → Nat
  | .ch0 => 0x0800
  | .ch1 => 0x1000
  | .ch2 => 0x1400

/-- How often sector s stands in the sector table. -/
def sectorUses (words : List Word) (s : Nat) : Nat :=
  ((List.range 8).filter (fun k => wordNat words (18 + k) == s)).length

/-- Whether check `code` of R165 fails for a channel. -/
def checkFails (words : List Word) (code : Nat) (c : ChannelId) : Bool :=
  let g := channelSetup words c
  match code with
  | 1 => g.d % 2 == 1 || g.d < 2 || 1022 < g.d
  | 2 => g.a < 8 || 511 < g.a
  | 3 => g.wwin < 32 || 2047 < g.wwin || g.wwin ≤ g.d + g.a
  | 4 => g.a < g.lw + 1
  | 5 => g.zhi < g.zlo
  | 6 => g.curAction == 2
  | 7 => 3 < g.curAction || 3 < g.zerAction || 3 < g.ageAction || 3 < g.lovAction || 3 < g.lunAction ||
      (c == .ch0 && 3 < g.halAction)
  | 8 => c == .ch0 && !(List.range 6).all (fun s => sectorUses words s == 1)
  | 9 => g.level < 1 || logCapacity c < g.level
  | 10 => g.m0 < 250 || 16000 < g.m0
  | _ => false

/-- The codes of the checks, in the order of R165. -/
def checkCodes : List Nat := [1, 2, 3, 4, 5, 6, 7, 8, 9, 10]

/-- The first failing check and the first channel that fails it (R165), or none. -/
def setupError (words : List Word) : Option (Nat × ChannelId) :=
  checkCodes.findSome? fun k =>
    allChannels.findSome? fun c => if checkFails words k c then some (k, c) else none

/-! ### Plan slots (R18, section 12.5) -/

/-- First word of a channel's plan slot (R171). -/
def slotBase : ChannelId → Nat
  | .ch0 => 0x80
  | .ch1 => 0xA0
  | .ch2 => 0xC0

/-- The addresses of a slot in the order a fetch reads them: the tail, the words between in ascending order,
the head (R19). -/
def fetchOrder (c : ChannelId) : List Nat :=
  (slotBase c + 31) :: ((List.range 30).map fun k => slotBase c + 1 + k) ++ [slotBase c]

/-- Where word `offset` of the slot stands among the words a fetch has read. -/
def fetchIndex (offset : Nat) : Nat :=
  if offset = 31 then 0 else if offset = 0 then 31 else offset

/-- The words of a slot by offset, from the words a fetch read in its order. -/
def slotWords (got : List Word) : List Word :=
  (List.range 32).map fun k => got.getD (fetchIndex k) 0

/-- The modes by code (R18); a code above 3 names none. -/
def Mode.ofCode : Nat → Option Mode
  | 0 => some .coast
  | 1 => some .brake
  | 2 => some .align
  | 3 => some .rotate
  | _ => none

/-- x limited to lo..hi. -/
def clampInt (lo hi x : Int) : Int := if x < lo then lo else if hi < x then hi else x

/-- The two guards after R26: each at most 4095, then guard low at most guard high. -/
def clampGuards (high low : Nat) : Nat × Nat :=
  let h := min high 4095
  (h, min (min low 4095) h)

/-- The record interval after R26. -/
def clampInterval (r : Nat) : Nat := if r = 0 then 1 else min r 64

/-- The plan of a slot after the clamps of R26. The slot's mode is one of the four. -/
def clampedPlan (slot : List Word) (mode : Mode) : Plan :=
  let w := wordNat slot
  { generation := slot.getD 0 0
    mode := mode
    setAngle := bitSet (w 2) 0
    snap := bitSet (w 2) 1
    inject := bitSet (w 2) 2
    modulus := w 3
    target := min (w 4) 32767
    slew := min (w 5) 32767
    rate := clampInt (-8191) 8191 (wordInt slot 6)
    angle := slot.getD 7 0
    adjust := wordInt slot 8
    guardHigh := (clampGuards (w 9) (w 10)).1
    guardLow := (clampGuards (w 9) (w 10)).2
    interval := clampInterval (w 11)
    injectFirst := clampInt (-4095) 4095 (wordInt slot 12)
    injectSecond := clampInt (-4095) 4095 (wordInt slot 13) }

/-- Whether a slot needs one of the clamps of R26. -/
def needsClamp (slot : List Word) (plan : Plan) : Bool :=
  plan.target != wordNat slot 4 || plan.slew != wordNat slot 5 || plan.rate != wordInt slot 6 ||
    plan.guardHigh != wordNat slot 9 || plan.guardLow != wordNat slot 10 ||
    plan.interval != wordNat slot 11 ||
    plan.injectFirst != wordInt slot 12 || plan.injectSecond != wordInt slot 13

/-- The refusal reasons of R23, tried in its order, on the fields before any clamping; or the plan's mode. -/
def planCheck (g : ChannelSetup) (slot : List Word) : Except Nat Mode :=
  match Mode.ofCode (wordNat slot 1) with
  | none => .error 1
  | some m =>
    let modulus := wordNat slot 3
    if modulus < 250 || 16000 < modulus then .error 2
    else if 4 * modulus / 2 < 2 * g.wwin + 2 * g.d then .error 3
    else .ok m

/-- The five outcomes of a fetch (R20 to R25). -/
inductive FetchOutcome where
  | torn
  | empty
  | duplicate
  | refused (reason : Nat)
  | accepted (plan : Plan) (clamped : Bool)
  deriving DecidableEq, Repr

/-- The outcome of a fetch, by the tests of R20 to R25 in their order. -/
def fetchOutcome (g : ChannelSetup) (lastSeen : Word) (slot : List Word) : FetchOutcome :=
  let head := slot.getD 0 0
  let tail := slot.getD 31 0
  if head ≠ tail then .torn
  else if head = 0 then .empty
  else if head = lastSeen then .duplicate
  else match planCheck g slot with
    | .error reason => .refused reason
    | .ok mode => let plan := clampedPlan slot mode; .accepted plan (needsClamp slot plan)

/-! ### Capture request (R156) -/

/-- First word of the capture request (R171). -/
def captureRequestBase : Nat := 0xE4

def channelOfNat : Nat → Option ChannelId
  | 0 => some .ch0
  | 1 => some .ch1
  | 2 => some .ch2
  | _ => none

def filterOfNat : Nat → Option CaptureFilter
  | 0 => some .any
  | 1 => some .shifted
  | 2 => some .failed
  | 3 => some .condition
  | _ => none

/-! ### Codes of the shared formats (section 12.5) -/

def ChannelState.code : ChannelState → Nat
  | .off => 0
  | .running => 1
  | .floated => 2

def Mode.code : Mode → Nat
  | .coast => 0
  | .brake => 1
  | .align => 2
  | .rotate => 3

def Override.code : Override → Nat
  | .none => 0
  | .zero => 1
  | .brake => 2

def LegOrder.code : LegOrder → Nat
  | .abc => 0
  | .acb => 1
  | .bac => 2
  | .bca => 3
  | .cab => 4
  | .cba => 5

def WindowOutcome.code : WindowOutcome → Nat
  | .ok => 0
  | .failedShort => 1
  | .failedLate => 2
  | .missed => 3
  | .absent => 4

def Direction.code : Direction → Nat
  | .none => 0
  | .forward => 1
  | .reverse => 2
  | .skip => 3
  | .invalid => 4
  | .back => 5

def Drive.code : Drive → Nat
  | .pulse _ _ => 0
  | .high => 1
  | .low => 2
  | .float => 3

def EventCode.code : EventCode → Nat
  | .started => 1
  | .stopped => 2
  | .resumed => 3
  | .floated => 4
  | .conditionAsserted => 5
  | .conditionReleased => 6
  | .planRefused => 7
  | .hallSkip => 8

/-- The identifiers of section 8.1. -/
def ConditionId.code : ConditionId → Nat
  | .cur _ => 1
  | .zer _ => 2
  | .age _ => 3
  | .hal => 4
  | .lov => 5
  | .lun => 6
  | .fl0 => 7
  | .fl1 => 8

def Action.code : Action → Nat
  | .note => 0
  | .zero => 1
  | .brake => 2
  | .float => 3

/-- An action by its code. LOCK refuses a setup with a code above 3 (R165), so the last line is not reached
under a lock.
DESIGN CHOICE, notes/assumptions/28.md. -/
def Action.ofCode : Nat → Action
  | 1 => .zero
  | 2 => .brake
  | 3 => .float
  | _ => .note

def CmdResult.code : CmdResult → Nat
  | .none => 0
  | .done => 1
  | .inProgress => 2
  | .notLocked => 3
  | .wrongState => 4
  | .conditionPresent => 5
  | .setupInvalid => 6
  | .notEnabled => 7
  | .unknown => 8

/-- The legs of a leg order by rank: max, mid, min (R54). -/
def LegOrder.ranks : LegOrder → Leg × Leg × Leg
  | .abc => (.a, .b, .c)
  | .acb => (.a, .c, .b)
  | .bac => (.b, .a, .c)
  | .bca => (.b, .c, .a)
  | .cab => (.c, .a, .b)
  | .cba => (.c, .b, .a)

end Sys2Proof.Machine
end

