-- ==== Sys2Proof/Machine/Ops.lean ====
section
/-! DEFINITION. The shared operations of the part: the exchange RAM, time, channels, settings, notices, legs,
records handed to the logs, and reads of several words. -/

namespace Sys2Proof.Machine

open Sys2Proof

/-! ### The exchange RAM -/

/-- The word at an address; an unlisted word reads 0 (R168). -/
def Memory.read : Memory → Nat → Word
  | [], _ => 0
  | (k, v) :: rest, a => if k = a then v else Memory.read rest a

/-- Writes a word. A word written as 0 is not listed. -/
def Memory.write : Memory → Nat → Word → Memory
  | [], a, v => if v = 0 then [] else [(a, v)]
  | (k, w) :: rest, a, v =>
    if a < k then (if v = 0 then (k, w) :: rest else (a, v) :: (k, w) :: rest)
    else if a = k then (if v = 0 then rest else (a, v) :: rest)
    else (k, w) :: Memory.write rest a v

/-- Every address of the list is above `low`, addresses rise strictly, and no listed word is 0. -/
def Memory.wfFrom : Nat → Memory → Bool
  | _, [] => true
  | low, (k, v) :: rest => decide (low ≤ k) && v != 0 && Memory.wfFrom (k + 1) rest

/-- The canonical form: addresses strictly rising, no listed word 0, so that equal memories are equal data. -/
def Memory.wf (m : Memory) : Bool := Memory.wfFrom 0 m

/-- Writes words at successive addresses from `a`, each only where `here` holds of its address. -/
def Memory.writeSome (here : Nat → Bool) : Memory → Nat → List Word → Memory
  | m, _, [] => m
  | m, a, v :: rest =>
    Memory.writeSome here (if here a then Memory.write m a v else m) (a + 1) rest

/-! ### Channels -/

def Device.chan (d : Device) (c : ChannelId) : Channel := d.channels.get c

def Device.setChan (d : Device) (c : ChannelId) (x : Channel) : Device :=
  { d with channels := d.channels.set c x }

def Device.modChan (d : Device) (c : ChannelId) (f : Channel → Channel) : Device :=
  d.setChan c (f (d.chan c))

/-- The words of the locked setup copy; no word while the part is not locked. -/
def Device.words (d : Device) : List Word := d.setup.getD []

/-- A channel's settings in the locked setup copy. -/
def Device.cfg (d : Device) (c : ChannelId) : ChannelSetup := channelSetup d.words c

/-- The part is locked (R164). -/
def Device.locked (d : Device) : Bool := d.setup.isSome

/-- A power-on or pin reset is held (R168, R169). -/
def Device.inReset (d : Device) : Bool := d.powerOn || d.resetLow

/-- READY: low from the start of a power-on or pin reset until the status block is rewritten (R168, R169).
DEDUCED, notes/assumptions/33.md. -/
def Device.ready (d : Device) : Bool :=
  !d.inReset && (match d.statusWrite with
    | some w => w.kind == .soft
    | none => true)

/-- Commands are taken: READY is high, and no SOFT_RESET's writing of the status block is in progress
(R168, R170). -/
def Device.takesCommands (d : Device) : Bool := !d.inReset && d.statusWrite.isNone

/-! ### Time -/

/-- a is later than b (R3). -/
def later (a b : RefCount) : Bool := a != b && decide ((a - b).toNat < 2 ^ 31)

/-- A measure advanced by n half-ticks; it stops at its limit (R138). -/
def advanceMeasure (n m : Nat) : Nat := min (m + n) Config.measureLimit

/-- The Hall timer's two measures advance with time (R138). The elapsed measure stays while there is no last transition,
where nothing reads it.
DESIGN CHOICE, notes/assumptions/39.md. -/
def HallTimer.advance (n : Nat) (h : HallTimer) : HallTimer :=
  { h with
    elapsed := if h.lastTransition.isSome then advanceMeasure n h.elapsed else h.elapsed
    run := h.run.map fun r => { r with measure := advanceMeasure n r.measure } }

/-- n half-ticks pass. The reference count does not run during a power-on or pin reset (R3). -/
def Device.advanceBy (n : Nat) (d : Device) : Device :=
  if d.inReset then { d with freeIndex := d.freeIndex + n }
  else { d with
    refCount := d.refCount + BitVec.ofNat 32 n
    hall := d.hall.advance n
    freeIndex := d.freeIndex + n }

/-- Time passes up to the instant t of an event; an instant already reached moves nothing.
DESIGN CHOICE, notes/assumptions/1.md. -/
def Device.advanceTo (t : RefCount) (d : Device) : Device :=
  if later t d.refCount then d.advanceBy (t - d.refCount).toNat else d

/-- The instant of position t of a channel's present period (R3). -/
def Device.instantOf (d : Device) (c : ChannelId) (t : Nat) : RefCount :=
  (d.chan c).loadTime + BitVec.ofNat 32 t

/-- P, the period length of an edge set (R1). -/
def EdgeSet.period (e : EdgeSet) : Nat := 4 * e.modulus

/-- The position of a channel's timebase within its period, in half-ticks (R1); 0 while it is OFF. -/
def Device.position (d : Device) (c : ChannelId) : Nat :=
  if (d.chan c).state = .off then 0 else (d.refCount - (d.chan c).loadTime).toNat

/-- The timebase counter in ticks: up to M, then down to 0; 0 while the channel is OFF. It steps at even positions, so that
on the way down it holds M from position P/2 on for a whole tick (R1). -/
def Device.timebaseCounter (d : Device) (c : ChannelId) : Nat :=
  match (d.chan c).inForce with
  | some e =>
    let t := d.position c
    if t ≤ 2 * e.modulus then t / 2 else (e.period - t + 1) / 2
  | none => 0

/-! ### Notices (R153) -/

/-- Sets one notice bit; a bit already set stays set (R153). -/
def Device.setNotice (bit : Nat) (d : Device) : Device :=
  { d with notice := d.notice ||| BitVec.ofNat 13 (2 ^ bit) }

/-- The bit numbers of NOTICE (section 12.5). -/
def noticeLog (c : ChannelId) : Nat := channelIndex c
def noticeTrip (c : ChannelId) : Nat := 3 + channelIndex c
def noticePlanx (c : ChannelId) : Nat := 6 + channelIndex c
def noticeCapture : Nat := 9
def noticeHall : Nat := 10
def noticeLock : Nat := 11
def noticeLoss : Nat := 12

/-! ### Legs (section 5.2) -/

/-- The three commands of the leg stage (section 5.2). -/
inductive LegCommand where
  | toHigh
  | toLow
  | toFloat
  deriving DecidableEq, Repr

/-- A turn-on of this side is pending. -/
def LegState.awaits (l : LegState) (side : Side) : Bool :=
  match l.pending with
  | some p => p.side == side
  | none => false

/-- A leg carries out a command (R76); `instant` is the instant of the command plus D. -/
def LegState.command (cmd : LegCommand) (instant : RefCount) (l : LegState) : LegState :=
  match cmd with
  | .toHigh =>
    if l.high || l.awaits .high then l
    else { high := false, low := false, pending := some { side := .high, instant := instant } }
  | .toLow =>
    if l.low || l.awaits .low then l
    else { high := false, low := false, pending := some { side := .low, instant := instant } }
  | .toFloat => LegState.idle

/-- The instant at which a turn-on commanded now takes place: now plus the channel's D (R76). -/
def Device.turnOnInstant (d : Device) (c : ChannelId) : RefCount :=
  d.refCount + BitVec.ofNat 32 (d.cfg c).d

/-- Gives one leg of a channel a command at the present instant. -/
def Device.commandLeg (c : ChannelId) (leg : Leg) (cmd : LegCommand) (d : Device) : Device :=
  d.modChan c fun ch =>
    { ch with legs := ch.legs.set leg ((ch.legs.get leg).command cmd (d.turnOnInstant c)) }

/-- Gives every leg of a channel the same command at the present instant. -/
def Device.commandLegs (c : ChannelId) (cmd : LegCommand) (d : Device) : Device :=
  d.modChan c fun ch => { ch with legs := ch.legs.map (LegState.command cmd (d.turnOnInstant c)) }

/-- The command a drive gives its leg at the load event (R78, R79). -/
def Drive.command : Drive → LegCommand
  | .pulse _ _ => .toLow
  | .high => .toHigh
  | .low => .toLow
  | .float => .toFloat

/-! ### Records handed to the logs -/

/-- Hands a record to a channel's log writer; it waits behind those handed before it (R146). -/
def Device.hand (c : ChannelId) (item : LogItem) (d : Device) : Device :=
  d.modChan c fun ch => { ch with log := { ch.log with waiting := ch.log.waiting ++ [item] } }

/-- Hands an event record without condition, value, action or extra field, with the channel's present count
and state (R151). -/
def Device.handPlain (c : ChannelId) (code : EventCode) (d : Device) : Device :=
  d.hand c (.event { code := code, periodCount := (d.chan c).periodCount, condition := 0, value := 0,
                     action := 0, extra := 0, state := (d.chan c).state })

/-- A count that saturates at 255 (R149, R158). -/
def saturate255 (n : Nat) : Nat := min n 255

/-! ### Conditions, actions and overrides (sections 8.1 and 8.2) -/

/-- One condition instance (R117). -/
def Device.condition (d : Device) : ConditionId → Condition
  | .cur c => (d.chan c).cur
  | .zer c => (d.chan c).zer
  | .age c => (d.chan c).age
  | .hal => d.hal
  | .lov => d.lov
  | .lun => d.lun
  | .fl0 => d.fl0
  | .fl1 => d.fl1

def Device.setCondition (id : ConditionId) (x : Condition) (d : Device) : Device :=
  match id with
  | .cur c => d.modChan c fun ch => { ch with cur := x }
  | .zer c => d.modChan c fun ch => { ch with zer := x }
  | .age c => d.modChan c fun ch => { ch with age := x }
  | .hal => { d with hal := x }
  | .lov => { d with lov := x }
  | .lun => { d with lun := x }
  | .fl0 => { d with fl0 := x }
  | .fl1 => { d with fl1 := x }

/-- Whether a channel is in the scope of a condition instance (R117). -/
def Device.inScope (d : Device) (id : ConditionId) (c : ChannelId) : Bool :=
  match id with
  | .cur x => x == c
  | .zer x => x == c
  | .age x => x == c
  | .hal => c == .ch0
  | .lov => true
  | .lun => true
  | .fl0 => faultMapped d.words .flt0 c
  | .fl1 => faultMapped d.words .flt1 c

/-- The channels in the scope of a condition instance, in their order. -/
def Device.scope (d : Device) (id : ConditionId) : List ChannelId :=
  allChannels.filter (d.inScope id)

/-- The action of a condition instance for a channel in its scope (R118). -/
def Device.action (d : Device) (id : ConditionId) (c : ChannelId) : Action :=
  match id with
  | .cur _ => Action.ofCode (d.cfg c).curAction
  | .zer _ => Action.ofCode (d.cfg c).zerAction
  | .age _ => Action.ofCode (d.cfg c).ageAction
  | .hal => Action.ofCode (d.cfg c).halAction
  | .lov => Action.ofCode (d.cfg c).lovAction
  | .lun => Action.ofCode (d.cfg c).lunAction
  | .fl0 => .float
  | .fl1 => .float

/-- The condition instances whose scope may include a channel. -/
def conditionsOf (c : ChannelId) : List ConditionId :=
  [.cur c, .zer c, .age c, .hal, .lov, .lun, .fl0, .fl1]

/-- A condition present for a channel has this action (R117, R118). -/
def Device.presentWith (d : Device) (c : ChannelId) (act : Action) : Bool :=
  (conditionsOf c).any fun id => (d.condition id).asserted && d.inScope id c && d.action id c == act

/-- The effective override of a channel (R119). DEDUCED, notes/assumptions/33.md. -/
def Device.override (d : Device) (c : ChannelId) : Override :=
  if d.presentWith c .brake then .brake
  else if d.presentWith c .zero then .zero
  else .none

/-- Z, the zero level of a channel in codes (R106). -/
def zeroLevel (z8 : Nat) : Nat := (z8 + 4) / 8

/-! ### Reads of several words -/

/-- Reads the next n words of a reader from the exchange RAM, as it now stands. -/
def WordReader.advance : Nat → Memory → WordReader → WordReader
  | 0, _, r => r
  | n + 1, m, r =>
    match r.todo with
    | [] => r
    | a :: rest => WordReader.advance n m { r with todo := rest, got := r.got ++ [m.read a] }

/-- All the words of a reader once it has read the rest from the exchange RAM. -/
def WordReader.finish (m : Memory) (r : WordReader) : List Word := r.got ++ r.todo.map m.read

/-- Before a host write at `a` is taken, a reader that has not surely read `a` has read a free number of further
words (R19, R164).
DESIGN CHOICE, notes/assumptions/12.md. -/
def WordReader.beforeWrite (free a : Nat) (m : Memory) (r : WordReader) : WordReader :=
  if r.todo.contains a then r.advance (Config.wordsRead free) m else r

end Sys2Proof.Machine
end

