-- ==== Sys2Proof/Machine/Flags.lean ====
section
/-! DEFINITION. What the part shows of its state: the status block and how it is kept (R171), the registers
(R153, R154, R166, R167), the pins, and what a host read returns. Every meaning reaches the machine through
`State.apply`. -/

namespace Sys2Proof.Machine

open Sys2Proof

/-! ### The status block -/

/-- 2^k when the flag is set. -/
def flagBit (b : Bool) (k : Nat) : Nat := if b then 2 ^ k else 0

/-- The Hall words of CH0 (offsets 22 to 27): 0xFFFF stands for none, sector 7 for INVALID. -/
def hallStatus (words : List Word) (h : HallTimer) (offset : Nat) : Word :=
  match offset with
  | 22 => match h.accepted with
    | some code => BitVec.ofNat 16 code.toNat
    | none => 0xFFFF
  | 23 => match h.accepted with
    | some code => match hallSector words code with
      | some s => BitVec.ofNat 16 s
      | none => 7
    | none => 0xFFFF
  | 24 => BitVec.ofNat 16 h.direction.code
  | 25 => BitVec.ofNat 16 h.interval
  | 26 => wordOf (h.snapError.getD 0)
  | 27 => BitVec.ofNat 16 (flagBit h.snapError.isSome 0)
  | _ => 0

/-- The counters of a channel (offsets 8 to 17). -/
def counterStatus (k : Counters) (offset : Nat) : Word :=
  match offset with
  | 8 => k.periods
  | 9 => k.acceptedPlans
  | 10 => k.refusedPlans
  | 11 => k.tornReads
  | 12 => k.shiftedPeriods
  | 13 => k.failedWindows
  | 14 => k.missedConversions
  | 15 => k.droppedRecords
  | 16 => k.hallSkips
  | 17 => k.hallSnaps
  | _ => 0

/-- Word `offset` of a channel's part of the status block (section 12.5); bits without content are 0.
DESIGN CHOICE, notes/assumptions/41.md. -/
def channelStatus (d : Device) (c : ChannelId) (offset : Nat) : Word :=
  let ch := d.chan c
  let hal := if c = .ch0 then d.hal else .clear
  match offset with
  | 0 => ch.log.written
  | 1 => ch.log.releaseValid
  | 2 => BitVec.ofNat 16 (flagBit ch.log.badRelease 0 + flagBit ch.log.eventLost 1)
  | 3 => ch.plan.generation
  | 4 => ch.lastSeen
  | 5 => BitVec.ofNat 16 ch.planAge
  | 6 => BitVec.ofNat 16 (flagBit ch.cur.asserted 0 + flagBit ch.zer.asserted 1 + flagBit ch.age.asserted 2 +
      flagBit hal.asserted 3 + (d.override c).code * 256)
  | 7 => BitVec.ofNat 16 (zeroLevel ch.z8)
  | 18 => ch.cur.assertions
  | 19 => ch.zer.assertions
  | 20 => ch.age.assertions
  | 21 => hal.assertions
  | k => if k < 18 then counterStatus ch.counters k
    else if c = .ch0 then hallStatus d.words d.hall k else 0

/-- Word `offset` of the global part of the status block (section 12.5); bits without content are 0.
DESIGN CHOICE, notes/assumptions/41.md. -/
def globalStatus (d : Device) (offset : Nat) : Word :=
  match offset with
  | 0 => BitVec.ofNat 16 (flagBit d.lov.asserted 0 + flagBit d.lun.asserted 1 + flagBit d.fl0.asserted 2 +
      flagBit d.fl1.asserted 3)
  | 1 => d.lov.assertions
  | 2 => d.lun.assertions
  | 3 => d.fl0.assertions
  | 4 => d.fl1.assertions
  | _ => 0

/-- First word of a channel's part of the status block (R171). -/
def statusBase : ChannelId → Nat
  | .ch0 => 0x100
  | .ch1 => 0x140
  | .ch2 => 0x180

/-- The word the part shows at a status block address (R171). -/
def statusWord (d : Device) (a : Nat) : Word :=
  if a < 0x140 then channelStatus d .ch0 (a - 0x100)
  else if a < 0x180 then channelStatus d .ch1 (a - 0x140)
  else if a < 0x1C0 then channelStatus d .ch2 (a - 0x180)
  else globalStatus d (a - 0x1C0)

/-- The addresses of the status block (R171). -/
def statusBlock : List Nat := (List.range 256).map fun k => 0x100 + k

/-- The addresses of the status words that hold something. -/
def statusAddresses : List Nat :=
  (allChannels.flatMap fun c => (List.range 28).map fun k => statusBase c + k) ++
    (List.range 5).map fun k => 0x1C0 + k

/-- Writes status words as the part's state now shows them. While the reset values are still being written,
they are marked as written by another block, and that writing leaves them (R170). -/
def Device.showStatus (addresses : List Nat) (d : Device) : Device :=
  { d with
    ram := addresses.foldl (fun m a => Memory.write m a (statusWord d a)) d.ram
    statusWrite := d.statusWrite.map fun w => { w with touched := w.touched ++ addresses } }

/-- The status words whose shown value differs between two states of the part. -/
def changedStatus (old new : Device) : List Nat :=
  statusAddresses.filter fun a => statusWord old a != statusWord new a

/-- After a change from `old` to `new`, the part writes the status words whose value has changed; a word whose
value stays is not written, so a host write to it stays in the RAM (R171). Where one command changes a word and changes it
back, the meaning shows the word in between (`showing`, `showStatus`).
DEDUCED, notes/assumptions/11.md. -/
def publish (old new : Device) : Device := new.showStatus (changedStatus old new)

/-- A change of the part with the status words that it changes: one of several that a command makes at one instant. -/
def Device.showing (f : Device → Device) (d : Device) : Device := publish d (f d)

/-! ### Meanings as changes of the part -/

/-- A change of the part; the queue is left alone. -/
def State.run (f : Device → Device) (s : State) : Host.Outcome State Fault Refusal :=
  .next { s with toDevice := f s.toDevice }

/-- A command's effect on the part, with the status words it changes. -/
def State.apply (f : Device → Device) (s : State) : Host.Outcome State Fault Refusal :=
  s.run fun d => publish d (f d)

/-! ### Registers -/

/-- What ID reads (R167). -/
def idRegister : Word := 0xE330

/-- What CMD reads (section 12.5); bits 10 to 15 have no content.
DESIGN CHOICE, notes/assumptions/41.md. -/
def cmdRegister (d : Device) : Word :=
  BitVec.ofNat 16 (d.cmd.result.code + d.cmd.command.toNat * 16 + d.cmd.channel.toNat * 256)

/-- What STAT reads (R167, section 12.5). -/
def statRegister (d : Device) : Word :=
  BitVec.ofNat 16 (flagBit d.locked 0 + d.setupErrorCode.toNat * 2 + d.setupErrorChannel.toNat * 32 +
    (d.chan .ch0).state.code * 128 + (d.chan .ch1).state.code * 512 + (d.chan .ch2).state.code * 2048 +
    flagBit d.flt0.filtered 13 + flagBit d.flt1.filtered 14 + flagBit d.ready 15)

/-- What NOTICE reads: the three top bits read 0 (R153). -/
def noticeRegister (d : Device) : Word := d.notice.zeroExtend 16

/-- What NOTICE_EN reads (R154); bits 13 to 15 have no content.
DESIGN CHOICE, notes/assumptions/41.md. -/
def noticeEnRegister (d : Device) : Word := d.noticeEn.zeroExtend 16

/-! ### Pins -/

/-- The INT line is asserted while a bit is set in NOTICE and in NOTICE_EN (R154). -/
def Device.intAsserted (d : Device) : Bool := d.notice &&& d.noticeEn != 0

/-- The level of the INT line, active low (R154). -/
def Device.intPin (d : Device) : Bool := !d.intAsserted

/-- The level of the READY pin (R168). -/
def Device.readyPin (d : Device) : Bool := d.ready

/-- The level of a gate output: none while it is high-impedance, else by the channel's polarity (R74, R75). -/
def Device.gatePin (d : Device) (c : ChannelId) (leg : Leg) (side : Side) : Option Bool :=
  if d.outputsDriven then
    let l := (d.chan c).legs.get leg
    match side with
    | .high => some (l.high != (d.cfg c).highActiveLow)
    | .low => some (l.low != (d.cfg c).lowActiveLow)
  else none

/-! ### Host reads -/

/-- Words at successive addresses from `place`, each with its address, but for those at the addresses `kept`. -/
def placedWords (place : Nat) (words : List Word) (kept : List Nat) : List (Nat × Word) :=
  (((List.range words.length).map fun k => place + k).zip words).filter fun x => !kept.contains x.1

/-- The words that the part is writing, each with its address: those of records (R146), of a capture copy (R160) and of
the status block's reset values (R168 to R170). -/
def wordsUnderWay (d : Device) : List (Nat × Word) :=
  let log := fun c => match (d.chan c).log.writing with
    | some w => placedWords w.place w.words w.kept
    | none => []
  let copy := match d.capture.copy with
    | some k => placedWords 0x201 k.words k.kept
    | none => []
  let status := match d.statusWrite with
    | some w => placedWords 0x100 (statusBlock.map (statusWord d)) w.touched
    | none => []
  allChannels.flatMap log ++ copy ++ status

/-- The part is writing the word at `a`. -/
def Device.writesAt (d : Device) (a : Nat) : Bool := ((wordsUnderWay d).lookup a).isSome

/-- What a host read of an exchange RAM word returns: 0 while READY is low (R168); in a place that is being
written, the old word or the new one (R146, R171).
DESIGN CHOICE, notes/assumptions/13.md. -/
def ramRead (d : Device) (a : Nat) : Word :=
  if !d.ready then 0
  else match (wordsUnderWay d).lookup a with
    | some v => if Config.wordWritten d.freeIndex a then v else Memory.read d.ram a
    | none => Memory.read d.ram a

/-- What a host read at a word address of the port returns, or none while a pin or power-on reset is held, when
the part takes no host access (R169). ID and STAT can be read while READY is low (R168). -/
def portRead (d : Device) (address : BitVec 14) : Option Word :=
  let a := address.toNat
  if d.resetLow then none
  else if a < 0x2000 then some (ramRead d a)
  else if a = 0x2000 then some idRegister
  else if a = 0x2001 then some (cmdRegister d)
  else if a = 0x2002 then some (statRegister d)
  else if a = 0x2003 then some (noticeRegister d)
  else if a = 0x2004 then some (noticeEnRegister d)
  else some 0

end Sys2Proof.Machine
end

