-- ==== Sys2Proof/Machine/Arbiter.lean ====
section
/-! DEFINITION. The converter arbiter (Chapter 6): reach, the request list, the guard, starts, misses and
withdrawals, and the commands ENTRY_DUE and ENTRY_MISSED. -/

namespace Sys2Proof.Machine

open Sys2Proof

/-! ### Reach and the request list (R88, R90) -/

/-- The input an entry samples, as the number n of INn (R88). -/
def inputOf (c : ChannelId) : RequestKind → Nat
  | .link => 3
  | _ => channelIndex c

/-- Whether a converter reaches an input (R88). -/
def converterReaches (cv : Converter) (input : Nat) : Bool :=
  match cv with
  | .cva => input == 0 || input == 3
  | .cvb => true

/-- Whether a converter reaches an entry's input (R88). -/
def Entry.reachable (e : Entry) (cv : Converter) : Bool := converterReaches cv (inputOf e.channel e.kind)

/-- A FIRST or SECOND entry. -/
def isWindowKind : RequestKind → Bool
  | .first => true
  | .second => true
  | _ => false

/-- The place of an entry: after every entry whose deadline is earlier or equal, before every later one (R91). -/
def insertEntry (e : Entry) : List Entry → List Entry
  | [] => [e]
  | f :: rest => if later f.deadline e.deadline then e :: f :: rest else f :: insertEntry e rest

/-- The conversion in progress on a converter. -/
def Device.converter (d : Device) : Converter → Option Conversion
  | .cva => d.cva
  | .cvb => d.cvb

def Device.setConverter (cv : Converter) (x : Option Conversion) (d : Device) : Device :=
  match cv with
  | .cva => { d with cva := x }
  | .cvb => { d with cvb := x }

/-- Records what became of a channel's request of this kind in its open period (R100). -/
def Device.setReport (c : ChannelId) (k : RequestKind) (r : Report) (d : Device) : Device :=
  d.modChan c fun ch =>
    { ch with buffer := { ch.buffer with reports := ch.buffer.reports.set k (some r) } }

/-! ### Which entries a converter may start (R92) -/

/-- The entry's due time has been reached (R92). -/
def Device.eligible (d : Device) (e : Entry) : Bool := !later e.due d.refCount

/-- The instant until which a window entry's due time guards, Tc from now (R92). -/
def Device.guardLimit (d : Device) : RefCount := d.refCount + BitVec.ofNat 32 Config.conversionTime

/-- A ZERO or LINK entry is guarded on a converter (R92). -/
def Device.guarded (d : Device) (cv : Converter) (e : Entry) : Bool :=
  !isWindowKind e.kind &&
    d.requests.any fun f => isWindowKind f.kind && f.reachable cv && !later f.due d.guardLimit

/-- A converter may start an entry now (R92); an entry past its deadline is missed, not started (R96). -/
def Device.mayStart (d : Device) (cv : Converter) (e : Entry) : Bool :=
  (d.converter cv).isNone && d.eligible e && !later d.refCount e.deadline && e.reachable cv &&
    !d.guarded cv e

/-- The first of these entries that a free converter may start, and the converter: CVA before CVB (R93, R94). -/
def Device.startableIn (d : Device) (entries : List Entry) : Option (Converter × Entry) :=
  entries.findSome? fun e =>
    if d.mayStart .cva e then some (.cva, e)
    else if d.mayStart .cvb e then some (.cvb, e)
    else none

/-- The first entry in list order that a free converter may start, and the converter. -/
def Device.startable (d : Device) : Option (Converter × Entry) := d.startableIn d.requests

/-- The entries of a list that stand after an entry. -/
def entriesAfter (e : Entry) : List Entry → List Entry
  | [] => []
  | f :: rest => if f = e then rest else entriesAfter e rest

/-- A converter starts an entry: the entry leaves the list and is reported started (R89, R93, R100). -/
def Device.startEntry (cv : Converter) (e : Entry) (d : Device) : Device :=
  ({ d with requests := d.requests.erase e }.setConverter cv
      (some { entry := e, start := d.refCount, discard := false })).setReport e.channel e.kind
    (.started cv d.refCount (d.refCount - e.due).toNat none)

/-- A start, if there is one. -/
def Device.startThis (choice : Option (Converter × Entry)) (d : Device) : Device :=
  match choice with
  | some (cv, e) => d.startEntry cv e
  | none => d

/-- After a first start, the other converter takes the first later entry that it may start (R94); where there is none,
it takes the first entry of the list that it may now start (R93), as a start can end a guard.
DEDUCED, notes/assumptions/17.md. -/
def Device.startSecond (later : List Entry) (d : Device) : Device :=
  match d.startableIn later with
  | some choice => d.startThis (some choice)
  | none => d.startThis d.startable

/-- The instant at which a conversion completes (R89). -/
def Conversion.completes (k : Conversion) : RefCount := k.start + BitVec.ofNat 32 Config.conversionTime

/-- A conversion completes at the present instant and its completion is still to be taken. -/
def Device.completing (d : Device) : Bool :=
  [d.cva, d.cvb].any fun x => match x with
    | some k => k.completes == d.refCount
    | none => false

/-- The arbiter hands out entries (R93, R94): a start, and if the other converter is free another. A converter
whose conversion completes at this very instant is free at it (R89), so the hand-out waits for that completion.
DESIGN CHOICE, notes/assumptions/18.md. -/
def Device.arbitrate (d : Device) : Device :=
  if d.completing then d
  else match d.startable with
    | some (cv, e) => (d.startEntry cv e).startSecond (entriesAfter e d.requests)
    | none => d

/-! ### Misses and withdrawals (R96 to R99) -/

/-- An entry is the channel's and of this kind. -/
def Entry.isOf (c : ChannelId) (k : RequestKind) (e : Entry) : Bool := e.channel == c && e.kind == k

/-- A channel's entry of one kind in the request list. -/
def Device.entryOf (d : Device) (c : ChannelId) (k : RequestKind) : Option Entry :=
  d.requests.find? (Entry.isOf c k)

/-- Withdraws a channel's entry of one kind: it leaves the list and is reported withdrawn (R98, R100).
DESIGN CHOICE, notes/assumptions/32.md. -/
def Device.withdrawOne (c : ChannelId) (k : RequestKind) (d : Device) : Device :=
  if d.requests.any (Entry.isOf c k) then
    { d with requests := d.requests.filter fun e => !e.isOf c k }.setReport c k .withdrawn
  else d

/-- Withdraws a channel's FIRST and SECOND entries (R98, R99). -/
def Device.withdrawWindows (c : ChannelId) (d : Device) : Device :=
  (d.withdrawOne c .first).withdrawOne c .second

/-- A conversion whose channel is stopped keeps running and its result is discarded (R97). -/
def Conversion.discardFor (c : ChannelId) (k : Conversion) : Conversion :=
  if k.entry.channel = c then { k with discard := true } else k

/-- Withdraws every entry of a stopped channel, with no report (R97). -/
def Device.withdrawAll (c : ChannelId) (d : Device) : Device :=
  { d with
    requests := d.requests.filter fun e => e.channel != c
    cva := d.cva.map (Conversion.discardFor c)
    cvb := d.cvb.map (Conversion.discardFor c) }

/-- The outcome of a window in the set in force becomes MISSED (R96). -/
def EdgeSet.miss (k : RequestKind) (e : EdgeSet) : EdgeSet :=
  match k with
  | .first => if e.first = .ok then { e with first := .missed } else e
  | .second => if e.second = .ok then { e with second := .missed } else e
  | _ => e

/-- An entry is removed as missed (R96). -/
def Device.missEntry (e : Entry) (d : Device) : Device :=
  ({ d with requests := d.requests.erase e }.setReport e.channel e.kind .missed).modChan e.channel fun ch =>
    { ch with
      inForce := ch.inForce.map (EdgeSet.miss e.kind)
      counters := { ch.counters with missedConversions := ch.counters.missedConversions + 1 } }

/-- ENTRY_DUE: time reaches the due time of an entry, and what may start is started (R93, R94). -/
def Device.entryFallsDue (c : ChannelId) (k : RequestKind) (d : Device) : Device :=
  match d.entryOf c k with
  | some e => (d.advanceTo e.due).arbitrate
  | none => d

/-- ENTRY_MISSED: time reaches deadline + 1 of an entry, and it is removed (R96). -/
def Device.entryPassesDeadline (c : ChannelId) (k : RequestKind) (d : Device) : Device :=
  match d.entryOf c k with
  | some e => ((d.advanceTo (e.deadline + 1)).missEntry e).arbitrate
  | none => d

/-- ENTRY_DUE (R93). It names an entry in the list. -/
def execEntryDue (ch : ChannelId) (kind : RequestKind) (s : State) : Host.Outcome State Fault Refusal :=
  s.apply (Device.entryFallsDue ch kind)

/-- ENTRY_MISSED (R96). It names an entry in the list. -/
def execEntryMissed (ch : ChannelId) (kind : RequestKind) (s : State) : Host.Outcome State Fault Refusal :=
  s.apply (Device.entryPassesDeadline ch kind)

end Sys2Proof.Machine
end

