-- ==== Sys2Proof/Machine/Capture.lean ====
section
/-! DEFINITION. The capture unit (Chapter 11): the working buffer, selection, the copy and its layout, and the
commands POLL and CAPTURE_COPY_END. -/

namespace Sys2Proof.Machine

open Sys2Proof

/-! ### The working buffer (R158) -/

/-- The unit is ARMED for a channel. -/
def CaptureUnit.armedFor (u : CaptureUnit) (c : ChannelId) : Bool := u.mode == .armed && u.channel == c

/-- The buffer is emptied and begins the period that opens (R158). -/
def Device.followPeriod (c : ChannelId) (d : Device) : Device :=
  if d.capture.armedFor c then { d with capture := { d.capture with following := some .empty } } else d

/-- The buffer of a period that STOP discards is emptied (R161). -/
def Device.unfollow (c : ChannelId) (d : Device) : Device :=
  if d.capture.armedFor c then { d with capture := { d.capture with following := none } } else d

/-- A condition change joins the buffer (R158); the first eight are kept, and all are counted. -/
def CaptureBuffer.addChange (x : ConditionChange) (b : CaptureBuffer) : CaptureBuffer :=
  { b with
    changes := (b.changes ++ [x]).take 8
    changeCount := saturate255 (b.changeCount + 1)
    assertionSeen := b.assertionSeen || x.assertion }

/-- A Hall transition joins the buffer: four are kept, further ones counted (R158). -/
def CaptureBuffer.addHall (timestamp : RefCount) (code : BitVec 3) (b : CaptureBuffer) : CaptureBuffer :=
  if b.hall.length < 4 then { b with hall := b.hall ++ [(timestamp, code)] }
  else { b with hallFurther := saturate255 (b.hallFurther + 1) }

/-- Changes the buffer of a channel's followed period, if one is followed. -/
def Device.gather (c : ChannelId) (f : CaptureBuffer → CaptureBuffer) (d : Device) : Device :=
  if d.capture.armedFor c then { d with capture := { d.capture with following := d.capture.following.map f } }
  else d

/-! ### The capture area (R160, section 12.5) -/

/-- The two words of a 32-bit value, low word first. -/
def twoWords (x : BitVec 32) : List Word := [x.truncate 16, (x >>> 16).truncate 16]

/-- The window outcome is not OK. -/
def WindowOutcome.notOk (o : WindowOutcome) : Bool := o != .ok

/-- The set is shifted: s1 or s2 is above 0 (R63). -/
def EdgeSet.shifted (e : EdgeSet) : Bool := 0 < e.s1 || 0 < e.s2

/-- Word 2 of a period record, with this clamped flag (section 12.5). -/
def flagsWord (clamped : Bool) (p : ClosedPeriod) : Word :=
  BitVec.ofNat 16 (flagBit clamped 0 + flagBit p.injected 1 + flagBit p.saturated 2 + flagBit p.set.shifted 3 +
    flagBit p.set.vector.slewing 4 + flagBit p.currents.a.isSome 5 + flagBit p.currents.b.isSome 6 +
    flagBit p.currents.c.isSome 7 + flagBit p.link.isSome 8 + p.set.first.code * 512 + p.set.second.code * 4096)

/-- A current as a word; one that is not valid reads 0 in a period record (R150), and in a capture too, of which the manual
does not say it.
DESIGN CHOICE, notes/assumptions/42.md. -/
def currentWord : Option Current → Word
  | some i => wordOf i.value
  | none => 0

/-- The start, the end and the width of a drive; 0 when it is not a pulse. -/
def driveStart : Drive → Nat
  | .pulse start _ => start
  | _ => 0

def driveEnd : Drive → Nat
  | .pulse _ stop => stop
  | _ => 0

/-- The ten words of one request slot of the capture area (R160, section 12.5). -/
def requestSlot (p : ClosedPeriod) (k : RequestKind) : List Word :=
  match p.set.requests.find? (fun r => r.kind == k) with
  | none => List.replicate 10 0
  | some r =>
    let times := twoWords (p.loadTime + BitVec.ofNat 32 r.due) ++ twoWords (p.loadTime + BitVec.ofNat 32 r.deadline)
    match p.reports.get k with
    | some (.started cv start lateness codes) =>
      let rc := codes.getD (0, 0)
      [BitVec.ofNat 16 (1 + flagBit (cv == .cvb) 3)] ++ times ++ twoWords start ++
        [BitVec.ofNat 16 lateness, BitVec.ofNat 16 rc.1, BitVec.ofNat 16 rc.2]
    | some .missed => [2] ++ times ++ List.replicate 5 0
    | some .withdrawn => [3] ++ times ++ List.replicate 5 0
    | none => [4] ++ times ++ List.replicate 5 0

/-- The three words of a condition change. -/
def changeWords (x : ConditionChange) : List Word :=
  [BitVec.ofNat 16 (x.identifier + flagBit x.assertion 15), wordOf x.value, BitVec.ofNat 16 x.action]

/-- The three words of a Hall transition. -/
def transitionWords (x : RefCount × BitVec 3) : List Word := twoWords x.1 ++ [BitVec.ofNat 16 x.2.toNat]

/-- A list of words with zeros added up to a length. -/
def padTo (n : Nat) (l : List Word) : List Word := l ++ List.replicate (n - l.length) 0

/-- The words of the capture area from 0x0201 to 0x026B for a copied period (section 12.5); bits without content, and currents
that are not valid, are 0.
DESIGN CHOICE, notes/assumptions/24.md, 41.md and 42.md. -/
def captureWords (clamped : Bool) (p : ClosedPeriod) (b : CaptureBuffer) : List Word :=
  let e := p.set
  let v := e.vector
  ([1] : List Word) ++ twoWords p.loadTime ++ twoWords p.number ++ [p.plan.generation] ++
  [v.thetaMid, BitVec.ofNat 16 v.va, wordOf v.u.a, wordOf v.u.b, wordOf v.u.c] ++
  ([e.drives.a, e.drives.b, e.drives.c].map fun x => BitVec.ofNat 16 (driveEnd x - driveStart x)) ++
  [BitVec.ofNat 16 (e.drives.a.code + e.drives.b.code * 4 + e.drives.c.code * 16 + e.order.code * 256 +
    flagBit v.slewing 11)] ++
  ([e.drives.a, e.drives.b, e.drives.c].map fun x => BitVec.ofNat 16 (driveStart x)) ++
  ([e.drives.a, e.drives.b, e.drives.c].map fun x => BitVec.ofNat 16 (driveEnd x)) ++
  [BitVec.ofNat 16 e.s1, BitVec.ofNat 16 e.s2] ++
  ([RequestKind.first, .second, .zero, .link].flatMap (requestSlot p)) ++
  [currentWord p.currents.a, currentWord p.currents.b, currentWord p.currents.c, flagsWord clamped p,
    (match p.metric with
      | some m => BitVec.ofNat 16 m
      | none => 0xFFFF),
    BitVec.ofNat 16 p.zeroLevel] ++
  padTo 24 (b.changes.flatMap changeWords) ++ [BitVec.ofNat 16 b.changeCount] ++
  padTo 12 (b.hall.flatMap transitionWords) ++ [BitVec.ofNat 16 b.hallFurther]

/-! ### Selection at the close (R159) -/

/-- A closed, followed period matches a filter (R159). -/
def filterMatches (f : CaptureFilter) (p : ClosedPeriod) (b : CaptureBuffer) : Bool :=
  match f with
  | .any => true
  | .shifted => p.set.shifted
  | .failed => p.set.first.notOk || p.set.second.notOk
  | .condition => b.assertionSeen

/-- The test of a closed period by the capture unit: a match lowers N, and at 0 the copy begins with the served
generation written as 0 (R159, R160). DESIGN CHOICE, notes/assumptions/23.md. -/
def Device.selectPeriod (c : ChannelId) (p : ClosedPeriod) (d : Device) : Device :=
  match d.capture.following with
  | some b =>
    if d.capture.armedFor c && filterMatches d.capture.filter p b then
      if d.capture.skip ≤ 1 then
        { d with
          ram := Memory.write d.ram 0x200 0
          capture := { d.capture with
            mode := .copying, skip := 0
            copy := some { since := d.refCount, words := captureWords (d.chan c).clampedMark p b } } }
      else { d with capture := { d.capture with skip := d.capture.skip - 1 } }
    else d
  | none => d

/-! ### The poll (R156, R157) -/

/-- The unit returns to IDLE with an empty buffer. -/
def CaptureUnit.toIdle (u : CaptureUnit) : CaptureUnit := { u with mode := .idle, following := none, copy := none }

/-- A refusal: the capture area shows g with the outcome REFUSED, g is served, CAPTURE is set (R157, R160).
DEDUCED, notes/assumptions/23.md. -/
def Device.refuseCapture (g : Word) (d : Device) : Device :=
  ({ d with
    ram := Memory.write (Memory.write d.ram 0x201 2) 0x200 g
    capture := { d.capture.toIdle with lastServed := g } }).setNotice noticeCapture

/-- Arming or re-arming: the request's values, N from the skip word with 0 taken as 1, an empty buffer (R157). -/
def Device.armCapture (g : Word) (c : ChannelId) (f : CaptureFilter) (skip : Nat) (d : Device) : Device :=
  { d with capture := { d.capture with
      mode := .armed, generation := g, channel := c, filter := f
      skip := if skip = 0 then 1 else skip, following := none, copy := none } }

/-- A new generation: armed if the request is well formed, else refused (R157). -/
def Device.serveRequest (g : Word) (d : Device) : Device :=
  let w := fun k => (Memory.read d.ram (captureRequestBase + k)).toNat
  match channelOfNat (w 1), filterOfNat (w 2) with
  | some c, some f => d.armCapture g c f (w 3)
  | _, _ => d.refuseCapture g

/-- What a poll does with the generation it reads (R157). -/
def Device.actOnRequest (d : Device) : Device :=
  let g := Memory.read d.ram captureRequestBase
  match d.capture.mode with
  | .copying => d
  | .idle => if g = 0 ∨ g = d.capture.lastServed then d else d.serveRequest g
  | .armed =>
    if g = d.capture.generation then d
    else if g = 0 ∨ g = d.capture.lastServed then { d with capture := d.capture.toIdle }
    else d.serveRequest g

/-- A poll: the timer is set for the next one, and the request is acted on unless the unit is COPYING (R156). -/
def Device.pollRequest (d : Device) : Device :=
  match d.capture.nextPoll with
  | some t =>
    let d := d.advanceTo t
    let next := d.refCount + BitVec.ofNat 32 Config.pollInterval
    { d with capture := { d.capture with nextPoll := some next } }.actOnRequest
  | none => d

/-- The end of a copy (R160): its words stand in the RAM, but where a host write came after the part's (R171). -/
def Device.endCopy (d : Device) : Device :=
  match d.capture.copy with
  | some k =>
    ({ d with
      ram := Memory.write (Memory.writeSome (fun a => !k.kept.contains a) d.ram 0x201 k.words) 0x200 d.capture.generation
      capture := { d.capture.toIdle with lastServed := d.capture.generation } }).setNotice noticeCapture
  | none => d

/-- POLL (R156, R157). The poll timer runs while the setup is locked. -/
def execPoll (s : State) : Host.Outcome State Fault Refusal := s.apply Device.pollRequest

/-- CAPTURE_COPY_END (R160). It comes while a copy is in progress. -/
def execCaptureCopyEnd (s : State) : Host.Outcome State Fault Refusal := s.apply Device.endCopy

end Sys2Proof.Machine
end

