-- ==== Sys2Proof/Machine/Limits.lean ====
section
/-! DEFINITION. The limit monitor (Chapter 8): assertion and release with their effects, and the evaluation of each
condition; what a change of the effective override does (R83, R84, R120) and the float of a channel (R13). The
fault lines' filters (R86) and the commands FAULT_LINE_CHANGE and FAULT_FILTER_EXPIRY. -/

namespace Sys2Proof.Machine

open Sys2Proof

/-! ### Effects on a channel (R13, R83, R84, R120) -/

/-- The effective override of a channel becomes BRAKE: the hold is set, the legs of a RUNNING channel go to low,
and the window entries are withdrawn (R83, R99, R120). -/
def Device.applyBrake (c : ChannelId) (d : Device) : Device :=
  let d := d.modChan c fun ch => { ch with brakeHold := true }
  let d := if (d.chan c).state = .running then d.commandLegs c .toLow else d
  d.withdrawWindows c

/-- What a rise of the effective override does at once (R120). -/
def Device.afterRise (c : ChannelId) (before : Override) (d : Device) : Device :=
  if d.override c = .brake ∧ before ≠ .brake then d.applyBrake c else d

/-- V_a is set to 0; a computation in progress keeps its own, and V_a is 0 after it (R41). -/
def Channel.zeroVa (ch : Channel) : Channel :=
  { ch with va := 0, computation := ch.computation.map fun k => { k with zeroed := true } }

/-- The BRAKE hold of a channel that is OFF or FLOATED is cleared at once when BRAKE ends (R84). -/
def Channel.dropHold (ch : Channel) : Channel :=
  if ch.state = .running then ch else { ch with brakeHold := false }

/-- What a fall of the effective override by a release does (R84, R120). -/
def Device.afterFall (c : ChannelId) (before : Override) (d : Device) : Device :=
  let now := d.override c
  if now.code < before.code then
    d.modChan c fun ch => if before = .brake then ch.zeroVa.dropHold else ch.zeroVa
  else d

/-- A RUNNING channel becomes FLOATED: the latch is set, the gates go off, the window entries are withdrawn
(R13, R82, R98). -/
def Device.floatChannel (c : ChannelId) (d : Device) : Device :=
  ((d.modChan c fun ch => { ch with state := .floated, floatedLatch := true }).commandLegs c .toFloat).withdrawWindows c

/-! ### Assertion and release (R121, R122) -/

/-- The event record of a condition's assertion or release for a channel (R121, R122, R151). -/
def Device.conditionRecord (d : Device) (code : EventCode) (id : ConditionId) (c : ChannelId) (value : Int)
    (extra : Word) : LogItem :=
  .event { code := code, periodCount := (d.chan c).periodCount, condition := id.code, value := value,
           action := (d.action id c).code, extra := extra, state := (d.chan c).state }

/-- The capture unit receives a condition change for a channel's open period, with the value of its record (R121, R158).
DESIGN CHOICE, notes/assumptions/38.md. -/
def Device.captureChange (id : ConditionId) (c : ChannelId) (assertion : Bool) (value : Int) (d : Device) : Device :=
  d.gather c (CaptureBuffer.addChange
    { identifier := id.code, assertion := assertion, value := value, action := (d.action id c).code })

/-- Steps 1 to 4 of R121 for one channel in scope; `before` is its override before the assertion. -/
def Device.assertFor (id : ConditionId) (value : Int) (extra : Word) (before : Override) (c : ChannelId)
    (d : Device) : Device :=
  let act := d.action id c
  let floats := act == .float && (d.chan c).state == .running
  let d := d.afterRise c before
  let d := if floats then d.floatChannel c else d
  let d := d.hand c (d.conditionRecord .conditionAsserted id c value extra)
  let d := if floats then d.hand c (.event
    { code := .floated, periodCount := (d.chan c).periodCount, condition := id.code, value := 0,
      action := Action.float.code, extra := 0, state := .floated }) else d
  let d := if act = .note then d else d.setNotice (noticeTrip c)
  d.captureChange id c true value

/-- A condition instance is asserted (R121, R132).
DESIGN CHOICE, notes/assumptions/22.md. -/
def Device.assertCondition (id : ConditionId) (value : Int) (extra : Word) (d : Device) : Device :=
  let old := d.condition id
  let marked := d.setCondition id { asserted := true, count := 0, assertions := old.assertions + 1 }
  let done := (d.scope id).foldl (fun x c => x.assertFor id value extra (d.override c) c) marked
  if id = .hal then done.setNotice noticeHall else done

/-- What a release does for one channel in scope (R122). -/
def Device.releaseFor (id : ConditionId) (value : Int) (extra : Word) (before : Override) (c : ChannelId)
    (d : Device) : Device :=
  let d := d.afterFall c before
  let d := d.hand c (d.conditionRecord .conditionReleased id c value extra)
  d.captureChange id c false value

/-- A condition instance is released (R122). -/
def Device.releaseCondition (id : ConditionId) (value : Int) (extra : Word) (d : Device) : Device :=
  let old := d.condition id
  let marked := d.setCondition id { old with asserted := false, count := 0 }
  (d.scope id).foldl (fun x c => x.releaseFor id value extra (d.override c) c) marked

/-! ### Evaluation (R123 to R128) -/

/-- One evaluation of a condition with a filter count: outside the limit while not asserted counts, and asserts at
F + 1; inside resets the count; while asserted, `back` releases (R117). -/
def Device.evaluateFiltered (id : ConditionId) (outside back : Bool) (f : Nat) (value : Int) (d : Device) : Device :=
  let k := d.condition id
  if k.asserted then (if back then d.releaseCondition id value 0 else d)
  else if outside then
    if f + 1 ≤ k.count + 1 then d.assertCondition id value 0
    else d.setCondition id { k with count := k.count + 1 }
  else d.setCondition id { k with count := 0 }

/-- CUR at a period close (R123); a period with no metric changes nothing. -/
def Device.evaluateCur (c : ChannelId) (metric : Option Nat) (d : Device) : Device :=
  match metric with
  | some m =>
    let g := d.cfg c
    d.evaluateFiltered (.cur c) (g.curLimit < m) (m + g.curH ≤ g.curLimit) g.curF m
  | none => d

/-- ZER at a zero sample (R124). -/
def Device.evaluateZer (c : ChannelId) (z : ZeroSample) (d : Device) : Device :=
  d.evaluateFiltered (.zer c) (!z.accepted) z.accepted (d.cfg c).zerF z.code

/-- LOV at a link code (R127). -/
def Device.evaluateLov (code : Nat) (d : Device) : Device :=
  let g := globalSetup d.words
  d.evaluateFiltered .lov (g.lovLimit < code) (code + g.lovH ≤ g.lovLimit) g.lovF code

/-- LUN at a link code (R128). -/
def Device.evaluateLun (code : Nat) (d : Device) : Device :=
  let g := globalSetup d.words
  d.evaluateFiltered .lun (code < g.lunLimit) (g.lunLimit + g.lunH ≤ code) g.lunF code

/-- AGE is asserted at this load event (R125). -/
def Device.ageTrips (d : Device) (c : ChannelId) : Bool :=
  let ch := d.chan c
  ch.state == .running && (ch.plan.mode == .align || ch.plan.mode == .rotate) && (d.cfg c).amax != 0 &&
    !ch.age.asserted && decide ((d.cfg c).amax < ch.planAge)

/-- AGE at a load event (R125). -/
def Device.evaluateAge (c : ChannelId) (d : Device) : Device :=
  if d.ageTrips c then d.assertCondition (.age c) (d.chan c).planAge 0 else d

/-- AGE at the acceptance of a plan (R125). -/
def Device.releaseAge (c : ChannelId) (generation : Word) (d : Device) : Device :=
  if (d.chan c).age.asserted then d.releaseCondition (.age c) 0 generation else d

/-- HAL at an accepted Hall code (R126). The code goes into the record's further field; the value, of the record and of a
capture, is 0.
DESIGN CHOICE, notes/assumptions/38.md. -/
def Device.evaluateHal (code : BitVec 3) (d : Device) : Device :=
  if (d.chan .ch0).state = .off then d
  else match hallSector d.words code with
    | none => if d.hal.asserted then d else d.assertCondition .hal 0 (BitVec.ofNat 16 code.toNat)
    | some _ => if d.hal.asserted then d.releaseCondition .hal 0 (BitVec.ofNat 16 code.toNat) else d

/-- A channel's own conditions are cleared; this is no release (R11, R12, R122). The assertion counts stay (R132). -/
def Device.clearOwnConditions (c : ChannelId) (d : Device) : Device :=
  let d := d.modChan c fun ch =>
    { ch with
      cur := { ch.cur with asserted := false, count := 0 }
      zer := { ch.zer with asserted := false, count := 0 }
      age := { ch.age with asserted := false, count := 0 } }
  if c = .ch0 then { d with hal := { d.hal with asserted := false, count := 0 } } else d

/-! ### The fault lines (R86, R87, R129) -/

def Device.fault (d : Device) : FaultLine → FaultFilter
  | .flt0 => d.flt0
  | .flt1 => d.flt1

def Device.setFault (line : FaultLine) (x : FaultFilter) (d : Device) : Device :=
  match line with
  | .flt0 => { d with flt0 := x }
  | .flt1 => { d with flt1 := x }

/-- The condition of a fault line (R87). -/
def faultCondition : FaultLine → ConditionId
  | .flt0 => .fl0
  | .flt1 => .fl1

/-- A line takes a level: a new measure begins if the level differs from the filtered one, and a level equal to it
ends the measure (R86). A low level is asserted. Whether a line that returns at the very instant its measure reaches 2 ticks
does so before the filtered level changes is left open: the queue's order decides, and a change that comes first drops the
measure.
DESIGN CHOICE, notes/assumptions/37.md. -/
def FaultFilter.change (level : Bool) (now : RefCount) (f : FaultFilter) : FaultFilter :=
  if level = f.level then f
  else { f with level := level, since := if f.filtered = level then some now else none }

/-- The measure of a filter begins again, as at the end of a power-on or pin reset (R86). -/
def FaultFilter.restart (now : RefCount) (f : FaultFilter) : FaultFilter :=
  { f with filtered := false, since := if f.level then none else some now }

/-- A fault line's condition follows its filtered level while the setup is locked (R87, R117, R129). -/
def Device.followFault (line : FaultLine) (d : Device) : Device :=
  if d.locked then
    if (d.fault line).filtered then d.assertCondition (faultCondition line) 0 0
    else d.releaseCondition (faultCondition line) 0 0
  else d

/-- A level change at a fault line; during a power-on or pin reset no measure runs (R86). -/
def Device.changeFault (line : FaultLine) (level : Bool) (d : Device) : Device :=
  if d.inReset then d.setFault line { d.fault line with level := level }
  else d.setFault line ((d.fault line).change level d.refCount)

/-- The line has held its level for 2 ticks, and the filtered level changes (R86, R87). -/
def Device.expireFault (line : FaultLine) (d : Device) : Device :=
  match (d.fault line).since with
  | some t =>
    let d := d.advanceTo (t + BitVec.ofNat 32 Config.faultPersistence)
    let d := d.setFault line { d.fault line with filtered := !(d.fault line).level, since := none }
    (d.followFault line).arbitrate
  | none => d

/-- FAULT_LINE_CHANGE (R86). A line given the level it has does not change. -/
def execFaultLineChange (line : FaultLine) (level : Bool) (s : State) : Host.Outcome State Fault Refusal :=
  s.apply (Device.changeFault line level)

/-- FAULT_FILTER_EXPIRY (R87). It comes while a measure runs. -/
def execFaultFilterExpiry (line : FaultLine) (s : State) : Host.Outcome State Fault Refusal :=
  s.apply (Device.expireFault line)

end Sys2Proof.Machine
end

