-- ==== Sys2Proof/Machine/Placement.lean ====
section
/-! DEFINITION. Window placement (Chapter 4): leg order, pulses, windows, shifts, outcomes, requests, the all-float
set (R6), and the command PLACEMENT_RUN_END. -/

namespace Sys2Proof.Machine

open Sys2Proof

/-! ### Leg order (R54) -/

/-- The effective width of a leg for ranking (R54). -/
def LegDemand.effectiveWidth (period : Nat) : LegDemand → Nat
  | .pulse w => w
  | .high => period
  | .low => 0
  | .float => 0

/-- The order of three effective widths; of equal ones the lower index counts as the larger (R54). -/
def legOrder (w : PerLeg Nat) : LegOrder :=
  if w.b ≤ w.a ∧ w.c ≤ w.a then (if w.c ≤ w.b then .abc else .acb)
  else if w.a < w.b ∧ w.c ≤ w.b then (if w.c ≤ w.a then .bac else .bca)
  else (if w.b ≤ w.a then .cab else .cba)

/-! ### Pulses (R55, R56) -/

/-- The unshifted drive of a leg (R55). -/
def LegDemand.layOut (period : Nat) : LegDemand → Drive
  | .pulse w => .pulse ((period - w) / 2) ((period - w) / 2 + w)
  | .high => .high
  | .low => .low
  | .float => .float

/-- The turn-on position of a drive (R56). -/
def Drive.turnOn : Drive → Option Nat
  | .pulse start _ => some start
  | .high => some 0
  | .low => none
  | .float => none

/-- The turn-off position of a drive (R56). -/
def Drive.turnOff (period : Nat) : Drive → Option Nat
  | .pulse _ stop => some stop
  | .high => some period
  | .low => none
  | .float => none

/-- The earliest of the positions that exist (R56, R58, R59). -/
def earliest (positions : List (Option Nat)) : Option Nat :=
  positions.foldl (fun acc x => match acc, x with
    | some m, some n => some (min m n)
    | some m, none => some m
    | none, y => y) none

/-! ### Windows (R57 to R60) -/

/-- The drives of a period by rank. -/
structure Ranked where
  max : Drive
  mid : Drive
  min : Drive
  deriving DecidableEq, Repr

/-- The drives of the legs by rank (R54). -/
def rankedDrives (order : LegOrder) (drives : PerLeg Drive) : Ranked :=
  { max := drives.get order.ranks.1, mid := drives.get order.ranks.2.1, min := drives.get order.ranks.2.2 }

/-- All three legs are HIGH: no window exists (R60). -/
def Ranked.allHigh (r : Ranked) : Bool := r.max == .high && r.mid == .high && r.min == .high

/-- A window: its begin and end, or none when it does not exist. -/
abbrev Window := Option (Nat × Nat)

/-- The width of a window that exists (R57). -/
def windowWidth (w : Nat × Nat) : Nat := w.2 - w.1

/-- The first window (R58, R60). -/
def firstWindow (period : Nat) (r : Ranked) : Window :=
  if r.allHigh then none
  else match r.max.turnOn, earliest [r.mid.turnOn, r.max.turnOff period] with
    | some start, some stop => some (start, stop)
    | _, _ => none

/-- The second window (R59, R60). -/
def secondWindow (period : Nat) (r : Ranked) : Window :=
  if r.allHigh then none
  else match r.mid.turnOn, earliest [r.min.turnOn, r.mid.turnOff period, r.max.turnOff period] with
    | some start, some stop => some (start, stop)
    | _, _ => none

/-! ### Shifts (R61, R62) -/

/-- The first shift (R61). -/
def firstShift (g : ChannelSetup) (period : Nat) (r : Ranked) : Nat :=
  match firstWindow period r, r.max with
  | some w, .pulse start _ =>
    if windowWidth w < g.wwin then min (g.wwin - windowWidth w) (start - g.d / 2) else 0
  | _, _ => 0

/-- The max leg moved to the left (R61). -/
def shiftLeft (s : Nat) : Drive → Drive
  | .pulse start stop => .pulse (start - s) (stop - s)
  | x => x

/-- The second shift, measured after the first (R62). -/
def secondShift (g : ChannelSetup) (period : Nat) (r : Ranked) : Nat :=
  match secondWindow period r, r.min with
  | some w, .pulse _ stop =>
    if windowWidth w < g.wwin then min (g.wwin - windowWidth w) (period - g.d / 2 - stop) else 0
  | _, _ => 0

/-- The min leg moved to the right (R62). -/
def shiftRight (s : Nat) : Drive → Drive
  | .pulse start stop => .pulse (start + s) (stop + s)
  | x => x

/-! ### Outcomes and requests (R64 to R68) -/

/-- The last position from which a conversion ends within the period: P − Tc − 1 (R65). -/
def lastStart (period : Nat) : Nat := period - Config.conversionTime - 1

/-- The outcome of a window at its final measurement, and its request if one is formed (R64, R65). -/
def windowResult (g : ChannelSetup) (period : Nat) (kind : RequestKind) (w : Window) :
    WindowOutcome × Option Request :=
  match w with
  | none => (.absent, none)
  | some w =>
    if windowWidth w < g.wwin then (.failedShort, none)
    else
      let due := w.2 - g.a
      let deadline := min (due + g.lw) (lastStart period)
      if deadline < due then (.failedLate, none)
      else (.ok, some { kind := kind, due := due, deadline := deadline })

/-- The latest turn-off among the PULSE legs, or none when there is no PULSE leg (R66). -/
def latestPulseEnd (drives : PerLeg Drive) : Option Nat :=
  [drives.a, drives.b, drives.c].foldl (fun acc x => match acc, x with
    | some m, .pulse _ stop => some (max m stop)
    | none, .pulse _ stop => some stop
    | acc, _ => acc) none

/-- Some leg is HIGH. -/
def anyHigh (drives : PerLeg Drive) : Bool := drives.a == .high || drives.b == .high || drives.c == .high

/-- The period number is a multiple of Kz, and Kz is not 0 (R66). -/
def zeroPeriod (g : ChannelSetup) (number : BitVec 32) : Bool := g.kz != 0 && number.toNat % g.kz == 0

/-- The ZERO request of a set for a period number, if one is formed (R66). -/
def zeroRequest (g : ChannelSetup) (period : Nat) (number : BitVec 32) (drives : PerLeg Drive) :
    Option Request :=
  if !zeroPeriod g number || anyHigh drives then none
  else
    let due := (latestPulseEnd drives).getD 0 + g.wwin
    if lastStart period < due then none
    else some { kind := .zero, due := due, deadline := lastStart period }

/-- The LINK request of a set, if the link flag is set (R67). -/
def linkRequest (g : ChannelSetup) (period : Nat) : Option Request :=
  if g.link then some { kind := .link, due := period / 2, deadline := lastStart period } else none

/-! ### The edge set -/

/-- All three legs FLOAT. -/
def floatDrives : PerLeg Drive := { a := .float, b := .float, c := .float }

/-- The requests of a period in which all three legs float (R6, R66, R67). -/
def floatRequests (g : ChannelSetup) (modulus : Nat) (number : BitVec 32) : List Request :=
  [zeroRequest g (4 * modulus) number floatDrives, linkRequest g (4 * modulus)].filterMap id

/-- An all-float edge set (R6). -/
def allFloatSet (g : ChannelSetup) (modulus : Nat) (number : BitVec 32) (vector : VectorValues) : EdgeSet :=
  { modulus := modulus, drives := floatDrives, order := .abc, s1 := 0, s2 := 0,
    first := .absent, second := .absent, requests := floatRequests g modulus number, vector := vector }

/-- The vector values of a set that START makes (R50). -/
def VectorValues.zero : VectorValues :=
  { thetaMid := 0, va := 0, u := { a := 0, b := 0, c := 0 }, slewing := false }

/-- The edge set of a placement run whose hold is clear (R52). -/
def placedSet (g : ChannelSetup) (run : PlacementRun) : EdgeSet :=
  let period := 4 * run.modulus
  let order := legOrder (run.demands.map (LegDemand.effectiveWidth period))
  let plain := run.demands.map (LegDemand.layOut period)
  let s1 := firstShift g period (rankedDrives order plain)
  let moved := plain.set order.ranks.1 (shiftLeft s1 (plain.get order.ranks.1))
  let s2 := secondShift g period (rankedDrives order moved)
  let placed := moved.set order.ranks.2.2 (shiftRight s2 (moved.get order.ranks.2.2))
  let final := rankedDrives order placed
  let first := windowResult g period .first (firstWindow period final)
  let second := windowResult g period .second (secondWindow period final)
  { modulus := run.modulus, drives := placed, order := order, s1 := s1, s2 := s2,
    first := first.1, second := second.1
    requests := [first.2, second.2, zeroRequest g period run.period placed, linkRequest g period].filterMap id
    vector := run.vector }

/-- What a placement run stages: its set, or an all-float set if the resume hold is set (R53). -/
def stagedSet (g : ChannelSetup) (hold : Bool) (run : PlacementRun) : EdgeSet :=
  if hold then allFloatSet g run.modulus run.period run.vector else placedSet g run

/-- The end of a placement run (R53). -/
def Device.endPlacement (c : ChannelId) (d : Device) : Device :=
  match (d.chan c).placement with
  | some run =>
    d.modChan c fun ch =>
      { ch with placement := none, staged := some (stagedSet (d.cfg c) ch.resumeHold run) }
  | none => d

/-- PLACEMENT_RUN_END (R53). It comes while a placement run is in progress. -/
def execPlacementRunEnd (ch : ChannelId) (s : State) : Host.Outcome State Fault Refusal :=
  s.apply (Device.endPlacement ch)

end Sys2Proof.Machine
end

