-- ==== Sys2Proof/Machine/Conditioner.lean ====
section
/-! DEFINITION. The conditioner (Chapter 7): corrected codes, the zero level, window samples and link codes, and the
close of a period with its currents, its metric and its hand-over; the command CONVERSION_COMPLETE. -/

namespace Sys2Proof.Machine

open Sys2Proof

/-! ### Results (R103 to R109) -/

/-- The corrected code of a raw code under a gain trim (R104). -/
def correctedCode (trim raw : Nat) : Nat := min 4095 (raw * (98304 + trim) / 131072)

/-- Z8 after an accepted zero sample (R105). -/
def trackedZero (z8 r : Nat) : Nat := z8 - z8 / 8 + r

/-- A ZERO result: accepted into Z8 or rejected, buffered, and handed to ZER (R105). -/
def Device.takeZero (c : ChannelId) (r : Nat) (d : Device) : Device :=
  let g := d.cfg c
  let z : ZeroSample := { accepted := decide (g.zlo ≤ r) && decide (r ≤ g.zhi), code := r }
  (d.modChan c fun ch =>
    { ch with
      z8 := if z.accepted then trackedZero ch.z8 r else ch.z8
      buffer := { ch.buffer with zero := some z } }).evaluateZer c z

/-- The window sample of a corrected code, with Z as it stands (R107). -/
def Channel.sample (ch : Channel) (code : Nat) : Sample :=
  { value := (code : Int) - zeroLevel ch.z8, corrected := code }

/-- A FIRST result goes into the open-period buffer (R107). -/
def Device.takeFirst (c : ChannelId) (code : Nat) (d : Device) : Device :=
  d.modChan c fun ch => { ch with buffer := { ch.buffer with first := some (ch.sample code) } }

/-- A SECOND result goes into the open-period buffer (R107). -/
def Device.takeSecond (c : ChannelId) (code : Nat) (d : Device) : Device :=
  d.modChan c fun ch => { ch with buffer := { ch.buffer with second := some (ch.sample code) } }

/-- A LINK result: buffered, and handed to LOV and LUN, in a free order (R109, R127, R128). The status words follow each of
the two, as the second can undo what the first does to an effective override (R119).
DESIGN CHOICE, notes/assumptions/22.md. -/
def Device.takeLink (c : ChannelId) (code : Nat) (d : Device) : Device :=
  let d := d.modChan c fun ch => { ch with buffer := { ch.buffer with link := some code } }
  let lov := Device.showing (Device.evaluateLov code)
  let lun := Device.showing (Device.evaluateLun code)
  if Config.lovFirst d.freeIndex then lun (lov d) else lov (lun d)

/-- The conditioner treats a result by its kind (R103), after the report of R100 has its codes. -/
def Device.deliver (cv : Converter) (k : Conversion) (raw : Nat) (d : Device) : Device :=
  let e := k.entry
  let code := correctedCode (gainTrim d.words (inputOf e.channel e.kind)) raw
  let d := d.setReport e.channel e.kind (.started cv k.start (k.start - e.due).toNat (some (raw, code)))
  match e.kind with
  | .first => d.takeFirst e.channel code
  | .second => d.takeSecond e.channel code
  | .zero => d.takeZero e.channel code
  | .link => d.takeLink e.channel code

/-- A conversion completes: the converter is free, the result is handed on or, after a STOP, discarded, and the
arbiter hands out (R89, R97). Where the result's evaluation withdraws entries, a start at this same instant may be
taken before it or after it (R98, R99).
DESIGN CHOICE, notes/assumptions/15.md. -/
def Device.completeConversion (cv : Converter) (raw : BitVec 12) (d : Device) : Device :=
  match d.converter cv with
  | some k =>
    let d := d.advanceTo k.completes
    let freed := d.setConverter cv none
    if k.discard then freed.arbitrate
    else
      let handed := freed.deliver cv k raw.toNat
      if handed.requests = freed.requests then handed.arbitrate
      else if Config.takenFirst d.freeIndex then (freed.arbitrate.deliver cv k raw.toNat).arbitrate
      else handed.arbitrate
  | none => d

/-! ### Period close (R110 to R115) -/

/-- The samples of a window that count at the close: the buffered value if the outcome is OK, replaced by the
injected value if the plan injects (R110, R111). -/
def closingSample (outcome : WindowOutcome) (sample : Option Sample) (inject : Bool) (value : Int) : Option Int :=
  match outcome, sample with
  | .ok, some x => some (if inject then value else x.value)
  | _, _ => none

/-- A valid current after the clamp, with its saturation mark (R112). -/
def clampedCurrent (x : Int) : Current :=
  { value := clampInt (-4095) 4095 x, saturated := clampInt (-4095) 4095 x != x }

/-- The three currents by rank: i_max, i_mid, i_min (R112). -/
def rankedCurrents (first second : Option Int) : Option Current × Option Current × Option Current :=
  (first.map clampedCurrent,
   (match first, second with
    | some x, some y => some (clampedCurrent (y - x))
    | _, _ => none),
   second.map fun y => clampedCurrent (-y))

/-- The currents by leg (R113). -/
def namedCurrents (order : LegOrder) (r : Option Current × Option Current × Option Current) :
    PerLeg (Option Current) :=
  let of := fun l => if l = order.ranks.1 then r.1 else if l = order.ranks.2.1 then r.2.1 else r.2.2
  { a := of .a, b := of .b, c := of .c }

/-- The valid ones of three currents. -/
def validCurrents (i : PerLeg (Option Current)) : List Current := [i.a, i.b, i.c].filterMap id

/-- The metric: the largest magnitude among the valid currents, or none (R114). -/
def periodMetric (i : PerLeg (Option Current)) : Option Nat :=
  match validCurrents i with
  | [] => none
  | x :: rest => some (rest.foldl (fun m y => max m y.value.natAbs) x.value.natAbs)

/-- The closing period of a channel, its set in force `e` (R110 to R115). -/
def closedPeriod (ch : Channel) (e : EdgeSet) : ClosedPeriod :=
  let first := closingSample e.first ch.buffer.first ch.plan.inject ch.plan.injectFirst
  let second := closingSample e.second ch.buffer.second ch.plan.inject ch.plan.injectSecond
  let currents := namedCurrents e.order (rankedCurrents first second)
  { number := ch.periodCount, loadTime := ch.loadTime, plan := ch.plan, set := e, currents := currents
    saturated := (validCurrents currents).any Current.saturated
    injected := ch.plan.inject, metric := periodMetric currents
    zeroLevel := zeroLevel ch.z8, zero := ch.buffer.zero, link := ch.buffer.link
    reports := ch.buffer.reports }

/-- How many of a period's entries the arbiter missed (R149). -/
def ClosedPeriod.missedEntries (p : ClosedPeriod) : Nat :=
  ([p.reports.first, p.reports.second, p.reports.zero, p.reports.link].filter (· == some Report.missed)).length

/-- A window failed in placement (R162). -/
def WindowOutcome.failed (o : WindowOutcome) : Bool := o == .failedShort || o == .failedLate

/-- 1 when the flag is set, as a word. -/
def oneIf (b : Bool) : Word := if b then 1 else 0

/-- What the close leaves in the channel: the last metric (R114), the counters (R162) and the group counts (R149). -/
def Channel.countClose (p : ClosedPeriod) (ch : Channel) : Channel :=
  { ch with
    lastMetric := p.metric
    counters := { ch.counters with
      periods := ch.counters.periods + 1
      shiftedPeriods := ch.counters.shiftedPeriods + oneIf p.set.shifted
      failedWindows := ch.counters.failedWindows + oneIf p.set.first.failed + oneIf p.set.second.failed }
    log := { ch.log with
      groupNotOk := saturate255 (ch.log.groupNotOk + (if p.set.first.notOk || p.set.second.notOk then 1 else 0))
      groupMissed := saturate255 (ch.log.groupMissed + p.missedEntries) } }

/-- The close of a channel's period (step 1 of R8): reconstruction, the limit monitor's CUR, the record decision
(R149) and the capture unit's test (R159). -/
def Device.closePeriod (c : ChannelId) (d : Device) : Device :=
  match (d.chan c).inForce with
  | some e =>
    let p := closedPeriod (d.chan c) e
    let d := (d.modChan c (Channel.countClose p)).evaluateCur c p.metric
    let d := if p.number.toNat % p.plan.interval = 0 then d.hand c (.period p) else d
    d.selectPeriod c p
  | none => d

/-- CONVERSION_COMPLETE (R89). It comes while the converter is busy. -/
def execConversionComplete (cv : Converter) (raw : BitVec 12) (s : State) : Host.Outcome State Fault Refusal :=
  s.apply (Device.completeConversion cv raw)

end Sys2Proof.Machine
end

