-- ==== Sys2Proof/Machine/Vector.lean ====
section
/-! DEFINITION. The vector unit (Chapter 3): amplitude, angle, phase voltages, centering, widths and drives, and
the commands PEAK_EVENT and VECTOR_COMPUTATION_END. -/

namespace Sys2Proof.Machine

open Sys2Proof

/-! ### The sine table (R44)

Entries 0 to 256, each 32767·sin(2πi/1024) rounded to the nearest whole number. -/

def sineQuarter0 : List Nat :=
  [0, 201, 402, 603, 804, 1005, 1206, 1407, 1608, 1809, 2009, 2210, 2410, 2611, 2811, 3012,
   3212, 3412, 3612, 3811, 4011, 4210, 4410, 4609, 4808, 5007, 5205, 5404, 5602, 5800, 5998,
   6195, 6393, 6590, 6786, 6983, 7179, 7375, 7571, 7767, 7962, 8157, 8351, 8545, 8739, 8933,
   9126, 9319, 9512, 9704, 9896, 10087, 10278, 10469, 10659, 10849, 11039, 11228, 11417,
   11605, 11793, 11980, 12167, 12353]

def sineQuarter1 : List Nat :=
  [12539, 12725, 12910, 13094, 13279, 13462, 13645, 13828, 14010, 14191, 14372, 14553, 14732,
   14912, 15090, 15269, 15446, 15623, 15800, 15976, 16151, 16325, 16499, 16673, 16846, 17018,
   17189, 17360, 17530, 17700, 17869, 18037, 18204, 18371, 18537, 18703, 18868, 19032, 19195,
   19357, 19519, 19680, 19841, 20000, 20159, 20317, 20475, 20631, 20787, 20942, 21096, 21250,
   21403, 21554, 21705, 21856, 22005, 22154, 22301, 22448, 22594, 22739, 22884, 23027]

def sineQuarter2 : List Nat :=
  [23170, 23311, 23452, 23592, 23731, 23870, 24007, 24143, 24279, 24413, 24547, 24680, 24811,
   24942, 25072, 25201, 25329, 25456, 25582, 25708, 25832, 25955, 26077, 26198, 26319, 26438,
   26556, 26674, 26790, 26905, 27019, 27133, 27245, 27356, 27466, 27575, 27683, 27790, 27896,
   28001, 28105, 28208, 28310, 28411, 28510, 28609, 28706, 28803, 28898, 28992, 29085, 29177,
   29268, 29358, 29447, 29534, 29621, 29706, 29791, 29874, 29956, 30037, 30117, 30195]

def sineQuarter3 : List Nat :=
  [30273, 30349, 30424, 30498, 30571, 30643, 30714, 30783, 30852, 30919, 30985, 31050, 31113,
   31176, 31237, 31297, 31356, 31414, 31470, 31526, 31580, 31633, 31685, 31736, 31785, 31833,
   31880, 31926, 31971, 32014, 32057, 32098, 32137, 32176, 32213, 32250, 32285, 32318, 32351,
   32382, 32412, 32441, 32469, 32495, 32521, 32545, 32567, 32589, 32609, 32628, 32646, 32663,
   32678, 32692, 32705, 32717, 32728, 32737, 32745, 32752, 32757, 32761, 32765, 32766]

def sineQuarter4 : List Nat :=
  [32767]

def sineQuarter : List Nat :=
  sineQuarter0 ++ sineQuarter1 ++ sineQuarter2 ++ sineQuarter3 ++ sineQuarter4

/-- Entry i of the sine table S, i in 0..1023, from its first quarter by its symmetries (R44). -/
def sine (i : Nat) : Int :=
  if i ≤ 256 then (sineQuarter.getD i 0 : Nat)
  else if i ≤ 512 then (sineQuarter.getD (512 - i) 0 : Nat)
  else if i ≤ 768 then -((sineQuarter.getD (i - 512) 0 : Nat) : Int)
  else -((sineQuarter.getD (1024 - i) 0 : Nat) : Int)

/-! ### Amplitude (R39, R40) -/

/-- V_a moves toward V_t by at most σ; a σ of 0 steps at once (R39). -/
def slewToward (va target slew : Nat) : Nat :=
  if slew = 0 then target
  else if va < target then min (va + slew) target
  else max (va - slew) target

/-- The σ of the ALIGN step: 0 is taken as 32767 (R40). -/
def alignSlew (slew : Nat) : Nat := if slew = 0 then 32767 else slew

/-- The ALIGN step under the current guard (R40). -/
def alignStep (plan : Plan) (va : Nat) (metric : Option Nat) : Nat :=
  match metric with
  | some m =>
    if plan.guardHigh ≤ m then va - alignSlew plan.slew
    else if m ≤ plan.guardLow then slewToward va plan.target (alignSlew plan.slew)
    else va
  | none => va

/-- The amplitude step of a peak computation (R39, R40); under the resume hold it is not made. -/
def amplitudeStep (plan : Plan) (hold : Bool) (va : Nat) (metric : Option Nat) : Nat :=
  if hold then va
  else match plan.mode with
    | .coast => 0
    | .brake => 0
    | .rotate => slewToward va plan.target plan.slew
    | .align => alignStep plan va metric

/-- The slewing mark (R39). -/
def slewingMark (plan : Plan) (hold : Bool) (va : Nat) : Bool :=
  !hold && (plan.mode == .align || plan.mode == .rotate) && va != plan.target

/-! ### Angle (R42, R43) -/

/-- θ_mid of the vector for the next period (R42). -/
def thetaMid (plan : Plan) (theta : Angle) (q : BitVec 16) (pending : Option Angle) : Angle :=
  let omega := BitVec.ofInt 16 plan.rate
  let half := BitVec.ofInt 16 (plan.rate / 2)
  match pending, plan.mode with
  | some p, .align => p
  | some p, _ => p + half
  | none, .align => theta + q
  | none, _ => theta + omega + q + half

/-- θ after a load event that advances it (R43). -/
def advancedTheta (plan : Plan) (theta : Angle) (q : BitVec 16) (pending : Option Angle) : Angle :=
  match pending, plan.mode with
  | some p, _ => p
  | none, .align => theta + q
  | none, _ => theta + BitVec.ofInt 16 plan.rate + q

/-! ### Voltages, centering, widths (R45 to R48) -/

/-- The leg voltage at an angle: floor(V_a·S[floor(angle/64)]/32768) (R45). -/
def legVoltage (va : Nat) (angle : Angle) : Int := (va : Int) * sine (angle.toNat / 64) / 32768

/-- u of the three legs (R45). -/
def phaseVoltages (va : Nat) (mid : Angle) : PerLeg Int :=
  { a := legVoltage va mid
    b := legVoltage va (mid - BitVec.ofNat 16 21845)
    c := legVoltage va (mid - BitVec.ofNat 16 43691) }

/-- u′ of the three legs (R46). -/
def centred (u : PerLeg Int) : PerLeg Int :=
  let top := max u.a (max u.b u.c)
  let bottom := min u.a (min u.b u.c)
  let off := -((top + bottom) / 2)
  u.map fun x => x + off

/-- W of a leg: P/2 + floor(u′·P/65536) (R47). -/
def legWidth (period : Nat) (u : Int) : Int := (period / 2 : Nat) + u * period / 65536

/-- The LOW and HIGH clamps of a width (R48). -/
def clampedDemand (period deadtime : Nat) (width : Int) : LegDemand :=
  if width < deadtime then .low
  else if (period : Int) - deadtime < width then .high
  else .pulse width.toNat

/-- The drive of a leg by the first row of R49 that applies. -/
def legDemand (state : ChannelState) (override : Override) (mode : Mode) (period deadtime : Nat)
    (width : Int) : LegDemand :=
  if state = .floated then .float
  else if override = .brake then .low
  else if mode = .brake then .low
  else if mode = .coast then .float
  else if override = .zero then .pulse (period / 2)
  else clampedDemand period deadtime width

/-! ### The peak computation (R38) -/

/-- What a peak computation reads, as it stands at the peak (R9, R38). -/
def Device.computationAtPeak (d : Device) (c : ChannelId) : Computation :=
  let ch := d.chan c
  { since := d.refCount, period := ch.periodCount + 1, plan := ch.plan, state := ch.state,
    override := d.override c, hold := ch.resumeHold, theta := ch.theta, q := ch.q, va := ch.va,
    pendingAngle := ch.pendingAngle, metric := ch.lastMetric, zeroed := false }

/-- V_a after the amplitude step of a computation. -/
def Computation.newVa (k : Computation) : Nat := amplitudeStep k.plan k.hold k.va k.metric

/-- The vector values of a computation (R50). -/
def Computation.values (k : Computation) : VectorValues :=
  let va := k.newVa
  let mid := thetaMid k.plan k.theta k.q k.pendingAngle
  { thetaMid := mid, va := va, u := centred (phaseVoltages va mid),
    slewing := slewingMark k.plan k.hold va }

/-- The drives a computation hands to placement (R49). -/
def Computation.demands (k : Computation) (deadtime : Nat) : PerLeg LegDemand :=
  let period := 4 * k.plan.modulus
  k.values.u.map fun u =>
    legDemand k.state k.override k.plan.mode period deadtime (legWidth period u)

/-- The placement run that follows a computation (R52). -/
def Computation.placement (k : Computation) (since : RefCount) (deadtime : Nat) : PlacementRun :=
  { since := since, period := k.period, modulus := k.plan.modulus,
    demands := k.demands deadtime, vector := k.values }

/-- The channel's timebase runs (R2). -/
def Channel.runs (ch : Channel) : Bool := ch.state != .off

/-- The peak event of a channel: the timebase turns, and the computation begins (R1, R9, R38). -/
def Device.peak (c : ChannelId) (d : Device) : Device :=
  match (d.chan c).inForce with
  | some e =>
    if (d.chan c).runs && !(d.chan c).falling then
      let d := d.advanceTo (d.instantOf c (e.period / 2))
      d.modChan c fun ch => { ch with falling := true, computation := some (d.computationAtPeak c) }
    else d
  | none => d

/-- The end of a peak computation: the new V_a replaces the old unless V_a was set to 0 meanwhile, and placement
begins (R38, R41, R52). -/
def Device.endComputation (c : ChannelId) (d : Device) : Device :=
  match (d.chan c).computation with
  | some k =>
    d.modChan c fun ch =>
      { ch with
        va := if k.zeroed then 0 else k.newVa
        computation := none
        placement := some (k.placement d.refCount (d.cfg c).d) }
  | none => d

/-- PEAK_EVENT (R9). A channel that is OFF produces none (R2), and a period has one.
DESIGN CHOICE, notes/assumptions/16.md. -/
def execPeakEvent (ch : ChannelId) (s : State) : Host.Outcome State Fault Refusal :=
  s.apply (Device.peak ch)

/-- VECTOR_COMPUTATION_END (R38). It comes while a computation is in progress. -/
def execVectorComputationEnd (ch : ChannelId) (s : State) : Host.Outcome State Fault Refusal :=
  s.apply (Device.endComputation ch)

end Sys2Proof.Machine
end

