-- ==== Sys2Proof/Machine/Channel.lean ====
section
/-! DEFINITION. The channel controller at its load event (R8) and the plan fetch (Chapter 2); the commands LOAD_EVENT
and PLAN_FETCH_END. -/

namespace Sys2Proof.Machine

open Sys2Proof

/-! ### Opening a period (steps 2 to 6 of R8) -/

/-- A set going into force: an all-float set takes its requests for the period number just produced (R6, R7).
DEDUCED, notes/assumptions/31.md. -/
def EdgeSet.intoForce (g : ChannelSetup) (number : BitVec 32) (e : EdgeSet) : EdgeSet :=
  if e.drives = floatDrives then { e with requests := floatRequests g e.modulus number } else e

/-- Steps 2 to 4 of R8 in the channel: the staged set goes into force, the hold is cleared, the count and the plan
age advance (R33), the load time is latched, and the buffer opens empty (R108). -/
def Channel.openPeriod (g : ChannelSetup) (now : RefCount) (ch : Channel) : Channel :=
  { ch with
    inForce := ch.staged.map (EdgeSet.intoForce g (ch.periodCount + 1))
    resumeHold := false
    falling := false
    periodCount := ch.periodCount + 1
    planAge := min (ch.planAge + 1) 65535
    loadTime := now
    buffer := .empty }

/-- A request is entered: a window request only if the channel is RUNNING and its override is not BRAKE (R8). -/
def Device.entersRequest (d : Device) (c : ChannelId) (r : Request) : Bool :=
  !isWindowKind r.kind || ((d.chan c).state == .running && d.override c != .brake)

/-- The entry of a request of a channel's set in force (R8, R91). -/
def Device.entryFor (d : Device) (c : ChannelId) (r : Request) : Entry :=
  { channel := c, kind := r.kind, due := d.instantOf c r.due, deadline := d.instantOf c r.deadline,
    period := (d.chan c).periodCount }

/-- Step 5 of R8: the requests of the set in force join the list in their order. -/
def Device.enterRequests (c : ChannelId) (d : Device) : Device :=
  match (d.chan c).inForce with
  | some e =>
    { d with requests :=
        ((e.requests.filter (d.entersRequest c)).map (d.entryFor c)).foldl (fun l x => insertEntry x l) d.requests }
  | none => d

/-- The BRAKE hold is cleared at a load event that finds the override released (R84). -/
def Device.clearHold (c : ChannelId) (d : Device) : Device :=
  if d.override c = .brake then d else d.modChan c fun ch => { ch with brakeHold := false }

/-- The legs at the load event: low under the BRAKE hold, else by the drives of the set in force (R78, R79, R81). -/
def Device.loadLegs (c : ChannelId) (d : Device) : Device :=
  if (d.chan c).state = .running then
    if (d.chan c).brakeHold then d.commandLegs c .toLow
    else match (d.chan c).inForce with
      | some e =>
        ((d.commandLeg c .a e.drives.a.command).commandLeg c .b e.drives.b.command).commandLeg c .c
          e.drives.c.command
      | none => d
  else d

/-- What the leg stage and the request list take from the set that goes into force. -/
def Device.followSet (c : ChannelId) (d : Device) : Device := ((d.clearHold c).loadLegs c).enterRequests c

/-- Step 6 of R8: a fetch of the plan slot begins (R19). -/
def Device.startFetch (c : ChannelId) (d : Device) : Device :=
  d.modChan c fun ch =>
    { ch with fetch := some { period := ch.periodCount,
                              reader := { since := d.refCount, todo := fetchOrder c, got := [] } } }

/-- Steps 2 to 6 of R8. An AGE assertion at this load event and the set's taking up may come in either order
(R125). DESIGN CHOICE, notes/assumptions/15.md and 25.md. -/
def Device.openPeriod (c : ChannelId) (d : Device) : Device :=
  let d := d.modChan c (Channel.openPeriod (d.cfg c) d.refCount)
  let d := d.followPeriod c
  let d :=
    if d.ageTrips c then
      if Config.takenFirst d.freeIndex then (d.evaluateAge c).followSet c else (d.followSet c).evaluateAge c
    else d.followSet c
  d.startFetch c

/-! ### The load event (R8, R43) -/

/-- The vector unit advances θ, and Q and the pending angle are cleared (R43). -/
def Channel.advanceTheta (ch : Channel) : Channel :=
  { ch with theta := advancedTheta ch.plan ch.theta ch.q ch.pendingAngle, q := 0, pendingAngle := none }

/-- The load event of a channel whose timebase runs (R8). -/
def Device.load (c : ChannelId) (d : Device) : Device :=
  match (d.chan c).inForce with
  | some e =>
    if (d.chan c).runs then
      let d := (d.advanceTo (d.instantOf c e.period)).closePeriod c
      ((d.modChan c Channel.advanceTheta).openPeriod c).arbitrate
    else d
  | none => d

/-! ### The plan fetch (R19 to R29) -/

/-- A torn fetch (R20). -/
def Device.tornFetch (c : ChannelId) (d : Device) : Device :=
  d.modChan c fun ch => { ch with counters := { ch.counters with tornReads := ch.counters.tornReads + 1 } }

/-- A refused plan: the generation, the counter and the record; PLANXn follows the record (R24).
DEDUCED, notes/assumptions/36.md. -/
def Device.refusePlan (c : ChannelId) (period : BitVec 32) (generation : Word) (reason : Nat) (d : Device) : Device :=
  let d := d.modChan c fun ch =>
    { ch with lastSeen := generation, counters := { ch.counters with refusedPlans := ch.counters.refusedPlans + 1 } }
  d.hand c (.event { code := .planRefused, periodCount := period, condition := 0, value := reason, action := 0,
                     extra := generation, state := (d.chan c).state })

/-- What an accepted plan changes in the channel (R25, R27, R28, R29, R33). -/
def Channel.acceptPlan (plan : Plan) (clamped : Bool) (ch : Channel) : Channel :=
  { ch with
    lastSeen := plan.generation
    plan := plan
    counters := { ch.counters with acceptedPlans := ch.counters.acceptedPlans + 1 }
    planAge := 0
    clampedMark := ch.clampedMark || clamped
    q := ch.q + BitVec.ofInt 16 plan.adjust
    pendingAngle := if plan.setAngle then some plan.angle else ch.pendingAngle }

/-- The outcome of a fetch takes effect (R20 to R25); an acceptance releases AGE (R125). -/
def Device.decideFetch (c : ChannelId) (f : Fetch) (d : Device) : Device :=
  let slot := slotWords (f.reader.finish d.ram)
  let d := d.modChan c fun ch => { ch with fetch := none }
  match fetchOutcome (d.cfg c) (d.chan c).lastSeen slot with
  | .torn => d.tornFetch c
  | .empty => d
  | .duplicate => d
  | .refused reason => d.refusePlan c f.period (slot.getD 0 0) reason
  | .accepted plan clamped =>
    (d.modChan c (Channel.acceptPlan plan clamped)).releaseAge c plan.generation

/-- The end of a channel's plan fetch (R19). -/
def Device.endFetch (c : ChannelId) (d : Device) : Device :=
  match (d.chan c).fetch with
  | some f => d.decideFetch c f
  | none => d

/-- LOAD_EVENT (R8). A channel that is OFF produces none (R2). DESIGN CHOICE, notes/assumptions/16.md. -/
def execLoadEvent (ch : ChannelId) (s : State) : Host.Outcome State Fault Refusal := s.apply (Device.load ch)

/-- PLAN_FETCH_END (R19). It comes while a fetch is in flight. -/
def execPlanFetchEnd (ch : ChannelId) (s : State) : Host.Outcome State Fault Refusal := s.apply (Device.endFetch ch)

end Sys2Proof.Machine
end

