-- ==== Sys2Proof/Machine/Logs.lean ====
section
/-! DEFINITION. The log writer and the notice registers (Chapter 10): release, room, the words of the two kinds of
record, and the commands RECORD_TAKE, RECORD_WRITE_END, NOTICE_WRITE and NOTICE_EN_WRITE. -/

namespace Sys2Proof.Machine

open Sys2Proof

/-! ### Release and room (R147, R148) -/

/-- The release word of a channel (R147). -/
def releaseAddress (c : ChannelId) : Nat := 0xE0 + channelIndex c

/-- A release count is valid: it lies between the last valid release and the written count (R147). -/
def Log.releaseOk (l : Log) (rl : Word) : Bool :=
  decide ((rl - l.releaseValid).toNat ≤ (l.written - l.releaseValid).toNat)

/-- The unreleased count of a log (R147). -/
def Log.unreleased (l : Log) : Nat := (l.written - l.releaseValid).toNat

/-- The free count of a channel's log (R147). -/
def Log.free (c : ChannelId) (l : Log) : Nat := logCapacity c - l.unreleased

/-- The log writer reads a log's release word and judges it (R147). -/
def Device.judgeRelease (c : ChannelId) (d : Device) : Device :=
  let rl := Memory.read d.ram (releaseAddress c)
  if (d.chan c).log.releaseOk rl then
    d.modChan c fun ch => { ch with log := { ch.log with releaseValid := rl } }
  else
    (d.modChan c fun ch => { ch with log := { ch.log with badRelease := true } }).setNotice noticeLoss

/-! ### The words of the records (section 12.5) -/

/-- The sector code of a period record: 0..5, 6 for none, 7 for INVALID; 0 on the pumps (R150). -/
def Device.recordSector (d : Device) (c : ChannelId) : Nat :=
  match c with
  | .ch0 => match d.hall.accepted with
    | some code => (hallSector d.words code).getD 7
    | none => 6
  | _ => 0

/-- The Hall direction code of a period record; 0 on the pumps (R150). -/
def Device.recordDirection (d : Device) (c : ChannelId) : Nat :=
  match c with
  | .ch0 => d.hall.direction.code
  | _ => 0

/-- The Hall interval of a period record; 0 on the pumps (R150). -/
def Device.recordInterval (d : Device) (c : ChannelId) : Nat :=
  match c with
  | .ch0 => d.hall.interval
  | _ => 0

/-- The 16 words of a period record, as it is taken (R150). -/
def Device.periodRecord (d : Device) (c : ChannelId) (p : ClosedPeriod) : List Word :=
  let ch := d.chan c
  [ch.log.written,
   BitVec.ofNat 16 (1 + channelIndex c * 4 + ch.state.code * 16 + p.plan.mode.code * 64 + (d.override c).code * 256 +
     p.set.order.code * 1024 + d.recordSector c * 8192),
   flagsWord ch.clampedMark p,
   p.number.truncate 16,
   p.plan.generation,
   p.set.vector.thetaMid,
   BitVec.ofNat 16 p.set.vector.va,
   currentWord p.currents.a, currentWord p.currents.b, currentWord p.currents.c,
   BitVec.ofNat 16 p.set.s1, BitVec.ofNat 16 p.set.s2,
   BitVec.ofNat 16 (p.link.getD 0),
   BitVec.ofNat 16 (p.zeroLevel + d.recordDirection c * 8192),
   BitVec.ofNat 16 (ch.log.groupNotOk + ch.log.groupMissed * 256),
   BitVec.ofNat 16 (d.recordInterval c)]

/-- The 16 words of an event record (R151). A value above 32767, which an AGE assertion can have, stands as its low 16 bits,
and the bits of word 1 that have no content are 0.
DESIGN CHOICE, notes/assumptions/40.md and 41.md. -/
def eventRecord (written : Word) (c : ChannelId) (e : EventRecord) : List Word :=
  [written, BitVec.ofNat 16 (2 + channelIndex c * 4 + e.state.code * 16 + e.code.code * 256)] ++
  twoWords e.periodCount ++
  [BitVec.ofNat 16 e.condition, wordOf e.value, BitVec.ofNat 16 e.action, e.extra] ++ List.replicate 8 0

/-- The first word of the place of the record with this sequence number (R145). -/
def recordPlace (c : ChannelId) (sequence : Word) : Nat := logBase c + 16 * (sequence.toNat % logCapacity c)

/-! ### Taking and writing (R146, R148, R152) -/

/-- The writing of a record begins (step 3 of R146). -/
def Device.beginRecord (c : ChannelId) (words : List Word) (event : Option EventCode) (d : Device) : Device :=
  d.modChan c fun ch =>
    { ch with log := { ch.log with
        writing := some { since := d.refCount, place := recordPlace c ch.log.written, words := words, event := event } } }

/-- A period record that is written takes the clamped mark and the group counts with it (R27, R149). -/
def Device.writePeriod (c : ChannelId) (p : ClosedPeriod) (d : Device) : Device :=
  (d.beginRecord c (d.periodRecord c p) none).modChan c fun ch =>
    { ch with clampedMark := false, log := { ch.log with groupNotOk := 0, groupMissed := 0 } }

/-- A period record without room is dropped (R148). -/
def Device.dropPeriod (c : ChannelId) (d : Device) : Device :=
  d.modChan c fun ch =>
    { ch with counters := { ch.counters with droppedRecords := ch.counters.droppedRecords + 1 } }

/-- PLANXn is set once the PLAN_REFUSED record is written or lost, as R24 orders what the host observes.
DEDUCED, notes/assumptions/36.md. -/
def Device.noticeRefusal (c : ChannelId) (event : Option EventCode) (d : Device) : Device :=
  if event = some .planRefused then d.setNotice (noticePlanx c) else d

/-- An event record without room is lost (R148). -/
def Device.loseEvent (c : ChannelId) (event : EventCode) (d : Device) : Device :=
  ((d.modChan c fun ch => { ch with log := { ch.log with eventLost := true } }).setNotice noticeLoss).noticeRefusal c
    (some event)

/-- A record is written, dropped or lost by the room rule (R148). -/
def Device.placeRecord (c : ChannelId) (item : LogItem) (d : Device) : Device :=
  let free := (d.chan c).log.free c
  match item with
  | .period p => if 2 ≤ free then d.writePeriod c p else d.dropPeriod c
  | .event e =>
    if 1 ≤ free then d.beginRecord c (eventRecord (d.chan c).log.written c e) (some e.code) else d.loseEvent c e.code

/-- The log writer takes the next record of a log, unless one is being written (R146). DEDUCED,
notes/assumptions/27.md. -/
def Device.takeRecord (c : ChannelId) (d : Device) : Device :=
  match (d.chan c).log.writing, (d.chan c).log.waiting with
  | none, item :: rest =>
    ((d.modChan c fun ch => { ch with log := { ch.log with waiting := rest } }).judgeRelease c).placeRecord c item
  | _, _ => d

/-- The record just written sets LOGn (R152). -/
def Device.noticesLog (d : Device) (c : ChannelId) (event : Bool) : Bool :=
  event || decide ((d.cfg c).level ≤ (d.chan c).log.unreleased)

/-- The end of a record's writing: its words stand in the RAM, but where a host write came after the part's (R171), W is
raised, LOGn is set, and PLANXn after a PLAN_REFUSED record (R24, R146, R152). -/
def Device.endRecord (c : ChannelId) (d : Device) : Device :=
  match (d.chan c).log.writing with
  | some w =>
    let d := { d with ram := Memory.writeSome (fun a => !w.kept.contains a) d.ram w.place w.words }
    let d := d.modChan c fun ch =>
      { ch with log := { ch.log with written := ch.log.written + 1, writing := none } }
    (if d.noticesLog c w.event.isSome then d.setNotice (noticeLog c) else d).noticeRefusal c w.event
  | none => d

/-- RECORD_TAKE (R146). It comes while a record waits and none of its log is being written. -/
def execRecordTake (ch : ChannelId) (s : State) : Host.Outcome State Fault Refusal :=
  s.apply (Device.takeRecord ch)

/-- RECORD_WRITE_END (R146, R152). It comes while a record is being written. -/
def execRecordWriteEnd (ch : ChannelId) (s : State) : Host.Outcome State Fault Refusal :=
  s.apply (Device.endRecord ch)

/-! ### NOTICE and NOTICE_EN (R153, R154) -/

/-- A host write to NOTICE clears each bit written as 1 (R153). No host write is taken while READY is low.
DEDUCED, notes/assumptions/20.md. -/
def Device.writeNotice (value : Word) (d : Device) : Device :=
  if d.ready then { d with notice := d.notice &&& ~~~(value.truncate 13) } else d

/-- A host write to NOTICE_EN (R154). No host write is taken while READY is low.
DEDUCED, notes/assumptions/20.md. -/
def Device.writeNoticeEn (value : Word) (d : Device) : Device :=
  if d.ready then { d with noticeEn := value.truncate 13 } else d

/-- NOTICE_WRITE (R153); INT follows, as it is read from the two registers. -/
def execNoticeWrite (value : Word) (s : State) : Host.Outcome State Fault Refusal :=
  s.apply (Device.writeNotice value)

/-- NOTICE_EN_WRITE (R154). -/
def execNoticeEnWrite (value : Word) (s : State) : Host.Outcome State Fault Refusal :=
  s.apply (Device.writeNoticeEn value)

end Sys2Proof.Machine
end

