-- ==== Sys2Proof/Machine/Hall.lean ====
section
/-! DEFINITION. The Hall timer (Chapter 9): the filter, acquisition, classification, the interval, the snap, and the
commands HALL_LINE_CHANGE and HALL_FILTER_EXPIRY. -/

namespace Sys2Proof.Machine

open Sys2Proof

/-! ### Classification and interval (R137, R138) -/

/-- The classification of a transition into a sector, or an INVALID code, against the reference sector (R137). -/
def classify (sector ref : Option Nat) : Direction :=
  match sector, ref with
  | none, _ => .invalid
  | some _, none => .none
  | some s, some r =>
    if r = (s + 5) % 6 then .forward
    else if r = (s + 1) % 6 then .reverse
    else if r = s then .back
    else .skip

/-- The time from the previous timestamp to a transition's own (R138). -/
def HallTimer.elapsedAt (h : HallTimer) (r : HallRun) : Nat :=
  if h.elapsed < Config.measureLimit then h.elapsed - r.measure else Config.measureLimit

/-- The interval of a transition (R138). -/
def HallTimer.intervalAt (h : HallTimer) (r : HallRun) : Nat :=
  if h.lastTransition.isSome then h.elapsedAt r / 64 else 65535

/-- The timer's own state after an accepted transition (step 1 of R139). -/
def HallTimer.transition (sector : Option Nat) (r : HallRun) (h : HallTimer) : HallTimer :=
  { h with
    accepted := some h.raw
    run := none
    refSector := if sector.isSome then sector else h.refSector
    lastTransition := some r.first
    elapsed := r.measure
    direction := classify sector h.refSector
    interval := h.intervalAt r }

/-- The timer's own state after the acquisition (R136). -/
def HallTimer.acquisition (sector : Option Nat) (h : HallTimer) : HallTimer :=
  { h with accepted := some h.raw, acquiring := none, refSector := sector, direction := .none }

/-! ### The snap (R140, R141) -/

/-- The direction of a transition agrees with the sign of ω (R140). -/
def agrees (dir : Direction) (rate : Int) : Bool :=
  (dir == .forward && decide (0 < rate)) || (dir == .reverse && decide (rate < 0))

/-- A transition makes a snap (R140). -/
def Channel.snaps (ch : Channel) (dir : Direction) : Bool :=
  ch.state == .running && ch.plan.mode == .rotate && ch.plan.snap && agrees dir ch.plan.rate

/-- The boundary a transition into a sector crosses (R141). -/
def snapBoundary (words : List Word) (dir : Direction) (sector : Nat) : Angle :=
  hallBoundary words (if dir = .reverse then (sector + 1) % 6 else sector)

/-- The expected angle at an edge position t of the present period (R141). -/
def edgeAngle (ch : Channel) (period : Nat) (t : Int) : Angle :=
  ch.theta + BitVec.ofInt 16 (ch.plan.rate * t / period) + ch.q

/-- The error e of a snap (R141). -/
def snapError (words : List Word) (ch : Channel) (period : Nat) (dir : Direction) (sector : Nat)
    (timestamp : RefCount) : Int :=
  (snapBoundary words dir sector - edgeAngle ch period (timestamp - ch.loadTime).toInt).toInt

/-- The snap: Q takes the clamped error, the error is kept, the counter moves (R141). -/
def Device.snap (dir : Direction) (sector : Nat) (timestamp : RefCount) (d : Device) : Device :=
  let ch := d.chan .ch0
  let period := (ch.inForce.map EdgeSet.period).getD 0
  let e := snapError d.words ch period dir sector timestamp
  let limit : Int := hallCsnap d.words
  let d := d.modChan .ch0 fun ch =>
    { ch with
      q := ch.q + BitVec.ofInt 16 (clampInt (-limit) limit e)
      counters := { ch.counters with hallSnaps := ch.counters.hallSnaps + 1 } }
  { d with hall := { d.hall with snapError := some e } }.showStatus [0x11A, 0x11B]

/-! ### Acceptance (R136, R139) -/

/-- The status words of the accepted code, its sector, the direction and the interval (step 2 of R139). -/
def hallWords : List Nat := [0x116, 0x117, 0x118, 0x119]

/-- A skip: the counter, the record and the notice (step 5 of R139). -/
def Device.reportSkip (refBefore : Option Nat) (code : BitVec 3) (d : Device) : Device :=
  let ch := d.chan .ch0
  ((d.modChan .ch0 fun ch =>
      { ch with counters := { ch.counters with hallSkips := ch.counters.hallSkips + 1 } }).hand .ch0
    (.event { code := .hallSkip, periodCount := ch.periodCount, condition := 0, value := (refBefore.getD 0 : Nat),
              action := 0, extra := BitVec.ofNat 16 code.toNat, state := ch.state })).setNotice noticeHall

/-- The acquisition of the present code (R136, R139). -/
def Device.acquire (d : Device) : Device :=
  let h := d.hall.acquisition (hallSector d.words d.hall.raw)
  ({ d with hall := h }.showStatus hallWords).evaluateHal d.hall.raw

/-- The acceptance of a transition (R139). -/
def Device.acceptTransition (r : HallRun) (d : Device) : Device :=
  let code := d.hall.raw
  let refBefore := d.hall.refSector
  let sector := hallSector d.words code
  let dir := classify sector refBefore
  let d := ({ d with hall := d.hall.transition sector r }.showStatus hallWords).evaluateHal code
  let d := d.gather .ch0 (CaptureBuffer.addHall r.first code)
  let d := if dir = .skip then d.reportSkip refBefore code else d
  if (d.chan .ch0).snaps dir then d.snap dir (sector.getD 0) r.first else d

/-- What the filter accepts, once its time has run out: the acquisition or the pending run (R135, R136). -/
def Device.acceptHall (d : Device) : Device :=
  match d.hall.accepted, d.hall.run with
  | none, _ => d.acquire
  | some _, some r => d.acceptTransition r
  | some _, none => d

/-- With Th = 0 a change is accepted at its own instant (R135). -/
def Device.acceptAtOnce (d : Device) : Device := if hallHold d.words = 0 then d.acceptHall else d

/-- The acquisition begins to measure the present code (R136). -/
def Device.beginAcquisition (d : Device) : Device :=
  { d with hall := { d.hall with acquiring := some d.refCount } }.acceptAtOnce

/-- The pending run after a change to a code that differs from the accepted one (R135). -/
def HallTimer.runAfter (now : RefCount) (h : HallTimer) : HallRun :=
  match h.run with
  | none => { first := now, last := now, measure := 0 }
  | some r => { r with last := now }

/-- The raw code changes while the timer runs (R135, R136). -/
def Device.filterHall (d : Device) : Device :=
  match d.hall.accepted with
  | none => d.beginAcquisition
  | some code =>
    if d.hall.raw = code then { d with hall := { d.hall with run := none } }
    else { d with hall := { d.hall with run := some (d.hall.runAfter d.refCount) } }.acceptAtOnce

/-- A change of the Hall lines; the timer runs while the part is locked (R134). -/
def Device.changeHall (code : BitVec 3) (d : Device) : Device :=
  if code = d.hall.raw then d
  else
    let d := { d with hall := { d.hall with raw := code } }
    if d.locked then d.filterHall.arbitrate else d

/-- The instant at which the filter accepts, if no further change comes (R135, R136). -/
def Device.hallExpiry (d : Device) : Option RefCount :=
  if d.locked then
    let hold := BitVec.ofNat 32 (hallHold d.words)
    match d.hall.accepted with
    | none => d.hall.acquiring.map fun t => t + hold
    | some _ => d.hall.run.map fun r => r.last + hold
  else none

/-- The raw code has held for Th·128 half-ticks (R139). -/
def Device.expireHall (d : Device) : Device :=
  match d.hallExpiry with
  | some t => (d.advanceTo t).acceptHall.arbitrate
  | none => d

/-- HALL_LINE_CHANGE (R135). Lines given the code they have do not change. -/
def execHallLineChange (code : BitVec 3) (s : State) : Host.Outcome State Fault Refusal :=
  s.apply (Device.changeHall code)

/-- HALL_FILTER_EXPIRY (R139). It comes while a code awaits acceptance. -/
def execHallFilterExpiry (s : State) : Host.Outcome State Fault Refusal := s.apply Device.expireHall

end Sys2Proof.Machine
end

