-- ==== Sys2Proof/Machine/Resets.lean ====
section
/-! DEFINITION. The three kinds of reset (section 12.4) and the commands POWER_ON_RESET, POWER_ON_RESET_END, PIN_RESET,
PIN_RESET_END and STATUS_RESET_WRITE_END. SOFT_RESET's effect is here, its command in Commands.lean. -/

namespace Sys2Proof.Machine

open Sys2Proof

/-- The exchange RAM after the record writes and the capture copy in progress are abandoned: the words already
written stay, and which those are is free (R146, R160).
DESIGN CHOICE, notes/assumptions/13.md. -/
def Device.abandonedRam (d : Device) : Memory :=
  let here := fun kept a => !List.contains kept a && Config.wordWritten d.freeIndex a
  let afterLogs := allChannels.foldl (fun m c => match (d.chan c).log.writing with
    | some w => Memory.writeSome (here w.kept) m w.place w.words
    | none => m) d.ram
  match d.capture.copy with
  | some k => Memory.writeSome (here k.kept) afterLogs 0x201 k.words
  | none => afterLogs

/-- What a power-on or pin reset makes of the part at its beginning: every block takes its power-on values, the lock
is cleared, the gates are high-impedance (R168, R169). The levels of the input lines are the outside world's. -/
def Device.hardReset (d : Device) : Device :=
  { Device.initial with
    ram := d.abandonedRam
    flt0 := { level := d.flt0.level, filtered := false, since := none }
    flt1 := { level := d.flt1.level, filtered := false, since := none }
    hall := HallTimer.reset d.hall.raw
    freeIndex := d.freeIndex + 1 }

/-- The beginning of a power-on reset (R168). -/
def Device.beginPowerOn (d : Device) : Device := { d.hardReset with powerOn := true, resetLow := d.resetLow }

/-- The beginning of a pin reset (R169). -/
def Device.beginPin (d : Device) : Device := { d.hardReset with powerOn := d.powerOn, resetLow := true }

/-- A power-on or pin reset ends: the reference count starts from 0, the fault filters begin to measure, and the
status block's reset values are to be written (R3, R86, R168, R169). DEDUCED, notes/assumptions/29.md. -/
def Device.release (kind : ResetKind) (d : Device) : Device :=
  { d with
    refCount := 0
    flt0 := d.flt0.restart 0
    flt1 := d.flt1.restart 0
    statusWrite := some { kind := kind, since := 0, touched := [] } }

/-- The end of a power-on reset: the exchange RAM is cleared, every word at once, so that a pin reset which begins
afterwards finds it cleared (R168). A RESET line still low holds the part.
DESIGN CHOICE, notes/assumptions/21.md and 29.md. -/
def Device.endPowerOn (d : Device) : Device :=
  if d.powerOn then
    let d := { d with powerOn := false, ram := [] }
    if d.resetLow then d else d.release .powerOn
  else d

/-- The RESET line returns high (R169). A power-on reset still in progress holds the part. -/
def Device.endPin (d : Device) : Device :=
  if d.resetLow then
    let d := { d with resetLow := false }
    if d.powerOn then d else d.release .pin
  else d

/-- The writing of the status block's reset values ends. A word another block has written since the reset keeps that
block's value (R170); every other word shows its block's reset value, unused words 0 (R171). -/
def Device.endStatusWrite (d : Device) : Device :=
  match d.statusWrite with
  | some w =>
    { d with
      ram := (statusBlock.filter fun a => !w.touched.contains a).foldl
        (fun m a => Memory.write m a (statusWord d a)) d.ram
      statusWrite := none }
  | none => d

/-- What SOFT_RESET makes of a locked part, but for the acquisition that begins (R170): every block but the lock, the setup
copy, NOTICE_EN, the fault filters with their conditions' states, the setup error shown in STAT and the reference count
takes its reset values (R17, R75, R101, R133, R165). CMD reads DONE with the code 5 and the channel field written (R166). -/
def Device.softResetValues (field : BitVec 2) (d : Device) : Device :=
  { Device.initial with
    refCount := d.refCount
    powerOn := d.powerOn
    resetLow := d.resetLow
    statusWrite := some { kind := .soft, since := d.refCount, touched := [] }
    cmd := { result := .done, command := 5, channel := field }
    setupErrorCode := d.setupErrorCode
    setupErrorChannel := d.setupErrorChannel
    setup := d.setup
    noticeEn := d.noticeEn
    ram := d.abandonedRam
    outputsDriven := true
    flt0 := d.flt0
    flt1 := d.flt1
    hall := HallTimer.reset d.hall.raw
    channels := { ch0 := Channel.reset (d.cfg .ch0).m0, ch1 := Channel.reset (d.cfg .ch1).m0,
                  ch2 := Channel.reset (d.cfg .ch2).m0 }
    fl0 := { d.fl0 with count := 0, assertions := 0 }
    fl1 := { d.fl1 with count := 0, assertions := 0 }
    capture := CaptureUnit.reset (some (d.refCount + BitVec.ofNat 32 Config.pollInterval))
    freeIndex := d.freeIndex + 1 }

/-- SOFT_RESET on a locked part (R170): the reset values, and a new acquisition of the Hall timer (R136). -/
def Device.softReset (field : BitVec 2) (d : Device) : Device := (d.softResetValues field).beginAcquisition

/-- POWER_ON_RESET (R168). -/
def execPowerOnReset (s : State) : Host.Outcome State Fault Refusal := s.run Device.beginPowerOn

/-- POWER_ON_RESET_END (R168). It comes while a power-on reset is in progress. -/
def execPowerOnResetEnd (s : State) : Host.Outcome State Fault Refusal := s.run Device.endPowerOn

/-- PIN_RESET (R169). -/
def execPinReset (s : State) : Host.Outcome State Fault Refusal := s.run Device.beginPin

/-- PIN_RESET_END (R169). It comes while the RESET line is low. -/
def execPinResetEnd (s : State) : Host.Outcome State Fault Refusal := s.run Device.endPin

/-- STATUS_RESET_WRITE_END (R168, R169, R170). It comes while the reset values are being written. -/
def execStatusResetWriteEnd (s : State) : Host.Outcome State Fault Refusal := s.run Device.endStatusWrite

end Sys2Proof.Machine
end

