-- ==== Sys2Proof/WellFormed.lean ====
section
/-! DEFINITION. Which terms of `Instr` are commands of their row: the operands a row's words allow. -/

namespace Sys2Proof

/-- The command codes and channel fields for which a CMD write gives UNKNOWN (R166): a code outside
1..5, or channel 3 with START, STOP or RESUME. -/
def cmdUnknown (code : BitVec 4) (field : BitVec 2) : Bool :=
  code.toNat < 1 || 5 < code.toNat ||
    ((code.toNat == 2 || code.toNat == 3 || code.toNat == 4) && field.toNat == 3)

/-- Word addresses of the registers with a row of their own: CMD, NOTICE and NOTICE_EN. -/
def hasOwnRow (address : BitVec 14) : Bool :=
  address.toNat == 0x2001 || address.toNat == 0x2003 || address.toNat == 0x2004

/-- A command is well formed when its operands are ones its row describes. -/
def wellFormed : Instr → Bool
  | .unknownCommand code field => cmdUnknown code field
  | .registerWrite address _ => !hasOwnRow address
  | .lock _ => true
  | .lockEnd => true
  | .start _ => true
  | .stop _ => true
  | .resume _ => true
  | .softReset _ => true
  | .commandDuringLock _ _ => true
  | .noticeWrite _ => true
  | .noticeEnWrite _ => true
  | .powerOnReset => true
  | .powerOnResetEnd => true
  | .pinReset => true
  | .pinResetEnd => true
  | .statusResetWriteEnd => true
  | .loadEvent _ => true
  | .planFetchEnd _ => true
  | .peakEvent _ => true
  | .vectorComputationEnd _ => true
  | .placementRunEnd _ => true
  | .legEdge _ _ _ => true
  | .pendingTurnOn _ _ => true
  | .entryDue _ _ => true
  | .conversionComplete _ _ => true
  | .entryMissed _ _ => true
  | .faultLineChange _ _ => true
  | .faultFilterExpiry _ => true
  | .hallLineChange _ => true
  | .hallFilterExpiry => true
  | .poll => true
  | .captureCopyEnd => true
  | .recordTake _ => true
  | .recordWriteEnd _ => true

end Sys2Proof
end

