-- ==== Sys2Proof/Machine/Commands.lean ====
section
/-! DEFINITION. The command port (sections 12.2 and 12.3) and host writes: LOCK, LOCK_END, START, STOP, RESUME,
SOFT_RESET, UNKNOWN_COMMAND, COMMAND_DURING_LOCK and REGISTER_WRITE. -/

namespace Sys2Proof.Machine

open Sys2Proof

/-- The channel field that names a channel. -/
def channelField (c : ChannelId) : BitVec 2 := BitVec.ofNat 2 (channelIndex c)

/-- CMD shows a result with its command code and channel (R166). -/
def Device.answer (code : BitVec 4) (field : BitVec 2) (r : CmdResult) (d : Device) : Device :=
  { d with cmd := { result := r, command := code, channel := field } }

/-! ### LOCK (R164, R165) -/

/-- A LOCK begins: the copy of the 128 setup words, in ascending order (R164). -/
def Device.beginLock (field : BitVec 2) (d : Device) : Device :=
  { d with lockRun := some { since := d.refCount, todo := List.range 128, got := [] } }.answer 1 field .inProgress

/-- A LOCK whose copy fails a check: the copy is discarded (R165). -/
def Device.failLock (code : Nat) (c : ChannelId) (d : Device) : Device :=
  { d with
    lockRun := none
    setupErrorCode := BitVec.ofNat 4 code
    setupErrorChannel := channelField c
    cmd := { d.cmd with result := .setupInvalid } }

/-- The null plan takes the channel's M0 (R165). -/
def Device.takeM0 (c : ChannelId) (d : Device) : Device :=
  d.modChan c fun ch => { ch with plan := Plan.null (d.cfg c).m0 }

/-- FL0 or FL1 takes up the filtered level of its line (R129). -/
def Device.takeUpFault (line : FaultLine) (d : Device) : Device :=
  if (d.fault line).filtered then d.assertCondition (faultCondition line) 0 0 else d

/-- A LOCK whose copy passes every check: the six steps of R165 in their order.
DEDUCED, notes/assumptions/26.md and 22.md. -/
def Device.completeLock (words : List Word) (d : Device) : Device :=
  let d := { d with lockRun := none, setup := some words, setupErrorCode := 0, setupErrorChannel := 0 }
  let d := { d with outputsDriven := true }
  let d := d.beginAcquisition
  let next := d.refCount + BitVec.ofNat 32 Config.pollInterval
  let d := { d with capture := { d.capture with nextPoll := some next } }
  let d := (d.takeUpFault .flt0).takeUpFault .flt1
  let d := ((d.takeM0 .ch0).takeM0 .ch1).takeM0 .ch2
  { d.setNotice noticeLock with cmd := { d.cmd with result := .done } }

/-- The end of a LOCK: the copy is completed and checked (R164, R165). -/
def Device.endLock (d : Device) : Device :=
  match d.lockRun with
  | some r =>
    let words := r.finish d.ram
    match setupError words with
    | some (code, c) => d.failLock code c
    | none => d.completeLock words
  | none => d

/-! ### START (R10, R11, R82, R130) -/

/-- The refusal of a START, in the order of R10, or none. -/
def Device.startRefusal (d : Device) (c : ChannelId) : Option CmdResult :=
  if !d.locked then some .notLocked
  else if !(d.cfg c).enabled then some .notEnabled
  else if (d.chan c).state ≠ .off then some .wrongState
  else if d.presentWith c .float then some .conditionPresent
  else none

/-- The set that START makes for period 1 (R6, R11). -/
def startSet (g : ChannelSetup) : EdgeSet := allFloatSet g g.m0 1 .zero

/-- The starting values of a channel (R11, R27, R29, R33, R51, R114, R116, R149, R155). -/
def Channel.starting (g : ChannelSetup) (ch : Channel) : Channel :=
  { ch with
    state := .running, floatedLatch := false, resumeHold := false
    periodCount := 0, theta := 0, q := 0, va := 0, pendingAngle := none
    lastSeen := 0, plan := Plan.null g.m0, planAge := 0, clampedMark := false
    staged := some (startSet g), inForce := some (startSet g)
    fetch := none, computation := none, placement := none
    lastMetric := none, buffer := .empty
    log := { ch.log with eventLost := false, groupNotOk := 0, groupMissed := 0 } }

/-- A BRAKE override present at START sets the hold and gives every leg to low (R82, R83). -/
def Device.brakeAtStart (c : ChannelId) (d : Device) : Device :=
  if d.override c = .brake then (d.modChan c fun ch => { ch with brakeHold := true }).commandLegs c .toLow else d

/-- HAL is evaluated once at CH0's START from the accepted code, if there is one (R130). -/
def Device.halAtStart (c : ChannelId) (d : Device) : Device :=
  match c, d.hall.accepted with
  | .ch0, some code => d.evaluateHal code
  | _, _ => d

/-- An accepted START (R11, R130). The plan age becomes 0 and then 1, and its status word follows (R33). -/
def Device.startChannel (c : ChannelId) (d : Device) : Device :=
  let d := (d.modChan c (Channel.starting (d.cfg c))).clearOwnConditions c
  let d := (((d.brakeAtStart c).openPeriod c).showStatus [statusBase c + 5]).handPlain c .started
  (d.halAtStart c).arbitrate

/-! ### STOP (R12, R82, R97, R131) -/

/-- The refusal of a STOP (R12), or none. -/
def Device.stopRefusal (d : Device) (c : ChannelId) : Option CmdResult :=
  if !d.locked then some .notLocked
  else if (d.chan c).state = .off then some .wrongState
  else none

/-- What STOP leaves in the channel (R7, R12, R29, R84, R108). -/
def Channel.stopping (ch : Channel) : Channel :=
  { ch with
    state := .off, floatedLatch := false, resumeHold := false, falling := false
    staged := none, inForce := none, fetch := none, computation := none, placement := none
    pendingAngle := none, brakeHold := false, buffer := .empty
    legs := ch.legs.map (LegState.command .toFloat 0) }

/-- An accepted STOP (R12). -/
def Device.stopChannel (c : ChannelId) (d : Device) : Device :=
  let d := (d.modChan c Channel.stopping).withdrawAll c
  let d := ((d.clearOwnConditions c).unfollow c).handPlain c .stopped
  d.arbitrate

/-! ### RESUME (R15, R16, R41, R82) -/

/-- The refusal of a RESUME, in the order of R15, or none. -/
def Device.resumeRefusal (d : Device) (c : ChannelId) : Option CmdResult :=
  if !d.locked then some .notLocked
  else if (d.chan c).state ≠ .floated then some .wrongState
  else if d.presentWith c .float then some .conditionPresent
  else none

/-- What RESUME leaves in the channel (R15, R16). -/
def Channel.resuming (g : ChannelSetup) (ch : Channel) : Channel :=
  { ch.zeroVa with
    state := .running, floatedLatch := false, resumeHold := true
    inForce := ch.inForce.map fun e => { e with drives := floatDrives }
    staged := ch.staged.map fun e => allFloatSet g e.modulus (ch.periodCount + 1) e.vector }

/-- An accepted RESUME (R15). With the BRAKE hold set every leg is given to low (R82). -/
def Device.resumeChannel (c : ChannelId) (d : Device) : Device :=
  let d := d.modChan c (Channel.resuming (d.cfg c))
  let d := if (d.chan c).brakeHold then d.commandLegs c .toLow else d
  d.handPlain c .resumed

/-! ### CMD (R164, R166) -/

/-- A command that refuses with a result or is carried out with DONE, and shows the status words it changes. -/
def Device.carryOut (code : BitVec 4) (field : BitVec 2) (refusal : Option CmdResult) (f : Device → Device)
    (d : Device) : Device :=
  match refusal with
  | some r => d.answer code field r
  | none => publish d ((f d).answer code field .done)

/-- A host write to CMD with these fields (R164, R166). It is not taken while READY is low or a SOFT_RESET's writing
is in progress (R168, R170), and not carried out while a LOCK is in progress (R164). -/
def Device.writeCmd (code : BitVec 4) (field : BitVec 2) (d : Device) : Device :=
  if !d.takesCommands || d.lockRun.isSome then d
  else if cmdUnknown code field then d.answer code field .unknown
  else if code = 1 then (if d.locked then d.answer code field .wrongState else d.beginLock field)
  else if code = 5 then (if d.locked then d.softReset field else d.answer code field .notLocked)
  else match channelOfNat field.toNat with
    | some c =>
      if code = 2 then d.carryOut code field (d.startRefusal c) (Device.startChannel c)
      else if code = 3 then d.carryOut code field (d.stopRefusal c) (Device.stopChannel c)
      else d.carryOut code field (d.resumeRefusal c) (Device.resumeChannel c)
    | none => d.answer code field .unknown

/-! ### Other host writes (R167, R171) -/

/-- Some read in progress has not surely read the word at `a`. -/
def Device.readsAhead (d : Device) (a : Nat) : Bool :=
  let ahead := fun r : Option WordReader => match r with
    | some r => r.todo.contains a
    | none => false
  ahead d.lockRun || allChannels.any fun c => ahead ((d.chan c).fetch.map Fetch.reader)

/-- Each read in progress that has not surely read `a` has read a free number of further words before the write
(R19, R164). -/
def Device.settleReads (a : Nat) (d : Device) : Device :=
  let ahead := WordReader.beforeWrite d.freeIndex a d.ram
  let step := fun (x : Device) (c : ChannelId) => x.modChan c fun ch =>
    { ch with fetch := ch.fetch.map fun f => { f with reader := ahead f.reader } }
  allChannels.foldl step { d with lockRun := d.lockRun.map ahead, freeIndex := d.freeIndex + 1 }

/-- A host write comes to a word that the part is writing and had written already: the writing in progress leaves the
host's word (R171). -/
def Device.keepHostWord (a : Nat) (d : Device) : Device :=
  let record := fun w : LogWrite => { w with kept := w.kept ++ [a] }
  let step := fun (x : Device) (c : ChannelId) => x.modChan c fun ch =>
    { ch with log := { ch.log with writing := ch.log.writing.map record } }
  allChannels.foldl step { d with
    capture := { d.capture with copy := d.capture.copy.map fun k => { k with kept := k.kept ++ [a] } }
    statusWrite := d.statusWrite.map fun w => { w with touched := w.touched ++ [a] } }

/-- A host write of an exchange RAM word; none is made while READY is low (R168, R171). Whether the part had already
written a word that it is writing is free. DESIGN CHOICE, notes/assumptions/13.md. -/
def Device.hostWrite (a : Nat) (v : Word) (d : Device) : Device :=
  if d.ready then
    let d := if d.readsAhead a then d.settleReads a else d
    let d := if d.writesAt a && Config.wordWritten d.freeIndex a then d.keepHostWord a else d
    { d with ram := Memory.write d.ram a v }
  else d

/-- A host write at a word address of the port: an exchange RAM word, a register of its own row, or an address at
which a write has no effect (R167, R171).
DESIGN CHOICE, notes/assumptions/19.md. -/
def Device.portWrite (address : BitVec 14) (v : Word) (d : Device) : Device :=
  let a := address.toNat
  if a < 0x2000 then d.hostWrite a v
  else if a = 0x2001 then d.writeCmd (BitVec.ofNat 4 (bitField v.toNat 4 4)) (BitVec.ofNat 2 (bitField v.toNat 8 2))
  else if a = 0x2003 then d.writeNotice v
  else if a = 0x2004 then d.writeNoticeEn v
  else d

/-! ### The commands -/

/-- LOCK (R164). -/
def execLock (field : BitVec 2) (s : State) : Host.Outcome State Fault Refusal := s.run (Device.writeCmd 1 field)

/-- LOCK_END (R165). It comes while a LOCK is in progress. -/
def execLockEnd (s : State) : Host.Outcome State Fault Refusal := s.apply Device.endLock

/-- START (R10, R11). -/
def execStart (ch : ChannelId) (s : State) : Host.Outcome State Fault Refusal :=
  s.run (Device.writeCmd 2 (channelField ch))

/-- STOP (R12). -/
def execStop (ch : ChannelId) (s : State) : Host.Outcome State Fault Refusal :=
  s.run (Device.writeCmd 3 (channelField ch))

/-- RESUME (R15). -/
def execResume (ch : ChannelId) (s : State) : Host.Outcome State Fault Refusal :=
  s.run (Device.writeCmd 4 (channelField ch))

/-- SOFT_RESET (R166, R170). -/
def execSoftReset (field : BitVec 2) (s : State) : Host.Outcome State Fault Refusal :=
  s.run (Device.writeCmd 5 field)

/-- UNKNOWN_COMMAND (R166): a CMD write whose fields name no command. -/
def execUnknownCommand (code : BitVec 4) (field : BitVec 2) (s : State) : Host.Outcome State Fault Refusal :=
  s.run (Device.writeCmd code field)

/-- COMMAND_DURING_LOCK (R164): a CMD write, which a LOCK in progress leaves without effect. -/
def execCommandDuringLock (code : BitVec 4) (field : BitVec 2) (s : State) : Host.Outcome State Fault Refusal :=
  s.run (Device.writeCmd code field)

/-- REGISTER_WRITE (R167): a host write at a word address of the port. -/
def execRegisterWrite (address : BitVec 14) (value : Word) (s : State) : Host.Outcome State Fault Refusal :=
  s.run (Device.portWrite address value)

end Sys2Proof.Machine
end

