-- ==== Sys2Proof/Machine/Legs.lean ====
section
/-! DEFINITION. The leg stage within a period (Chapter 5): the commands LEG_EDGE and PENDING_TURN_ON. -/

namespace Sys2Proof.Machine

open Sys2Proof

/-- The legs of a channel follow the set in force: the third row of R81. -/
def Channel.followsSet (ch : Channel) : Bool := ch.state == .running && !ch.brakeHold

/-- The drive of a leg in the set in force. -/
def Channel.drive (ch : Channel) (leg : Leg) : Option Drive := ch.inForce.map fun e => e.drives.get leg

/-- The timebase reaches the start or the end of a leg's pulse, and the leg is given to high or to low (R78). While
the legs do not follow the set, its commands are not given (R81). -/
def Device.pulseEdge (c : ChannelId) (leg : Leg) (edge : PulseEdge) (d : Device) : Device :=
  match (d.chan c).drive leg with
  | some (.pulse start stop) =>
    if (d.chan c).followsSet then
      match edge with
      | .start => (d.advanceTo (d.instantOf c start)).commandLeg c leg .toHigh
      | .stop => (d.advanceTo (d.instantOf c stop)).commandLeg c leg .toLow
    else d
  | _ => d

/-- The side a pending turn-on names turns on (R77). -/
def LegState.turnOn (side : Side) (l : LegState) : LegState :=
  match side with
  | .high => { l with high := true, pending := none }
  | .low => { l with low := true, pending := none }

/-- The instant of a leg's pending turn-on arrives (R77). -/
def Device.takeTurnOn (c : ChannelId) (leg : Leg) (d : Device) : Device :=
  match ((d.chan c).legs.get leg).pending with
  | some p =>
    (d.advanceTo p.instant).modChan c fun ch =>
      { ch with legs := ch.legs.set leg ((ch.legs.get leg).turnOn p.side) }
  | none => d

/-- LEG_EDGE (R78). It comes while the channel's legs follow a set that gives the leg a pulse. -/
def execLegEdge (ch : ChannelId) (leg : Leg) (edge : PulseEdge) (s : State) : Host.Outcome State Fault Refusal :=
  s.apply (Device.pulseEdge ch leg edge)

/-- PENDING_TURN_ON (R77). It comes while a turn-on is pending. -/
def execPendingTurnOn (ch : ChannelId) (leg : Leg) (s : State) : Host.Outcome State Fault Refusal :=
  s.apply (Device.takeTurnOn ch leg)

end Sys2Proof.Machine
end

