-- ==== Sys2Proof/Machine/Dispatch.lean ====
section
/-! DEFINITION. The meaning of every command: one arm per constructor of `Instr`. -/

namespace Sys2Proof.Machine

open Sys2Proof

def exec (i : Instr) (s : State) : Host.Outcome State Fault Refusal :=
  match i with
  | .lock field => Sys2Proof.Machine.execLock field s
  | .lockEnd => Sys2Proof.Machine.execLockEnd s
  | .start ch => Sys2Proof.Machine.execStart ch s
  | .stop ch => Sys2Proof.Machine.execStop ch s
  | .resume ch => Sys2Proof.Machine.execResume ch s
  | .softReset field => Sys2Proof.Machine.execSoftReset field s
  | .unknownCommand code field => Sys2Proof.Machine.execUnknownCommand code field s
  | .commandDuringLock code field => Sys2Proof.Machine.execCommandDuringLock code field s
  | .noticeWrite value => Sys2Proof.Machine.execNoticeWrite value s
  | .noticeEnWrite value => Sys2Proof.Machine.execNoticeEnWrite value s
  | .registerWrite address value => Sys2Proof.Machine.execRegisterWrite address value s
  | .powerOnReset => Sys2Proof.Machine.execPowerOnReset s
  | .powerOnResetEnd => Sys2Proof.Machine.execPowerOnResetEnd s
  | .pinReset => Sys2Proof.Machine.execPinReset s
  | .pinResetEnd => Sys2Proof.Machine.execPinResetEnd s
  | .statusResetWriteEnd => Sys2Proof.Machine.execStatusResetWriteEnd s
  | .loadEvent ch => Sys2Proof.Machine.execLoadEvent ch s
  | .planFetchEnd ch => Sys2Proof.Machine.execPlanFetchEnd ch s
  | .peakEvent ch => Sys2Proof.Machine.execPeakEvent ch s
  | .vectorComputationEnd ch => Sys2Proof.Machine.execVectorComputationEnd ch s
  | .placementRunEnd ch => Sys2Proof.Machine.execPlacementRunEnd ch s
  | .legEdge ch leg edge => Sys2Proof.Machine.execLegEdge ch leg edge s
  | .pendingTurnOn ch leg => Sys2Proof.Machine.execPendingTurnOn ch leg s
  | .entryDue ch kind => Sys2Proof.Machine.execEntryDue ch kind s
  | .conversionComplete cv raw => Sys2Proof.Machine.execConversionComplete cv raw s
  | .entryMissed ch kind => Sys2Proof.Machine.execEntryMissed ch kind s
  | .faultLineChange line level => Sys2Proof.Machine.execFaultLineChange line level s
  | .faultFilterExpiry line => Sys2Proof.Machine.execFaultFilterExpiry line s
  | .hallLineChange code => Sys2Proof.Machine.execHallLineChange code s
  | .hallFilterExpiry => Sys2Proof.Machine.execHallFilterExpiry s
  | .poll => Sys2Proof.Machine.execPoll s
  | .captureCopyEnd => Sys2Proof.Machine.execCaptureCopyEnd s
  | .recordTake ch => Sys2Proof.Machine.execRecordTake ch s
  | .recordWriteEnd ch => Sys2Proof.Machine.execRecordWriteEnd ch s

end Sys2Proof.Machine
end

