-- ==== Sys2Proof/Machine/Step.lean ====
section
/-! DEFINITION. One step of the machine: the command at the front of the queue, or, on an empty queue, the queueing of an
event that is due at the present instant, or else one half-tick of time. -/

namespace Sys2Proof.Machine

open Sys2Proof

/-! ### The events due at the present instant -/

/-- The instant t has been reached. -/
def Device.reached (d : Device) (t : RefCount) : Bool := !later t d.refCount

/-- The longest time, in half-ticks, the manual gives a piece of work (R19, R38, R52, R146, R160, R164, R168 to
R170). -/
def workBound (d : Device) : Config.Work → Nat
  | .lockCopy => 2560
  | .statusWrite => match d.statusWrite with
    | some w => if w.kind = .powerOn then 19200 else 1280
    | none => 0
  | .planFetch _ => 63
  | .vectorComputation _ => 192
  | .placementRun _ => 64
  | .recordWrite _ => 32
  | .captureCopy => 256

/-- A piece of work that began at `since` ends now: at a free instant after its beginning, within its bound.
DESIGN CHOICE, notes/assumptions/5.md. -/
def Device.ends (d : Device) (w : Config.Work) (since : RefCount) : Bool :=
  d.refCount != since && (Config.workEnds w d.freeIndex || decide (workBound d w ≤ (d.refCount - since).toNat))

/-- An event, when it is due. -/
def dueIf (b : Bool) (i : Instr) : List Instr := if b then [i] else []

/-- The timebase events and the ends of work of one channel that are due. -/
def Device.channelEvents (d : Device) (c : ChannelId) : List Instr :=
  let ch := d.chan c
  let period := (ch.inForce.map EdgeSet.period).getD 0
  let timed := ch.runs && ch.inForce.isSome
  dueIf (timed && decide (period ≤ d.position c)) (.loadEvent c) ++
  dueIf (timed && !ch.falling && decide (period / 2 ≤ d.position c)) (.peakEvent c) ++
  dueIf (ch.fetch.any fun f => d.ends (.planFetch c) f.reader.since) (.planFetchEnd c) ++
  dueIf (ch.computation.any fun k => d.ends (.vectorComputation c) k.since) (.vectorComputationEnd c) ++
  dueIf (ch.placement.any fun k => d.ends (.placementRun c) k.since) (.placementRunEnd c) ++
  dueIf (ch.log.writing.isNone && !ch.log.waiting.isEmpty) (.recordTake c) ++
  dueIf (ch.log.writing.any fun w => d.ends (.recordWrite c) w.since) (.recordWriteEnd c)

/-- The leg events of one leg that are due: an edge of its pulse whose command still changes it, and its pending
turn-on. -/
def Device.legEvents (d : Device) (c : ChannelId) (leg : Leg) : List Instr :=
  let ch := d.chan c
  let l := ch.legs.get leg
  let edges := match ch.drive leg with
    | some (.pulse start stop) =>
      dueIf (d.position c == start && l.command .toHigh (d.turnOnInstant c) != l) (.legEdge c leg .start) ++
      dueIf (d.position c == stop && l.command .toLow (d.turnOnInstant c) != l) (.legEdge c leg .stop)
    | _ => []
  (if ch.followsSet then edges else []) ++ dueIf (l.pending.any fun p => d.reached p.instant) (.pendingTurnOn c leg)

/-- The events of the converters and the request list that are due. A completing conversion delivers the code of its
input, which is the outside world's: a free value.
DESIGN CHOICE, notes/assumptions/14.md. -/
def Device.arbiterEvents (d : Device) : List Instr :=
  let complete := fun cv => match d.converter cv with
    | some k =>
      let input := inputOf k.entry.channel k.entry.kind
      dueIf (d.reached k.completes) (.conversionComplete cv (Config.inputCode input d.freeIndex))
    | none => []
  let due := match d.startable with
    | some (_, e) => dueIf (!d.completing) (.entryDue e.channel e.kind)
    | none => []
  let missed := (d.requests.filter fun e => later d.refCount e.deadline).map fun e =>
    Instr.entryMissed e.channel e.kind
  complete .cva ++ complete .cvb ++ due ++ missed

/-- The other events that are due. -/
def Device.otherEvents (d : Device) : List Instr :=
  let expiry := fun line => dueIf ((d.fault line).since.any fun t =>
    d.reached (t + BitVec.ofNat 32 Config.faultPersistence)) (.faultFilterExpiry line)
  dueIf (d.lockRun.any fun r => d.ends .lockCopy r.since) .lockEnd ++
  dueIf (d.statusWrite.any fun w => d.ends .statusWrite w.since) .statusResetWriteEnd ++
  expiry .flt0 ++ expiry .flt1 ++
  dueIf (d.hallExpiry.any d.reached) .hallFilterExpiry ++
  dueIf (d.capture.nextPoll.any d.reached) .poll ++
  dueIf (d.capture.copy.any fun k => d.ends .captureCopy k.since) .captureCopyEnd

/-- Every event due at the present instant; none during a power-on or pin reset. -/
def Device.dueEvents (d : Device) : List Instr :=
  if d.inReset then []
  else
    (allChannels.flatMap fun c => d.channelEvents c ++ ([Leg.a, .b, .c].flatMap (d.legEvents c))) ++
      d.arbiterEvents ++ d.otherEvents

/-- The block on an empty queue: one of the due events, freely picked, joins the queue, so that what is due is judged anew
after each; where none is due, one half-tick passes.
DESIGN CHOICE, notes/assumptions/3.md and 6.md. -/
def State.idle (s : State) : State :=
  match s.dueEvents[Config.pick s.freeIndex % s.dueEvents.length]? with
  | some i => { s with freeIndex := s.freeIndex + 1, pending := [i] }
  | none => { s with toDevice := s.advanceBy 1 }

/-! ### The step -/

/-- One step: the command at the front of the queue is carried out with the queue's rest; on an empty queue time goes
on. DESIGN CHOICE, notes/assumptions/1.md. -/
def step (s : State) : Host.Outcome State Fault Refusal :=
  match s.pending with
  | i :: rest => exec i { s with pending := rest }
  | [] => .next s.idle

/-- The state with the command that a word spells put at the front of its queue.
DESIGN CHOICE, notes/assumptions/4.md. -/
def State.withFetchWord (s : State) (nbits w : Nat) : State :=
  match decodeTableWord nbits w with
  | some i => { s with pending := i :: s.pending }
  | none => s

end Sys2Proof.Machine
end

