-- ==== Sys2Proof/Safety.lean ====
section
/-! DEFINITION. What a safe state of the part is: the invariant of a state, which every step keeps. It says that no leg
shorts the DC link, that a channel that does not run has its gates off, that an unlocked part drives nothing and judges
nothing, that the settings in use passed LOCK's checks, that no unreleased record is overwritten, that what the part is
writing stays in its own regions of the exchange RAM, that the values of the plans, the amplitudes and the zero levels
stay in their ranges, and that the exchange RAM keeps its form. -/

namespace Sys2Proof.Machine

open Sys2Proof

/-! ### Legs -/

/-- Never both gates on, and a turn-on pending only while both are off (R76). -/
def LegState.safe (l : LegState) : Prop :=
  ¬(l.high = true ∧ l.low = true) ∧ (l.pending.isSome = true → l.high = false ∧ l.low = false)

/-- The high gate is off and no high turn-on is pending. -/
def LegState.notHigh (l : LegState) : Prop := l.high = false ∧ l.awaits .high = false

/-- The legs of a channel: safe; off and idle unless the channel is RUNNING (R81, first row); with no high gate on or
awaited under the BRAKE hold (R81, second row). -/
def LegsSound (state : ChannelState) (hold : Bool) (legs : PerLeg LegState) : Prop :=
  ∀ l, (legs.get l).safe ∧ (state ≠ .running → legs.get l = LegState.idle) ∧
    (state = .running → hold = true → (legs.get l).notHigh)

/-! ### Ranges -/

/-- A modulus a period may have (R1). -/
def modulusOk (m : Nat) : Prop := 250 ≤ m ∧ m ≤ 16000

/-- The fields of a plan in force are in their working ranges (R18, R26). -/
def Plan.inRange (p : Plan) : Prop :=
  p.target ≤ 32767 ∧ p.slew ≤ 32767 ∧ -8191 ≤ p.rate ∧ p.rate ≤ 8191 ∧ p.guardLow ≤ p.guardHigh ∧
    p.guardHigh ≤ 4095 ∧ 1 ≤ p.interval ∧ p.interval ≤ 64 ∧ -4095 ≤ p.injectFirst ∧ p.injectFirst ≤ 4095 ∧
    -4095 ≤ p.injectSecond ∧ p.injectSecond ≤ 4095

/-- The filter count lies in 0..16 and is 0 while the condition is asserted (R117). -/
def Condition.sane (k : Condition) : Prop := k.count ≤ 16 ∧ (k.asserted = true → k.count = 0)

/-- The records a log holds unreleased, with the one being written, fit into its places (R145, R148). -/
def Log.fits (c : ChannelId) (l : Log) : Prop :=
  l.unreleased + (if l.writing.isSome then 1 else 0) ≤ logCapacity c

/-- A record being written stands in the place of the sequence number W in the channel's own log (R145). -/
def Log.InPlace (c : ChannelId) (l : Log) : Prop :=
  ∀ w, l.writing = some w →
    w.words.length = 16 ∧ w.place = logBase c + 16 * (l.written.toNat % logCapacity c)

/-! ### A channel -/

/-- What an OFF channel does not hold (R7, R12, R17). -/
def Channel.Empty (ch : Channel) : Prop :=
  ch.staged = none ∧ ch.inForce = none ∧ ch.fetch = none ∧ ch.computation = none ∧ ch.placement = none ∧
    ch.pendingAngle = none ∧ ch.resumeHold = false ∧ ch.falling = false

/-- A channel of a part with this setup copy is sound. -/
structure Channel.Sound (setup : Option (List Word)) (c : ChannelId) (ch : Channel) : Prop where
  legs : LegsSound ch.state ch.brakeHold ch.legs
  /-- the FLOATED latch is set exactly in FLOATED (R13) -/
  latch : ch.floatedLatch = true ↔ ch.state = .floated
  off : ch.state = .off → ch.Empty
  /-- a channel that is not OFF holds a staged set and a set in force (R7) -/
  on : ch.state ≠ .off → ch.staged.isSome = true ∧ ch.inForce.isSome = true
  sets : ∀ e, ch.staged = some e ∨ ch.inForce = some e → modulusOk e.modulus
  /-- an unlocked part has every channel OFF and none of its conditions asserted (R10, R117) -/
  unlocked : setup = none →
    ch.state = .off ∧ ch.cur.asserted = false ∧ ch.zer.asserted = false ∧ ch.age.asserted = false
  plan : ch.plan.inRange ∧ (ch.state ≠ .off → modulusOk ch.plan.modulus)
  computation : ∀ k, ch.computation = some k → k.plan.inRange ∧ modulusOk k.plan.modulus ∧ k.va ≤ 32767
  placement : ∀ r, ch.placement = some r → modulusOk r.modulus
  /-- V_a (R39), Z8 (R106) and the plan age (R33) -/
  ranges : ch.va ≤ 32767 ∧ ch.z8 ≤ 32767 ∧ ch.planAge ≤ 65535
  conditions : ch.cur.sane ∧ ch.zer.sane ∧ ch.age.sane
  log : ch.log.fits c
  writing : ch.log.InPlace c

/-! ### The part -/

/-- What an unlocked part holds: no entry, no conversion, no asserted condition, the Hall timer as its reset left it, and
an idle capture unit that does not poll (R101, R117, R134, R156). -/
structure Device.Quiet (d : Device) : Prop where
  requests : d.requests = []
  cva : d.cva = none
  cvb : d.cvb = none
  hal : d.hal.asserted = false
  lov : d.lov.asserted = false
  lun : d.lun.asserted = false
  fl0 : d.fl0.asserted = false
  fl1 : d.fl1.asserted = false
  hall : d.hall = HallTimer.reset d.hall.raw
  poll : d.capture.nextPoll = none
  mode : d.capture.mode = .idle
  copy : d.capture.copy = none

/-- The two measures of the Hall timer stop at their limit, and its interval saturates at 65535 (R138). -/
def HallTimer.Bounded (h : HallTimer) : Prop :=
  h.elapsed ≤ Config.measureLimit ∧ (∀ r, h.run = some r → r.measure ≤ Config.measureLimit) ∧ h.interval ≤ 65535

/-- The working buffer keeps at most eight condition changes and four Hall transitions (R158). -/
def CaptureBuffer.fits (b : CaptureBuffer) : Prop := b.changes.length ≤ 8 ∧ b.hall.length ≤ 4

/-- The capture unit is COPYING exactly while a copy runs (R160), and what it copies and gathers has room in the capture
area (R158, R171). -/
structure CaptureUnit.Sound (u : CaptureUnit) : Prop where
  mode : u.mode = .copying ↔ u.copy.isSome = true
  copy : ∀ k, u.copy = some k → k.words.length = 107
  following : ∀ b, u.following = some b → b.fits

/-- An exchange RAM word of which the part is the writer: the status block, the capture area and the logs (R171). -/
def partWord (a : Nat) : Prop := (0x100 ≤ a ∧ a < 0x280) ∨ (0x800 ≤ a ∧ a < 0x1800)

/-- The invariant but for its last clause. -/
structure Device.Sound (d : Device) : Prop where
  ram : d.ram.wf = true
  /-- a locked setup copy passed every check (R165) -/
  setup : ∀ words, d.setup = some words → setupError words = none
  /-- the gate outputs are driven exactly while the part is locked (R75) -/
  outputs : d.outputsDriven = d.locked
  /-- a LOCK runs only on an unlocked part (R164) -/
  lockRun : d.lockRun.isSome = true → d.setup = none
  /-- while a power-on or pin reset is held, nothing is locked and neither a LOCK nor a status writing runs
  (R168, R169) -/
  reset : d.inReset = true → d.setup = none ∧ d.lockRun = none ∧ d.statusWrite = none
  unlocked : d.setup = none → d.Quiet
  channels : ∀ c, (d.chan c).Sound d.setup c
  conditions : d.hal.sane ∧ d.lov.sane ∧ d.lun.sane ∧ d.fl0.sane ∧ d.fl1.sane
  capture : d.capture.Sound
  hall : d.hall.Bounded

/-- While the part is locked, FL0 and FL1 are asserted exactly while their lines' filtered levels are (R129). -/
def Device.FaultsFollow (d : Device) : Prop :=
  d.locked = true → d.fl0.asserted = d.flt0.filtered ∧ d.fl1.asserted = d.flt1.filtered

/-! ### What commands leave -/

/-- Every channel but `c` is as before, but for what the arbiter reports of its requests. -/
def Device.Spares (c : ChannelId) (d e : Device) : Prop :=
  ∀ c', c' ≠ c →
    e.chan c' = { d.chan c' with buffer := { (d.chan c').buffer with reports := (e.chan c').buffer.reports } }

/-- The other converter after a first start at this instant, of an entry that stood between `before` and `after`: it starts
the first later entry that it may start now that this entry has left the list (R94); where there is none, the first earlier
one (notes/assumptions/17.md); where there is none, it stays as it was. -/
def Device.SecondStart (d e : Device) (cv : Converter) (before after : List Entry) : Prop :=
  let rest : Device := { d with requests := before ++ after }
  let starts := fun z : Entry => e.converter cv = some { entry := z, start := d.refCount, discard := false }
  let firstOf := fun l : List Entry => ∀ pre z post, l = pre ++ z :: post → (∀ w ∈ pre, rest.mayStart cv w = false) →
    rest.mayStart cv z = true → starts z
  firstOf after ∧ ((∀ w ∈ after, rest.mayStart cv w = false) →
    firstOf before ∧ ((∀ w ∈ before, rest.mayStart cv w = false) → e.converter cv = d.converter cv))

/-- The arbiter hands out from `d` to `e`: only the request list, the converters and the arbiter's reports change; a busy
converter keeps its conversion; a conversion begins now, with an entry of the list whose due time has come, whose deadline
has not passed, and that the converter reaches, and is reported with its lateness; an entry leaves the list only as it is
started; where a conversion completes at this instant nothing is handed out yet (notes/assumptions/18.md), and elsewhere the
first entry in list order that a converter may start is started, on CVA if CVA may start it, the other converter follows as
`SecondStart` says, and no converter stays free that may start an entry (R89, R92, R93, R94, R95, R100). -/
structure Device.HandsOut (d e : Device) : Prop where
  rest : e = { d with requests := e.requests, cva := e.cva, cvb := e.cvb, channels := e.channels }
  channels : ∀ c,
    e.chan c = { d.chan c with buffer := { (d.chan c).buffer with reports := (e.chan c).buffer.reports } }
  busy : ∀ cv k, d.converter cv = some k → e.converter cv = some k
  started : ∀ cv k, d.converter cv = none → e.converter cv = some k →
    k.start = d.refCount ∧ k.discard = false ∧ k.entry ∈ d.requests ∧ k.entry.reachable cv = true ∧
      d.eligible k.entry = true ∧ later d.refCount k.entry.deadline = false
  /-- the report of a start; a list of a run holds one entry of a channel and kind -/
  reported : ∀ cv k, d.converter cv = none → e.converter cv = some k →
    (∀ cv' k', cv' ≠ cv → d.converter cv' = none → e.converter cv' = some k' →
      k'.entry.channel ≠ k.entry.channel ∨ k'.entry.kind ≠ k.entry.kind) →
    (e.chan k.entry.channel).buffer.reports.get k.entry.kind =
      some (.started cv d.refCount (d.refCount - k.entry.due).toNat none)
  unreported : ∀ c kind, (∀ cv k, d.converter cv = none → e.converter cv = some k →
      k.entry.channel ≠ c ∨ k.entry.kind ≠ kind) →
    (e.chan c).buffer.reports.get kind = (d.chan c).buffer.reports.get kind
  listed : e.requests.Sublist d.requests
  left : ∀ x, x ∈ d.requests → x ∉ e.requests →
    ∃ cv k, d.converter cv = none ∧ e.converter cv = some k ∧ k.entry = x
  waits : d.completing = true → e = d
  idle : (∀ cv x, x ∈ d.requests → d.mayStart cv x = false) → e = d
  order : d.completing = false → ∀ cv before y after, d.requests = before ++ y :: after →
    (∀ z ∈ before, ∀ cv', d.mayStart cv' z = false) → d.mayStart cv y = true →
    (cv = .cvb → d.mayStart .cva y = false) →
    e.converter cv = some { entry := y, start := d.refCount, discard := false } ∧
      ∀ cv', cv' ≠ cv → d.SecondStart e cv' before after
  settled : d.completing = false → ∀ cv x, x ∈ e.requests → e.mayStart cv x = false

/-- The invariant of a state. -/
def State.Inv (s : State) : Prop := s.toDevice.Sound ∧ s.toDevice.FaultsFollow

end Sys2Proof.Machine
end

