-- ==== Sys2Proof/Certificates/Slice0/Obligations.lean ====
section
/-! DEFINITION. The statements about the part, for the provers: whole-machine statements first, then the commands in the
order of the manual's chapters. A command's statement gives its next state as a whole: `publish s d` is the part `d` with
the status words whose shown value differs between `s` and `d` rewritten (what that does to the exchange RAM is
`StatusWordsAreRewrittenOnChange`), and `HandsOut` says what the arbiter's hand-out of the same instant may change
(`Sys2Proof.Machine.Device.HandsOut`), so that all else is as the record says. -/

namespace Sys2Proof.Machine

open Sys2Proof

/-! ### Terms of the statements -/

/-- The command port takes and carries out a command: READY is high and neither a writing of the status block nor a LOCK is
in progress (R164, R168, R170). -/
def Device.portOpen (d : Device) : Prop := d.takesCommands = true ∧ d.lockRun = none

/-- A condition present for a channel has the action FLOAT (R10, R15). -/
def Device.floatPresent (d : Device) (c : ChannelId) : Prop :=
  ∃ id, (d.condition id).asserted = true ∧ d.inScope id c = true ∧ d.action id c = .float

/-- A condition cleared by START, STOP or a reset: no release, the assertion count stays (R122, R132). -/
def Condition.cleared (k : Condition) : Condition := { k with asserted := false, count := 0 }

/-- HAL as a START or STOP of this channel leaves it (R11, R12). -/
def Device.halAfter (d : Device) (c : ChannelId) : Condition := if c = .ch0 then d.hal.cleared else d.hal

/-- A leg whose low turn-on alone is pending, at this instant. -/
def LegState.lowPending (t : RefCount) : LegState :=
  { high := false, low := false, pending := some { side := .low, instant := t } }

/-- The three legs in one state. -/
def allLegs (l : LegState) : PerLeg LegState := { a := l, b := l, c := l }

/-- A condition after one evaluation with a filter count, by the tables of R123, R127 and R128: `outside` the limit counts,
and asserts when the count reaches F + 1; `back` inside by the hysteresis releases. -/
def Condition.evaluated (outside back : Bool) (f : Nat) (k : Condition) : Condition :=
  if k.asserted then (if back then { k with asserted := false, count := 0 } else k)
  else if !outside then { k with count := 0 }
  else if k.count + 1 ≥ f + 1 then { asserted := true, count := 0, assertions := k.assertions + 1 }
  else { k with count := k.count + 1 }

/-- The part after one evaluation of a condition with a filter count: the condition as `evaluated` says, with what an assertion
or a release does (R117, R121, R122). -/
def Device.judge (id : ConditionId) (outside back : Bool) (f : Nat) (value : Int) (d : Device) : Device :=
  let old := d.condition id
  let new := old.evaluated outside back f
  if new.asserted = old.asserted then d.setCondition id new
  else if new.asserted then d.assertCondition id value 0
  else d.releaseCondition id value 0

/-- HAL after a code with this sector is handed to the limit monitor (R126): no evaluation while CH0 is OFF; an INVALID code
asserts, a sector releases. -/
def Device.halAfterCode (d : Device) (sector : Option Nat) : Condition :=
  if (d.chan .ch0).state = .off then d.hal
  else if sector = none then
    (if d.hal.asserted then d.hal else { asserted := true, count := 0, assertions := d.hal.assertions + 1 })
  else (if d.hal.asserted then { d.hal with asserted := false, count := 0 } else d.hal)

/-- A global condition of action BRAKE is present for a channel that is OFF (R82, R130). -/
def Device.brakedAtStart (d : Device) (c : ChannelId) : Bool :=
  (d.lov.asserted && d.action .lov c == .brake) || (d.lun.asserted && d.action .lun c == .brake)

/-- The part after an accepted START of a channel, but for HAL's evaluation and the hand-out: the channel's starting values,
period 1 opened at the present instant with its requests entered and its fetch begun, its own conditions cleared, the STARTED
record handed, and its plan age word written (R6, R8, R11, R27, R29, R33, R82, R91, R114, R149, R155, R158). -/
def Device.started (s : Device) (c : ChannelId) : Device :=
  let ch := s.chan c
  let set := allFloatSet (s.cfg c) (s.cfg c).m0 1 .zero
  let braked := s.brakedAtStart c
  let record : EventRecord := { code := .started, periodCount := 1, condition := 0, value := 0, action := 0, extra := 0,
                                state := .running }
  let channel : Channel := { ch with
    state := .running, floatedLatch := false, resumeHold := false, falling := false, periodCount := 1
    loadTime := s.refCount, staged := some set, inForce := some set, plan := Plan.null (s.cfg c).m0, lastSeen := 0
    fetch := some { period := 1, reader := { since := s.refCount, todo := fetchOrder c, got := [] } }
    planAge := 1, clampedMark := false, theta := 0, q := 0, va := 0, pendingAngle := none, computation := none
    placement := none, lastMetric := none, buffer := .empty, brakeHold := braked
    legs := allLegs (if braked then .lowPending (s.refCount + BitVec.ofNat 32 (s.cfg c).d) else .idle)
    cur := ch.cur.cleared, zer := ch.zer.cleared, age := ch.age.cleared
    log := { ch.log with
      eventLost := false, groupNotOk := 0, groupMissed := 0, waiting := ch.log.waiting ++ [.event record] } }
  let entries : List Entry := set.requests.map fun r => {
    channel := c, kind := r.kind, due := s.refCount + BitVec.ofNat 32 r.due
    deadline := s.refCount + BitVec.ofNat 32 r.deadline, period := 1 }
  { s.setChan c channel with
    requests := entries.foldl (fun l e => insertEntry e l) s.requests
    hal := s.halAfter c
    ram := Memory.write s.ram (statusBase c + 5) 1
    capture := if s.capture.mode = .armed ∧ s.capture.channel = c then { s.capture with following := some .empty }
      else s.capture }

/-- HAL judged from the code that the Hall timer has accepted (R126): no evaluation while CH0 is OFF; a code without a sector
asserts HAL, one with a sector releases it, and the code is the further field of the record. -/
def Device.halJudged (d : Device) : Device :=
  let invalid := (hallSector d.words d.hall.raw).isNone
  if (d.chan .ch0).state = .off ∨ d.hal.asserted = invalid then d
  else if invalid then d.assertCondition .hal 0 (d.hall.raw.zeroExtend 16)
  else d.releaseCondition .hal 0 (d.hall.raw.zeroExtend 16)

/-- The part after the acquisition of the present code, but for the hand-out: the timer's own state, the four Hall words, and
HAL (R136 and steps 1 to 3 of R139). -/
def Device.afterAcquisition (d : Device) : Device :=
  ({ d with hall := { d.hall with
      accepted := some d.hall.raw, acquiring := none, refSector := hallSector d.words d.hall.raw
      direction := .none } }.showStatus [0x116, 0x117, 0x118, 0x119]).halJudged

/-- The part after steps 1 to 5 of R139 for a transition by this run: the timer's own state, the four Hall words, HAL, the
timestamp and the code to a capture unit that follows CH0, and for a SKIP the counter, the HALL_SKIP record and the notice
HALL (R137, R138, R139, R151, R158). -/
def Device.afterTransition (run : HallRun) (d : Device) : Device :=
  let h := d.hall
  let sector := hallSector d.words h.raw
  let direction := classify sector h.refSector
  let elapsed := if h.elapsed < 4194240 then h.elapsed - run.measure else 4194240
  let judged := ({ d with hall := { h with
      accepted := some h.raw, run := none, lastTransition := some run.first, elapsed := run.measure, direction := direction
      refSector := if sector = none then h.refSector else sector
      interval := if h.lastTransition = none then 65535 else elapsed / 64 } }.showStatus
        [0x116, 0x117, 0x118, 0x119]).halJudged
  let gathered := if judged.capture.mode = .armed ∧ judged.capture.channel = .ch0 then
    { judged with capture := { judged.capture with
        following := judged.capture.following.map (CaptureBuffer.addHall run.first h.raw) } } else judged
  let x := gathered.chan .ch0
  let record : EventRecord := { code := .hallSkip, periodCount := x.periodCount, condition := 0
                                value := (h.refSector.getD 0 : Nat), action := 0, extra := h.raw.zeroExtend 16
                                state := x.state }
  if direction = .skip then { gathered.setChan .ch0 { x with
      counters := { x.counters with hallSkips := x.counters.hallSkips + 1 }
      log := { x.log with waiting := x.log.waiting ++ [.event record] } } with notice := gathered.notice ||| 0x400 }
  else gathered

/-- A transition of this direction makes a snap (R140). -/
def Channel.snapsOn (direction : Direction) (x : Channel) : Prop :=
  x.state = .running ∧ x.plan.mode = .rotate ∧ x.plan.snap = true ∧
    ((direction = .forward ∧ 0 < x.plan.rate) ∨ (direction = .reverse ∧ x.plan.rate < 0))

/-- The part after the snap of a transition in this direction into this sector (R141): Q takes the clamped error, the error is
kept and shown in its two words, and the snaps move by one. -/
def Device.afterSnap (direction : Direction) (sector : Nat) (timestamp : RefCount) (d : Device) : Device :=
  let x := d.chan .ch0
  let boundary := hallBoundary d.words (if direction = .reverse then (sector + 1) % 6 else sector)
  let period := match x.inForce with
    | some e => 4 * e.modulus
    | none => 0
  let edge := x.theta + BitVec.ofInt 16 (Int.fdiv (x.plan.rate * (timestamp - x.loadTime).toInt) period) + x.q
  let error := (boundary - edge).toInt
  let limit : Int := hallCsnap d.words
  { d.setChan .ch0 { x with
      q := x.q + BitVec.ofInt 16 (max (-limit) (min limit error))
      counters := { x.counters with hallSnaps := x.counters.hallSnaps + 1 } } with
    hall := { d.hall with snapError := some error } }.showStatus [0x11A, 0x11B]

/-- `e` is the part after the acceptance of a transition by this run (R139), but for the hand-out. -/
def Device.Transits (run : HallRun) (d e : Device) : Prop :=
  let sector := hallSector d.words d.hall.raw
  let direction := classify sector d.hall.refSector
  let made := d.afterTransition run
  ((made.chan .ch0).snapsOn direction → e = made.afterSnap direction (sector.getD 0) run.first) ∧
    (¬(made.chan .ch0).snapsOn direction → e = made)

end Sys2Proof.Machine

open Sys2Proof Sys2Proof.Machine

/-! ## The machine as a whole -/

/-- A step carries out the command at the front of the queue on the state with the queue's rest. -/
def Obligations.StepCarriesOutTheFrontCommand : Prop :=
  ∀ (s : State) (i : Instr) (rest : List Instr), s.pending = i :: rest →
    step s = exec i { s with pending := rest }

/-- On an empty queue a step puts one of the events due at the present instant into the queue and changes nothing else but the
model's own counter; where none is due, one half-tick passes. The model's choice (notes/assumptions/3.md, 5.md and 6.md). As n half-ticks pass, the
reference count advances by n, and the Hall timer's elapsed and run measures do, each stopping at 4194240; during a power-on or
pin reset none of them runs. That the elapsed measure stays while there is no last transition is the model's choice
(notes/assumptions/39.md), and so is that time comes to an event's instant before the event takes effect, and stays where that
instant is not later (notes/assumptions/1.md). -/
def Obligations.AnEmptyQueueLetsTimePass : Prop :=
  (∀ s : State, s.pending = [] →
    (s.dueEvents = [] → step s = .next { s with toDevice := s.advanceBy 1 }) ∧
    (s.dueEvents ≠ [] → ∃ i ∈ s.dueEvents, step s = .next { s with freeIndex := s.freeIndex + 1, pending := [i] })) ∧
  (∀ (d : Device) (n : Nat),
    let measured := fun m : Nat => min (m + n) 4194240
    (d.powerOn = true ∨ d.resetLow = true → d.advanceBy n = { d with freeIndex := d.freeIndex + n }) ∧
    (d.powerOn = false → d.resetLow = false → d.advanceBy n = { d with
      refCount := d.refCount + BitVec.ofNat 32 n
      hall := { d.hall with
        elapsed := if d.hall.lastTransition = none then d.hall.elapsed else measured d.hall.elapsed
        run := d.hall.run.map fun r => { r with measure := measured r.measure } }
      freeIndex := d.freeIndex + n })) ∧
  (∀ (d : Device) (t : RefCount),
    d.advanceTo t = if t ≠ d.refCount ∧ (t - d.refCount).toNat < 2 ^ 31 then d.advanceBy (t - d.refCount).toNat else d)

/-- Every command answers a next state and leaves the queue alone. That a row answers so, and not by a stop, also in a state in
which its event cannot happen is the model's choice (notes/assumptions/2.md); what the next state holds is for the statements
of the single commands to say. -/
def Obligations.EveryCommandCompletes : Prop :=
  ∀ (i : Instr) (s : State), ∃ t, exec i s = .next t ∧ t.pending = s.pending

/-- Every step keeps the invariant of `State.Inv`: among others, no leg has both gates on, an OFF or FLOATED channel has
every gate off, an unlocked part drives nothing, the settings in use passed every check, a record being written stands in
the place of its sequence number, which holds no unreleased record, and the exchange RAM keeps its form. -/
def Obligations.EveryStepKeepsTheInvariant : Prop :=
  ∀ s t : State, s.Inv → step s = .next t → t.Inv

/-- The state after reset meets the invariant. -/
def Obligations.ResetMeetsTheInvariant : Prop := State.reset.Inv

/-- Every word of the exchange RAM outside the status block, the capture area and the logs is changed by a host write and by
the clearing at the end of a power-on reset alone. -/
def Obligations.TheHostsWordsAreTheHosts : Prop :=
  ∀ (i : Instr) (s t : State) (a : Nat), s.Inv → i ≠ .powerOnResetEnd →
    (∀ address value, i ≠ .registerWrite address value) →
    ¬((0x100 ≤ a ∧ a < 0x280) ∨ (0x800 ≤ a ∧ a < 0x1800)) →
    exec i s = .next t → Memory.read t.ram a = Memory.read s.ram a

/-- The gate outputs: high-impedance exactly while no setup is locked; while one is, each follows its leg's gate, at the level
that its polarity gives for on or off: high for on where it is ACTIVE_HIGH and low for on where it is ACTIVE_LOW. No leg has both
gates on, and a channel that is OFF or FLOATED has both gates of every leg off. -/
def Obligations.GateOutputsFollowTheLegs : Prop :=
  ∀ (s : State) (c : ChannelId) (leg : Leg), s.Inv →
    let l := (s.chan c).legs.get leg
    (s.setup = none → ∀ side, s.gatePin c leg side = none) ∧
    (s.setup ≠ none →
      s.gatePin c leg .high = some (if (s.cfg c).highActiveLow then !l.high else l.high) ∧
      s.gatePin c leg .low = some (if (s.cfg c).lowActiveLow then !l.low else l.low)) ∧
    ¬(l.high = true ∧ l.low = true) ∧ ((s.chan c).state ≠ .running → l.high = false ∧ l.low = false)

/-- The commands and events of one channel leave every other channel as it was, but for what the arbiter reports of the
other channel's requests. -/
def Obligations.AChannelsEventsLeaveTheOthers : Prop :=
  ∀ (s t : State) (c c' : ChannelId) (i : Instr), c' ≠ c →
    (i = .start c ∨ i = .stop c ∨ i = .resume c ∨ i = .loadEvent c ∨ i = .planFetchEnd c ∨ i = .peakEvent c ∨
      i = .vectorComputationEnd c ∨ i = .placementRunEnd c ∨ (∃ leg edge, i = .legEdge c leg edge) ∨
      (∃ leg, i = .pendingTurnOn c leg) ∨ i = .recordTake c ∨ i = .recordWriteEnd c) →
    exec i s = .next t →
    t.chan c' = { s.chan c' with
      buffer := { (s.chan c').buffer with reports := (t.chan c').buffer.reports } }

/-- A status word whose shown value a command or event changes shows the new value after it, and `publish` writes those
words and no other: every other byte of the exchange RAM is as the command left it. Resets, SOFT_RESET and host writes of
the port are not among the commands meant: the resets write the status block at STATUS_RESET_WRITE_END. That a word whose value
stays is not rewritten is the model's reading (notes/assumptions/11.md). `showStatus` writes the words it names, and no other,
as the part now shows them. What each word shows is the layout of section 12.5: 28 words of each channel, five of the global
group, and 0 in the unused words; that the other bits of the words 2, 6 and 27 and of the global word 0 are 0 is the model's
choice (notes/assumptions/41.md). -/
def Obligations.StatusWordsAreRewrittenOnChange : Prop :=
  (∀ (d e : Device) (a : Nat), e.ram.wf = true →
    Memory.read (publish d e).ram a =
      if a ∈ statusAddresses ∧ statusWord d a ≠ statusWord e a then statusWord e a else Memory.read e.ram a) ∧
  (∀ (i : Instr) (s t : State) (a : Nat), s.Inv →
    (∀ field, i ≠ .lock field ∧ i ≠ .softReset field) →
    (∀ code field, i ≠ .unknownCommand code field ∧ i ≠ .commandDuringLock code field) →
    (∀ address value, i ≠ .registerWrite address value) →
    i ≠ .powerOnReset → i ≠ .powerOnResetEnd → i ≠ .pinReset → i ≠ .pinResetEnd → i ≠ .statusResetWriteEnd →
    exec i s = .next t → a ∈ statusAddresses → statusWord s.toDevice a ≠ statusWord t.toDevice a →
    Memory.read t.ram a = statusWord t.toDevice a) ∧
  (∀ (d : Device) (l : List Nat), ∃ ram : Memory,
    d.showStatus l = { d with
      ram := ram, statusWrite := d.statusWrite.map fun w => { w with touched := w.touched ++ l } } ∧
    (d.ram.wf = true → ∀ a, Memory.read ram a = if a ∈ l then statusWord d a else Memory.read d.ram a)) ∧
  (∀ (d : Device) (c : ChannelId),
    let ch := d.chan c
    let base := match c with
      | .ch0 => 0x100
      | .ch1 => 0x140
      | .ch2 => 0x180
    let bit := fun (b : Bool) (k : Nat) => if b then 2 ^ k else 0
    let drum := fun (pump onCh0 : Word) => if c = .ch0 then onCh0 else pump
    let override := match d.override c with
      | .none => 0
      | .zero => 1
      | .brake => 2
    let direction := match d.hall.direction with
      | .none => (0 : Word)
      | .forward => 1
      | .reverse => 2
      | .skip => 3
      | .invalid => 4
      | .back => 5
    let code := match d.hall.accepted with
      | some code => code.zeroExtend 16
      | none => (0xFFFF : Word)
    let sector := match d.hall.accepted with
      | some code => BitVec.ofNat 16 ((hallSector d.words code).getD 7)
      | none => (0xFFFF : Word)
    (List.range 28).map (fun k => statusWord d (base + k)) = [
      ch.log.written, ch.log.releaseValid, BitVec.ofNat 16 (bit ch.log.badRelease 0 + bit ch.log.eventLost 1),
      ch.plan.generation, ch.lastSeen, BitVec.ofNat 16 ch.planAge,
      BitVec.ofNat 16 (bit ch.cur.asserted 0 + bit ch.zer.asserted 1 + bit ch.age.asserted 2 +
        bit (c = .ch0 && d.hal.asserted) 3 + override * 256),
      BitVec.ofNat 16 ((ch.z8 + 4) / 8),
      ch.counters.periods, ch.counters.acceptedPlans, ch.counters.refusedPlans, ch.counters.tornReads,
      ch.counters.shiftedPeriods, ch.counters.failedWindows, ch.counters.missedConversions, ch.counters.droppedRecords,
      ch.counters.hallSkips, ch.counters.hallSnaps,
      ch.cur.assertions, ch.zer.assertions, ch.age.assertions, drum 0 d.hal.assertions,
      drum 0 code, drum 0 sector, drum 0 direction, drum 0 (BitVec.ofNat 16 d.hall.interval),
      drum 0 (BitVec.ofInt 16 (d.hall.snapError.getD 0)), drum 0 (BitVec.ofNat 16 (bit d.hall.snapError.isSome 0))] ∧
    (∀ k, 28 ≤ k → k < 64 → statusWord d (base + k) = 0) ∧
    (List.range 5).map (fun k => statusWord d (0x1C0 + k)) = [
      BitVec.ofNat 16 (bit d.lov.asserted 0 + bit d.lun.asserted 1 + bit d.fl0.asserted 2 + bit d.fl1.asserted 3),
      d.lov.assertions, d.lun.assertions, d.fl0.assertions, d.fl1.assertions] ∧
    (∀ k, 5 ≤ k → k < 64 → statusWord d (0x1C0 + k) = 0) ∧
    (∀ k, k < 28 → base + k ∈ statusAddresses) ∧ (∀ k, k < 5 → 0x1C0 + k ∈ statusAddresses))

/-! ## Setup, commands and registers (Chapter 12) -/

/-- LOCK on an unlocked part begins the copy of the 128 setup words, in ascending order, and CMD reads IN_PROGRESS; on a
locked part it is refused with WRONG_STATE. A LOCK whose copy fails a check ends with SETUP_INVALID: the copy is discarded
and STAT shows the check's code and the channel. In each case nothing else changes. -/
def Obligations.LockBeginsOrFails : Prop :=
  (∀ (s : State) (field : BitVec 2), s.portOpen →
    (s.setup = none → exec (.lock field) s = .next { s with
      lockRun := some { since := s.refCount, todo := List.range 128, got := [] }
      cmd := { result := .inProgress, command := 1, channel := field } }) ∧
    (s.setup ≠ none → exec (.lock field) s = .next { s with
      cmd := { result := .wrongState, command := 1, channel := field } })) ∧
  (∀ (s : State) (r : WordReader) (code : Nat) (c : ChannelId), s.lockRun = some r →
    setupError (r.got ++ r.todo.map (Memory.read s.ram)) = some (code, c) →
    exec .lockEnd s = .next { s with
      lockRun := none
      setupErrorCode := BitVec.ofNat 4 code
      setupErrorChannel := BitVec.ofNat 2 (channelIndex c)
      cmd := { s.cmd with result := .setupInvalid } })

/-- While a LOCK is in progress, and while the port takes no command, no write of CMD does anything. On an open port a command
code outside 1..5, or channel 3 with START, STOP or RESUME, gives UNKNOWN and changes nothing else. -/
def Obligations.CommandsUntakenOrUnknown : Prop :=
  (∀ s : State, (s.lockRun ≠ none ∨ s.takesCommands = false) →
    (∀ code field, exec (.commandDuringLock code field) s = .next s) ∧
    (∀ field, exec (.lock field) s = .next s ∧ exec (.softReset field) s = .next s) ∧
    (∀ c, exec (.start c) s = .next s ∧ exec (.stop c) s = .next s ∧ exec (.resume c) s = .next s) ∧
    (∀ code field, exec (.unknownCommand code field) s = .next s)) ∧
  (∀ (s : State) (code : BitVec 4) (field : BitVec 2), s.portOpen →
    (code = 0 ∨ 5 < code.toNat ∨ ((code = 2 ∨ code = 3 ∨ code = 4) ∧ field = 3)) →
    exec (.unknownCommand code field) s = .next { s with
      cmd := { result := .unknown, command := code, channel := field } })

/-- The setup check: it names the first failing check of R165's table and the first channel in the order CH0, CH1, CH2 that
fails it, and names none exactly when no channel fails any. The fields of the setup copy that the checks and every block read
stand at the words and bits of section 12.5: each channel's group from 0x00, 0x20 and 0x40, the Hall timer's settings in CH0's, and
the global group from 0x60; the settings of a locked part are those of its copy. A condition's action for a channel in its
scope is the one its field codes, FLOAT for FL0 and FL1, whose scopes are their masks. A word outside the copy is read as 0, and a
code above 3, which no locked setup gives a field that is read, as NOTE (the model's choice, notes/assumptions/28.md). The groups,
plan slots, status words and logs of the channels stand at their addresses. -/
def Obligations.TheSetupCheckNamesTheFirstFailure : Prop :=
  (∀ words : List Word,
    let fails : Nat → ChannelId → Prop := fun k c =>
      let g := channelSetup words c
      match k with
      | 1 => g.d % 2 = 1 ∨ ¬(2 ≤ g.d ∧ g.d ≤ 1022)
      | 2 => ¬(8 ≤ g.a ∧ g.a ≤ 511)
      | 3 => ¬(32 ≤ g.wwin ∧ g.wwin ≤ 2047) ∨ ¬(g.d + g.a < g.wwin)
      | 4 => (g.a : Int) - 1 < g.lw
      | 5 => g.zhi < g.zlo
      | 6 => g.curAction = 2
      | 7 => 3 < g.curAction ∨ 3 < g.zerAction ∨ 3 < g.ageAction ∨ 3 < g.lovAction ∨ 3 < g.lunAction ∨
          (c = .ch0 ∧ 3 < g.halAction)
      | 8 => c = .ch0 ∧ ∃ s, s ≤ 5 ∧
          ¬∃ k, k < 8 ∧ wordNat words (18 + k) = s ∧ ∀ j, j < 8 → wordNat words (18 + j) = s → j = k
      | 9 => ¬(1 ≤ g.level ∧ g.level ≤ logCapacity c)
      | 10 => ¬(250 ≤ g.m0 ∧ g.m0 ≤ 16000)
      | _ => False
    (setupError words = none ↔ ∀ k c, ¬fails k c) ∧
    (∀ k c, setupError words = some (k, c) ↔
      fails k c ∧ (∀ c', channelIndex c' < channelIndex c → ¬fails k c') ∧ (∀ j c', j < k → ¬fails j c'))) ∧
  (∀ (words : List Word) (c : ChannelId),
    let word := fun k : Nat => words.getD k 0
    let bits := fun (k low n : Nat) => ((word k).extractLsb' low n).toNat
    let base := match c with
      | .ch0 => 0x00
      | .ch1 => 0x20
      | .ch2 => 0x40
    channelSetup words c = {
      enabled := (word base).getLsbD 0, link := (word base).getLsbD 1
      highActiveLow := (word base).getLsbD 2, lowActiveLow := (word base).getLsbD 3
      m0 := (word (base + 1)).toNat, d := (word (base + 2)).toNat, wwin := (word (base + 3)).toNat
      a := (word (base + 4)).toNat, lw := (word (base + 5)).toNat, kz := bits (base + 6) 0 8
      zlo := (word (base + 7)).toNat, zhi := (word (base + 8)).toNat, level := (word (base + 9)).toNat
      curLimit := (word (base + 10)).toNat, curH := bits (base + 11) 0 10
      curF := bits (base + 12) 0 4, zerF := bits (base + 12) 4 4
      curAction := bits (base + 13) 0 4, zerAction := bits (base + 13) 4 4
      ageAction := bits (base + 13) 8 4, lovAction := bits (base + 13) 12 4
      lunAction := bits (base + 14) 0 4, halAction := bits (base + 14) 4 4
      amax := (word (base + 15)).toNat } ∧
    hallTh words = bits 16 0 8 ∧ hallHold words = bits 16 0 8 * 128 ∧ hallCsnap words = bits 17 0 12 ∧
    (∀ code : BitVec 3, hallSector words code =
      if (word (18 + code.toNat)).toNat ≤ 5 then some (word (18 + code.toNat)).toNat else none) ∧
    (∀ i, i < 6 → hallBoundary words i = word (26 + i)) ∧
    (∀ i, i < 4 → gainTrim words i = (word (0x60 + i)).toNat) ∧
    globalSetup words = {
      lovLimit := (word 0x64).toNat, lovH := bits 0x65 0 10, lovF := bits 0x66 0 4
      lunLimit := (word 0x67).toNat, lunH := bits 0x68 0 10, lunF := bits 0x69 0 4 } ∧
    (let n := match c with
       | .ch0 => 0
       | .ch1 => 1
       | .ch2 => 2
     channelIndex c = n ∧
     faultMapped words .flt0 c = (word 0x6A).getLsbD n ∧ faultMapped words .flt1 c = (word 0x6B).getLsbD n)) ∧
  (∀ (d : Device) (c : ChannelId),
    let g := channelSetup d.words c
    let coded := fun code : Nat => match code with
      | 1 => Action.zero
      | 2 => .brake
      | 3 => .float
      | _ => .note
    d.words = d.setup.getD [] ∧ d.cfg c = g ∧
    [ConditionId.cur c, .zer c, .age c, .hal, .lov, .lun, .fl0, .fl1].map (fun id => d.action id c) =
      [coded g.curAction, coded g.zerAction, coded g.ageAction, coded g.halAction, coded g.lovAction, coded g.lunAction,
        .float, .float] ∧
    ∀ id, d.inScope id c = match id with
      | .cur x => x == c
      | .zer x => x == c
      | .age x => x == c
      | .hal => c == .ch0
      | .lov => true
      | .lun => true
      | .fl0 => faultMapped d.words .flt0 c
      | .fl1 => faultMapped d.words .flt1 c) ∧
  [ChannelId.ch0, .ch1, .ch2].map (fun c => (setupBase c, slotBase c, statusBase c, logBase c, logCapacity c)) =
    [(0x00, 0x80, 0x100, 0x800, 128), (0x20, 0xA0, 0x140, 0x1000, 64), (0x40, 0xC0, 0x180, 0x1400, 64)]

/-- A LOCK whose copy passes every check completes with DONE: the copy is locked, STAT's error is cleared, the gate outputs
are driven, the poll timer starts, FL0 and FL1 take up the filtered levels of their lines, every channel's null plan takes its
M0, and LOCK is noticed. The Hall timer begins its acquisition, or, with Th = 0, makes it at once. Every channel stays OFF; where
a fault condition taken up maps it, its log is handed that condition's CONDITION_ASSERTED record, FL0's before FL1's, and its
TRIP is noticed; no other notice bit and no word outside the status block changes. The error channel 0 and the order of the two
records are the model's choice (notes/assumptions/26.md and 22.md). -/
def Obligations.LockSucceedsOnAValidSetup : Prop :=
  ∀ (s : State) (r : WordReader), s.Inv → s.lockRun = some r →
    let words := r.got ++ r.todo.map (Memory.read s.ram)
    let taken := fun line c => (s.fault line).filtered && faultMapped words line c
    let record := fun (condition : Nat) (c : ChannelId) => LogItem.event {
      code := .conditionAsserted, periodCount := (s.chan c).periodCount, condition := condition, value := 0
      action := 3, extra := 0, state := .off }
    let followed := fun (f : FaultFilter) (k : Condition) =>
      if f.filtered then ({ asserted := true, count := 0, assertions := k.assertions + 1 } : Condition) else k
    setupError words = none →
    ∃ t, exec .lockEnd s = .next t ∧
      (∀ c, t.chan c = { s.chan c with
        plan := Plan.null (channelSetup words c).m0
        log := { (s.chan c).log with waiting := (s.chan c).log.waiting ++
          (if taken .flt0 c then [record 7 c] else []) ++ (if taken .flt1 c then [record 8 c] else []) } }) ∧
      (∀ c, (t.chan c).state = .off) ∧
      t.toDevice = { s.toDevice with
        setup := some words, lockRun := none, setupErrorCode := 0, setupErrorChannel := 0, outputsDriven := true
        cmd := { s.cmd with result := .done }
        capture := { s.capture with nextPoll := some (s.refCount + 32768) }
        hall := if hallTh words = 0 then { s.hall with
            accepted := some s.hall.raw, acquiring := none, refSector := hallSector words s.hall.raw, direction := .none }
          else { s.hall with acquiring := some s.refCount }
        fl0 := followed s.flt0 s.fl0, fl1 := followed s.flt1 s.fl1
        notice := t.notice, channels := t.channels, ram := t.ram, statusWrite := t.statusWrite } ∧
      (∀ k, k < 13 → t.notice.getLsbD k = (s.notice.getLsbD k || k == 11 ||
        [ChannelId.ch0, .ch1, .ch2].any fun c => k == 3 + channelIndex c && (taken .flt0 c || taken .flt1 c))) ∧
      (∀ a, a ∉ statusAddresses → Memory.read t.ram a = Memory.read s.ram a) ∧
      (s.statusWrite = none → t.statusWrite = none) ∧ t.pending = s.pending

/-- START is checked against the four refusals in their order; a refused START sets CMD's result and leaves every other piece
of state as it was, and one that is not refused is carried out with the result DONE. -/
def Obligations.StartIsRefusedInOrder : Prop :=
  ∀ (s : State) (c : ChannelId), s.portOpen →
    let shown := fun r : CmdResult => ({ result := r, command := 2, channel := BitVec.ofNat 2 (channelIndex c) } : Cmd)
    (s.setup = none → exec (.start c) s = .next { s with cmd := shown .notLocked }) ∧
    (s.setup ≠ none → (s.cfg c).enabled = false → exec (.start c) s = .next { s with cmd := shown .notEnabled }) ∧
    (s.setup ≠ none → (s.cfg c).enabled = true → (s.chan c).state ≠ .off →
      exec (.start c) s = .next { s with cmd := shown .wrongState }) ∧
    (s.setup ≠ none → (s.cfg c).enabled = true → (s.chan c).state = .off → s.floatPresent c →
      exec (.start c) s = .next { s with cmd := shown .conditionPresent }) ∧
    (s.setup ≠ none → (s.cfg c).enabled = true → (s.chan c).state = .off → ¬s.floatPresent c →
      ∃ t, exec (.start c) s = .next t ∧ t.cmd = shown .done)

/-- An accepted START: the channel's starting values, the all-float sets of modulus M0, period 1 opened at the present
instant with its ZERO and LINK requests entered and its fetch begun, the channel's own conditions cleared, one STARTED
record, and, with a global condition of action BRAKE present, the BRAKE hold set and every leg given to low (`Device.started`).
On CH0 this is the case of an accepted Hall code, if there is one, that maps to a sector. The hand-out that follows is as for a
due entry (notes/assumptions/17.md and 18.md). -/
def Obligations.StartOpensPeriodOne : Prop :=
  ∀ (s : State) (c : ChannelId), s.Inv → s.portOpen → s.setup ≠ none → (s.cfg c).enabled = true →
    (s.chan c).state = .off → ¬s.floatPresent c →
    (c = .ch0 → ∀ code, s.hall.accepted = some code → hallSector s.words code ≠ none) →
    ∃ d, Device.HandsOut (s.started c) d ∧
      exec (.start c) s = .next { s with
        toDevice := publish s.toDevice
          { d with cmd := { result := .done, command := 2, channel := BitVec.ofNat 2 (channelIndex c) } } }

/-- START of CH0 where the Hall timer holds a code that maps to INVALID: after all that START does, HAL is asserted with that
code. HAL's count moves, HALL is noticed, and TRIP0 unless the action is NOTE; the log is handed STARTED, then
CONDITION_ASSERTED, then, with the action FLOAT, FLOATED; with FLOAT the channel is FLOATED at once with every gate off, with
BRAKE it has the BRAKE hold and every leg given to low, and without FLOAT it is RUNNING. The hand-out that follows is as for a due
entry (notes/assumptions/17.md and 18.md). The value 0 that HAL's change carries, which an armed capture unit takes up, is the
model's choice (notes/assumptions/38.md). -/
def Obligations.StartEvaluatesHal : Prop :=
  ∀ (s : State) (code : BitVec 3), s.Inv → s.portOpen → s.setup ≠ none → (s.cfg .ch0).enabled = true →
    (s.chan .ch0).state = .off → ¬s.floatPresent .ch0 → s.hall.accepted = some code → hallSector s.words code = none →
    let act := s.action .hal .ch0
    let state : ChannelState := if act = .float then .floated else .running
    let record : EventRecord := { code := .started, periodCount := 1, condition := 0, value := 0, action := 0, extra := 0,
                                  state := .running }
    let braked := s.brakedAtStart .ch0 || act == .brake
    ∃ (t : State) (d : Device), exec (.start .ch0) s = .next t ∧
      Device.HandsOut ((s.started .ch0).assertCondition .hal 0 (code.zeroExtend 16)) d ∧
      t.toDevice = publish s.toDevice { d with cmd := { result := .done, command := 2, channel := 0 } } ∧
      t.pending = s.pending ∧
      t.hal = { asserted := true, count := 0, assertions := s.hal.assertions + 1 } ∧ t.notice.getLsbD 10 = true ∧
      (t.notice.getLsbD 3 = (s.notice.getLsbD 3 || act != .note)) ∧
      (t.chan .ch0).periodCount = 1 ∧ (t.chan .ch0).state = state ∧
      ((t.chan .ch0).floatedLatch = true ↔ act = .float) ∧ (t.chan .ch0).brakeHold = braked ∧
      (t.chan .ch0).legs = allLegs (if act ≠ .float ∧ braked = true then
        .lowPending (s.refCount + BitVec.ofNat 32 (s.cfg .ch0).d) else .idle) ∧
      (t.chan .ch0).log.waiting = (s.chan .ch0).log.waiting ++ [.event record,
        .event { record with code := .conditionAsserted, condition := 4, action := act.code
                             extra := code.zeroExtend 16, state := state }] ++
        (if act = .float then [.event { record with code := .floated, condition := 4, action := 3, state := .floated }]
          else [])

/-- STOP is refused with NOT_LOCKED before LOCK and with WRONG_STATE when the channel is OFF. RESUME is refused with NOT_LOCKED
before LOCK, with WRONG_STATE unless the channel is FLOATED, and with CONDITION_PRESENT while a present condition has the
action FLOAT for it, in that order. A refusal changes CMD alone. -/
def Obligations.StopAndResumeAreRefusedInOrder : Prop :=
  ∀ (s : State) (c : ChannelId), s.portOpen →
    let shown := fun (code : BitVec 4) (r : CmdResult) =>
      ({ result := r, command := code, channel := BitVec.ofNat 2 (channelIndex c) } : Cmd)
    (s.setup = none → exec (.stop c) s = .next { s with cmd := shown 3 .notLocked } ∧
      exec (.resume c) s = .next { s with cmd := shown 4 .notLocked }) ∧
    (s.setup ≠ none → (s.chan c).state = .off → exec (.stop c) s = .next { s with cmd := shown 3 .wrongState }) ∧
    (s.setup ≠ none → (s.chan c).state ≠ .floated → exec (.resume c) s = .next { s with cmd := shown 4 .wrongState }) ∧
    (s.setup ≠ none → (s.chan c).state = .floated → s.floatPresent c →
      exec (.resume c) s = .next { s with cmd := shown 4 .conditionPresent })

/-- An accepted STOP: every gate of the channel off, the timebase stopped, the open period, the sets, the fetch and the
computation discarded, its entries withdrawn without a report and its conversions marked to be discarded, its own conditions
cleared, one STOPPED record with the discarded period's count. The period count, θ, Q, V_a, the plan and the last seen
generation stay. The hand-out that follows is as for a due entry (notes/assumptions/17.md and 18.md). -/
def Obligations.StopDiscardsTheOpenPeriod : Prop :=
  ∀ (s : State) (c : ChannelId), s.portOpen → s.setup ≠ none → (s.chan c).state ≠ .off →
    let ch := s.chan c
    let record : EventRecord := { code := .stopped, periodCount := ch.periodCount, condition := 0, value := 0, action := 0,
                                  extra := 0, state := .off }
    let channel : Channel := { ch with
      state := .off, floatedLatch := false, resumeHold := false, falling := false, staged := none, inForce := none
      fetch := none, computation := none, placement := none, pendingAngle := none, brakeHold := false, buffer := .empty
      legs := allLegs .idle, cur := ch.cur.cleared, zer := ch.zer.cleared, age := ch.age.cleared
      log := { ch.log with waiting := ch.log.waiting ++ [.event record] } }
    let discarded := fun k : Conversion => if k.entry.channel = c then { k with discard := true } else k
    ∃ d, Device.HandsOut
        { s.setChan c channel with
          requests := s.requests.filter fun e => e.channel != c
          cva := s.cva.map discarded, cvb := s.cvb.map discarded
          hal := s.halAfter c
          capture := if s.capture.mode = .armed ∧ s.capture.channel = c then { s.capture with following := none }
            else s.capture } d ∧
      exec (.stop c) s = .next { s with
        toDevice := publish s.toDevice
          { d with cmd := { result := .done, command := 3, channel := BitVec.ofNat 2 (channelIndex c) } } }

/-- An accepted RESUME: RUNNING with the latch cleared and the resume hold set, V_a 0, the set in force with its three legs
turned to FLOAT and all else of it kept, the staged set replaced by an all-float set of its modulus and vector values, one
RESUMED record. With the BRAKE hold set every leg is given to low; else the legs stay off. -/
def Obligations.ResumeHoldsTheLegsFloating : Prop :=
  ∀ (s : State) (c : ChannelId) (e f : EdgeSet), s.Inv → s.portOpen → s.setup ≠ none → (s.chan c).state = .floated →
    ¬s.floatPresent c → (s.chan c).inForce = some e → (s.chan c).staged = some f →
    let ch := s.chan c
    let record : EventRecord := { code := .resumed, periodCount := ch.periodCount, condition := 0, value := 0, action := 0,
                                  extra := 0, state := .running }
    let channel : Channel := { ch with
      state := .running, floatedLatch := false, resumeHold := true, va := 0
      computation := ch.computation.map fun k => { k with zeroed := true }
      inForce := some { e with drives := { a := .float, b := .float, c := .float } }
      staged := some (allFloatSet (s.cfg c) f.modulus (ch.periodCount + 1) f.vector)
      legs := allLegs (if ch.brakeHold then .lowPending (s.refCount + BitVec.ofNat 32 (s.cfg c).d) else .idle)
      log := { ch.log with waiting := ch.log.waiting ++ [.event record] } }
    exec (.resume c) s = .next { s with
      toDevice := publish s.toDevice { s.setChan c channel with
        cmd := { result := .done, command := 4, channel := BitVec.ofNat 2 (channelIndex c) } } }

/-- A host write to NOTICE clears each bit written as 1 and leaves each bit written as 0; a host write to NOTICE_EN gives
each bit its value and does not change NOTICE. Nothing else changes; while READY is low neither write is taken (the model's
reading, notes/assumptions/20.md). INT is low exactly while a bit set in NOTICE is also set in NOTICE_EN; NOTICE reads every
bit whatever NOTICE_EN holds. -/
def Obligations.NoticesAndTheInterruptLine : Prop :=
  (∀ (s : State) (value : Word),
    (s.ready = true →
      (∃ notice : BitVec 13, exec (.noticeWrite value) s = .next { s with notice := notice } ∧
        ∀ k, k < 13 → notice.getLsbD k = (s.notice.getLsbD k && !value.getLsbD k)) ∧
      (∃ en : BitVec 13, exec (.noticeEnWrite value) s = .next { s with noticeEn := en } ∧
        ∀ k, k < 13 → en.getLsbD k = value.getLsbD k)) ∧
    (s.ready = false → exec (.noticeWrite value) s = .next s ∧ exec (.noticeEnWrite value) s = .next s)) ∧
  (∀ s : State,
    (s.intPin = false ↔ ∃ k, k < 13 ∧ s.notice.getLsbD k = true ∧ s.noticeEn.getLsbD k = true) ∧
    (s.resetLow = false → ∃ n en : Word, portRead s.toDevice 0x2003 = some n ∧ portRead s.toDevice 0x2004 = some en ∧
      (∀ k, k < 13 → n.getLsbD k = s.notice.getLsbD k ∧ en.getLsbD k = s.noticeEn.getLsbD k) ∧
      ∀ k, 13 ≤ k → n.getLsbD k = false))

/-- A host write of an exchange RAM word while READY is high: the word reads as written, every other word as before, and no
other state changes but what the reads and the writings in progress have done: a fetch or a LOCK copy that has not surely
read the word has read a number of further words of the RAM as it stood before (notes/assumptions/12.md), and a record, a capture copy or the status block's reset
values being written either replace the word at their end or, where they had written it, leave it (notes/assumptions/13.md).
While READY is low no word is written. -/
def Obligations.HostWritesOneWord : Prop :=
  ∀ (s : State) (address : BitVec 14) (value : Word), s.ram.wf = true → address.toNat < 0x2000 →
    (s.ready = false → exec (.registerWrite address value) s = .next s) ∧
    (s.ready = true → ∃ t, exec (.registerWrite address value) s = .next t ∧
      Memory.read t.ram address.toNat = value ∧
      (∀ a, a ≠ address.toNat → Memory.read t.ram a = Memory.read s.ram a) ∧
      t.toDevice = { s.toDevice with
        ram := t.ram, lockRun := t.lockRun, channels := t.channels, freeIndex := t.freeIndex
        capture := { s.capture with copy := t.capture.copy }, statusWrite := t.statusWrite } ∧
      (∀ c, t.chan c = { s.chan c with
        fetch := (t.chan c).fetch, log := { (s.chan c).log with writing := (t.chan c).log.writing } }) ∧
      (s.readsAhead address.toNat = false → t.lockRun = s.lockRun ∧ (∀ c, (t.chan c).fetch = (s.chan c).fetch) ∧
        t.freeIndex = s.freeIndex) ∧
      (s.readsAhead address.toNat = true → ∃ n : Nat,
        let read := fun x : WordReader => if address.toNat ∈ x.todo then x.advance n s.ram else x
        t.lockRun = s.lockRun.map read ∧ t.freeIndex = s.freeIndex + 1 ∧
        ∀ c, (t.chan c).fetch = (s.chan c).fetch.map fun f => { f with reader := read f.reader }) ∧
      ((t.statusWrite = s.statusWrite ∧ t.capture = s.capture ∧
          ∀ c, (t.chan c).log.writing = (s.chan c).log.writing) ∨
        (s.writesAt address.toNat = true ∧
          t.statusWrite = s.statusWrite.map (fun w => { w with touched := w.touched ++ [address.toNat] }) ∧
          t.capture.copy = s.capture.copy.map (fun k => { k with kept := k.kept ++ [address.toNat] }) ∧
          ∀ c, (t.chan c).log.writing =
            (s.chan c).log.writing.map fun w => { w with kept := w.kept ++ [address.toNat] })) ∧
      t.pending = s.pending)

/-- ID reads 0xE330; CMD reads the last result with its command code and channel; STAT reads the lock, the setup error, the
channels' states, the filtered fault lines and READY, each at its place; register addresses from 0x2005 read 0; no read is
answered while RESET is low. Writes to ID, to STAT and from 0x2005 on have no effect; a write of CMD is the command its fields
spell, and writes of NOTICE and NOTICE_EN are those rows. That a host write at any address is a REGISTER_WRITE, and that the
bits of a CMD write outside its two fields are not read, is the model's reading (notes/assumptions/19.md); that CMD's other
bits read 0 is its choice (notes/assumptions/41.md). -/
def Obligations.RegisterAddressesBehave : Prop :=
  ∀ (s : State) (address : BitVec 14) (value : Word),
    (address = 0x2000 ∨ address = 0x2002 ∨ 0x2005 ≤ address.toNat →
      exec (.registerWrite address value) s = .next s) ∧
    (let code := value.extractLsb' 4 4
     let field := value.extractLsb' 8 2
     (code = 1 → exec (.registerWrite 0x2001 value) s = exec (.lock field) s) ∧
     (∀ c, field = BitVec.ofNat 2 (channelIndex c) →
       (code = 2 → exec (.registerWrite 0x2001 value) s = exec (.start c) s) ∧
       (code = 3 → exec (.registerWrite 0x2001 value) s = exec (.stop c) s) ∧
       (code = 4 → exec (.registerWrite 0x2001 value) s = exec (.resume c) s)) ∧
     (code = 5 → exec (.registerWrite 0x2001 value) s = exec (.softReset field) s) ∧
     (cmdUnknown code field = true → exec (.registerWrite 0x2001 value) s = exec (.unknownCommand code field) s)) ∧
    exec (.registerWrite 0x2003 value) s = exec (.noticeWrite value) s ∧
    exec (.registerWrite 0x2004 value) s = exec (.noticeEnWrite value) s ∧
    (let result := fun r : CmdResult => match r with
       | .none => 0
       | .done => 1
       | .inProgress => 2
       | .notLocked => 3
       | .wrongState => 4
       | .conditionPresent => 5
       | .setupInvalid => 6
       | .notEnabled => 7
       | .unknown => 8
     let state := fun c => match (s.chan c).state with
       | .off => 0
       | .running => 1
       | .floated => 2
     s.resetLow = false → ∃ cmd stat : Word,
       portRead s.toDevice 0x2001 = some cmd ∧ portRead s.toDevice 0x2002 = some stat ∧
       cmd.extractLsb' 0 4 = BitVec.ofNat 4 (result s.cmd.result) ∧ cmd.extractLsb' 4 4 = s.cmd.command ∧
       cmd.extractLsb' 8 2 = s.cmd.channel ∧ cmd.extractLsb' 10 6 = 0 ∧
       stat.getLsbD 0 = s.setup.isSome ∧ stat.extractLsb' 1 4 = s.setupErrorCode ∧
       stat.extractLsb' 5 2 = s.setupErrorChannel ∧ stat.extractLsb' 7 2 = BitVec.ofNat 2 (state .ch0) ∧
       stat.extractLsb' 9 2 = BitVec.ofNat 2 (state .ch1) ∧ stat.extractLsb' 11 2 = BitVec.ofNat 2 (state .ch2) ∧
       stat.getLsbD 13 = s.flt0.filtered ∧ stat.getLsbD 14 = s.flt1.filtered ∧ stat.getLsbD 15 = s.ready) ∧
    (s.resetLow = false → portRead s.toDevice 0x2000 = some 0xE330 ∧
      (0x2005 ≤ address.toNat → portRead s.toDevice address = some 0) ∧
      (s.ready = false → address.toNat < 0x2000 → portRead s.toDevice address = some 0)) ∧
    (s.resetLow = true → portRead s.toDevice address = none)

/-! ## Resets (section 12.4) -/

/-- A power-on reset begins: the lock is cleared, the gates are high-impedance, READY is low, CMD, NOTICE and NOTICE_EN read
0, and every block holds its power-on values, listed in the last clauses; every word of the exchange RAM stays until the reset
ends, the logs and the capture area among them, but for a word of a record, capture copy or status block being written
(notes/assumptions/13.md). A pin reset begins in the same way, with the RESET line low in place of the power-on. The levels of the input
lines stay the outside world's. The load time and the capture unit's armed values, which the manual leaves open while a channel
is OFF and the unit is IDLE, are the model's (notes/assumptions/9.md), and so are that a reset leaves the other one's line or
supply as it was (notes/assumptions/21.md) and that the words of the RAM stay until a power-on reset ends
(notes/assumptions/29.md). -/
def Obligations.HardResetsTakeTheirValues : Prop :=
  (∀ s : State, s.Inv →
    let taken := fun t : State =>
      t.ready = false ∧ t.setup = none ∧ t.lockRun = none ∧ t.statusWrite = none ∧ t.outputsDriven = false ∧
      t.cmd = { result := .none, command := 0, channel := 0 } ∧ t.setupErrorCode = 0 ∧ t.setupErrorChannel = 0 ∧
      t.notice = 0 ∧ t.noticeEn = 0 ∧ (∀ c, t.chan c = Channel.reset 0) ∧ t.requests = [] ∧ t.cva = none ∧ t.cvb = none ∧
      (∀ id, t.condition id = .clear) ∧ t.capture = CaptureUnit.reset none ∧ t.hall = HallTimer.reset s.hall.raw ∧
      t.flt0 = { level := s.flt0.level, filtered := false, since := none } ∧
      t.flt1 = { level := s.flt1.level, filtered := false, since := none } ∧
      (∀ a, ¬((0x100 ≤ a ∧ a < 0x280) ∨ (0x800 ≤ a ∧ a < 0x1800)) → Memory.read t.ram a = Memory.read s.ram a) ∧
      (∀ a, s.writesAt a = false → Memory.read t.ram a = Memory.read s.ram a) ∧
      t.pending = s.pending
    (∃ t, exec .powerOnReset s = .next t ∧ t.powerOn = true ∧ t.resetLow = s.resetLow ∧ taken t) ∧
    (∃ t, exec .pinReset s = .next t ∧ t.resetLow = true ∧ t.powerOn = s.powerOn ∧ taken t)) ∧
  (∀ m : Nat, Channel.reset m = {
    state := .off, floatedLatch := false, resumeHold := false, falling := false, periodCount := 0, loadTime := 0
    staged := none, inForce := none, lastSeen := 0, fetch := none, planAge := 0, clampedMark := false
    plan := {
      generation := 0, mode := .coast, setAngle := false, snap := false, inject := false, modulus := m, target := 0
      slew := 0, rate := 0, angle := 0, adjust := 0, guardHigh := 0, guardLow := 0, interval := 1, injectFirst := 0
      injectSecond := 0 }
    theta := 0, q := 0, va := 0, pendingAngle := none, computation := none, placement := none, legs := allLegs .idle
    brakeHold := false, z8 := 16384, lastMetric := none
    buffer := {
      first := none, second := none, zero := none, link := none
      reports := { first := none, second := none, zero := none, link := none } }
    cur := .clear, zer := .clear, age := .clear
    counters := {
      periods := 0, acceptedPlans := 0, refusedPlans := 0, tornReads := 0, shiftedPeriods := 0, failedWindows := 0
      missedConversions := 0, droppedRecords := 0, hallSkips := 0, hallSnaps := 0 }
    log := {
      written := 0, releaseValid := 0, badRelease := false, eventLost := false, groupNotOk := 0, groupMissed := 0
      waiting := [], writing := none } }) ∧
  Condition.clear = { asserted := false, count := 0, assertions := 0 } ∧
  LegState.idle = { high := false, low := false, pending := none } ∧
  (∀ raw, HallTimer.reset raw = {
    raw := raw, accepted := none, acquiring := none, run := none, refSector := none, lastTransition := none, elapsed := 0
    direction := .none, interval := 65535, snapError := none }) ∧
  (∀ poll, CaptureUnit.reset poll = {
    mode := .idle, generation := 0, channel := .ch0, filter := .any, skip := 1, lastServed := 0, following := none
    nextPoll := poll, copy := none })

/-- The ends of the two resets: the reference count starts from 0, the measure of a fault line that is low begins, and the
status block's reset values are to be written; a power-on reset's end clears every word of the exchange RAM, a pin reset's
keeps them; where the other reset is still held, the part stays in reset (the model's choice, notes/assumptions/21.md).
When the writing of the reset values ends, READY is high, and each word of 0x0100..0x01FF shows what its block now holds, but for
those that another block has written since the reset, after every kind of reset (notes/assumptions/29.md), and those over which
a host write came after the part's (notes/assumptions/13.md), which are left as they are. -/
def Obligations.ResetsEndAndTheStatusBlockIsWritten : Prop :=
  (∀ s : State,
    let filter := fun f : FaultFilter =>
      ({ level := f.level, filtered := false, since := if f.level then none else some 0 } : FaultFilter)
    (s.powerOn = true → s.resetLow = false → exec .powerOnResetEnd s = .next { s with
      powerOn := false, ram := [], refCount := 0, flt0 := filter s.flt0, flt1 := filter s.flt1
      statusWrite := some { kind := .powerOn, since := 0, touched := [] } }) ∧
    (s.resetLow = true → s.powerOn = false → exec .pinResetEnd s = .next { s with
      resetLow := false, refCount := 0, flt0 := filter s.flt0, flt1 := filter s.flt1
      statusWrite := some { kind := .pin, since := 0, touched := [] } }) ∧
    (s.powerOn = true → s.resetLow = true →
      exec .powerOnResetEnd s = .next { s with powerOn := false, ram := [] } ∧
      exec .pinResetEnd s = .next { s with resetLow := false })) ∧
  (∀ (s : State) (w : StatusWrite), s.Inv → s.statusWrite = some w →
    ∃ t, exec .statusResetWriteEnd s = .next t ∧ t.toDevice = { s.toDevice with statusWrite := none, ram := t.ram } ∧
      t.ready = true ∧ t.pending = s.pending ∧
      ∀ a, Memory.read t.ram a = if 0x100 ≤ a ∧ a < 0x200 ∧ a ∉ w.touched then statusWord s.toDevice a
        else Memory.read s.ram a)

/-- SOFT_RESET is refused with NOT_LOCKED while the part is not locked. On a locked part it acts at once: every channel goes
OFF with its reset values and the null plan of its M0, requests and conversions are gone, all conditions but FL0 and FL1 and
all assertion counts, counters and notices are cleared, the capture unit is idle with its poll timer restarted, every gate is
off and stays driven, the Hall timer begins a new acquisition, or, with Th = 0, makes it at once: the code accepted, its sector
the reference sector, the direction NONE, and its four words shown; the lock, the setup copy, NOTICE_EN, the fault filters and the
reference count are kept, and the status block's reset values are to be written. Every word of the exchange RAM stays, the logs
and the capture area among them, but for those four and a word of a record or copy being written (notes/assumptions/13.md). The
idle capture unit's armed values are the
model's (notes/assumptions/9.md). -/
def Obligations.SoftResetKeepsTheLock : Prop :=
  ∀ (s : State) (field : BitVec 2), s.Inv → s.portOpen →
    (s.setup = none → exec (.softReset field) s = .next { s with
      cmd := { result := .notLocked, command := 5, channel := field } }) ∧
    (s.setup ≠ none → ∃ t, exec (.softReset field) s = .next t ∧
      t.setup = s.setup ∧ t.noticeEn = s.noticeEn ∧ t.flt0 = s.flt0 ∧ t.flt1 = s.flt1 ∧ t.refCount = s.refCount ∧
      t.setupErrorCode = s.setupErrorCode ∧ t.setupErrorChannel = s.setupErrorChannel ∧
      t.cmd = { result := .done, command := 5, channel := field } ∧ t.outputsDriven = true ∧ t.notice = 0 ∧
      (∀ c, t.chan c = Channel.reset (s.cfg c).m0) ∧ t.requests = [] ∧ t.cva = none ∧ t.cvb = none ∧
      t.hal = .clear ∧ t.lov = .clear ∧ t.lun = .clear ∧
      t.fl0 = { asserted := s.fl0.asserted, count := 0, assertions := 0 } ∧
      t.fl1 = { asserted := s.fl1.asserted, count := 0, assertions := 0 } ∧
      t.capture = CaptureUnit.reset (some (s.refCount + 32768)) ∧
      (hallHold s.words ≠ 0 → t.hall = { HallTimer.reset s.hall.raw with acquiring := some s.refCount }) ∧
      (hallHold s.words = 0 → t.hall = { HallTimer.reset s.hall.raw with
        accepted := some s.hall.raw, acquiring := none, refSector := hallSector s.words s.hall.raw, direction := .none }) ∧
      (let shown := if hallHold s.words = 0 then [0x116, 0x117, 0x118, 0x119] else []
       t.statusWrite = some { kind := .soft, since := s.refCount, touched := shown } ∧
       (∀ a ∈ shown, Memory.read t.ram a = statusWord t.toDevice a) ∧
       ∀ a, a ∉ shown → s.writesAt a = false → Memory.read t.ram a = Memory.read s.ram a) ∧
      (∀ a, ¬((0x100 ≤ a ∧ a < 0x280) ∨ (0x800 ≤ a ∧ a < 0x1800)) → Memory.read t.ram a = Memory.read s.ram a) ∧
      t.pending = s.pending)

/-! ## The load event and the plan fetch (Chapters 1, 2) -/

/-- The load event of a RUNNING or FLOATED channel: the count advances, the load time is the instant of the event, the staged
set goes into force (an all-float set with its requests for the new period number) and stays staged, θ advances by ω and Q
or takes the pending angle, Q and the pending angle are cleared, the plan age advances and saturates, the closed period is
counted and its metric kept, a fetch of the slot begins, the open-period buffer is empty but for reports. What the period's
own conditions CUR and AGE may change is named in the record; setup, other channels and other conditions stay. The last clause
gives the event whole, in its order: the period is counted, CUR judged, the record handed, the period tested by the capture
unit; the next period is opened; a BRAKE hold whose override is released is cleared, the legs are commanded and the requests
entered, and an AGE assertion comes before or after that (notes/assumptions/15.md); the fetch begins; the arbiter hands out.
That a load event asks for no peak before it (notes/assumptions/16.md), that every all-float set has its requests worked out
again (notes/assumptions/31.md), that an AGE assertion falls in the capture buffer of the period it opens
(notes/assumptions/25.md), and how the hand-out waits and goes on (notes/assumptions/17.md and 18.md) are the model's
readings. -/
def Obligations.LoadEventOpensTheNextPeriod : Prop :=
  ∀ (s : State) (c : ChannelId) (e next : EdgeSet), s.Inv → (s.chan c).state ≠ .off →
    (s.chan c).inForce = some e → (s.chan c).staged = some next →
    let ch := s.chan c
    let at_ := s.advanceTo (ch.loadTime + BitVec.ofNat 32 (4 * e.modulus))
    let p := closedPeriod ch e
    let number := ch.periodCount + 1
    let one := fun b : Bool => if b then (1 : Word) else 0
    ∃ t, exec (.loadEvent c) s = .next t ∧ t.refCount = at_.refCount ∧ t.hall = at_.hall ∧
      t.chan c = { ch with
        periodCount := number, loadTime := at_.refCount, falling := false, resumeHold := false
        inForce := some (if next.drives = floatDrives then
          { next with requests := floatRequests (s.cfg c) next.modulus number } else next)
        theta := match ch.pendingAngle with
          | some angle => angle
          | none => if ch.plan.mode = .align then ch.theta + ch.q else ch.theta + BitVec.ofInt 16 ch.plan.rate + ch.q
        q := 0, pendingAngle := none, planAge := min (ch.planAge + 1) 65535, lastMetric := p.metric
        fetch := some { period := number, reader := { since := at_.refCount, todo := fetchOrder c, got := [] } }
        counters := { ch.counters with
          periods := ch.counters.periods + 1
          shiftedPeriods := ch.counters.shiftedPeriods + one (decide (0 < e.s1 ∨ 0 < e.s2))
          failedWindows := ch.counters.failedWindows +
            one (e.first == .failedShort || e.first == .failedLate) +
            one (e.second == .failedShort || e.second == .failedLate) }
        buffer := { PeriodBuffer.empty with reports := (t.chan c).buffer.reports }
        log := { ch.log with
          groupNotOk := (t.chan c).log.groupNotOk, groupMissed := (t.chan c).log.groupMissed
          waiting := (t.chan c).log.waiting }
        state := (t.chan c).state, floatedLatch := (t.chan c).floatedLatch, legs := (t.chan c).legs
        brakeHold := (t.chan c).brakeHold, va := (t.chan c).va, computation := (t.chan c).computation
        cur := (t.chan c).cur, age := (t.chan c).age } ∧
      (t.chan c).state ≠ .off ∧
      (∀ c', c' ≠ c → t.chan c' = { s.chan c' with
        buffer := { (s.chan c').buffer with reports := (t.chan c').buffer.reports } }) ∧
      t.toDevice = { s.toDevice with
        refCount := t.refCount, hall := t.hall, freeIndex := t.freeIndex, notice := t.notice, ram := t.ram,
        statusWrite := t.statusWrite, channels := t.channels, requests := t.requests, cva := t.cva, cvb := t.cvb,
        capture := t.capture } ∧
      t.pending = s.pending ∧
      (let g := s.cfg c
       let counted := at_.setChan c (Channel.countClose p ch)
       let judged := match p.metric with
         | some m => counted.judge (.cur c) (decide (g.curLimit < m)) (decide (m + g.curH ≤ g.curLimit)) g.curF m
         | none => counted
       let handed := if p.number.toNat % p.plan.interval = 0 then judged.hand c (.period p) else judged
       let selected := handed.selectPeriod c p
       let closed := selected.chan c
       let opened : Device := { selected.setChan c { closed with
           periodCount := number, loadTime := at_.refCount, falling := false, resumeHold := false
           inForce := (t.chan c).inForce, theta := (t.chan c).theta, q := 0, pendingAngle := none
           planAge := min (ch.planAge + 1) 65535, buffer := .empty } with
         capture := if selected.capture.mode = .armed ∧ selected.capture.channel = c then
           { selected.capture with following := some .empty } else selected.capture }
       let followed := fun d : Device =>
         let held := if d.override c = .brake then d else d.setChan c { d.chan c with brakeHold := false }
         (held.loadLegs c).enterRequests c
       let aged := fun d : Device => d.assertCondition (.age c) (min (ch.planAge + 1) 65535 : Nat) 0
       let trips := closed.state = .running ∧ (ch.plan.mode = .align ∨ ch.plan.mode = .rotate) ∧ g.amax ≠ 0 ∧
         ch.age.asserted = false ∧ g.amax < min (ch.planAge + 1) 65535
       ∃ d f : Device, (¬trips → d = followed opened) ∧
         (trips → d = followed (aged opened) ∨ d = aged (followed opened)) ∧
         Device.HandsOut (d.setChan c { d.chan c with fetch := (t.chan c).fetch }) f ∧
         t.toDevice = publish s.toDevice f)

/-- The close at a load event: CUR is evaluated against the limit with its hysteresis and filter where the period has a metric,
and stays as it was where it has none; the log is handed the closed period's record exactly when the period's count is a
multiple of the record interval of the plan in force, after the records of CUR's evaluation and before those of AGE; and the
group counts take the period. -/
def Obligations.TheCloseEvaluatesCurAndHandsItsRecord : Prop :=
  ∀ (s : State) (c : ChannelId) (e : EdgeSet), (s.chan c).state ≠ .off → (s.chan c).inForce = some e →
    let p := closedPeriod (s.chan c) e
    let g := s.cfg c
    ∃ (t : State) (cur age : List EventRecord), exec (.loadEvent c) s = .next t ∧
      (p.metric = none → (t.chan c).cur = (s.chan c).cur) ∧
      (∀ m, p.metric = some m → (t.chan c).cur = (s.chan c).cur.evaluated (decide (g.curLimit < m))
        (decide ((m : Int) ≤ (g.curLimit : Int) - g.curH)) g.curF) ∧
      (t.chan c).log.waiting = (s.chan c).log.waiting ++ cur.map .event ++
        (if p.number.toNat % p.plan.interval = 0 then [.period p] else []) ++ age.map .event ∧
      (∀ r ∈ cur, r.condition = 1) ∧ (∀ r ∈ age, r.condition = 3) ∧
      (t.chan c).log.groupNotOk = min ((s.chan c).log.groupNotOk +
        (if e.first = .ok ∧ e.second = .ok then 0 else 1)) 255 ∧
      (t.chan c).log.groupMissed = min ((s.chan c).log.groupMissed +
        ([RequestKind.first, .second, .zero, .link].filter
          (fun k => (s.chan c).buffer.reports.get k == some .missed)).length) 255

/-- The legs at a load event, by the set in force: under the BRAKE hold every leg is given to low; else a pulse leg and a LOW
leg to low, a HIGH leg to high, a FLOAT leg to float. A FLOATED channel's legs get no command. -/
def Obligations.TheLoadEventCommandsTheLegs : Prop :=
  ∀ (d : Device) (c : ChannelId) (e : EdgeSet), (d.chan c).inForce = some e →
    let ch := d.chan c
    let at_ := d.refCount + BitVec.ofNat 32 (d.cfg c).d
    let command := fun x : Drive => match x with
      | .pulse _ _ => LegCommand.toLow
      | .high => .toHigh
      | .low => .toLow
      | .float => .toFloat
    (ch.state ≠ .running → d.loadLegs c = d) ∧
    (ch.state = .running → ∀ leg, ((d.loadLegs c).chan c).legs.get leg =
      (ch.legs.get leg).command (if ch.brakeHold then .toLow else command (e.drives.get leg)) at_) ∧
    d.loadLegs c = d.setChan c { ch with legs := ((d.loadLegs c).chan c).legs }

/-- The requests of the set in force enter the list at its load event: each becomes an entry with its due and deadline
reference counts and the new period count; FIRST and SECOND only if the channel is RUNNING and its effective override is not
BRAKE. Nothing leaves the list and nothing else changes. A new entry takes its place directly before the first entry of the
list whose deadline is later, and so after entries whose deadlines are earlier or equal; the others keep their order. -/
def Obligations.TheRequestsEnterInDeadlineOrder : Prop :=
  (∀ (d : Device) (c : ChannelId) (e : EdgeSet), (d.chan c).inForce = some e →
    let ch := d.chan c
    let entry := fun r : Request => ({ channel := c, kind := r.kind, due := ch.loadTime + BitVec.ofNat 32 r.due,
                                       deadline := ch.loadTime + BitVec.ofNat 32 r.deadline,
                                       period := ch.periodCount } : Entry)
    let entered := (e.requests.filter fun r =>
      (r.kind == .zero || r.kind == .link) || (decide (ch.state = .running) && decide (d.override c ≠ .brake))).map entry
    d.enterRequests c = { d with requests := entered.foldl (fun l x => insertEntry x l) d.requests } ∧
    (∀ x : Entry, (d.enterRequests c).requests.count x = d.requests.count x + entered.count x)) ∧
  (∀ (l : List Entry) (x : Entry), ∃ before after,
    l = before ++ after ∧ insertEntry x l = before ++ x :: after ∧
    (∀ y ∈ before, later y.deadline x.deadline = false) ∧
    (∀ y, after.head? = some y → later y.deadline x.deadline = true))

/-- A fetch reads all 32 words of the slot, the tail first, the words between in ascending order and the head last. A torn
fetch ends with the torn reads moved by one; an empty fetch and a duplicate end with nothing else changed. A refused plan: the
plan in force stays in every field, the refused generation is the last seen one, refused plans move by one, and one PLAN_REFUSED
record with the fetch's period, the reason and the generation is handed. PLANXn follows that record (notes/assumptions/36.md): it
is set when the record is written or lost (`AWrittenRecordStandsInItsPlace`, `RecordsAreTakenByTheRoomRule`). -/
def Obligations.FetchesThatApplyNoPlan : Prop :=
  (∀ (c : ChannelId) (m : Memory),
    fetchOrder c = [slotBase c + 31] ++ ((List.range 30).map fun k => slotBase c + 1 + k) ++ [slotBase c] ∧
    slotWords ((fetchOrder c).map (Memory.read m)) = (List.range 32).map fun k => Memory.read m (slotBase c + k)) ∧
  (∀ (s : State) (c : ChannelId) (f : Fetch), (s.chan c).fetch = some f →
    let ch := s.chan c
    let slot := slotWords (f.reader.got ++ f.reader.todo.map (Memory.read s.ram))
    let head := slot.getD 0 0
    let tail := slot.getD 31 0
    (head ≠ tail → exec (.planFetchEnd c) s = .next { s with toDevice := publish s.toDevice (s.setChan c { ch with
      fetch := none, counters := { ch.counters with tornReads := ch.counters.tornReads + 1 } }) }) ∧
    (head = tail → head = 0 ∨ head = ch.lastSeen →
      exec (.planFetchEnd c) s = .next { s with toDevice := s.setChan c { ch with fetch := none } }) ∧
    (∀ reason : Nat, head = tail → head ≠ 0 → head ≠ ch.lastSeen → planCheck (s.cfg c) slot = .error reason →
      let record : EventRecord := { code := .planRefused, periodCount := f.period, condition := 0, value := reason,
                                    action := 0, extra := head, state := ch.state }
      let d := s.setChan c { ch with
        fetch := none, lastSeen := head
        counters := { ch.counters with refusedPlans := ch.counters.refusedPlans + 1 }
        log := { ch.log with waiting := ch.log.waiting ++ [.event record] } }
      exec (.planFetchEnd c) s = .next { s with toDevice := publish s.toDevice d }))

/-- The three refusals of a new, whole slot, in their order: MODE 1 for a mode above 3, PERIOD 2 for a modulus outside
250..16000, FIT 3 where P/2 is less than 2·Wwin + 2·D; else the plan's mode is taken. The fields are read before any
clamping, whatever the channel's state. -/
def Obligations.APlanIsRefusedInOrder : Prop :=
  ∀ (g : ChannelSetup) (slot : List Word),
    let mode := (slot.getD 1 0).toNat
    let modulus := (slot.getD 3 0).toNat
    (3 < mode → planCheck g slot = .error 1) ∧
    (mode ≤ 3 → ¬(250 ≤ modulus ∧ modulus ≤ 16000) → planCheck g slot = .error 2) ∧
    (mode ≤ 3 → 250 ≤ modulus ∧ modulus ≤ 16000 → 4 * modulus / 2 < 2 * g.wwin + 2 * g.d → planCheck g slot = .error 3) ∧
    (mode ≤ 3 → 250 ≤ modulus ∧ modulus ≤ 16000 → 2 * g.wwin + 2 * g.d ≤ 4 * modulus / 2 →
      ∃ m : Mode, m.code = mode ∧ planCheck g slot = .ok m)

/-- An accepted plan becomes the plan in force as a whole, with the clamps applied; the last seen generation, the accepted
plans, the plan age, the clamped mark, Q and the pending angle take it up. With AGE not asserted that is all. With AGE asserted it
is released too: a CONDITION_RELEASED record with the value 0 and the accepted generation is handed, and where the effective
override falls by it, V_a is 0, a computation in progress leaves V_a at 0, and the BRAKE hold of a channel that is not RUNNING is
cleared where the override was BRAKE; nothing else of any channel changes. -/
def Obligations.AnAcceptedPlanComesIntoForce : Prop :=
  ∀ (s : State) (c : ChannelId) (f : Fetch) (mode : Mode), (s.chan c).fetch = some f →
    let ch := s.chan c
    let slot := slotWords (f.reader.got ++ f.reader.todo.map (Memory.read s.ram))
    let head := slot.getD 0 0
    let plan := clampedPlan slot mode
    head = slot.getD 31 0 → head ≠ 0 → head ≠ ch.lastSeen → planCheck (s.cfg c) slot = .ok mode →
    let accepted : Channel := { ch with
      fetch := none, lastSeen := head, plan := plan, planAge := 0
      counters := { ch.counters with acceptedPlans := ch.counters.acceptedPlans + 1 }
      clampedMark := ch.clampedMark || needsClamp slot plan
      q := ch.q + slot.getD 8 0
      pendingAngle := if (slot.getD 2 0).getLsbD 0 then some (slot.getD 7 0) else ch.pendingAngle }
    (ch.age.asserted = false → exec (.planFetchEnd c) s = .next { s with
      toDevice := publish s.toDevice (s.setChan c accepted) }) ∧
    (ch.age.asserted = true →
      let aged : Channel := { accepted with age := { ch.age with asserted := false, count := 0 } }
      let after := (s.setChan c aged).override c
      let falls := decide (after.code < (s.override c).code)
      let record : EventRecord := { code := .conditionReleased, periodCount := ch.periodCount, condition := 3, value := 0
                                    action := (s.action (.age c) c).code, extra := head, state := ch.state }
      let change : ConditionChange := { identifier := 3, assertion := false, value := 0
                                        action := (s.action (.age c) c).code }
      exec (.planFetchEnd c) s = .next { s with toDevice := publish s.toDevice { s.setChan c { aged with
          va := if falls then 0 else ch.va
          computation := if falls then ch.computation.map (fun k => { k with zeroed := true }) else ch.computation
          brakeHold := if falls && s.override c == .brake && ch.state != .running then false else ch.brakeHold
          log := { ch.log with waiting := ch.log.waiting ++ [.event record] } } with
        capture := if s.capture.mode = .armed ∧ s.capture.channel = c then
          { s.capture with following := s.capture.following.map (CaptureBuffer.addChange change) } else s.capture } })

/-- The clamps at acceptance, field by field: what is above, below or inside a working range. A plan is a clamped plan exactly
when one of these fields is not taken as read. The fields without a clamp are taken as read, each from its word of the slot: the
generation, the flags SET_ANGLE, SNAP and INJECT in bits 0 to 2 of word 2, the modulus, the angle value and the signed Δθ; the
mode is the one that the checks named (`APlanIsRefusedInOrder`). -/
def Obligations.AcceptanceClampsEachField : Prop :=
  ∀ (slot : List Word) (mode : Mode),
    let plan := clampedPlan slot mode
    let word := fun k : Nat => slot.getD k 0
    let w := fun k : Nat => (word k).toNat
    let i := fun k : Nat => (word k).toInt
    (32767 < w 4 → plan.target = 32767) ∧ (w 4 ≤ 32767 → plan.target = w 4) ∧
    (32767 < w 5 → plan.slew = 32767) ∧ (w 5 ≤ 32767 → plan.slew = w 5) ∧
    (i 6 < -8191 → plan.rate = -8191) ∧ (8191 < i 6 → plan.rate = 8191) ∧
    (-8191 ≤ i 6 → i 6 ≤ 8191 → plan.rate = i 6) ∧
    (w 11 = 0 → plan.interval = 1) ∧ (64 < w 11 → plan.interval = 64) ∧
    (1 ≤ w 11 → w 11 ≤ 64 → plan.interval = w 11) ∧
    (4095 < w 9 → plan.guardHigh = 4095) ∧ (w 9 ≤ 4095 → plan.guardHigh = w 9) ∧
    (plan.guardHigh < min (w 10) 4095 → plan.guardLow = plan.guardHigh) ∧
    (min (w 10) 4095 ≤ plan.guardHigh → plan.guardLow = min (w 10) 4095) ∧
    (i 12 < -4095 → plan.injectFirst = -4095) ∧ (4095 < i 12 → plan.injectFirst = 4095) ∧
    (-4095 ≤ i 12 → i 12 ≤ 4095 → plan.injectFirst = i 12) ∧
    (i 13 < -4095 → plan.injectSecond = -4095) ∧ (4095 < i 13 → plan.injectSecond = 4095) ∧
    (-4095 ≤ i 13 → i 13 ≤ 4095 → plan.injectSecond = i 13) ∧
    plan.generation = word 0 ∧ plan.mode = mode ∧ plan.setAngle = (word 2).getLsbD 0 ∧ plan.snap = (word 2).getLsbD 1 ∧
    plan.inject = (word 2).getLsbD 2 ∧ plan.modulus = w 3 ∧ plan.angle = word 7 ∧ plan.adjust = i 8 ∧
    (needsClamp slot plan = true ↔ 32767 < w 4 ∨ 32767 < w 5 ∨ i 6 < -8191 ∨ 8191 < i 6 ∨ w 11 = 0 ∨ 64 < w 11 ∨
      4095 < w 9 ∨ 4095 < w 10 ∨ min (w 9) 4095 < min (w 10) 4095 ∨ i 12 < -4095 ∨ 4095 < i 12 ∨ i 13 < -4095 ∨
      4095 < i 13)

/-! ## The voltage vector (Chapter 3) -/

/-- The timebase: the position of a RUNNING or FLOATED channel is the half-ticks from its load time; the counter is half the position
up to P/2, where it is M, and from there comes down one step per tick to 0 at P, so that at an even position t is twice the
counter on the way up and P minus that on the way down; at an odd one the counter is what the even one before it left. The
counter of an OFF channel holds 0.
A peak event of a RUNNING or FLOATED channel on its way up: the timebase turns at the instant of position P/2, and a
computation begins for the next period number with the plan, state, override, hold, θ, Q, V_a, pending angle and metric as
they stand (one peak a period: notes/assumptions/16.md). -/
def Obligations.ThePeakBeginsAComputation : Prop :=
  (∀ (d : Device) (c : ChannelId),
    ((d.chan c).state = .off → d.position c = 0 ∧ d.timebaseCounter c = 0) ∧
    ∀ e, (d.chan c).state ≠ .off → (d.chan c).inForce = some e →
      let M := e.modulus
      let P := 4 * M
      let t := (d.refCount - (d.chan c).loadTime).toNat
      let counter := d.timebaseCounter c
      d.position c = t ∧
      (t ≤ P / 2 → counter = t / 2 ∧ counter ≤ M ∧ (t % 2 = 0 → t = 2 * counter)) ∧
      (P / 2 ≤ t → t ≤ P → counter = (P - t + 1) / 2 ∧ counter ≤ M ∧ (t % 2 = 0 → t = P - 2 * counter))) ∧
  ∀ (s : State) (c : ChannelId) (e : EdgeSet), (s.chan c).state ≠ .off → (s.chan c).inForce = some e →
    (s.chan c).falling = false →
    let ch := s.chan c
    let at_ := s.advanceTo (ch.loadTime + BitVec.ofNat 32 (2 * e.modulus))
    exec (.peakEvent c) s = .next { s with toDevice := at_.setChan c { ch with
      falling := true
      computation := some {
        since := at_.refCount, period := ch.periodCount + 1, plan := ch.plan, state := ch.state, override := s.override c
        hold := ch.resumeHold, theta := ch.theta, q := ch.q, va := ch.va, pendingAngle := ch.pendingAngle
        metric := ch.lastMetric, zeroed := false } } }

/-- The end of a peak computation: V_a becomes the amplitude after the step, or 0 where V_a was set to 0 meanwhile, and
placement receives the modulus, the period number, the vector values and the drives by R49, all of the computation. The end
of a placement run stages its set, or, with the resume hold set, an all-float set of the run's modulus and vector values. -/
def Obligations.ComputationsEndInAStagedSet : Prop :=
  (∀ (s : State) (c : ChannelId) (k : Computation), (s.chan c).computation = some k →
    let ch := s.chan c
    let va := amplitudeStep k.plan k.hold k.va k.metric
    let mid := thetaMid k.plan k.theta k.q k.pendingAngle
    let u := centred (phaseVoltages va mid)
    let P := 4 * k.plan.modulus
    let deadtime := (s.cfg c).d
    let demand := fun x : Int =>
      if k.state = .floated then LegDemand.float
      else if k.override = .brake then .low
      else if k.plan.mode = .brake then .low
      else if k.plan.mode = .coast then .float
      else if k.override = .zero then .pulse (P / 2)
      else
        let w := (P : Int) / 2 + x * P / 65536
        if w < deadtime then .low else if w > (P : Int) - deadtime then .high else .pulse w.toNat
    exec (.vectorComputationEnd c) s = .next { s with toDevice := s.setChan c { ch with
      va := if k.zeroed then 0 else va
      computation := none
      placement := some {
        since := s.refCount, period := k.period, modulus := k.plan.modulus
        demands := { a := demand u.a, b := demand u.b, c := demand u.c }
        vector := {
          thetaMid := mid, va := va, u := u
          slewing := !k.hold && (k.plan.mode == .align || k.plan.mode == .rotate) && va != k.plan.target } } } }) ∧
  (∀ (s : State) (c : ChannelId) (run : PlacementRun), (s.chan c).placement = some run →
    let ch := s.chan c
    exec (.placementRunEnd c) s = .next { s with toDevice := s.setChan c { ch with
      placement := none
      staged := some (if ch.resumeHold then allFloatSet (s.cfg c) run.modulus run.period run.vector
        else placedSet (s.cfg c) run) } })

/-- The amplitude step: in ROTATE V_a moves toward V_t by at most σ, at once where σ is 0; in COAST and BRAKE it is 0; under
the resume hold it stays; in ALIGN the metric decides between a fall by σ, a move toward V_t and a hold, a σ of 0 counting as
32767. From a V_a and plan in range it stays in 0..32767. -/
def Obligations.TheAmplitudeStep : Prop :=
  ∀ (plan : Plan) (va : Nat) (metric : Option Nat),
    let toward := fun σ : Nat => if va < plan.target then min (va + σ) plan.target else max (va - σ) plan.target
    let σ := if plan.slew = 0 then 32767 else plan.slew
    amplitudeStep plan true va metric = va ∧
    ((plan.mode = .coast ∨ plan.mode = .brake) → amplitudeStep plan false va metric = 0) ∧
    (plan.mode = .rotate → amplitudeStep plan false va metric =
      if plan.slew = 0 then plan.target else toward plan.slew) ∧
    (plan.mode = .align →
      (metric = none → amplitudeStep plan false va metric = va) ∧
      ∀ m, metric = some m →
        (plan.guardHigh ≤ m → amplitudeStep plan false va metric = va - σ) ∧
        (m < plan.guardHigh → m ≤ plan.guardLow → amplitudeStep plan false va metric = toward σ) ∧
        (m < plan.guardHigh → plan.guardLow < m → amplitudeStep plan false va metric = va)) ∧
    (va ≤ 32767 → plan.target ≤ 32767 → ∀ hold, amplitudeStep plan hold va metric ≤ 32767)

/-- The predicted mid-period angle, mod 65536, by mode and pending angle. -/
def Obligations.ThePredictedAngle : Prop :=
  ∀ (plan : Plan) (θ q : BitVec 16) (p : BitVec 16),
    let mid := fun pending => ((thetaMid plan θ q pending).toNat : Int)
    (plan.mode ≠ .align → mid none = (θ.toNat + plan.rate + q.toInt + plan.rate / 2) % 65536) ∧
    (plan.mode = .align → mid none = (θ.toNat + q.toInt) % 65536) ∧
    (plan.mode ≠ .align → mid (some p) = (p.toNat + plan.rate / 2) % 65536) ∧
    (plan.mode = .align → mid (some p) = p.toNat)

/-- The sine table, entry by entry 32767·sin(2πi/1024) rounded to the nearest whole number, its symmetries and printed entries,
and the leg voltages: the index is floor(angle/64), the product over
32768 is rounded down, and with V_a in 0..32767 the voltage lies in -32767..32766 and is 0 where V_a is 0. Centering moves
every leg by the one offset -floor((max + min)/2); afterwards the largest exceeds the negative of the smallest by 0 or 1,
differences between legs are kept, equal voltages all become 0, and voltages in their range stay in -32768..32767. -/
def Obligations.LegVoltagesAndCentering : Prop :=
  (∀ i : Nat, i < 1024 → sine i = round (32767 * Real.sin (2 * Real.pi * i / 1024))) ∧
  (∀ i, 1 ≤ i → i ≤ 1023 → sine (1024 - i) = -sine i) ∧
  (∀ i, i ≤ 256 → sine (512 - i) = sine i) ∧
  [0, 85, 170, 256, 426, 511, 512, 768, 852].map sine = [0, 16325, 28310, 32767, 16499, 201, 0, -32767, -28510] ∧
  (∀ (va : Nat) (angle : BitVec 16), va ≤ 32767 →
    legVoltage va angle = Int.fdiv (va * sine (angle.toNat / 64)) 32768 ∧
    -32767 ≤ legVoltage va angle ∧ legVoltage va angle ≤ 32766 ∧ (va = 0 → legVoltage va angle = 0)) ∧
  (∀ (va : Nat) (mid : BitVec 16), phaseVoltages va mid =
    { a := legVoltage va mid, b := legVoltage va (mid - 21845#16), c := legVoltage va (mid - 43691#16) }) ∧
  (∀ u : PerLeg Int,
    let v := centred u
    let top := max u.a (max u.b u.c)
    let bottom := min u.a (min u.b u.c)
    (∀ l, v.get l = u.get l + -Int.fdiv (top + bottom) 2) ∧
    (let high := max v.a (max v.b v.c)
     let low := min v.a (min v.b v.c)
     (high = -low ∨ high = -low + 1) ∧
     ((∀ l, -32767 ≤ u.get l ∧ u.get l ≤ 32766) → high ≤ 32767 ∧ -32768 ≤ low)) ∧
    (∀ l m, v.get l - v.get m = u.get l - u.get m) ∧
    (u.a = u.b → u.b = u.c → ∀ l, v.get l = 0))

/-! ## Window placement (Chapter 4) -/

/-- The leg order: the ranked legs are the three legs, their effective widths do not rise from max to min, and of two legs
of equal width the one of the lower index ranks higher. A placed set takes the order of the effective widths of its drives: of a
PULSE leg its width, of a HIGH leg P, of a LOW or FLOAT leg 0. -/
def Obligations.LegsRankByWidth : Prop :=
  (∀ (g : ChannelSetup) (run : PlacementRun),
    let effective := fun x : LegDemand => match x with
      | .pulse w => w
      | .high => 4 * run.modulus
      | .low => 0
      | .float => 0
    (placedSet g run).order = legOrder {
      a := effective run.demands.a, b := effective run.demands.b, c := effective run.demands.c }) ∧
  ∀ w : PerLeg Nat,
    let r := (legOrder w).ranks
    let index := fun l : Leg => match l with
      | .a => 0
      | .b => 1
      | .c => 2
    let above := fun l m : Leg => w.get m < w.get l ∨ (w.get m = w.get l ∧ index l < index m)
    above r.1 r.2.1 ∧ above r.2.1 r.2.2 ∧
    [LegOrder.abc, .acb, .bac, .bca, .cab, .cba].map (fun o => (o.code, o.ranks)) =
      [(0, .a, .b, .c), (1, .a, .c, .b), (2, .b, .a, .c), (3, .b, .c, .a), (4, .c, .a, .b), (5, .c, .b, .a)]

/-- The two windows of three drives by rank: with every leg HIGH neither exists; the first exists unless max is LOW or FLOAT and
runs from max's turn-on to the earlier of mid's turn-on and max's turn-off; the second exists unless mid is LOW or FLOAT and runs
from mid's turn-on to the earliest of min's turn-on, mid's turn-off and max's turn-off; a turn-on or turn-off is a pulse's start
or end, 0 or P for a HIGH leg, and left out for a LOW or FLOAT leg.
The first shift: with an existing first window narrower than Wwin under a pulse max leg it is the smaller of what is
missing and the room before the max leg's start, 0 where that would be negative; in every other case it is 0. The second
shift is the same for the second window and the min leg, on the drives after the first, with the room between the min leg's
end and the end of the usable span. The max pulse moves to the left by the first, the min pulse to the right by the second,
start and end alike, and a leg that is no pulse is not moved. In a placed set the first shift is that of the unshifted drives by
rank, a pulse of width w from (P - w)/2 on; the second is that of the drives with the max leg moved by the first; and the set's
drives are those with the min leg moved by the second. -/
def Obligations.ShiftsWidenShortWindows : Prop :=
  (∀ (g : ChannelSetup) (P : Nat) (r : Ranked),
    (let on := fun x : Drive => match x with
       | .pulse start _ => some start
       | .high => some 0
       | _ => none
     let off := fun x : Drive => match x with
       | .pulse _ stop => some stop
       | .high => some P
       | _ => none
     let allHigh := r.max = .high ∧ r.mid = .high ∧ r.min = .high
     let window := fun (begin_ : Option Nat) (ends : List (Option Nat)) (w : Option (Nat × Nat)) =>
       (w = none ↔ allHigh ∨ begin_ = none ∨ ends.filterMap id = []) ∧
       ∀ b e, w = some (b, e) → begin_ = some b ∧ some e ∈ ends ∧ ∀ x ∈ ends.filterMap id, e ≤ x
     window (on r.max) [on r.mid, off r.max] (firstWindow P r) ∧
     window (on r.mid) [on r.min, off r.mid, off r.max] (secondWindow P r)) ∧
    (let s1 := firstShift g P r
     (∀ start stop b e, r.max = .pulse start stop → firstWindow P r = some (b, e) → e - b < g.wwin →
       (s1 : Int) = max 0 (min ((g.wwin : Int) - (e - b : Nat)) ((start : Int) - (g.d / 2 : Nat)))) ∧
     ((firstWindow P r = none ∨ (∃ b e, firstWindow P r = some (b, e) ∧ g.wwin ≤ e - b) ∨
       r.max = .high ∨ r.max = .low ∨ r.max = .float) → s1 = 0)) ∧
    (let s2 := secondShift g P r
     (∀ start stop b e, r.min = .pulse start stop → secondWindow P r = some (b, e) → e - b < g.wwin → g.d / 2 ≤ P →
       (s2 : Int) = max 0 (min ((g.wwin : Int) - (e - b : Nat)) ((P : Int) - (g.d / 2 : Nat) - stop))) ∧
     ((secondWindow P r = none ∨ (∃ b e, secondWindow P r = some (b, e) ∧ g.wwin ≤ e - b) ∨
       r.min = .high ∨ r.min = .low ∨ r.min = .float) → s2 = 0)) ∧
    (∀ start stop s, shiftLeft s (.pulse start stop) = .pulse (start - s) (stop - s) ∧
      shiftRight s (.pulse start stop) = .pulse (start + s) (stop + s)) ∧
    (∀ s x, (x = .high ∨ x = .low ∨ x = .float) → shiftLeft s x = x ∧ shiftRight s x = x)) ∧
  (∀ (g : ChannelSetup) (run : PlacementRun),
    let P := 4 * run.modulus
    let set := placedSet g run
    let ranks := set.order.ranks
    let ranked := fun d : PerLeg Drive => ({ max := d.get ranks.1, mid := d.get ranks.2.1, min := d.get ranks.2.2 } : Ranked)
    let plain := run.demands.map fun x => match x with
      | .pulse w => Drive.pulse ((P - w) / 2) ((P - w) / 2 + w)
      | .high => .high
      | .low => .low
      | .float => .float
    let moved := plain.set ranks.1 (shiftLeft set.s1 (plain.get ranks.1))
    set.s1 = firstShift g P (ranked plain) ∧ set.s2 = secondShift g P (ranked moved) ∧
      set.drives = moved.set ranks.2.2 (shiftRight set.s2 (moved.get ranks.2.2)))

/-- The pulses of a placed set: from demands within D..P - D, every pulse keeps its width and lies within the usable span from
D/2 to P - D/2; the max leg is the unshifted one moved left by s1, the min leg the unshifted one moved right by s2, the mid leg
is not moved, and a leg that is no pulse keeps its drive. -/
def Obligations.PlacedPulsesStayInTheSpan : Prop :=
  ∀ (g : ChannelSetup) (run : PlacementRun),
    let P := 4 * run.modulus
    let set := placedSet g run
    g.d % 2 = 0 → (∀ l w, run.demands.get l = .pulse w → g.d ≤ w ∧ w + g.d ≤ P) →
    let max := set.order.ranks.1
    let mid := set.order.ranks.2.1
    let min := set.order.ranks.2.2
    (∀ l w, run.demands.get l = .pulse w → ∃ start,
      set.drives.get l = .pulse start (start + w) ∧ g.d / 2 ≤ start ∧ start + w ≤ P - g.d / 2 ∧
      (l = max → start + set.s1 = (P - w) / 2) ∧ (l = mid → start = (P - w) / 2) ∧
      (l = min → start = (P - w) / 2 + set.s2)) ∧
    (∀ l, (run.demands.get l = .high → set.drives.get l = .high) ∧
      (run.demands.get l = .low → set.drives.get l = .low) ∧ (run.demands.get l = .float → set.drives.get l = .float)) ∧
    set.modulus = run.modulus ∧ set.vector = run.vector

/-- The requests of a placed set under a setup that passed the checks: at most one of each kind, in the order FIRST, SECOND,
ZERO, LINK; every due position is greater than 0 and at most its deadline, and every deadline at most P - Tc - 1, so that a
conversion ends within the period; a FIRST or SECOND request is there exactly when its window is OK; a ZERO request only in
a zero period with no HIGH leg, and then exactly where the latest pulse end, or 0 without a pulse, plus Wwin is at most
P - Tc - 1, where it is due; a LINK request exactly when the link flag is set, due at P/2. The outcomes, on the drives after
both shifts: ABSENT where the window does not exist, FAILED_SHORT where it is narrower than Wwin, and otherwise, with the due
position its end minus A and the deadline that plus Lw, at most P - Tc - 1, FAILED_LATE where that deadline is earlier than the due
position, else OK with that request. -/
def Obligations.PlacedRequestsFallInThePeriod : Prop :=
  ∀ (words : List Word) (c : ChannelId) (run : PlacementRun), setupError words = none →
    250 ≤ run.modulus → run.modulus ≤ 16000 →
    let g := channelSetup words c
    let P := 4 * run.modulus
    let set := placedSet g run
    (set.requests.map Request.kind).Sublist [.first, .second, .zero, .link] ∧
    (∀ r ∈ set.requests, 0 < r.due ∧ r.due ≤ r.deadline ∧ r.deadline + 128 + 1 ≤ P) ∧
    (set.first = .ok ↔ ∃ r ∈ set.requests, r.kind = .first) ∧
    (set.second = .ok ↔ ∃ r ∈ set.requests, r.kind = .second) ∧
    ((∃ r ∈ set.requests, r.kind = .zero) → g.kz ≠ 0 ∧ run.period.toNat % g.kz = 0 ∧ ∀ l, set.drives.get l ≠ .high) ∧
    (let stop := fun x : Drive => match x with
       | .pulse _ stop => stop
       | _ => 0
     let due := max (stop set.drives.a) (max (stop set.drives.b) (stop set.drives.c)) + g.wwin
     (∀ r ∈ set.requests, r.kind = .zero → r.due = due ∧ r.deadline = P - 128 - 1) ∧
     ((∃ r ∈ set.requests, r.kind = .zero) ↔ g.kz ≠ 0 ∧ run.period.toNat % g.kz = 0 ∧
       (∀ l, set.drives.get l ≠ .high) ∧ due ≤ P - 128 - 1)) ∧
    (∀ r ∈ set.requests, r.kind = .link → r.due = P / 2 ∧ r.deadline = P - 128 - 1) ∧
    (g.link = true ↔ ∃ r ∈ set.requests, r.kind = .link) ∧
    (let final := rankedDrives set.order set.drives
     let judged := fun (kind : RequestKind) (w : Option (Nat × Nat)) (outcome : WindowOutcome) =>
       (w = none → outcome = .absent) ∧
       ∀ b e, w = some (b, e) →
         let deadline := min (e - g.a + g.lw) (P - 128 - 1)
         (e < b + g.wwin → outcome = .failedShort) ∧
         (b + g.wwin ≤ e → deadline < e - g.a → outcome = .failedLate) ∧
         (b + g.wwin ≤ e → e - g.a ≤ deadline → outcome = .ok ∧
           ∀ r : Request, r.kind = kind → (r ∈ set.requests ↔ r.due = e - g.a ∧ r.deadline = deadline))
     judged .first (firstWindow P final) set.first ∧ judged .second (secondWindow P final) set.second)

/-- Under a ZERO override, with a modulus that passes the FIT test: order A, B, C, both shifts a full Wwin, both windows Wwin
long and OK, leg B from P/4 to 3P/4. Drives that are all LOW or all FLOAT: both windows ABSENT, order A, B, C, no shift, no
window request, and the ZERO request of a zero period due at Wwin. An all-float set: the three legs FLOAT, order A, B, C, no
shift, both windows ABSENT, the ZERO request of a zero period due at Wwin where that is at most P - Tc - 1, and the LINK request
of a set link flag due at P/2, both with the deadline P - Tc - 1; START's vector values are 0. -/
def Obligations.OverriddenSets : Prop :=
  (∀ (words : List Word) (c : ChannelId) (run : PlacementRun), setupError words = none → 250 ≤ run.modulus →
    let g := channelSetup words c
    let P := 4 * run.modulus
    run.demands = { a := .pulse (P / 2), b := .pulse (P / 2), c := .pulse (P / 2) } →
    2 * g.wwin + 2 * g.d ≤ P / 2 →
    let set := placedSet g run
    set.order = .abc ∧ set.s1 = g.wwin ∧ set.s2 = g.wwin ∧ set.first = .ok ∧ set.second = .ok ∧
    set.drives = { a := .pulse (P / 4 - g.wwin) (3 * (P / 4) - g.wwin), b := .pulse (P / 4) (3 * (P / 4)),
                   c := .pulse (P / 4 + g.wwin) (3 * (P / 4) + g.wwin) }) ∧
  (∀ (g : ChannelSetup) (run : PlacementRun),
    (run.demands = { a := .low, b := .low, c := .low } ∨ run.demands = { a := .float, b := .float, c := .float }) →
    let set := placedSet g run
    let P := 4 * run.modulus
    set.order = .abc ∧ set.s1 = 0 ∧ set.s2 = 0 ∧ set.first = .absent ∧ set.second = .absent ∧
    (∀ r ∈ set.requests, r.kind = .zero ∨ r.kind = .link) ∧
    (g.kz ≠ 0 → run.period.toNat % g.kz = 0 → g.wwin ≤ P - 128 - 1 →
      ({ kind := .zero, due := g.wwin, deadline := P - 128 - 1 } : Request) ∈ set.requests)) ∧
  (∀ (g : ChannelSetup) (modulus : Nat) (number : BitVec 32) (vector : VectorValues),
    let P := 4 * modulus
    let zero := g.kz ≠ 0 ∧ number.toNat % g.kz = 0 ∧ g.wwin ≤ P - 128 - 1
    floatDrives = { a := .float, b := .float, c := .float } ∧
    allFloatSet g modulus number vector = {
      modulus := modulus, drives := { a := .float, b := .float, c := .float }, order := .abc, s1 := 0, s2 := 0
      first := .absent, second := .absent, requests := floatRequests g modulus number, vector := vector } ∧
    (zero → g.link = true → floatRequests g modulus number =
      [{ kind := .zero, due := g.wwin, deadline := P - 128 - 1 }, { kind := .link, due := P / 2, deadline := P - 128 - 1 }]) ∧
    (zero → g.link = false → floatRequests g modulus number = [{ kind := .zero, due := g.wwin, deadline := P - 128 - 1 }]) ∧
    (¬zero → g.link = true → floatRequests g modulus number = [{ kind := .link, due := P / 2, deadline := P - 128 - 1 }]) ∧
    (¬zero → g.link = false → floatRequests g modulus number = [])) ∧
  VectorValues.zero = { thetaMid := 0, va := 0, u := { a := 0, b := 0, c := 0 }, slewing := false }

/-! ## Leg outputs (Chapter 5) -/

/-- The three commands to a leg, by what is on or pending: the side commanded keeps what it has; else the other side goes off,
its pending turn-on is cancelled, and the side's turn-on is pending at the instant of the command plus D; to float turns all
off at once. On a leg with at most one gate on and a turn-on pending only while both are off. -/
def Obligations.LegCommandsFollowTheTable : Prop :=
  ∀ (l : LegState) (t : RefCount), l.safe →
    let high := l.high = true ∨ ∃ i, l.pending = some { side := .high, instant := i }
    let low := l.low = true ∨ ∃ i, l.pending = some { side := .low, instant := i }
    (high → l.command .toHigh t = l) ∧
    (¬high → l.command .toHigh t = { high := false, low := false, pending := some { side := .high, instant := t } }) ∧
    (low → l.command .toLow t = l) ∧
    (¬low → l.command .toLow t = { high := false, low := false, pending := some { side := .low, instant := t } }) ∧
    l.command .toFloat t = { high := false, low := false, pending := none } ∧
    ∀ cmd, (l.command cmd t).safe

/-- The start and the end of a pulse of the set in force, for a RUNNING channel without the BRAKE hold: time comes to the
position's instant and the leg is given to high or to low; nothing else changes. Under the hold, or while the channel is not
RUNNING, nothing is given. When the instant of a pending turn-on arrives, the side it names turns on and nothing is pending;
nothing else changes. -/
def Obligations.PulseEdgesAndPendingTurnOns : Prop :=
  (∀ (s : State) (c : ChannelId) (leg : Leg) (e : EdgeSet) (start stop : Nat), (s.chan c).inForce = some e →
    e.drives.get leg = .pulse start stop →
    let ch := s.chan c
    let given := fun (position : Nat) (cmd : LegCommand) =>
      let at_ := s.advanceTo (ch.loadTime + BitVec.ofNat 32 position)
      at_.setChan c { ch with
        legs := ch.legs.set leg ((ch.legs.get leg).command cmd (at_.refCount + BitVec.ofNat 32 (s.cfg c).d)) }
    (ch.state = .running → ch.brakeHold = false →
      exec (.legEdge c leg .start) s = .next { s with toDevice := given start .toHigh } ∧
      exec (.legEdge c leg .stop) s = .next { s with toDevice := given stop .toLow }) ∧
    (ch.state ≠ .running ∨ ch.brakeHold = true → ∀ edge, exec (.legEdge c leg edge) s = .next s)) ∧
  (∀ (s : State) (c : ChannelId) (leg : Leg) (p : PendingTurnOn), ((s.chan c).legs.get leg).pending = some p →
    let ch := s.chan c
    let l := ch.legs.get leg
    exec (.pendingTurnOn c leg) s = .next { s with toDevice := (s.advanceTo p.instant).setChan c { ch with
      legs := ch.legs.set leg { high := l.high || p.side == .high, low := l.low || p.side == .low, pending := none } } })

/-! ## The converter arbiter and the conditioner (Chapters 6, 7) -/

/-- The due time of an entry arrives: time comes to it, and the arbiter hands out. Where no conversion completes at that
instant, the first entry in list order that a free converter may start begins now, on CVA if CVA may take it and else on CVB,
and is reported started with its lateness; the other converter follows with the first later entry that it may start now that the
first has left the list, and so unguarded. A converter may start an entry where it is free, the due time has come, the deadline
has not passed, it reaches the entry's input (IN0 and IN3 by both, IN1 and IN2 by CVB alone), and, for ZERO and LINK, no FIRST
or SECOND entry of the list that it reaches is due within 128 half-ticks from now. That the hand-out waits for a completion of
its instant, and that a start which ends a guard lets an earlier entry follow where no later one may, is the model's reading
(notes/assumptions/17.md and 18.md). -/
def Obligations.DueEntriesAreHandedOut : Prop :=
  (∀ (s : State) (c : ChannelId) (k : RequestKind) (x : Entry),
    s.requests.find? (fun e => e.channel == c && e.kind == k) = some x →
    let at_ := s.advanceTo x.due
    ∃ d, Device.HandsOut at_ d ∧ exec (.entryDue c k) s = .next { s with toDevice := publish s.toDevice d } ∧
      ∀ cv y before after, at_.completing = false → s.requests = before ++ y :: after →
        (∀ z ∈ before, at_.mayStart .cva z = false ∧ at_.mayStart .cvb z = false) →
        at_.mayStart cv y = true → (cv = .cvb → at_.mayStart .cva y = false) →
        d.converter cv = some { entry := y, start := at_.refCount, discard := false } ∧
        (∀ cv', cv' ≠ cv → at_.SecondStart d cv' before after) ∧
        ((∀ z ∈ before ++ after, z.channel ≠ y.channel ∨ z.kind ≠ y.kind) →
          (d.chan y.channel).buffer.reports.get y.kind =
            some (.started cv at_.refCount (at_.refCount - y.due).toNat none))) ∧
  (∀ (d : Device) (cv : Converter) (x : Entry),
    let later' := fun a b : RefCount => a ≠ b ∧ (a - b).toNat < 2 ^ 31
    let input := fun y : Entry => if y.kind = .link then 3 else match y.channel with
      | .ch0 => 0
      | .ch1 => 1
      | .ch2 => 2
    let reach := fun y : Entry => cv = .cvb ∨ input y = 0 ∨ input y = 3
    let window := fun y : Entry => y.kind = .first ∨ y.kind = .second
    (∀ a b, later a b = true ↔ later' a b) ∧ (d.eligible x = true ↔ ¬later' x.due d.refCount) ∧
    inputOf x.channel x.kind = input x ∧ (x.reachable cv = true ↔ reach x) ∧
    (d.mayStart cv x = true ↔ d.converter cv = none ∧ ¬later' x.due d.refCount ∧ ¬later' d.refCount x.deadline ∧ reach x ∧
      (¬window x → ∀ y ∈ d.requests, window y → reach y → later' y.due (d.refCount + 128))))

/-- An entry whose deadline passes leaves the list as missed: it is reported missed, its channel's missed conversions move by
one, and the outcome of its window, if it was OK, becomes MISSED; then the arbiter hands out (notes/assumptions/17.md and
18.md). -/
def Obligations.MissedEntriesAreReported : Prop :=
  ∀ (s : State) (c : ChannelId) (k : RequestKind) (x : Entry),
    s.requests.find? (fun e => e.channel == c && e.kind == k) = some x →
    let at_ := s.advanceTo (x.deadline + 1)
    let ch := s.chan c
    let missed := fun (kind : RequestKind) (o : WindowOutcome) => if k = kind ∧ o = .ok then WindowOutcome.missed else o
    let gone := at_.setChan c { ch with
      inForce := ch.inForce.map fun e => { e with first := missed .first e.first, second := missed .second e.second }
      counters := { ch.counters with missedConversions := ch.counters.missedConversions + 1 }
      buffer := { ch.buffer with reports := ch.buffer.reports.set k (some .missed) } }
    ∃ d, Device.HandsOut { gone with requests := s.requests.erase x } d ∧
      exec (.entryMissed c k) s = .next { s with toDevice := publish s.toDevice d }

/-- A conversion completes: the converter is free, and the raw code is corrected by the trim of its input to
min(4095, floor(raw(98304 + G)/131072)). The result of a channel that was stopped is discarded. Any other result is reported with
its raw and corrected codes. A FIRST or SECOND result is buffered as its code minus Z; a ZERO result within the bounds moves Z8,
and any ZERO result is buffered and judged by ZER; a LINK result is buffered and judged by LOV and LUN, in either order, the status
words following each (notes/assumptions/22.md). Where a condition changes, its assertion or release acts
(`TheOverrideIsTheHighestAction`), and nothing else changes but by the hand-out that follows; where that takes entries out of the
list, a hand-out of the same instant may come before it too (notes/assumptions/15.md, 17.md and 18.md). -/
def Obligations.ResultsAreConditioned : Prop :=
  ∀ (s : State) (cv : Converter) (raw : BitVec 12) (k : Conversion), s.converter cv = some k →
    let freed := (s.advanceTo k.completes).setConverter cv none
    let c := k.entry.channel
    let code := min 4095 (raw.toNat * (98304 + gainTrim s.words (inputOf c k.entry.kind)) / 131072)
    let report := Report.started cv k.start (k.start - k.entry.due).toNat (some (raw.toNat, code))
    let told := fun d : Device =>
      { (d.chan c).buffer with reports := (d.chan c).buffer.reports.set k.entry.kind (some report) }
    let sample : Sample := { value := (code : Int) - (((s.chan c).z8 + 4) / 8 : Nat), corrected := code }
    let leaves := fun e : Device => exec (.conversionComplete cv raw) s = .next { s with toDevice := publish s.toDevice e }
    let handsOut := fun d : Device => ∃ e, Device.HandsOut d e ∧ leaves e
    let conditioned := fun f : Device → Device => handsOut (f freed) ∨
      ((f freed).requests ≠ freed.requests ∧ ∃ d, Device.HandsOut freed d ∧ handsOut (f d))
    (k.discard = true → handsOut freed) ∧
    (k.discard = false → k.entry.kind = .first →
      handsOut (freed.setChan c { s.chan c with buffer := { told freed with first := some sample } })) ∧
    (k.discard = false → k.entry.kind = .second →
      handsOut (freed.setChan c { s.chan c with buffer := { told freed with second := some sample } })) ∧
    (k.discard = false → k.entry.kind = .zero →
      let ok := decide ((s.cfg c).zlo ≤ code) && decide (code ≤ (s.cfg c).zhi)
      conditioned fun d => (d.setChan c { d.chan c with
        z8 := if ok then (s.chan c).z8 - (s.chan c).z8 / 8 + code else (s.chan c).z8
        buffer := { told d with zero := some { accepted := ok, code := code } } }).judge (.zer c) (!ok) ok (s.cfg c).zerF code) ∧
    (k.discard = false → k.entry.kind = .link →
      let g := globalSetup s.words
      let lov := fun d : Device => publish d
        (d.judge .lov (decide (g.lovLimit < code)) (decide ((code : Int) ≤ (g.lovLimit : Int) - g.lovH)) g.lovF code)
      let lun := fun d : Device => publish d
        (d.judge .lun (decide (code < g.lunLimit)) (decide (g.lunLimit + g.lunH ≤ code)) g.lunF code)
      let buffered := fun d : Device => d.setChan c { d.chan c with buffer := { told d with link := some code } }
      conditioned (fun d => lun (lov (buffered d))) ∨ conditioned (fun d => lov (lun (buffered d))))

/-- The close forms the currents by rank from the samples of the windows whose outcome is OK, injected values in their place
where the plan injects, each clamped to -4095..4095 with a saturation mark, and names them by the leg order; the metric is the
largest magnitude among the valid ones, and none where no current is valid. The closed period is handed on with its count, load
time, plan, edge set, zero sample, link code and the arbiter's reports as they stand. -/
def Obligations.CurrentsAreReconstructed : Prop :=
  ∀ (ch : Channel) (e : EdgeSet),
    let p := closedPeriod ch e
    let taken := fun (o : WindowOutcome) (x : Option Sample) (injected : Int) =>
      if o = .ok then x.map fun v => if ch.plan.inject then injected else v.value else none
    let x := taken e.first ch.buffer.first ch.plan.injectFirst
    let y := taken e.second ch.buffer.second ch.plan.injectSecond
    let cut := fun v : Int => max (-4095) (min 4095 v)
    let current := fun v : Int => ({ value := cut v, saturated := decide (cut v ≠ v) } : Current)
    p.currents.get e.order.ranks.1 = x.map current ∧
    p.currents.get e.order.ranks.2.2 = y.map (fun v => current (-v)) ∧
    p.currents.get e.order.ranks.2.1 = x.bind (fun v => y.map fun w => current (w - v)) ∧
    (p.metric = none ↔ ∀ l, p.currents.get l = none) ∧
    (∀ m, p.metric = some m → (∃ l i, p.currents.get l = some i ∧ i.value.natAbs = m) ∧
      ∀ l i, p.currents.get l = some i → i.value.natAbs ≤ m) ∧
    (p.saturated = true ↔ ∃ l i, p.currents.get l = some i ∧ i.saturated = true) ∧
    p.injected = ch.plan.inject ∧ p.zeroLevel = (ch.z8 + 4) / 8 ∧ p.zero = ch.buffer.zero ∧ p.link = ch.buffer.link ∧
    p.number = ch.periodCount ∧ p.loadTime = ch.loadTime ∧ p.plan = ch.plan ∧ p.set = e ∧ p.reports = ch.buffer.reports

/-! ## Limits and the fault lines (Chapter 8, section 5.5) -/

/-- The effective override of a channel: BRAKE if a condition present for it has that action, else ZERO if one has that, else
none; FLOAT and NOTE do not enter it. An assertion moves the condition's count and acts on each channel in its scope, and on no
other: a BRAKE that raises the override sets the BRAKE hold, gives the legs of a RUNNING channel to low and withdraws FIRST and
SECOND; a FLOAT makes a RUNNING channel FLOATED with every gate off, its latch set and FIRST and SECOND withdrawn; the
CONDITION_ASSERTED record, with the state after the action, is handed, and FLOATED's after it; TRIP is noticed unless the action is
NOTE, and HALL for HAL; an armed capture unit takes the change up. A release moves no count and no notice: where it lowers the
override, V_a is 0, a computation in progress leaves V_a at 0, and the BRAKE hold of a channel that is not RUNNING is cleared
where the override was BRAKE; the CONDITION_RELEASED record is handed. Nothing else changes. -/
def Obligations.TheOverrideIsTheHighestAction : Prop :=
  ∀ (d : Device) (c : ChannelId),
    let present := fun act : Action =>
      ∃ id, (d.condition id).asserted = true ∧ d.inScope id c = true ∧ d.action id c = act
    (d.override c = .brake ↔ present .brake) ∧
    (d.override c = .zero ↔ ¬present .brake ∧ present .zero) ∧
    (d.override c = .none ↔ ¬present .brake ∧ ¬present .zero) ∧
    ∀ (id : ConditionId) (value : Int) (extra : Word),
      let ch := d.chan c
      let old := d.condition id
      let record : EventRecord := { code := .conditionAsserted, periodCount := ch.periodCount, condition := id.code
                                    value := value, action := (d.action id c).code, extra := extra, state := ch.state }
      let gathered := fun assertion : Bool =>
        if d.capture.mode = .armed ∧ d.inScope id d.capture.channel = true then
          { d.capture with following := d.capture.following.map (CaptureBuffer.addChange {
              identifier := id.code, assertion := assertion, value := value
              action := (d.action id d.capture.channel).code }) }
        else d.capture
      let with_ : Condition → Device → Device := fun x e => { d with
        channels := e.channels, requests := e.requests, notice := e.notice, capture := e.capture
        hal := if id = .hal then x else d.hal, lov := if id = .lov then x else d.lov, lun := if id = .lun then x else d.lun
        fl0 := if id = .fl0 then x else d.fl0, fl1 := if id = .fl1 then x else d.fl1 }
      let own : Condition → Channel := fun x => { ch with
        cur := if id = .cur c then x else ch.cur, zer := if id = .zer c then x else ch.zer
        age := if id = .age c then x else ch.age }
      (let e := d.assertCondition id value extra
       let new : Condition := { asserted := true, count := 0, assertions := old.assertions + 1 }
       let brakes : ChannelId → Bool := fun c' => d.inScope id c' && d.action id c' == .brake && d.override c' != .brake
       let floats : ChannelId → Bool := fun c' => d.inScope id c' && d.action id c' == .float && (d.chan c').state == .running
       let window := fun k : RequestKind => k == .first || k == .second
       let withdrawn : RequestKind → Option Report := fun k => if (brakes c || floats c) && d.requests.any (fun x => x.channel == c && x.kind == k)
         then some Report.withdrawn else ch.buffer.reports.get k
       let state := if floats c then ChannelState.floated else ch.state
       e = with_ new e ∧ e.capture = gathered true ∧
       e.requests = d.requests.filter (fun x => !(window x.kind && (brakes x.channel || floats x.channel))) ∧
       (∀ k, k < 13 → e.notice.getLsbD k = (d.notice.getLsbD k || (k == 10 && decide (id = .hal)) ||
         [ChannelId.ch0, .ch1, .ch2].any fun c' => d.inScope id c' && d.action id c' != .note && k == 3 + channelIndex c')) ∧
       (d.inScope id c = false → e.chan c = ch) ∧
       (d.inScope id c = true → e.chan c = { own new with
         state := state, floatedLatch := ch.floatedLatch || floats c, brakeHold := ch.brakeHold || brakes c
         legs := if floats c then allLegs .idle
           else if brakes c && ch.state == .running then
             ch.legs.map (LegState.command .toLow (d.refCount + BitVec.ofNat 32 (d.cfg c).d))
           else ch.legs
         buffer := { ch.buffer with reports := { ch.buffer.reports with
           first := withdrawn .first, second := withdrawn .second } }
         log := { ch.log with waiting := ch.log.waiting ++ [.event { record with state := state }] ++
           (if floats c then [.event { record with code := .floated, value := 0, extra := 0, state := .floated }]
             else []) } })) ∧
      (let e := d.releaseCondition id value extra
       let new : Condition := { old with asserted := false, count := 0 }
       let falls := d.inScope id c && decide ((e.override c).code < (d.override c).code)
       e = with_ new e ∧ e.capture = gathered false ∧ e.requests = d.requests ∧ e.notice = d.notice ∧
       (d.inScope id c = false → e.chan c = ch) ∧
       (d.inScope id c = true → e.chan c = { own new with
         va := if falls then 0 else ch.va
         computation := if falls then ch.computation.map (fun k => { k with zeroed := true }) else ch.computation
         brakeHold := if falls && d.override c == .brake && ch.state != .running then false else ch.brakeHold
         log := { ch.log with
           waiting := ch.log.waiting ++ [.event { record with code := .conditionReleased }] } }))

/-- A fault line given another level: a measure begins at the present instant if the level differs from the filtered one, and
no measure runs if it equals it. A line given the level it has does not change. During a power-on or pin reset only the level
is taken.That a return drops the measure also at the very instant at which it reaches 2 ticks, where it comes before the expiry, is
the model's choice (notes/assumptions/37.md). -/
def Obligations.AFaultLineChangeBeginsItsMeasure : Prop :=
  ∀ (s : State) (line : FaultLine) (level : Bool),
    let f := s.fault line
    let leaves := fun x : FaultFilter => exec (.faultLineChange line level) s = .next { s with
      flt0 := if line = .flt0 then x else s.flt0
      flt1 := if line = .flt1 then x else s.flt1 }
    (s.inReset = true → leaves { f with level := level }) ∧
    (s.inReset = false → level = f.level → leaves f) ∧
    (s.inReset = false → level ≠ f.level → f.filtered = level →
      leaves { f with level := level, since := some s.refCount }) ∧
    (s.inReset = false → level ≠ f.level → f.filtered ≠ level → leaves { f with level := level, since := none })

/-- A fault line that has held its level for 2 ticks: the filtered level follows it (asserted for low). On a locked part the
line's condition is asserted or released with it, its count moving at an assertion; at an assertion each mapped RUNNING
channel becomes FLOATED with its latch set, every gate off and its FIRST and SECOND entries gone; a mapped channel in another
state keeps its state, and an unmapped channel is untouched but for the arbiter's reports. The first clause gives the next state
as a whole: FL0 for FLT0 and FL1 for FLT1 is asserted or released with the value 0 and the further field 0, with the records and
notices of `TheOverrideIsTheHighestAction`, and the hand-out follows, as for a due entry (notes/assumptions/17.md and 18.md). On an
unlocked part only the filter, and what passes with time, changes. -/
def Obligations.AFilteredFaultFloatsItsChannels : Prop :=
  ∀ (s : State) (line : FaultLine) (since : RefCount), s.Inv → (s.fault line).since = some since →
    let asserted := !(s.fault line).level
    let at_ := s.advanceTo (since + 4)
    let filter : FaultFilter := { level := (s.fault line).level, filtered := asserted, since := none }
    let filtered : Device := { at_ with
      flt0 := if line = .flt0 then filter else s.flt0
      flt1 := if line = .flt1 then filter else s.flt1 }
    let condition := if line = .flt0 then ConditionId.fl0 else .fl1
    let followed := if s.setup = none then filtered
      else if asserted = true then filtered.assertCondition condition 0 0
      else filtered.releaseCondition condition 0 0
    ∃ (t : State) (e : Device), exec (.faultFilterExpiry line) s = .next t ∧
      t = { s with toDevice := publish s.toDevice e } ∧ Device.HandsOut followed e ∧
      t.fault line = { level := (s.fault line).level, filtered := asserted, since := none } ∧
      t.refCount = (s.advanceTo (since + 4)).refCount ∧
      (s.setup = none → ∀ c, t.chan c = s.chan c) ∧
      (s.setup ≠ none → (t.condition (faultCondition line)) =
        { asserted := asserted, count := 0
          assertions := (s.condition (faultCondition line)).assertions + (if asserted then 1 else 0) }) ∧
      (∀ c, (s.setup ≠ none ∧ faultMapped s.words line c = true) ∨ t.chan c = { s.chan c with
        buffer := { (s.chan c).buffer with reports := (t.chan c).buffer.reports } }) ∧
      (s.setup ≠ none → asserted = true → ∀ c, faultMapped s.words line c = true →
        ((s.chan c).state = .running → (t.chan c).state = .floated ∧ (t.chan c).floatedLatch = true ∧
          (t.chan c).legs = allLegs .idle ∧ ∀ x ∈ t.requests, x.channel = c → x.kind ≠ .first ∧ x.kind ≠ .second) ∧
        ((s.chan c).state ≠ .running → (t.chan c).state = (s.chan c).state ∧ (t.chan c).legs = (s.chan c).legs) ∧
        t.notice.getLsbD (3 + channelIndex c) = true) ∧
      (asserted = false → ∀ c, (t.chan c).state = (s.chan c).state ∧ (t.chan c).legs = (s.chan c).legs)

/-! ## The Hall timer (Chapter 9) -/

/-- A change of the Hall lines: while no setup is locked only the raw code changes; before the acquisition it restarts the
measure; a code that differs from the accepted one begins a run or continues it with its first-change time kept, and one that
equals the accepted code abandons the run. With Th = 0 the code is accepted at its own instant: before the acquisition by it, else
as a transition whose timestamp is that instant, or the first change of a run that is pending, with its classification, interval
and snap. Lines given the code they have do not change. The hand-out that follows a change on a locked part is as for a due
entry (notes/assumptions/17.md and 18.md). The value 0 that a change of HAL carries is the model's choice
(notes/assumptions/38.md). -/
def Obligations.AHallChangeBeginsOrContinuesARun : Prop :=
  ∀ (s : State) (code : BitVec 3),
    let handsOut := fun h : HallTimer => ∃ d, Device.HandsOut { s.toDevice with hall := h } d ∧
      exec (.hallLineChange code) s = .next { s with toDevice := publish s.toDevice d }
    let raw := { s.hall with raw := code }
    (code = s.hall.raw → exec (.hallLineChange code) s = .next s) ∧
    (code ≠ s.hall.raw → s.setup = none → exec (.hallLineChange code) s = .next { s with hall := raw }) ∧
    (code ≠ s.hall.raw → s.setup ≠ none → s.hall.accepted = none → hallTh s.words ≠ 0 →
      handsOut { raw with acquiring := some s.refCount }) ∧
    (code ≠ s.hall.raw → s.setup ≠ none → s.hall.accepted = some code → handsOut { raw with run := none }) ∧
    (∀ old, code ≠ s.hall.raw → s.setup ≠ none → s.hall.accepted = some old → old ≠ code → hallTh s.words ≠ 0 →
      handsOut { raw with run := match s.hall.run with
        | none => some { first := s.refCount, last := s.refCount, measure := 0 }
        | some r => some { r with last := s.refCount } }) ∧
    (code ≠ s.hall.raw → s.setup ≠ none → hallTh s.words = 0 →
      ∃ t, exec (.hallLineChange code) s = .next t ∧ t.hall.raw = code ∧ t.hall.accepted = some code) ∧
    (let leaves := fun d : Device => ∃ e, Device.HandsOut d e ∧
       exec (.hallLineChange code) s = .next { s with toDevice := publish s.toDevice e }
     (code ≠ s.hall.raw → s.setup ≠ none → hallTh s.words = 0 → s.hall.accepted = none →
       leaves { s.toDevice with hall := raw }.afterAcquisition) ∧
     (∀ old, code ≠ s.hall.raw → s.setup ≠ none → hallTh s.words = 0 → s.hall.accepted = some old → old ≠ code →
       ∃ d, Device.Transits
           (match s.hall.run with
             | none => { first := s.refCount, last := s.refCount, measure := 0 }
             | some r => { r with last := s.refCount }) { s.toDevice with hall := raw } d ∧ leaves d))

/-- The classification of a transition by the sector of its new code against the reference sector, for the six sectors. -/
def Obligations.TransitionsAreClassified : Prop :=
  ∀ s r : Nat, s < 6 → r < 6 →
    classify none none = .invalid ∧ classify none (some r) = .invalid ∧ classify (some s) none = .none ∧
    ((r : Int) = ((s : Int) - 1) % 6 → classify (some s) (some r) = .forward) ∧
    (r = (s + 1) % 6 → classify (some s) (some r) = .reverse) ∧
    (r = s → classify (some s) (some r) = .back) ∧
    ((r : Int) ≠ ((s : Int) - 1) % 6 → r ≠ (s + 1) % 6 → r ≠ s → classify (some s) (some r) = .skip) ∧
    (∀ h : HallTimer, ∀ run : HallRun,
      (h.transition none run).refSector = h.refSector ∧ (h.transition (some s) run).refSector = some s ∧
      ∀ sector, (h.transition sector run).direction = classify sector h.refSector)

/-- The filter time expires while no code is accepted: the acquisition. The raw code is accepted, with its sector as the
reference sector if it has one, the direction NONE, and no timestamp, interval, skip or snap; the Hall words are written and HAL
is evaluated: where it changes, its assertion or release acts (`TheOverrideIsTheHighestAction`), and else nothing of any channel
changes. The hand-out that follows is as for a due entry (notes/assumptions/17.md and 18.md). The value 0 that HAL's change
carries is the model's choice (notes/assumptions/38.md). -/
def Obligations.TheAcquisition : Prop :=
  ∀ (s : State) (t0 : RefCount), s.setup ≠ none → s.hall.accepted = none → s.hall.acquiring = some t0 →
    let at_ := s.advanceTo (t0 + BitVec.ofNat 32 (hallTh s.words * 128))
    let sector := hallSector s.words s.hall.raw
    ∃ (t : State) (e : Device), exec .hallFilterExpiry s = .next t ∧
      t = { s with toDevice := publish s.toDevice e } ∧ Device.HandsOut at_.afterAcquisition e ∧
      t.hall = { at_.hall with
        accepted := some s.hall.raw, acquiring := none, refSector := sector, direction := .none } ∧
      t.hal = s.halAfterCode sector ∧ s.Spares .ch0 t.toDevice

/-- The filter time of a pending run expires: the transition is accepted with the run's first-change time as its timestamp,
classified, and given its interval; the Hall words are written; HAL is evaluated, and acts where it changes
(`TheOverrideIsTheHighestAction`); a capture unit that follows CH0 takes the timestamp and the code; a SKIP moves the Hall skips,
hands the HALL_SKIP record with the period count, the reference sector before, the code and the state, and notices HALL; a FORWARD
or REVERSE transition that agrees with the sign of a ROTATE plan with SNAP, on a RUNNING CH0, snaps: Q takes the clamped error,
the snap words are written and the snaps move by one. Nothing else changes but by the hand-out that follows, as for a due entry
(notes/assumptions/17.md and 18.md). The value 0 that HAL's change carries is the model's choice (notes/assumptions/38.md). -/
def Obligations.TheTransition : Prop :=
  ∀ (s : State) (old : BitVec 3) (r r0 : HallRun), s.setup ≠ none → s.hall.accepted = some old →
    s.hall.run = some r0 →
    let at_ := s.advanceTo (r0.last + BitVec.ofNat 32 (hallTh s.words * 128))
    at_.hall.run = some r →
    let h := at_.hall
    let ch := s.chan .ch0
    let sector := hallSector s.words h.raw
    let direction := classify sector h.refSector
    let elapsed := if h.elapsed < 4194240 then h.elapsed - r.measure else 4194240
    let snaps := ch.snapsOn direction
    let boundary := hallBoundary s.words ((sector.getD 0 + if direction = .reverse then 1 else 0) % 6)
    let τ := (r.first - ch.loadTime).toInt
    let edge := fun e : EdgeSet => ch.theta + BitVec.ofInt 16 (Int.fdiv (ch.plan.rate * τ) (4 * e.modulus : Nat)) + ch.q
    let error := fun e => (boundary - edge e).toInt
    let limit := (hallCsnap s.words : Int)
    ∃ (t : State) (d e : Device), exec .hallFilterExpiry s = .next t ∧
      t = { s with toDevice := publish s.toDevice e } ∧ Device.Transits r at_ d ∧ Device.HandsOut d e ∧
      t.hall = { h with
        accepted := some h.raw, run := none, lastTransition := some r.first, elapsed := r.measure, direction := direction
        refSector := if sector = none then h.refSector else sector
        interval := if h.lastTransition = none then 65535 else elapsed / 64
        snapError := t.hall.snapError } ∧
      t.hal = s.halAfterCode sector ∧ (direction = .skip → t.notice.getLsbD 10 = true) ∧ s.Spares .ch0 t.toDevice ∧
      (t.chan .ch0).counters = { ch.counters with
        hallSkips := ch.counters.hallSkips + (if direction = Direction.skip then 1 else 0)
        hallSnaps := (t.chan .ch0).counters.hallSnaps } ∧
      (∀ e, ch.inForce = some e → snaps → t.hall.snapError = some (error e) ∧
        (t.chan .ch0).counters.hallSnaps = ch.counters.hallSnaps + 1 ∧
        (t.chan .ch0).q = ch.q + BitVec.ofInt 16 (max (-limit) (min limit (error e)))) ∧
      (¬snaps → t.hall.snapError = h.snapError ∧ (t.chan .ch0).counters.hallSnaps = ch.counters.hallSnaps ∧
        (t.chan .ch0).q = ch.q)

/-! ## Logs and the capture unit (Chapters 10, 11) -/

/-- The taking of a record: the release word is judged, a valid one is taken and an invalid one sets the flag and the LOSS
notice; then the room rule: a period record with a free count of 2 or more, and an event record with one of 1 or more, is
written to the place of its sequence number; a period record without room is dropped and an event record without room is
lost, which notices LOSS and, for a refused plan, PLANXn (notes/assumptions/36.md). A period record holds its sixteen fields, with
the clamped mark, the group counts and CH0's Hall values as they stand at the taking; mark and counts go with it
(notes/assumptions/27.md). In an event record the bits without content are 0 and a value stands as its low 16 bits
(notes/assumptions/40.md and 41.md). The last clause gives the codes of the shared formats as section 12.5, and the condition
identifiers as section 8.1, list them. -/
def Obligations.RecordsAreTakenByTheRoomRule : Prop :=
  (∀ (s : State) (c : ChannelId) (item : LogItem) (rest : List LogItem),
    (s.chan c).log.writing = none → (s.chan c).log.waiting = item :: rest →
    let ch := s.chan c
    let l := ch.log
    let release := Memory.read s.ram (0xE0 + channelIndex c)
    let ok := decide ((release - l.releaseValid).toNat ≤ (l.written - l.releaseValid).toNat)
    let read : Log := { l with
      waiting := rest, releaseValid := if ok then release else l.releaseValid, badRelease := l.badRelease || !ok }
    let free := logCapacity c - (l.written - read.releaseValid).toNat
    let noticed := if ok then s.notice else s.notice ||| 0x1000
    let writing := fun (words : List Word) (event : Option EventCode) => some ({
      since := s.refCount, place := logBase c + 16 * (l.written.toNat % logCapacity c), words := words,
      event := event } : LogWrite)
    let leaves := fun (x : Channel) (notice : BitVec 13) => exec (.recordTake c) s = .next { s with
      toDevice := publish s.toDevice { s.setChan c x with notice := notice } }
    (∀ p, item = .period p → 2 ≤ free →
      leaves { ch with clampedMark := false
                       log := { read with groupNotOk := 0, groupMissed := 0
                                          writing := writing (s.periodRecord c p) none } } noticed) ∧
    (∀ p : ClosedPeriod,
      let value := fun x : Option Current => match x with
        | some i => BitVec.ofInt 16 i.value
        | none => (0 : Word)
      let bit := fun (b : Bool) (k : Nat) => if b then 2 ^ k else 0
      let drum := fun (pump onCh0 : Nat) => if c = .ch0 then onCh0 else pump
      let sector := match s.hall.accepted with
        | some code => (hallSector s.words code).getD 7
        | none => 6
      s.periodRecord c p = [l.written,
        BitVec.ofNat 16 (1 + channelIndex c * 4 + ch.state.code * 16 + p.plan.mode.code * 64 + (s.override c).code * 256 +
          p.set.order.code * 1024 + drum 0 sector * 8192),
        BitVec.ofNat 16 (bit ch.clampedMark 0 + bit p.injected 1 + bit p.saturated 2 +
          bit (decide (0 < p.set.s1 ∨ 0 < p.set.s2)) 3 + bit p.set.vector.slewing 4 + bit p.currents.a.isSome 5 +
          bit p.currents.b.isSome 6 + bit p.currents.c.isSome 7 + bit p.link.isSome 8 + p.set.first.code * 512 +
          p.set.second.code * 4096),
        p.number.truncate 16, p.plan.generation, p.set.vector.thetaMid, BitVec.ofNat 16 p.set.vector.va,
        value p.currents.a, value p.currents.b, value p.currents.c, BitVec.ofNat 16 p.set.s1, BitVec.ofNat 16 p.set.s2,
        BitVec.ofNat 16 (p.link.getD 0), BitVec.ofNat 16 (p.zeroLevel + drum 0 s.hall.direction.code * 8192),
        BitVec.ofNat 16 (l.groupNotOk + l.groupMissed * 256), BitVec.ofNat 16 (drum 0 s.hall.interval)]) ∧
    (∀ p, item = .period p → free < 2 →
      leaves { ch with log := read
                       counters := { ch.counters with droppedRecords := ch.counters.droppedRecords + 1 } } noticed) ∧
    (∀ r, item = .event r → 1 ≤ free → ∃ head : Word,
      let words := [l.written, head, r.periodCount.truncate 16, (r.periodCount >>> 16).truncate 16,
        BitVec.ofNat 16 r.condition, BitVec.ofInt 16 r.value, BitVec.ofNat 16 r.action, r.extra] ++ List.replicate 8 0
      leaves { ch with log := { read with writing := writing words (some r.code) } } noticed ∧
      head.toNat = 2 + channelIndex c * 4 + r.state.code * 16 + r.code.code * 256) ∧
    (∀ r, item = .event r → free = 0 → leaves { ch with log := { read with eventLost := true } }
      (if r.code = .planRefused then noticed ||| 0x1000 ||| BitVec.ofNat 13 (2 ^ (6 + channelIndex c))
        else noticed ||| 0x1000))) ∧
  (∀ c : ChannelId,
    [EventCode.started, .stopped, .resumed, .floated, .conditionAsserted, .conditionReleased, .planRefused, .hallSkip].map
      EventCode.code = [1, 2, 3, 4, 5, 6, 7, 8] ∧
    [ConditionId.cur c, .zer c, .age c, .hal, .lov, .lun, .fl0, .fl1].map ConditionId.code = [1, 2, 3, 4, 5, 6, 7, 8] ∧
    [Action.note, .zero, .brake, .float].map Action.code = [0, 1, 2, 3] ∧
    [WindowOutcome.ok, .failedShort, .failedLate, .missed, .absent].map WindowOutcome.code = [0, 1, 2, 3, 4] ∧
    [Mode.coast, .brake, .align, .rotate].map Mode.code = [0, 1, 2, 3] ∧
    [ChannelState.off, .running, .floated].map ChannelState.code = [0, 1, 2] ∧
    [Override.none, .zero, .brake].map Override.code = [0, 1, 2] ∧
    [Direction.none, .forward, .reverse, .skip, .invalid, .back].map Direction.code = [0, 1, 2, 3, 4, 5] ∧
    [LegOrder.abc, .acb, .bac, .bca, .cab, .cba].map LegOrder.code = [0, 1, 2, 3, 4, 5])

/-- The end of a record's writing: the record's words stand at its place, but for those over which a host write has come
since (notes/assumptions/13.md), every other word is as before, W moves by one, LOGn is noticed for an event record and
where the unreleased count is at least the notice level, and PLANXn for the record of a refused plan (notes/assumptions/36.md). -/
def Obligations.AWrittenRecordStandsInItsPlace : Prop :=
  ∀ (s : State) (c : ChannelId) (w : LogWrite), s.ram.wf = true → (s.chan c).log.writing = some w →
    let ch := s.chan c
    let l := ch.log
    let logged := w.event.isSome || decide ((s.cfg c).level ≤ (l.written + 1 - l.releaseValid).toNat)
    let refused := decide (w.event = some .planRefused)
    let bit := fun (b : Bool) (k : Nat) => if b then BitVec.ofNat 13 (2 ^ k) else 0
    ∃ ram : Memory, ram.wf = true ∧
      (∀ a, Memory.read ram a =
        if w.place ≤ a ∧ a < w.place + w.words.length ∧ a ∉ w.kept then w.words.getD (a - w.place) 0
        else Memory.read s.ram a) ∧
      let d := s.setChan c { ch with log := { l with written := l.written + 1, writing := none } }
      exec (.recordWriteEnd c) s = .next { s with toDevice := publish s.toDevice { d with
        ram := ram
        notice := s.notice ||| bit logged (channelIndex c) ||| bit refused (6 + channelIndex c) } }

/-- A poll: the next one comes 32768 half-ticks later, and by the unit's condition and the generation read it does nothing,
cancels, arms with the request's channel, filter and skip (0 taken as 1), or refuses, which writes REFUSED and the generation
and sets CAPTURE. That a refusal ends in the one step of its poll, with no passing 0 in the served generation, is the model's
reading (notes/assumptions/23.md). -/
def Obligations.APollActsOnTheRequest : Prop :=
  ∀ (s : State) (t0 : RefCount), s.capture.nextPoll = some t0 →
    let at_ := s.advanceTo t0
    let u := { s.capture with nextPoll := some (at_.refCount + 32768) }
    let w := fun k => (Memory.read s.ram (0xE4 + k)).toNat
    let g := Memory.read s.ram 0xE4
    let fresh := g ≠ 0 ∧ g ≠ u.lastServed ∧ (u.mode = .idle ∨ (u.mode = .armed ∧ g ≠ u.generation))
    let leaves := fun d : Device => exec .poll s = .next { s with toDevice := publish s.toDevice d }
    (u.mode = .copying ∨ (u.mode = .idle ∧ (g = 0 ∨ g = u.lastServed)) ∨ (u.mode = .armed ∧ g = u.generation) →
      leaves { at_ with capture := u }) ∧
    (u.mode = .armed → g ≠ u.generation → g = 0 ∨ g = u.lastServed →
      leaves { at_ with capture := { u with mode := .idle, following := none, copy := none } }) ∧
    (∀ c f, fresh → w 1 = channelIndex c →
      w 2 = (match f with | .any => 0 | .shifted => 1 | .failed => 2 | .condition => 3) →
      leaves { at_ with capture := { u with
        mode := .armed, generation := g, channel := c, filter := f, skip := if w 3 = 0 then 1 else w 3
        following := none, copy := none } }) ∧
    (fresh → 2 < w 1 ∨ 3 < w 2 →
      leaves { at_ with
        capture := { u with mode := .idle, following := none, copy := none, lastServed := g }
        ram := Memory.write (Memory.write s.ram 0x201 2) 0x200 g
        notice := s.notice ||| 0x200 })

/-- The close of a followed period: where the period matches the filter, the skip count moves down, and at 1 the copy of the
period's 107 words, from the outcome COPIED and the period's load time, count, generation and vector on, begins with the served
generation written as 0; else nothing changes. `LoadEventOpensTheNextPeriod` says where in a load event this test stands. The end
of a copy writes its words, but for those over which a host write has come since (notes/assumptions/13.md), then the armed
generation as served and last served, sets CAPTURE and leaves the unit idle. That the words of a copy stand in the RAM from its
end on, and the clamped flag among them, are the model's choice (notes/assumptions/23.md and 24.md). The 107 words stand as
section 12.5 lays them out; that a current which is not valid, and a bit without content, is 0 and a value stands as its low 16
bits is the model's choice (notes/assumptions/40.md, 41.md and 42.md). The working buffer keeps the first eight condition changes
and the first four Hall transitions and counts the changes, and the further transitions, up to 255; that it keeps no change
after the eighth, which no place of the manual reads, is the model's reading (notes/assumptions/30.md). -/
def Obligations.CapturesSelectAndCopy : Prop :=
  (∀ (d : Device) (c : ChannelId) (p : ClosedPeriod),
    let u := d.capture
    let followed := fun b => u.mode = .armed ∧ u.channel = c ∧ u.following = some b
    let matched := fun b : CaptureBuffer => match u.filter with
      | .any => True
      | .shifted => 0 < p.set.s1 ∨ 0 < p.set.s2
      | .failed => p.set.first ≠ .ok ∨ p.set.second ≠ .ok
      | .condition => b.assertionSeen = true
    (∀ b, followed b → matched b → u.skip ≤ 1 → b.fits →
      let words := captureWords (d.chan c).clampedMark p b
      words.length = 107 ∧ words.take 8 = [1, p.loadTime.truncate 16, (p.loadTime >>> 16).truncate 16, p.number.truncate 16,
        (p.number >>> 16).truncate 16, p.plan.generation, p.set.vector.thetaMid, BitVec.ofNat 16 p.set.vector.va] ∧
      d.selectPeriod c p = { d with
        ram := Memory.write d.ram 0x200 0
        capture := { u with mode := .copying, skip := 0, copy := some { since := d.refCount, words := words } } }) ∧
    (∀ b, followed b → matched b → 1 < u.skip → d.selectPeriod c p = { d with capture := { u with skip := u.skip - 1 } }) ∧
    ((∀ b, followed b → ¬matched b) → d.selectPeriod c p = d)) ∧
  (∀ (s : State) (k : CaptureCopy), s.ram.wf = true → s.capture.copy = some k →
    ∃ ram : Memory, ram.wf = true ∧
      (∀ a, Memory.read ram a =
        if a = 0x200 then s.capture.generation
        else if 0x201 ≤ a ∧ a < 0x201 + k.words.length ∧ a ∉ k.kept then k.words.getD (a - 0x201) 0
        else Memory.read s.ram a) ∧
      exec .captureCopyEnd s = .next { s with toDevice := publish s.toDevice { s.toDevice with
        ram := ram
        capture := { s.capture with
          mode := .idle, following := none, copy := none, lastServed := s.capture.generation }
        notice := s.notice ||| 0x200 } }) ∧
  (∀ (clamped : Bool) (p : ClosedPeriod) (b : CaptureBuffer), b.fits →
    let e := p.set
    let v := e.vector
    let bit := fun (x : Bool) (k : Nat) => if x then 2 ^ k else 0
    let two := fun x : BitVec 32 => ([x.truncate 16, (x >>> 16).truncate 16] : List Word)
    let kind := fun x : Drive => match x with
      | .pulse _ _ => 0
      | .high => 1
      | .low => 2
      | .float => 3
    let start := fun x : Drive => match x with
      | .pulse start _ => start
      | _ => 0
    let stop := fun x : Drive => match x with
      | .pulse _ stop => stop
      | _ => 0
    let legs := fun f : Drive → Nat => [e.drives.a, e.drives.b, e.drives.c].map fun x => BitVec.ofNat 16 (f x)
    let outcome := fun o : WindowOutcome => match o with
      | .ok => 0
      | .failedShort => 1
      | .failedLate => 2
      | .missed => 3
      | .absent => 4
    let current := fun x : Option Current => match x with
      | some i => BitVec.ofInt 16 i.value
      | none => (0 : Word)
    let zeros := fun n : Nat => List.replicate n (0 : Word)
    let slot : RequestKind → List Word := fun k => match e.requests.find? fun r => r.kind == k with
      | none => zeros 10
      | some r =>
        let times := two (p.loadTime + BitVec.ofNat 32 r.due) ++ two (p.loadTime + BitVec.ofNat 32 r.deadline)
        match p.reports.get k with
        | some (.started cv start lateness codes) =>
          [BitVec.ofNat 16 (1 + bit (cv == Converter.cvb) 3)] ++ times ++ two start ++ [BitVec.ofNat 16 lateness,
            BitVec.ofNat 16 (codes.getD (0, 0)).1, BitVec.ofNat 16 (codes.getD (0, 0)).2]
        | some .missed => [(2 : Word)] ++ times ++ zeros 5
        | some .withdrawn => [(3 : Word)] ++ times ++ zeros 5
        | none => [(4 : Word)] ++ times ++ zeros 5
    captureWords clamped p b =
      [(1 : Word)] ++ two p.loadTime ++ two p.number ++ [p.plan.generation, v.thetaMid, BitVec.ofNat 16 v.va,
        BitVec.ofInt 16 v.u.a, BitVec.ofInt 16 v.u.b, BitVec.ofInt 16 v.u.c] ++
      legs (fun x => stop x - start x) ++
      [BitVec.ofNat 16 (kind e.drives.a + kind e.drives.b * 4 + kind e.drives.c * 16 + e.order.code * 256 +
        bit v.slewing 11)] ++
      legs start ++ legs stop ++ [BitVec.ofNat 16 e.s1, BitVec.ofNat 16 e.s2] ++
      slot .first ++ slot .second ++ slot .zero ++ slot .link ++
      [current p.currents.a, current p.currents.b, current p.currents.c,
        BitVec.ofNat 16 (bit clamped 0 + bit p.injected 1 + bit p.saturated 2 + bit (decide (0 < e.s1 ∨ 0 < e.s2)) 3 +
          bit v.slewing 4 + bit p.currents.a.isSome 5 + bit p.currents.b.isSome 6 + bit p.currents.c.isSome 7 +
          bit p.link.isSome 8 + outcome e.first * 512 + outcome e.second * 4096),
        (match p.metric with
          | some m => BitVec.ofNat 16 m
          | none => 0xFFFF),
        BitVec.ofNat 16 p.zeroLevel] ++
      (b.changes.flatMap fun x =>
        [BitVec.ofNat 16 (x.identifier + bit x.assertion 15), BitVec.ofInt 16 x.value, BitVec.ofNat 16 x.action]) ++
      zeros (24 - 3 * b.changes.length) ++ [BitVec.ofNat 16 b.changeCount] ++
      (b.hall.flatMap fun x => two x.1 ++ [x.2.zeroExtend 16]) ++ zeros (12 - 3 * b.hall.length) ++
      [BitVec.ofNat 16 b.hallFurther]) ∧
  (∀ (b : CaptureBuffer) (x : ConditionChange) (timestamp : RefCount) (code : BitVec 3),
    b.addChange x = { b with
      changes := (b.changes ++ [x]).take 8, changeCount := min (b.changeCount + 1) 255
      assertionSeen := b.assertionSeen || x.assertion } ∧
    b.addHall timestamp code = (if b.hall.length < 4 then { b with hall := b.hall ++ [(timestamp, code)] }
      else { b with hallFurther := min (b.hallFurther + 1) 255 }))
end

