-- ==== Sys2Proof/Laws/State.lean ====
section
/-! SUPPORT. What each update of the part leaves in each field: one lemma per field and update, for `simp`. -/

namespace Sys2Proof.Machine

open Sys2Proof

/-! ### Access by channel, leg and kind -/

@[simp] theorem PerChannel.get_set_same {α : Type} (v : PerChannel α) (c : ChannelId) (x : α) :
    (v.set c x).get c = x := by cases c <;> rfl

theorem PerChannel.get_set {α : Type} (v : PerChannel α) (c c' : ChannelId) (x : α) :
    (v.set c x).get c' = if c' = c then x else v.get c' := by cases c <;> cases c' <;> rfl

@[simp] theorem PerChannel.get_set_other {α : Type} (v : PerChannel α) {c c' : ChannelId} (x : α) (h : c' ≠ c) :
    (v.set c x).get c' = v.get c' := by rw [PerChannel.get_set, if_neg h]

@[simp] theorem PerChannel.set_set {α : Type} (v : PerChannel α) (c : ChannelId) (x y : α) :
    (v.set c x).set c y = v.set c y := by cases c <;> rfl

@[simp] theorem PerChannel.set_get {α : Type} (v : PerChannel α) (c : ChannelId) : v.set c (v.get c) = v := by
  cases c <;> rfl

theorem PerChannel.ext_get {α : Type} {v w : PerChannel α} (h : ∀ c, v.get c = w.get c) : v = w := by
  cases v; cases w
  have h0 := h .ch0; have h1 := h .ch1; have h2 := h .ch2
  simp only [PerChannel.get] at h0 h1 h2
  simp [h0, h1, h2]

@[simp] theorem PerLeg.get_set_same {α : Type} (v : PerLeg α) (l : Leg) (x : α) : (v.set l x).get l = x := by
  cases l <;> rfl

theorem PerLeg.get_set {α : Type} (v : PerLeg α) (l l' : Leg) (x : α) :
    (v.set l x).get l' = if l' = l then x else v.get l' := by cases l <;> cases l' <;> rfl

@[simp] theorem PerLeg.get_map {α β : Type} (f : α → β) (v : PerLeg α) (l : Leg) :
    (v.map f).get l = f (v.get l) := by cases l <;> rfl

theorem PerKind.get_set {α : Type} (v : PerKind α) (k k' : RequestKind) (x : α) :
    (v.set k x).get k' = if k' = k then x else v.get k' := by cases k <;> cases k' <;> rfl

/-! ### `setChan` -/

@[simp] theorem Device.setChan_refCount (d : Device) (c : ChannelId) (x : Channel) :
    (d.setChan c x).refCount = d.refCount := rfl
@[simp] theorem Device.setChan_powerOn (d : Device) (c : ChannelId) (x : Channel) :
    (d.setChan c x).powerOn = d.powerOn := rfl
@[simp] theorem Device.setChan_resetLow (d : Device) (c : ChannelId) (x : Channel) :
    (d.setChan c x).resetLow = d.resetLow := rfl
@[simp] theorem Device.setChan_statusWrite (d : Device) (c : ChannelId) (x : Channel) :
    (d.setChan c x).statusWrite = d.statusWrite := rfl
@[simp] theorem Device.setChan_cmd (d : Device) (c : ChannelId) (x : Channel) :
    (d.setChan c x).cmd = d.cmd := rfl
@[simp] theorem Device.setChan_setupErrorCode (d : Device) (c : ChannelId) (x : Channel) :
    (d.setChan c x).setupErrorCode = d.setupErrorCode := rfl
@[simp] theorem Device.setChan_setupErrorChannel (d : Device) (c : ChannelId) (x : Channel) :
    (d.setChan c x).setupErrorChannel = d.setupErrorChannel := rfl
@[simp] theorem Device.setChan_lockRun (d : Device) (c : ChannelId) (x : Channel) :
    (d.setChan c x).lockRun = d.lockRun := rfl
@[simp] theorem Device.setChan_setup (d : Device) (c : ChannelId) (x : Channel) :
    (d.setChan c x).setup = d.setup := rfl
@[simp] theorem Device.setChan_notice (d : Device) (c : ChannelId) (x : Channel) :
    (d.setChan c x).notice = d.notice := rfl
@[simp] theorem Device.setChan_noticeEn (d : Device) (c : ChannelId) (x : Channel) :
    (d.setChan c x).noticeEn = d.noticeEn := rfl
@[simp] theorem Device.setChan_ram (d : Device) (c : ChannelId) (x : Channel) :
    (d.setChan c x).ram = d.ram := rfl
@[simp] theorem Device.setChan_outputsDriven (d : Device) (c : ChannelId) (x : Channel) :
    (d.setChan c x).outputsDriven = d.outputsDriven := rfl
@[simp] theorem Device.setChan_flt0 (d : Device) (c : ChannelId) (x : Channel) :
    (d.setChan c x).flt0 = d.flt0 := rfl
@[simp] theorem Device.setChan_flt1 (d : Device) (c : ChannelId) (x : Channel) :
    (d.setChan c x).flt1 = d.flt1 := rfl
@[simp] theorem Device.setChan_hall (d : Device) (c : ChannelId) (x : Channel) :
    (d.setChan c x).hall = d.hall := rfl
@[simp] theorem Device.setChan_requests (d : Device) (c : ChannelId) (x : Channel) :
    (d.setChan c x).requests = d.requests := rfl
@[simp] theorem Device.setChan_cva (d : Device) (c : ChannelId) (x : Channel) :
    (d.setChan c x).cva = d.cva := rfl
@[simp] theorem Device.setChan_cvb (d : Device) (c : ChannelId) (x : Channel) :
    (d.setChan c x).cvb = d.cvb := rfl
@[simp] theorem Device.setChan_hal (d : Device) (c : ChannelId) (x : Channel) :
    (d.setChan c x).hal = d.hal := rfl
@[simp] theorem Device.setChan_lov (d : Device) (c : ChannelId) (x : Channel) :
    (d.setChan c x).lov = d.lov := rfl
@[simp] theorem Device.setChan_lun (d : Device) (c : ChannelId) (x : Channel) :
    (d.setChan c x).lun = d.lun := rfl
@[simp] theorem Device.setChan_fl0 (d : Device) (c : ChannelId) (x : Channel) :
    (d.setChan c x).fl0 = d.fl0 := rfl
@[simp] theorem Device.setChan_fl1 (d : Device) (c : ChannelId) (x : Channel) :
    (d.setChan c x).fl1 = d.fl1 := rfl
@[simp] theorem Device.setChan_capture (d : Device) (c : ChannelId) (x : Channel) :
    (d.setChan c x).capture = d.capture := rfl
@[simp] theorem Device.setChan_freeIndex (d : Device) (c : ChannelId) (x : Channel) :
    (d.setChan c x).freeIndex = d.freeIndex := rfl

/-! ### `modChan` -/

@[simp] theorem Device.modChan_refCount (d : Device) (c : ChannelId) (f : Channel → Channel) :
    (d.modChan c f).refCount = d.refCount := rfl
@[simp] theorem Device.modChan_powerOn (d : Device) (c : ChannelId) (f : Channel → Channel) :
    (d.modChan c f).powerOn = d.powerOn := rfl
@[simp] theorem Device.modChan_resetLow (d : Device) (c : ChannelId) (f : Channel → Channel) :
    (d.modChan c f).resetLow = d.resetLow := rfl
@[simp] theorem Device.modChan_statusWrite (d : Device) (c : ChannelId) (f : Channel → Channel) :
    (d.modChan c f).statusWrite = d.statusWrite := rfl
@[simp] theorem Device.modChan_cmd (d : Device) (c : ChannelId) (f : Channel → Channel) :
    (d.modChan c f).cmd = d.cmd := rfl
@[simp] theorem Device.modChan_setupErrorCode (d : Device) (c : ChannelId) (f : Channel → Channel) :
    (d.modChan c f).setupErrorCode = d.setupErrorCode := rfl
@[simp] theorem Device.modChan_setupErrorChannel (d : Device) (c : ChannelId) (f : Channel → Channel) :
    (d.modChan c f).setupErrorChannel = d.setupErrorChannel := rfl
@[simp] theorem Device.modChan_lockRun (d : Device) (c : ChannelId) (f : Channel → Channel) :
    (d.modChan c f).lockRun = d.lockRun := rfl
@[simp] theorem Device.modChan_setup (d : Device) (c : ChannelId) (f : Channel → Channel) :
    (d.modChan c f).setup = d.setup := rfl
@[simp] theorem Device.modChan_notice (d : Device) (c : ChannelId) (f : Channel → Channel) :
    (d.modChan c f).notice = d.notice := rfl
@[simp] theorem Device.modChan_noticeEn (d : Device) (c : ChannelId) (f : Channel → Channel) :
    (d.modChan c f).noticeEn = d.noticeEn := rfl
@[simp] theorem Device.modChan_ram (d : Device) (c : ChannelId) (f : Channel → Channel) :
    (d.modChan c f).ram = d.ram := rfl
@[simp] theorem Device.modChan_outputsDriven (d : Device) (c : ChannelId) (f : Channel → Channel) :
    (d.modChan c f).outputsDriven = d.outputsDriven := rfl
@[simp] theorem Device.modChan_flt0 (d : Device) (c : ChannelId) (f : Channel → Channel) :
    (d.modChan c f).flt0 = d.flt0 := rfl
@[simp] theorem Device.modChan_flt1 (d : Device) (c : ChannelId) (f : Channel → Channel) :
    (d.modChan c f).flt1 = d.flt1 := rfl
@[simp] theorem Device.modChan_hall (d : Device) (c : ChannelId) (f : Channel → Channel) :
    (d.modChan c f).hall = d.hall := rfl
@[simp] theorem Device.modChan_requests (d : Device) (c : ChannelId) (f : Channel → Channel) :
    (d.modChan c f).requests = d.requests := rfl
@[simp] theorem Device.modChan_cva (d : Device) (c : ChannelId) (f : Channel → Channel) :
    (d.modChan c f).cva = d.cva := rfl
@[simp] theorem Device.modChan_cvb (d : Device) (c : ChannelId) (f : Channel → Channel) :
    (d.modChan c f).cvb = d.cvb := rfl
@[simp] theorem Device.modChan_hal (d : Device) (c : ChannelId) (f : Channel → Channel) :
    (d.modChan c f).hal = d.hal := rfl
@[simp] theorem Device.modChan_lov (d : Device) (c : ChannelId) (f : Channel → Channel) :
    (d.modChan c f).lov = d.lov := rfl
@[simp] theorem Device.modChan_lun (d : Device) (c : ChannelId) (f : Channel → Channel) :
    (d.modChan c f).lun = d.lun := rfl
@[simp] theorem Device.modChan_fl0 (d : Device) (c : ChannelId) (f : Channel → Channel) :
    (d.modChan c f).fl0 = d.fl0 := rfl
@[simp] theorem Device.modChan_fl1 (d : Device) (c : ChannelId) (f : Channel → Channel) :
    (d.modChan c f).fl1 = d.fl1 := rfl
@[simp] theorem Device.modChan_capture (d : Device) (c : ChannelId) (f : Channel → Channel) :
    (d.modChan c f).capture = d.capture := rfl
@[simp] theorem Device.modChan_freeIndex (d : Device) (c : ChannelId) (f : Channel → Channel) :
    (d.modChan c f).freeIndex = d.freeIndex := rfl

/-! ### `setNotice` -/

@[simp] theorem Device.setNotice_refCount (d : Device) (bit : Nat) :
    (d.setNotice bit).refCount = d.refCount := rfl
@[simp] theorem Device.setNotice_powerOn (d : Device) (bit : Nat) :
    (d.setNotice bit).powerOn = d.powerOn := rfl
@[simp] theorem Device.setNotice_resetLow (d : Device) (bit : Nat) :
    (d.setNotice bit).resetLow = d.resetLow := rfl
@[simp] theorem Device.setNotice_statusWrite (d : Device) (bit : Nat) :
    (d.setNotice bit).statusWrite = d.statusWrite := rfl
@[simp] theorem Device.setNotice_cmd (d : Device) (bit : Nat) :
    (d.setNotice bit).cmd = d.cmd := rfl
@[simp] theorem Device.setNotice_setupErrorCode (d : Device) (bit : Nat) :
    (d.setNotice bit).setupErrorCode = d.setupErrorCode := rfl
@[simp] theorem Device.setNotice_setupErrorChannel (d : Device) (bit : Nat) :
    (d.setNotice bit).setupErrorChannel = d.setupErrorChannel := rfl
@[simp] theorem Device.setNotice_lockRun (d : Device) (bit : Nat) :
    (d.setNotice bit).lockRun = d.lockRun := rfl
@[simp] theorem Device.setNotice_setup (d : Device) (bit : Nat) :
    (d.setNotice bit).setup = d.setup := rfl
@[simp] theorem Device.setNotice_noticeEn (d : Device) (bit : Nat) :
    (d.setNotice bit).noticeEn = d.noticeEn := rfl
@[simp] theorem Device.setNotice_ram (d : Device) (bit : Nat) :
    (d.setNotice bit).ram = d.ram := rfl
@[simp] theorem Device.setNotice_outputsDriven (d : Device) (bit : Nat) :
    (d.setNotice bit).outputsDriven = d.outputsDriven := rfl
@[simp] theorem Device.setNotice_flt0 (d : Device) (bit : Nat) :
    (d.setNotice bit).flt0 = d.flt0 := rfl
@[simp] theorem Device.setNotice_flt1 (d : Device) (bit : Nat) :
    (d.setNotice bit).flt1 = d.flt1 := rfl
@[simp] theorem Device.setNotice_hall (d : Device) (bit : Nat) :
    (d.setNotice bit).hall = d.hall := rfl
@[simp] theorem Device.setNotice_channels (d : Device) (bit : Nat) :
    (d.setNotice bit).channels = d.channels := rfl
@[simp] theorem Device.setNotice_requests (d : Device) (bit : Nat) :
    (d.setNotice bit).requests = d.requests := rfl
@[simp] theorem Device.setNotice_cva (d : Device) (bit : Nat) :
    (d.setNotice bit).cva = d.cva := rfl
@[simp] theorem Device.setNotice_cvb (d : Device) (bit : Nat) :
    (d.setNotice bit).cvb = d.cvb := rfl
@[simp] theorem Device.setNotice_hal (d : Device) (bit : Nat) :
    (d.setNotice bit).hal = d.hal := rfl
@[simp] theorem Device.setNotice_lov (d : Device) (bit : Nat) :
    (d.setNotice bit).lov = d.lov := rfl
@[simp] theorem Device.setNotice_lun (d : Device) (bit : Nat) :
    (d.setNotice bit).lun = d.lun := rfl
@[simp] theorem Device.setNotice_fl0 (d : Device) (bit : Nat) :
    (d.setNotice bit).fl0 = d.fl0 := rfl
@[simp] theorem Device.setNotice_fl1 (d : Device) (bit : Nat) :
    (d.setNotice bit).fl1 = d.fl1 := rfl
@[simp] theorem Device.setNotice_capture (d : Device) (bit : Nat) :
    (d.setNotice bit).capture = d.capture := rfl
@[simp] theorem Device.setNotice_freeIndex (d : Device) (bit : Nat) :
    (d.setNotice bit).freeIndex = d.freeIndex := rfl

/-! ### `hand` -/

@[simp] theorem Device.hand_refCount (d : Device) (c : ChannelId) (item : LogItem) :
    (d.hand c item).refCount = d.refCount := rfl
@[simp] theorem Device.hand_powerOn (d : Device) (c : ChannelId) (item : LogItem) :
    (d.hand c item).powerOn = d.powerOn := rfl
@[simp] theorem Device.hand_resetLow (d : Device) (c : ChannelId) (item : LogItem) :
    (d.hand c item).resetLow = d.resetLow := rfl
@[simp] theorem Device.hand_statusWrite (d : Device) (c : ChannelId) (item : LogItem) :
    (d.hand c item).statusWrite = d.statusWrite := rfl
@[simp] theorem Device.hand_cmd (d : Device) (c : ChannelId) (item : LogItem) :
    (d.hand c item).cmd = d.cmd := rfl
@[simp] theorem Device.hand_setupErrorCode (d : Device) (c : ChannelId) (item : LogItem) :
    (d.hand c item).setupErrorCode = d.setupErrorCode := rfl
@[simp] theorem Device.hand_setupErrorChannel (d : Device) (c : ChannelId) (item : LogItem) :
    (d.hand c item).setupErrorChannel = d.setupErrorChannel := rfl
@[simp] theorem Device.hand_lockRun (d : Device) (c : ChannelId) (item : LogItem) :
    (d.hand c item).lockRun = d.lockRun := rfl
@[simp] theorem Device.hand_setup (d : Device) (c : ChannelId) (item : LogItem) :
    (d.hand c item).setup = d.setup := rfl
@[simp] theorem Device.hand_notice (d : Device) (c : ChannelId) (item : LogItem) :
    (d.hand c item).notice = d.notice := rfl
@[simp] theorem Device.hand_noticeEn (d : Device) (c : ChannelId) (item : LogItem) :
    (d.hand c item).noticeEn = d.noticeEn := rfl
@[simp] theorem Device.hand_ram (d : Device) (c : ChannelId) (item : LogItem) :
    (d.hand c item).ram = d.ram := rfl
@[simp] theorem Device.hand_outputsDriven (d : Device) (c : ChannelId) (item : LogItem) :
    (d.hand c item).outputsDriven = d.outputsDriven := rfl
@[simp] theorem Device.hand_flt0 (d : Device) (c : ChannelId) (item : LogItem) :
    (d.hand c item).flt0 = d.flt0 := rfl
@[simp] theorem Device.hand_flt1 (d : Device) (c : ChannelId) (item : LogItem) :
    (d.hand c item).flt1 = d.flt1 := rfl
@[simp] theorem Device.hand_hall (d : Device) (c : ChannelId) (item : LogItem) :
    (d.hand c item).hall = d.hall := rfl
@[simp] theorem Device.hand_requests (d : Device) (c : ChannelId) (item : LogItem) :
    (d.hand c item).requests = d.requests := rfl
@[simp] theorem Device.hand_cva (d : Device) (c : ChannelId) (item : LogItem) :
    (d.hand c item).cva = d.cva := rfl
@[simp] theorem Device.hand_cvb (d : Device) (c : ChannelId) (item : LogItem) :
    (d.hand c item).cvb = d.cvb := rfl
@[simp] theorem Device.hand_hal (d : Device) (c : ChannelId) (item : LogItem) :
    (d.hand c item).hal = d.hal := rfl
@[simp] theorem Device.hand_lov (d : Device) (c : ChannelId) (item : LogItem) :
    (d.hand c item).lov = d.lov := rfl
@[simp] theorem Device.hand_lun (d : Device) (c : ChannelId) (item : LogItem) :
    (d.hand c item).lun = d.lun := rfl
@[simp] theorem Device.hand_fl0 (d : Device) (c : ChannelId) (item : LogItem) :
    (d.hand c item).fl0 = d.fl0 := rfl
@[simp] theorem Device.hand_fl1 (d : Device) (c : ChannelId) (item : LogItem) :
    (d.hand c item).fl1 = d.fl1 := rfl
@[simp] theorem Device.hand_capture (d : Device) (c : ChannelId) (item : LogItem) :
    (d.hand c item).capture = d.capture := rfl
@[simp] theorem Device.hand_freeIndex (d : Device) (c : ChannelId) (item : LogItem) :
    (d.hand c item).freeIndex = d.freeIndex := rfl

/-! ### `commandLeg` -/

@[simp] theorem Device.commandLeg_refCount (d : Device) (c : ChannelId) (leg : Leg) (cmd : LegCommand) :
    (d.commandLeg c leg cmd).refCount = d.refCount := rfl
@[simp] theorem Device.commandLeg_powerOn (d : Device) (c : ChannelId) (leg : Leg) (cmd : LegCommand) :
    (d.commandLeg c leg cmd).powerOn = d.powerOn := rfl
@[simp] theorem Device.commandLeg_resetLow (d : Device) (c : ChannelId) (leg : Leg) (cmd : LegCommand) :
    (d.commandLeg c leg cmd).resetLow = d.resetLow := rfl
@[simp] theorem Device.commandLeg_statusWrite (d : Device) (c : ChannelId) (leg : Leg) (cmd : LegCommand) :
    (d.commandLeg c leg cmd).statusWrite = d.statusWrite := rfl
@[simp] theorem Device.commandLeg_cmd (d : Device) (c : ChannelId) (leg : Leg) (cmd : LegCommand) :
    (d.commandLeg c leg cmd).cmd = d.cmd := rfl
@[simp] theorem Device.commandLeg_setupErrorCode (d : Device) (c : ChannelId) (leg : Leg) (cmd : LegCommand) :
    (d.commandLeg c leg cmd).setupErrorCode = d.setupErrorCode := rfl
@[simp] theorem Device.commandLeg_setupErrorChannel (d : Device) (c : ChannelId) (leg : Leg) (cmd : LegCommand) :
    (d.commandLeg c leg cmd).setupErrorChannel = d.setupErrorChannel := rfl
@[simp] theorem Device.commandLeg_lockRun (d : Device) (c : ChannelId) (leg : Leg) (cmd : LegCommand) :
    (d.commandLeg c leg cmd).lockRun = d.lockRun := rfl
@[simp] theorem Device.commandLeg_setup (d : Device) (c : ChannelId) (leg : Leg) (cmd : LegCommand) :
    (d.commandLeg c leg cmd).setup = d.setup := rfl
@[simp] theorem Device.commandLeg_notice (d : Device) (c : ChannelId) (leg : Leg) (cmd : LegCommand) :
    (d.commandLeg c leg cmd).notice = d.notice := rfl
@[simp] theorem Device.commandLeg_noticeEn (d : Device) (c : ChannelId) (leg : Leg) (cmd : LegCommand) :
    (d.commandLeg c leg cmd).noticeEn = d.noticeEn := rfl
@[simp] theorem Device.commandLeg_ram (d : Device) (c : ChannelId) (leg : Leg) (cmd : LegCommand) :
    (d.commandLeg c leg cmd).ram = d.ram := rfl
@[simp] theorem Device.commandLeg_outputsDriven (d : Device) (c : ChannelId) (leg : Leg) (cmd : LegCommand) :
    (d.commandLeg c leg cmd).outputsDriven = d.outputsDriven := rfl
@[simp] theorem Device.commandLeg_flt0 (d : Device) (c : ChannelId) (leg : Leg) (cmd : LegCommand) :
    (d.commandLeg c leg cmd).flt0 = d.flt0 := rfl
@[simp] theorem Device.commandLeg_flt1 (d : Device) (c : ChannelId) (leg : Leg) (cmd : LegCommand) :
    (d.commandLeg c leg cmd).flt1 = d.flt1 := rfl
@[simp] theorem Device.commandLeg_hall (d : Device) (c : ChannelId) (leg : Leg) (cmd : LegCommand) :
    (d.commandLeg c leg cmd).hall = d.hall := rfl
@[simp] theorem Device.commandLeg_requests (d : Device) (c : ChannelId) (leg : Leg) (cmd : LegCommand) :
    (d.commandLeg c leg cmd).requests = d.requests := rfl
@[simp] theorem Device.commandLeg_cva (d : Device) (c : ChannelId) (leg : Leg) (cmd : LegCommand) :
    (d.commandLeg c leg cmd).cva = d.cva := rfl
@[simp] theorem Device.commandLeg_cvb (d : Device) (c : ChannelId) (leg : Leg) (cmd : LegCommand) :
    (d.commandLeg c leg cmd).cvb = d.cvb := rfl
@[simp] theorem Device.commandLeg_hal (d : Device) (c : ChannelId) (leg : Leg) (cmd : LegCommand) :
    (d.commandLeg c leg cmd).hal = d.hal := rfl
@[simp] theorem Device.commandLeg_lov (d : Device) (c : ChannelId) (leg : Leg) (cmd : LegCommand) :
    (d.commandLeg c leg cmd).lov = d.lov := rfl
@[simp] theorem Device.commandLeg_lun (d : Device) (c : ChannelId) (leg : Leg) (cmd : LegCommand) :
    (d.commandLeg c leg cmd).lun = d.lun := rfl
@[simp] theorem Device.commandLeg_fl0 (d : Device) (c : ChannelId) (leg : Leg) (cmd : LegCommand) :
    (d.commandLeg c leg cmd).fl0 = d.fl0 := rfl
@[simp] theorem Device.commandLeg_fl1 (d : Device) (c : ChannelId) (leg : Leg) (cmd : LegCommand) :
    (d.commandLeg c leg cmd).fl1 = d.fl1 := rfl
@[simp] theorem Device.commandLeg_capture (d : Device) (c : ChannelId) (leg : Leg) (cmd : LegCommand) :
    (d.commandLeg c leg cmd).capture = d.capture := rfl
@[simp] theorem Device.commandLeg_freeIndex (d : Device) (c : ChannelId) (leg : Leg) (cmd : LegCommand) :
    (d.commandLeg c leg cmd).freeIndex = d.freeIndex := rfl

/-! ### `commandLegs` -/

@[simp] theorem Device.commandLegs_refCount (d : Device) (c : ChannelId) (cmd : LegCommand) :
    (d.commandLegs c cmd).refCount = d.refCount := rfl
@[simp] theorem Device.commandLegs_powerOn (d : Device) (c : ChannelId) (cmd : LegCommand) :
    (d.commandLegs c cmd).powerOn = d.powerOn := rfl
@[simp] theorem Device.commandLegs_resetLow (d : Device) (c : ChannelId) (cmd : LegCommand) :
    (d.commandLegs c cmd).resetLow = d.resetLow := rfl
@[simp] theorem Device.commandLegs_statusWrite (d : Device) (c : ChannelId) (cmd : LegCommand) :
    (d.commandLegs c cmd).statusWrite = d.statusWrite := rfl
@[simp] theorem Device.commandLegs_cmd (d : Device) (c : ChannelId) (cmd : LegCommand) :
    (d.commandLegs c cmd).cmd = d.cmd := rfl
@[simp] theorem Device.commandLegs_setupErrorCode (d : Device) (c : ChannelId) (cmd : LegCommand) :
    (d.commandLegs c cmd).setupErrorCode = d.setupErrorCode := rfl
@[simp] theorem Device.commandLegs_setupErrorChannel (d : Device) (c : ChannelId) (cmd : LegCommand) :
    (d.commandLegs c cmd).setupErrorChannel = d.setupErrorChannel := rfl
@[simp] theorem Device.commandLegs_lockRun (d : Device) (c : ChannelId) (cmd : LegCommand) :
    (d.commandLegs c cmd).lockRun = d.lockRun := rfl
@[simp] theorem Device.commandLegs_setup (d : Device) (c : ChannelId) (cmd : LegCommand) :
    (d.commandLegs c cmd).setup = d.setup := rfl
@[simp] theorem Device.commandLegs_notice (d : Device) (c : ChannelId) (cmd : LegCommand) :
    (d.commandLegs c cmd).notice = d.notice := rfl
@[simp] theorem Device.commandLegs_noticeEn (d : Device) (c : ChannelId) (cmd : LegCommand) :
    (d.commandLegs c cmd).noticeEn = d.noticeEn := rfl
@[simp] theorem Device.commandLegs_ram (d : Device) (c : ChannelId) (cmd : LegCommand) :
    (d.commandLegs c cmd).ram = d.ram := rfl
@[simp] theorem Device.commandLegs_outputsDriven (d : Device) (c : ChannelId) (cmd : LegCommand) :
    (d.commandLegs c cmd).outputsDriven = d.outputsDriven := rfl
@[simp] theorem Device.commandLegs_flt0 (d : Device) (c : ChannelId) (cmd : LegCommand) :
    (d.commandLegs c cmd).flt0 = d.flt0 := rfl
@[simp] theorem Device.commandLegs_flt1 (d : Device) (c : ChannelId) (cmd : LegCommand) :
    (d.commandLegs c cmd).flt1 = d.flt1 := rfl
@[simp] theorem Device.commandLegs_hall (d : Device) (c : ChannelId) (cmd : LegCommand) :
    (d.commandLegs c cmd).hall = d.hall := rfl
@[simp] theorem Device.commandLegs_requests (d : Device) (c : ChannelId) (cmd : LegCommand) :
    (d.commandLegs c cmd).requests = d.requests := rfl
@[simp] theorem Device.commandLegs_cva (d : Device) (c : ChannelId) (cmd : LegCommand) :
    (d.commandLegs c cmd).cva = d.cva := rfl
@[simp] theorem Device.commandLegs_cvb (d : Device) (c : ChannelId) (cmd : LegCommand) :
    (d.commandLegs c cmd).cvb = d.cvb := rfl
@[simp] theorem Device.commandLegs_hal (d : Device) (c : ChannelId) (cmd : LegCommand) :
    (d.commandLegs c cmd).hal = d.hal := rfl
@[simp] theorem Device.commandLegs_lov (d : Device) (c : ChannelId) (cmd : LegCommand) :
    (d.commandLegs c cmd).lov = d.lov := rfl
@[simp] theorem Device.commandLegs_lun (d : Device) (c : ChannelId) (cmd : LegCommand) :
    (d.commandLegs c cmd).lun = d.lun := rfl
@[simp] theorem Device.commandLegs_fl0 (d : Device) (c : ChannelId) (cmd : LegCommand) :
    (d.commandLegs c cmd).fl0 = d.fl0 := rfl
@[simp] theorem Device.commandLegs_fl1 (d : Device) (c : ChannelId) (cmd : LegCommand) :
    (d.commandLegs c cmd).fl1 = d.fl1 := rfl
@[simp] theorem Device.commandLegs_capture (d : Device) (c : ChannelId) (cmd : LegCommand) :
    (d.commandLegs c cmd).capture = d.capture := rfl
@[simp] theorem Device.commandLegs_freeIndex (d : Device) (c : ChannelId) (cmd : LegCommand) :
    (d.commandLegs c cmd).freeIndex = d.freeIndex := rfl

/-! ### `setReport` -/

@[simp] theorem Device.setReport_refCount (d : Device) (c : ChannelId) (k : RequestKind) (r : Report) :
    (d.setReport c k r).refCount = d.refCount := rfl
@[simp] theorem Device.setReport_powerOn (d : Device) (c : ChannelId) (k : RequestKind) (r : Report) :
    (d.setReport c k r).powerOn = d.powerOn := rfl
@[simp] theorem Device.setReport_resetLow (d : Device) (c : ChannelId) (k : RequestKind) (r : Report) :
    (d.setReport c k r).resetLow = d.resetLow := rfl
@[simp] theorem Device.setReport_statusWrite (d : Device) (c : ChannelId) (k : RequestKind) (r : Report) :
    (d.setReport c k r).statusWrite = d.statusWrite := rfl
@[simp] theorem Device.setReport_cmd (d : Device) (c : ChannelId) (k : RequestKind) (r : Report) :
    (d.setReport c k r).cmd = d.cmd := rfl
@[simp] theorem Device.setReport_setupErrorCode (d : Device) (c : ChannelId) (k : RequestKind) (r : Report) :
    (d.setReport c k r).setupErrorCode = d.setupErrorCode := rfl
@[simp] theorem Device.setReport_setupErrorChannel (d : Device) (c : ChannelId) (k : RequestKind) (r : Report) :
    (d.setReport c k r).setupErrorChannel = d.setupErrorChannel := rfl
@[simp] theorem Device.setReport_lockRun (d : Device) (c : ChannelId) (k : RequestKind) (r : Report) :
    (d.setReport c k r).lockRun = d.lockRun := rfl
@[simp] theorem Device.setReport_setup (d : Device) (c : ChannelId) (k : RequestKind) (r : Report) :
    (d.setReport c k r).setup = d.setup := rfl
@[simp] theorem Device.setReport_notice (d : Device) (c : ChannelId) (k : RequestKind) (r : Report) :
    (d.setReport c k r).notice = d.notice := rfl
@[simp] theorem Device.setReport_noticeEn (d : Device) (c : ChannelId) (k : RequestKind) (r : Report) :
    (d.setReport c k r).noticeEn = d.noticeEn := rfl
@[simp] theorem Device.setReport_ram (d : Device) (c : ChannelId) (k : RequestKind) (r : Report) :
    (d.setReport c k r).ram = d.ram := rfl
@[simp] theorem Device.setReport_outputsDriven (d : Device) (c : ChannelId) (k : RequestKind) (r : Report) :
    (d.setReport c k r).outputsDriven = d.outputsDriven := rfl
@[simp] theorem Device.setReport_flt0 (d : Device) (c : ChannelId) (k : RequestKind) (r : Report) :
    (d.setReport c k r).flt0 = d.flt0 := rfl
@[simp] theorem Device.setReport_flt1 (d : Device) (c : ChannelId) (k : RequestKind) (r : Report) :
    (d.setReport c k r).flt1 = d.flt1 := rfl
@[simp] theorem Device.setReport_hall (d : Device) (c : ChannelId) (k : RequestKind) (r : Report) :
    (d.setReport c k r).hall = d.hall := rfl
@[simp] theorem Device.setReport_requests (d : Device) (c : ChannelId) (k : RequestKind) (r : Report) :
    (d.setReport c k r).requests = d.requests := rfl
@[simp] theorem Device.setReport_cva (d : Device) (c : ChannelId) (k : RequestKind) (r : Report) :
    (d.setReport c k r).cva = d.cva := rfl
@[simp] theorem Device.setReport_cvb (d : Device) (c : ChannelId) (k : RequestKind) (r : Report) :
    (d.setReport c k r).cvb = d.cvb := rfl
@[simp] theorem Device.setReport_hal (d : Device) (c : ChannelId) (k : RequestKind) (r : Report) :
    (d.setReport c k r).hal = d.hal := rfl
@[simp] theorem Device.setReport_lov (d : Device) (c : ChannelId) (k : RequestKind) (r : Report) :
    (d.setReport c k r).lov = d.lov := rfl
@[simp] theorem Device.setReport_lun (d : Device) (c : ChannelId) (k : RequestKind) (r : Report) :
    (d.setReport c k r).lun = d.lun := rfl
@[simp] theorem Device.setReport_fl0 (d : Device) (c : ChannelId) (k : RequestKind) (r : Report) :
    (d.setReport c k r).fl0 = d.fl0 := rfl
@[simp] theorem Device.setReport_fl1 (d : Device) (c : ChannelId) (k : RequestKind) (r : Report) :
    (d.setReport c k r).fl1 = d.fl1 := rfl
@[simp] theorem Device.setReport_capture (d : Device) (c : ChannelId) (k : RequestKind) (r : Report) :
    (d.setReport c k r).capture = d.capture := rfl
@[simp] theorem Device.setReport_freeIndex (d : Device) (c : ChannelId) (k : RequestKind) (r : Report) :
    (d.setReport c k r).freeIndex = d.freeIndex := rfl

/-! ### `showStatus` -/

@[simp] theorem Device.showStatus_refCount (d : Device) (l : List Nat) :
    (d.showStatus l).refCount = d.refCount := rfl
@[simp] theorem Device.showStatus_powerOn (d : Device) (l : List Nat) :
    (d.showStatus l).powerOn = d.powerOn := rfl
@[simp] theorem Device.showStatus_resetLow (d : Device) (l : List Nat) :
    (d.showStatus l).resetLow = d.resetLow := rfl
@[simp] theorem Device.showStatus_cmd (d : Device) (l : List Nat) :
    (d.showStatus l).cmd = d.cmd := rfl
@[simp] theorem Device.showStatus_setupErrorCode (d : Device) (l : List Nat) :
    (d.showStatus l).setupErrorCode = d.setupErrorCode := rfl
@[simp] theorem Device.showStatus_setupErrorChannel (d : Device) (l : List Nat) :
    (d.showStatus l).setupErrorChannel = d.setupErrorChannel := rfl
@[simp] theorem Device.showStatus_lockRun (d : Device) (l : List Nat) :
    (d.showStatus l).lockRun = d.lockRun := rfl
@[simp] theorem Device.showStatus_setup (d : Device) (l : List Nat) :
    (d.showStatus l).setup = d.setup := rfl
@[simp] theorem Device.showStatus_notice (d : Device) (l : List Nat) :
    (d.showStatus l).notice = d.notice := rfl
@[simp] theorem Device.showStatus_noticeEn (d : Device) (l : List Nat) :
    (d.showStatus l).noticeEn = d.noticeEn := rfl
@[simp] theorem Device.showStatus_outputsDriven (d : Device) (l : List Nat) :
    (d.showStatus l).outputsDriven = d.outputsDriven := rfl
@[simp] theorem Device.showStatus_flt0 (d : Device) (l : List Nat) :
    (d.showStatus l).flt0 = d.flt0 := rfl
@[simp] theorem Device.showStatus_flt1 (d : Device) (l : List Nat) :
    (d.showStatus l).flt1 = d.flt1 := rfl
@[simp] theorem Device.showStatus_hall (d : Device) (l : List Nat) :
    (d.showStatus l).hall = d.hall := rfl
@[simp] theorem Device.showStatus_channels (d : Device) (l : List Nat) :
    (d.showStatus l).channels = d.channels := rfl
@[simp] theorem Device.showStatus_requests (d : Device) (l : List Nat) :
    (d.showStatus l).requests = d.requests := rfl
@[simp] theorem Device.showStatus_cva (d : Device) (l : List Nat) :
    (d.showStatus l).cva = d.cva := rfl
@[simp] theorem Device.showStatus_cvb (d : Device) (l : List Nat) :
    (d.showStatus l).cvb = d.cvb := rfl
@[simp] theorem Device.showStatus_hal (d : Device) (l : List Nat) :
    (d.showStatus l).hal = d.hal := rfl
@[simp] theorem Device.showStatus_lov (d : Device) (l : List Nat) :
    (d.showStatus l).lov = d.lov := rfl
@[simp] theorem Device.showStatus_lun (d : Device) (l : List Nat) :
    (d.showStatus l).lun = d.lun := rfl
@[simp] theorem Device.showStatus_fl0 (d : Device) (l : List Nat) :
    (d.showStatus l).fl0 = d.fl0 := rfl
@[simp] theorem Device.showStatus_fl1 (d : Device) (l : List Nat) :
    (d.showStatus l).fl1 = d.fl1 := rfl
@[simp] theorem Device.showStatus_capture (d : Device) (l : List Nat) :
    (d.showStatus l).capture = d.capture := rfl
@[simp] theorem Device.showStatus_freeIndex (d : Device) (l : List Nat) :
    (d.showStatus l).freeIndex = d.freeIndex := rfl

/-! ### `publish` -/

@[simp] theorem publish_refCount (old new : Device) : (publish old new).refCount = new.refCount := rfl
@[simp] theorem publish_powerOn (old new : Device) : (publish old new).powerOn = new.powerOn := rfl
@[simp] theorem publish_resetLow (old new : Device) : (publish old new).resetLow = new.resetLow := rfl
@[simp] theorem publish_cmd (old new : Device) : (publish old new).cmd = new.cmd := rfl
@[simp] theorem publish_setupErrorCode (old new : Device) : (publish old new).setupErrorCode = new.setupErrorCode := rfl
@[simp] theorem publish_setupErrorChannel (old new : Device) : (publish old new).setupErrorChannel = new.setupErrorChannel := rfl
@[simp] theorem publish_lockRun (old new : Device) : (publish old new).lockRun = new.lockRun := rfl
@[simp] theorem publish_setup (old new : Device) : (publish old new).setup = new.setup := rfl
@[simp] theorem publish_notice (old new : Device) : (publish old new).notice = new.notice := rfl
@[simp] theorem publish_noticeEn (old new : Device) : (publish old new).noticeEn = new.noticeEn := rfl
@[simp] theorem publish_outputsDriven (old new : Device) : (publish old new).outputsDriven = new.outputsDriven := rfl
@[simp] theorem publish_flt0 (old new : Device) : (publish old new).flt0 = new.flt0 := rfl
@[simp] theorem publish_flt1 (old new : Device) : (publish old new).flt1 = new.flt1 := rfl
@[simp] theorem publish_hall (old new : Device) : (publish old new).hall = new.hall := rfl
@[simp] theorem publish_channels (old new : Device) : (publish old new).channels = new.channels := rfl
@[simp] theorem publish_requests (old new : Device) : (publish old new).requests = new.requests := rfl
@[simp] theorem publish_cva (old new : Device) : (publish old new).cva = new.cva := rfl
@[simp] theorem publish_cvb (old new : Device) : (publish old new).cvb = new.cvb := rfl
@[simp] theorem publish_hal (old new : Device) : (publish old new).hal = new.hal := rfl
@[simp] theorem publish_lov (old new : Device) : (publish old new).lov = new.lov := rfl
@[simp] theorem publish_lun (old new : Device) : (publish old new).lun = new.lun := rfl
@[simp] theorem publish_fl0 (old new : Device) : (publish old new).fl0 = new.fl0 := rfl
@[simp] theorem publish_fl1 (old new : Device) : (publish old new).fl1 = new.fl1 := rfl
@[simp] theorem publish_capture (old new : Device) : (publish old new).capture = new.capture := rfl
@[simp] theorem publish_freeIndex (old new : Device) : (publish old new).freeIndex = new.freeIndex := rfl

/-! ### `advanceBy` and `advanceTo` -/

/-- Time changes the reference count, the Hall timer's measures and the model's counter, and nothing else. -/
theorem Device.advanceBy_eq (n : Nat) (d : Device) :
    d.advanceBy n = { d with refCount := (d.advanceBy n).refCount, hall := (d.advanceBy n).hall,
                             freeIndex := (d.advanceBy n).freeIndex } := by
  unfold Device.advanceBy; split <;> rfl

theorem Device.advanceTo_eq (t : RefCount) (d : Device) :
    d.advanceTo t = { d with refCount := (d.advanceTo t).refCount, hall := (d.advanceTo t).hall,
                             freeIndex := (d.advanceTo t).freeIndex } := by
  unfold Device.advanceTo; split
  · exact Device.advanceBy_eq _ _
  · rfl

@[simp] theorem Device.advanceBy_powerOn (n : Nat) (d : Device) : (d.advanceBy n).powerOn = d.powerOn := by
  rw [Device.advanceBy_eq]
@[simp] theorem Device.advanceBy_resetLow (n : Nat) (d : Device) : (d.advanceBy n).resetLow = d.resetLow := by
  rw [Device.advanceBy_eq]
@[simp] theorem Device.advanceBy_statusWrite (n : Nat) (d : Device) : (d.advanceBy n).statusWrite = d.statusWrite := by
  rw [Device.advanceBy_eq]
@[simp] theorem Device.advanceBy_cmd (n : Nat) (d : Device) : (d.advanceBy n).cmd = d.cmd := by
  rw [Device.advanceBy_eq]
@[simp] theorem Device.advanceBy_setupErrorCode (n : Nat) (d : Device) : (d.advanceBy n).setupErrorCode = d.setupErrorCode := by
  rw [Device.advanceBy_eq]
@[simp] theorem Device.advanceBy_setupErrorChannel (n : Nat) (d : Device) : (d.advanceBy n).setupErrorChannel = d.setupErrorChannel := by
  rw [Device.advanceBy_eq]
@[simp] theorem Device.advanceBy_lockRun (n : Nat) (d : Device) : (d.advanceBy n).lockRun = d.lockRun := by
  rw [Device.advanceBy_eq]
@[simp] theorem Device.advanceBy_setup (n : Nat) (d : Device) : (d.advanceBy n).setup = d.setup := by
  rw [Device.advanceBy_eq]
@[simp] theorem Device.advanceBy_notice (n : Nat) (d : Device) : (d.advanceBy n).notice = d.notice := by
  rw [Device.advanceBy_eq]
@[simp] theorem Device.advanceBy_noticeEn (n : Nat) (d : Device) : (d.advanceBy n).noticeEn = d.noticeEn := by
  rw [Device.advanceBy_eq]
@[simp] theorem Device.advanceBy_ram (n : Nat) (d : Device) : (d.advanceBy n).ram = d.ram := by
  rw [Device.advanceBy_eq]
@[simp] theorem Device.advanceBy_outputsDriven (n : Nat) (d : Device) : (d.advanceBy n).outputsDriven = d.outputsDriven := by
  rw [Device.advanceBy_eq]
@[simp] theorem Device.advanceBy_flt0 (n : Nat) (d : Device) : (d.advanceBy n).flt0 = d.flt0 := by
  rw [Device.advanceBy_eq]
@[simp] theorem Device.advanceBy_flt1 (n : Nat) (d : Device) : (d.advanceBy n).flt1 = d.flt1 := by
  rw [Device.advanceBy_eq]
@[simp] theorem Device.advanceBy_channels (n : Nat) (d : Device) : (d.advanceBy n).channels = d.channels := by
  rw [Device.advanceBy_eq]
@[simp] theorem Device.advanceBy_requests (n : Nat) (d : Device) : (d.advanceBy n).requests = d.requests := by
  rw [Device.advanceBy_eq]
@[simp] theorem Device.advanceBy_cva (n : Nat) (d : Device) : (d.advanceBy n).cva = d.cva := by
  rw [Device.advanceBy_eq]
@[simp] theorem Device.advanceBy_cvb (n : Nat) (d : Device) : (d.advanceBy n).cvb = d.cvb := by
  rw [Device.advanceBy_eq]
@[simp] theorem Device.advanceBy_hal (n : Nat) (d : Device) : (d.advanceBy n).hal = d.hal := by
  rw [Device.advanceBy_eq]
@[simp] theorem Device.advanceBy_lov (n : Nat) (d : Device) : (d.advanceBy n).lov = d.lov := by
  rw [Device.advanceBy_eq]
@[simp] theorem Device.advanceBy_lun (n : Nat) (d : Device) : (d.advanceBy n).lun = d.lun := by
  rw [Device.advanceBy_eq]
@[simp] theorem Device.advanceBy_fl0 (n : Nat) (d : Device) : (d.advanceBy n).fl0 = d.fl0 := by
  rw [Device.advanceBy_eq]
@[simp] theorem Device.advanceBy_fl1 (n : Nat) (d : Device) : (d.advanceBy n).fl1 = d.fl1 := by
  rw [Device.advanceBy_eq]
@[simp] theorem Device.advanceBy_capture (n : Nat) (d : Device) : (d.advanceBy n).capture = d.capture := by
  rw [Device.advanceBy_eq]

@[simp] theorem Device.advanceTo_powerOn (t : RefCount) (d : Device) : (d.advanceTo t).powerOn = d.powerOn := by
  rw [Device.advanceTo_eq]
@[simp] theorem Device.advanceTo_resetLow (t : RefCount) (d : Device) : (d.advanceTo t).resetLow = d.resetLow := by
  rw [Device.advanceTo_eq]
@[simp] theorem Device.advanceTo_statusWrite (t : RefCount) (d : Device) : (d.advanceTo t).statusWrite = d.statusWrite := by
  rw [Device.advanceTo_eq]
@[simp] theorem Device.advanceTo_cmd (t : RefCount) (d : Device) : (d.advanceTo t).cmd = d.cmd := by
  rw [Device.advanceTo_eq]
@[simp] theorem Device.advanceTo_setupErrorCode (t : RefCount) (d : Device) : (d.advanceTo t).setupErrorCode = d.setupErrorCode := by
  rw [Device.advanceTo_eq]
@[simp] theorem Device.advanceTo_setupErrorChannel (t : RefCount) (d : Device) : (d.advanceTo t).setupErrorChannel = d.setupErrorChannel := by
  rw [Device.advanceTo_eq]
@[simp] theorem Device.advanceTo_lockRun (t : RefCount) (d : Device) : (d.advanceTo t).lockRun = d.lockRun := by
  rw [Device.advanceTo_eq]
@[simp] theorem Device.advanceTo_setup (t : RefCount) (d : Device) : (d.advanceTo t).setup = d.setup := by
  rw [Device.advanceTo_eq]
@[simp] theorem Device.advanceTo_notice (t : RefCount) (d : Device) : (d.advanceTo t).notice = d.notice := by
  rw [Device.advanceTo_eq]
@[simp] theorem Device.advanceTo_noticeEn (t : RefCount) (d : Device) : (d.advanceTo t).noticeEn = d.noticeEn := by
  rw [Device.advanceTo_eq]
@[simp] theorem Device.advanceTo_ram (t : RefCount) (d : Device) : (d.advanceTo t).ram = d.ram := by
  rw [Device.advanceTo_eq]
@[simp] theorem Device.advanceTo_outputsDriven (t : RefCount) (d : Device) : (d.advanceTo t).outputsDriven = d.outputsDriven := by
  rw [Device.advanceTo_eq]
@[simp] theorem Device.advanceTo_flt0 (t : RefCount) (d : Device) : (d.advanceTo t).flt0 = d.flt0 := by
  rw [Device.advanceTo_eq]
@[simp] theorem Device.advanceTo_flt1 (t : RefCount) (d : Device) : (d.advanceTo t).flt1 = d.flt1 := by
  rw [Device.advanceTo_eq]
@[simp] theorem Device.advanceTo_channels (t : RefCount) (d : Device) : (d.advanceTo t).channels = d.channels := by
  rw [Device.advanceTo_eq]
@[simp] theorem Device.advanceTo_requests (t : RefCount) (d : Device) : (d.advanceTo t).requests = d.requests := by
  rw [Device.advanceTo_eq]
@[simp] theorem Device.advanceTo_cva (t : RefCount) (d : Device) : (d.advanceTo t).cva = d.cva := by
  rw [Device.advanceTo_eq]
@[simp] theorem Device.advanceTo_cvb (t : RefCount) (d : Device) : (d.advanceTo t).cvb = d.cvb := by
  rw [Device.advanceTo_eq]
@[simp] theorem Device.advanceTo_hal (t : RefCount) (d : Device) : (d.advanceTo t).hal = d.hal := by
  rw [Device.advanceTo_eq]
@[simp] theorem Device.advanceTo_lov (t : RefCount) (d : Device) : (d.advanceTo t).lov = d.lov := by
  rw [Device.advanceTo_eq]
@[simp] theorem Device.advanceTo_lun (t : RefCount) (d : Device) : (d.advanceTo t).lun = d.lun := by
  rw [Device.advanceTo_eq]
@[simp] theorem Device.advanceTo_fl0 (t : RefCount) (d : Device) : (d.advanceTo t).fl0 = d.fl0 := by
  rw [Device.advanceTo_eq]
@[simp] theorem Device.advanceTo_fl1 (t : RefCount) (d : Device) : (d.advanceTo t).fl1 = d.fl1 := by
  rw [Device.advanceTo_eq]
@[simp] theorem Device.advanceTo_capture (t : RefCount) (d : Device) : (d.advanceTo t).capture = d.capture := by
  rw [Device.advanceTo_eq]

/-! ### Channels after an update -/

@[simp] theorem Device.chan_setChan_same (d : Device) (c : ChannelId) (x : Channel) : (d.setChan c x).chan c = x :=
  PerChannel.get_set_same _ _ _

theorem Device.chan_setChan (d : Device) (c c' : ChannelId) (x : Channel) :
    (d.setChan c x).chan c' = if c' = c then x else d.chan c' := PerChannel.get_set _ _ _ _

@[simp] theorem Device.chan_modChan_same (d : Device) (c : ChannelId) (f : Channel → Channel) :
    (d.modChan c f).chan c = f (d.chan c) := PerChannel.get_set_same _ _ _

theorem Device.chan_modChan (d : Device) (c c' : ChannelId) (f : Channel → Channel) :
    (d.modChan c f).chan c' = if c' = c then f (d.chan c) else d.chan c' := PerChannel.get_set _ _ _ _

@[simp] theorem Device.chan_modChan_other (d : Device) {c c' : ChannelId} (f : Channel → Channel) (h : c' ≠ c) :
    (d.modChan c f).chan c' = d.chan c' := by rw [Device.chan_modChan, if_neg h]

/-- Two parts with the same channels have the same channel each. -/
theorem Device.chan_congr {d e : Device} (h : d.channels = e.channels) (c : ChannelId) : d.chan c = e.chan c := by
  unfold Device.chan; rw [h]

@[simp] theorem Device.chan_setNotice (d : Device) (bit : Nat) (c : ChannelId) :
    (d.setNotice bit).chan c = d.chan c := rfl

@[simp] theorem Device.chan_showStatus (d : Device) (l : List Nat) (c : ChannelId) :
    (d.showStatus l).chan c = d.chan c := rfl

@[simp] theorem chan_publish (old new : Device) (c : ChannelId) : (publish old new).chan c = new.chan c := rfl

@[simp] theorem Device.chan_advanceBy (n : Nat) (d : Device) (c : ChannelId) : (d.advanceBy n).chan c = d.chan c :=
  Device.chan_congr (by simp) c

@[simp] theorem Device.chan_advanceTo (t : RefCount) (d : Device) (c : ChannelId) :
    (d.advanceTo t).chan c = d.chan c := Device.chan_congr (by simp) c

/-! ### Settings follow the setup copy -/

theorem Device.words_congr {d e : Device} (h : d.setup = e.setup) : d.words = e.words := by
  unfold Device.words; rw [h]

theorem Device.cfg_congr {d e : Device} (h : d.setup = e.setup) (c : ChannelId) : d.cfg c = e.cfg c := by
  unfold Device.cfg; rw [Device.words_congr h]

theorem Device.locked_congr {d e : Device} (h : d.setup = e.setup) : d.locked = e.locked := by
  unfold Device.locked; rw [h]

/-! ### Running a change of the part -/

@[simp] theorem State.run_eq (f : Device → Device) (s : State) :
    s.run f = .next { s with toDevice := f s.toDevice } := rfl

@[simp] theorem State.apply_eq (f : Device → Device) (s : State) :
    s.apply f = .next { s with toDevice := publish s.toDevice (f s.toDevice) } := rfl

end Sys2Proof.Machine
end

