-- ==== Sys2Proof/Laws/Memory.lean ====
section
/-! SUPPORT. The exchange RAM: every operation keeps the canonical form, and what each word reads after a write, after
the status words are shown and after `publish`. -/

namespace Sys2Proof.Machine

open Sys2Proof

/-! ### The canonical form -/

theorem Memory.wfFrom_cons {low k : Nat} {v : Word} {rest : Memory} :
    Memory.wfFrom low ((k, v) :: rest) = true ↔ low ≤ k ∧ v ≠ 0 ∧ Memory.wfFrom (k + 1) rest = true := by
  rw [Memory.wfFrom, Bool.and_eq_true, Bool.and_eq_true, decide_eq_true_eq, bne_iff_ne, and_assoc]

theorem Memory.wfFrom_mono {low low' : Nat} {m : Memory} (h : low' ≤ low) (hm : Memory.wfFrom low m = true) :
    Memory.wfFrom low' m = true := by
  cases m with
  | nil => rfl
  | cons p rest =>
    rw [Memory.wfFrom_cons] at hm ⊢
    exact ⟨by omega, hm.2⟩

theorem Memory.wfFrom_write {low a : Nat} {v : Word} {m : Memory} (h : Memory.wfFrom low m = true) (ha : low ≤ a) :
    Memory.wfFrom low (m.write a v) = true := by
  induction m generalizing low with
  | nil =>
    unfold Memory.write
    split
    · rfl
    · exact Memory.wfFrom_cons.2 ⟨ha, ‹_›, rfl⟩
  | cons p rest ih =>
    obtain ⟨k, w⟩ := p
    obtain ⟨h1, h2, h3⟩ := Memory.wfFrom_cons.1 h
    unfold Memory.write
    split
    · split
      · exact h
      · exact Memory.wfFrom_cons.2 ⟨ha, ‹_›, Memory.wfFrom_cons.2 ⟨by omega, h2, h3⟩⟩
    · split
      · subst_vars
        split
        · exact Memory.wfFrom_mono (by omega) h3
        · exact Memory.wfFrom_cons.2 ⟨h1, ‹_›, h3⟩
      · exact Memory.wfFrom_cons.2 ⟨h1, h2, ih h3 (by omega)⟩

/-- A write keeps the canonical form. -/
theorem Memory.wf_write {m : Memory} (h : m.wf = true) (a : Nat) (v : Word) : (m.write a v).wf = true :=
  Memory.wfFrom_write h (Nat.zero_le a)

theorem Memory.wf_writeSome {m : Memory} (h : m.wf = true) (here : Nat → Bool) (a : Nat) (l : List Word) :
    (m.writeSome here a l).wf = true := by
  induction l generalizing m a with
  | nil => exact h
  | cons v rest ih =>
    unfold Memory.writeSome
    split
    · exact ih (Memory.wf_write h a v) (a + 1)
    · exact ih h (a + 1)

/-- Writing words at the addresses of a list keeps the canonical form. -/
theorem Memory.wf_foldl_write {m : Memory} (h : m.wf = true) (f : Nat → Word) (l : List Nat) :
    (l.foldl (fun m a => m.write a (f a)) m).wf = true := by
  induction l generalizing m with
  | nil => exact h
  | cons a rest ih => exact ih (Memory.wf_write h a (f a))

/-! ### Reads after writes -/

theorem Memory.read_of_lt {low : Nat} {m : Memory} (h : Memory.wfFrom low m = true) {a : Nat} (ha : a < low) :
    m.read a = 0 := by
  induction m generalizing low with
  | nil => rfl
  | cons p rest ih =>
    obtain ⟨k, w⟩ := p
    simp only [Memory.wfFrom, Bool.and_eq_true, decide_eq_true_eq] at h
    unfold Memory.read
    rw [if_neg (by omega)]
    exact ih h.2 (by omega)

theorem Memory.read_write_from {low : Nat} {m : Memory} (h : Memory.wfFrom low m = true) (a b : Nat) (v : Word) :
    (m.write a v).read b = if b = a then v else m.read b := by
  induction m generalizing low with
  | nil =>
    unfold Memory.write
    split
    · simp_all [Memory.read]
    · simp only [Memory.read, eq_comm]
  | cons p rest ih =>
    obtain ⟨k, w⟩ := p
    obtain ⟨h1, h2, h3⟩ := Memory.wfFrom_cons.1 h
    have hr : a < k + 1 → Memory.read rest a = 0 := Memory.read_of_lt h3
    rcases Nat.lt_trichotomy a k with hlt | heq | hgt
    · by_cases hv : v = 0 <;> by_cases hb : b = a <;> simp only [Memory.write, if_pos hlt, hv, hb, if_true, if_false,
        Memory.read, if_neg (show ¬k = a by omega), hr (by omega)]
      rw [if_neg (Ne.symm hb)]
    · subst heq
      by_cases hb : b = a
      · by_cases hv : v = 0#16 <;> simp [Memory.write, hv, hb, Memory.read, hr]
      · by_cases hv : v = 0#16 <;> simp [Memory.write, hv, hb, Memory.read, Ne.symm hb]
    · simp only [Memory.write, if_neg (show ¬a < k by omega), if_neg (show ¬a = k by omega), Memory.read, ih h3]
      by_cases hk : k = b
      · rw [if_pos hk, if_neg (by omega), if_pos hk]
      · rw [if_neg hk, if_neg hk]

/-- A read after a write: the word written at its address, every other word as before. -/
theorem Memory.read_write {m : Memory} (h : m.wf = true) (a b : Nat) (v : Word) :
    (m.write a v).read b = if b = a then v else m.read b := Memory.read_write_from h a b v

/-- Writing words at the addresses of a list: each of them reads its word, every other word reads as before. -/
theorem Memory.read_foldl_write {m : Memory} (h : m.wf = true) (f : Nat → Word) (l : List Nat) (b : Nat) :
    (l.foldl (fun m a => m.write a (f a)) m).read b = if b ∈ l then f b else m.read b := by
  induction l generalizing m with
  | nil => simp
  | cons a rest ih =>
    simp only [List.foldl_cons, ih (Memory.wf_write h a (f a)), Memory.read_write h, List.mem_cons]
    by_cases h1 : b ∈ rest <;> by_cases h2 : b = a <;> simp [h1, h2]

/-- Words written at successive addresses where `here` holds: each of those reads its word, every other as before. -/
theorem Memory.read_writeSome {m : Memory} (h : m.wf = true) (here : Nat → Bool) (a : Nat) (l : List Word) (b : Nat) :
    (m.writeSome here a l).read b =
      if a ≤ b ∧ b < a + l.length ∧ here b = true then l.getD (b - a) 0 else m.read b := by
  induction l generalizing m a with
  | nil => exact (if_neg (by simp; omega)).symm
  | cons v rest ih =>
    rw [Memory.writeSome, ih (by split <;> simp [h, Memory.wf_write])]
    by_cases h1 : b = a
    · subst h1
      rw [if_neg (by omega)]
      by_cases h2 : here b = true <;> simp [h2, Memory.read_write h]
    · have h2 : (if here a then m.write a v else m).read b = m.read b := by
        split
        · rw [Memory.read_write h, if_neg h1]
        · rfl
      rw [h2]
      by_cases h3 : a + 1 ≤ b ∧ b < a + 1 + rest.length ∧ here b = true
      · obtain ⟨j, rfl⟩ : ∃ j, b = a + 1 + j := ⟨b - (a + 1), by omega⟩
        rw [if_pos h3, if_pos ⟨by omega, by simp; omega, h3.2.2⟩]
        simp [show a + 1 + j - (a + 1) = j by omega, show a + 1 + j - a = j + 1 by omega]
      · rw [if_neg h3, if_neg fun h4 => h3 ⟨by omega, by simp at h4; omega, h4.2.2⟩]

/-- Where some words of a writing reach the RAM, a word outside its places reads as before. -/
theorem Memory.read_writeSome_outside {m : Memory} (h : m.wf = true) (here : Nat → Bool) (a : Nat) (l : List Word)
    {b : Nat} (hb : b < a ∨ a + l.length ≤ b) : (m.writeSome here a l).read b = m.read b := by
  rw [Memory.read_writeSome h, if_neg (by omega)]

/-! ### Shown status words -/

/-- The words shown do not depend on the exchange RAM, on the writing of reset values, or on what the status block does
not show. -/
theorem statusWord_congr {d e : Device} (hs : d.setup = e.setup) (hc : d.channels = e.channels) (hh : d.hal = e.hal)
    (h1 : d.lov = e.lov) (h2 : d.lun = e.lun) (h3 : d.fl0 = e.fl0) (h4 : d.fl1 = e.fl1)
    (h5 : d.hall.accepted = e.hall.accepted) (h6 : d.hall.direction = e.hall.direction)
    (h7 : d.hall.interval = e.hall.interval) (h8 : d.hall.snapError = e.hall.snapError) :
    statusWord d = statusWord e := by
  have hw := Device.words_congr hs
  have hchan := Device.chan_congr hc
  have hcond : d.condition = e.condition := by
    funext id; cases id <;> simp [Device.condition, *]
  have hscope : d.inScope = e.inScope := by
    funext id c; cases id <;> simp [Device.inScope, *]
  have hact : d.action = e.action := by
    funext id c; cases id <;> simp [Device.action, Device.cfg, *]
  have hov : d.override = e.override := by
    funext c; simp [Device.override, Device.presentWith, *]
  have hall : ∀ k, hallStatus e.words d.hall k = hallStatus e.words e.hall k := by
    intro k; unfold hallStatus; rw [h5, h6, h7, h8]
  funext a
  simp [statusWord, channelStatus, globalStatus, *]

/-- What a host reads of the RAM after the part writes status words: those words as shown, every other as before. -/
theorem Device.read_showStatus {d : Device} (h : d.ram.wf = true) (l : List Nat) (a : Nat) :
    (d.showStatus l).ram.read a = if a ∈ l then statusWord d a else d.ram.read a :=
  Memory.read_foldl_write h _ l a

theorem Device.wf_showStatus {d : Device} (h : d.ram.wf = true) (l : List Nat) : (d.showStatus l).ram.wf = true :=
  Memory.wf_foldl_write h _ l

theorem mem_changedStatus {old new : Device} {a : Nat} :
    a ∈ changedStatus old new ↔ a ∈ statusAddresses ∧ statusWord old a ≠ statusWord new a := by
  simp [changedStatus]

/-- `publish` writes the status words whose shown value changed and no other word. -/
theorem read_publish {old new : Device} (h : new.ram.wf = true) (a : Nat) :
    (publish old new).ram.read a =
      if a ∈ statusAddresses ∧ statusWord old a ≠ statusWord new a then statusWord new a else new.ram.read a := by
  rw [publish, Device.read_showStatus h]
  simp only [mem_changedStatus]

theorem wf_publish {old new : Device} (h : new.ram.wf = true) : (publish old new).ram.wf = true :=
  Device.wf_showStatus h _

/-- Where no shown value changes, `publish` changes nothing. -/
theorem publish_same {old new : Device} (h : ∀ a ∈ statusAddresses, statusWord old a = statusWord new a) :
    publish old new = new := by
  have hnil : changedStatus old new = [] := by
    simp only [changedStatus, List.filter_eq_nil_iff]
    intro a ha; simp [h a ha]
  have hmap : (new.statusWrite.map fun w => { w with touched := w.touched ++ [] }) = new.statusWrite := by
    cases new.statusWrite <;> simp
  simp only [publish, hnil, Device.showStatus, List.foldl_nil, hmap]

/-- A change of what the status block does not show publishes nothing. -/
theorem publish_hidden {d e : Device} (hs : d.setup = e.setup) (hc : d.channels = e.channels) (hh : d.hal = e.hal)
    (h1 : d.lov = e.lov) (h2 : d.lun = e.lun) (h3 : d.fl0 = e.fl0) (h4 : d.fl1 = e.fl1) (h5 : d.hall = e.hall) :
    publish d e = e :=
  publish_same fun a _ => by rw [statusWord_congr hs hc hh h1 h2 h3 h4 (by rw [h5]) (by rw [h5]) (by rw [h5]) (by rw [h5])]

/-- The words of a part shown do not change with its exchange RAM or with the writing of reset values. -/
@[simp] theorem statusWord_showStatus (d : Device) (l : List Nat) : statusWord (d.showStatus l) = statusWord d :=
  statusWord_congr rfl rfl rfl rfl rfl rfl rfl rfl rfl rfl rfl

@[simp] theorem statusWord_publish (old new : Device) : statusWord (publish old new) = statusWord new :=
  statusWord_showStatus new _

end Sys2Proof.Machine
end

