-- ==== Sys2Proof/Laws/Leads.lean ====
section
/-! SUPPORT. How the shared operations keep the part sound. `Leads d e` says that, from a sound `d`, `e` is sound and
what the lock, the resets and the fault lines hold is as in `d`; one lemma for each shared operation. -/

namespace Sys2Proof.Machine

open Sys2Proof

theorem logCapacity_pos (c : ChannelId) : 0 < logCapacity c := by cases c <;> decide

/-- The place of a record being written is one of its log's. -/
theorem Log.InPlace.within {c : ChannelId} {l : Log} (h : l.InPlace c) {w : LogWrite} (hw : l.writing = some w) :
    w.words.length = 16 ∧ ∃ k, k < logCapacity c ∧ w.place = logBase c + 16 * k :=
  ⟨(h w hw).1, _, Nat.mod_lt _ (logCapacity_pos c), (h w hw).2⟩

/-- What the operations within a command leave: the setup copy, the gate driving, the LOCK and the resets in progress,
the fault filters and their conditions. -/
structure Device.Keeps (d e : Device) : Prop where
  setup : e.setup = d.setup
  outputs : e.outputsDriven = d.outputsDriven
  lockRun : e.lockRun.isSome = d.lockRun.isSome
  powerOn : e.powerOn = d.powerOn
  resetLow : e.resetLow = d.resetLow
  statusWrite : e.statusWrite.isSome = d.statusWrite.isSome
  flt0 : e.flt0 = d.flt0
  flt1 : e.flt1 = d.flt1
  fl0 : e.fl0 = d.fl0
  fl1 : e.fl1 = d.fl1
  /-- a channel that is not OFF stays so -/
  on : ∀ c, (d.chan c).state ≠ .off → (e.chan c).state ≠ .off
  /-- a word of the exchange RAM that is not the part's to write reads as before (R171) -/
  host : ∀ a, ¬ partWord a → e.ram.read a = d.ram.read a

theorem Device.Keeps.refl (d : Device) : d.Keeps d :=
  ⟨rfl, rfl, rfl, rfl, rfl, rfl, rfl, rfl, rfl, rfl, fun _ h => h, fun _ _ => rfl⟩

theorem Device.Keeps.trans {a b c : Device} (h : a.Keeps b) (k : b.Keeps c) : a.Keeps c :=
  ⟨k.1.trans h.1, k.2.trans h.2, k.3.trans h.3, k.4.trans h.4, k.5.trans h.5, k.6.trans h.6, k.7.trans h.7,
   k.8.trans h.8, k.9.trans h.9, k.10.trans h.10, fun c hc => k.on c (h.on c hc),
   fun a ha => (k.host a ha).trans (h.host a ha)⟩

theorem Device.Keeps.faults {d e : Device} (h : d.Keeps e) (hf : d.FaultsFollow) : e.FaultsFollow := by
  unfold Device.FaultsFollow Device.locked at *
  rw [h.setup, h.fl0, h.fl1, h.flt0, h.flt1]; exact hf

/-- From a sound part an operation leads to a sound part and keeps what `Keeps` names. -/
def Device.Leads (d e : Device) : Prop := d.Sound → e.Sound ∧ d.Keeps e

theorem Device.Leads.refl (d : Device) : d.Leads d := fun h => ⟨h, .refl d⟩

theorem Device.Leads.trans {a b c : Device} (h : a.Leads b) (k : b.Leads c) : a.Leads c := fun ha =>
  have hb := h ha
  have hc := k hb.1
  ⟨hc.1, hb.2.trans hc.2⟩

/-- A later operation may use what the earlier one kept of the lock. -/
theorem Device.Leads.andThen {a b c : Device} (h : a.Leads b) (k : b.setup = a.setup → b.Leads c) : a.Leads c :=
  fun ha =>
  have hb := h ha
  have hc := k hb.2.setup hb.1
  ⟨hc.1, hb.2.trans hc.2⟩

theorem Device.Leads.ite {d a b : Device} {p : Prop} [Decidable p] (ha : p → d.Leads a) (hb : ¬p → d.Leads b) :
    d.Leads (if p then a else b) := by
  split
  · exact ha ‹_›
  · exact hb ‹_›

/-! ### Changes of one channel -/

theorem Device.sound_modChan {d : Device} {c : ChannelId} {f : Channel → Channel} (hd : d.Sound)
    (h : (d.chan c).Sound d.setup c → (f (d.chan c)).Sound d.setup c) : (d.modChan c f).Sound := by
  refine { hd with channels := ?_, unlocked := fun hs => { hd.unlocked hs with } }
  intro c'
  rw [Device.chan_modChan]
  split
  · subst_vars; exact h (hd.channels _)
  · exact hd.channels c'

theorem Device.leads_modChan {d : Device} {c : ChannelId} {f : Channel → Channel}
    (h : d.Sound → (d.chan c).Sound d.setup c → (f (d.chan c)).Sound d.setup c)
    (hon : (d.chan c).state ≠ .off → (f (d.chan c)).state ≠ .off := by exact fun h => h) : d.Leads (d.modChan c f) :=
  fun hd => ⟨Device.sound_modChan hd (h hd), { Device.Keeps.refl d with
    on := fun c' hc => by
      rw [Device.chan_modChan]
      split
      · subst_vars; exact hon hc
      · exact hc }⟩

theorem Device.leads_hand (d : Device) (c : ChannelId) (item : LogItem) : d.Leads (d.hand c item) :=
  Device.leads_modChan fun _ h => { h with }

theorem Device.leads_handPlain (d : Device) (c : ChannelId) (code : EventCode) : d.Leads (d.handPlain c code) :=
  d.leads_hand c _

theorem Device.leads_setReport (d : Device) (c : ChannelId) (k : RequestKind) (r : Report) :
    d.Leads (d.setReport c k r) := Device.leads_modChan fun _ h => { h with }

/-! ### Changes outside the channels -/

theorem Device.leads_setNotice (d : Device) (bit : Nat) : d.Leads (d.setNotice bit) := fun h =>
  ⟨{ h with unlocked := fun hs => { h.unlocked hs with } }, { Device.Keeps.refl d with }⟩

/-- Writing words that are the part's to write keeps the rest of the exchange RAM. -/
theorem Device.leads_ram {d : Device} {m : Memory} (h : d.ram.wf = true → m.wf = true)
    (hp : d.ram.wf = true → ∀ a, ¬ partWord a → m.read a = d.ram.read a) :
    d.Leads { d with ram := m } := fun hd =>
  ⟨{ hd with ram := h hd.ram, unlocked := fun hs => { hd.unlocked hs with } },
   { Device.Keeps.refl d with host := hp hd.ram }⟩

theorem Device.leads_showStatus (d : Device) {l : List Nat} (hl : ∀ a ∈ l, partWord a) :
    d.Leads (d.showStatus l) := fun h =>
  ⟨{ h with
      ram := Device.wf_showStatus h.ram l
      unlocked := fun hs => { h.unlocked hs with }
      reset := fun hr => by
        have := h.reset hr
        exact ⟨this.1, this.2.1, by simp [Device.showStatus, this.2.2]⟩ },
   { Device.Keeps.refl d with
      statusWrite := by simp [Device.showStatus]
      host := fun a ha => by
        rw [Device.read_showStatus h.ram, if_neg fun hm => ha (hl a hm)] }⟩

theorem partWord_statusAddresses {a : Nat} (h : a ∈ statusAddresses) : partWord a := by
  simp only [statusAddresses, allChannels, List.mem_append, List.mem_flatMap, List.mem_map, List.mem_range] at h
  left
  obtain ⟨c, _, k, hk, rfl⟩ | ⟨k, hk, rfl⟩ := h
  · cases c <;> simp only [statusBase] <;> omega
  · omega

theorem leads_publish (old new : Device) : new.Leads (publish old new) :=
  new.leads_showStatus fun _ ha => partWord_statusAddresses (mem_changedStatus.1 ha).1

theorem Device.leads_showing {f : Device → Device} {d : Device} (h : d.Leads (f d)) : d.Leads (d.showing f) :=
  h.trans (leads_publish _ _)

theorem HallTimer.Bounded.advance {n : Nat} {h : HallTimer} (hk : h.Bounded) : (h.advance n).Bounded := by
  refine ⟨?_, fun r hr => ?_, hk.2.2⟩
  · show (if h.lastTransition.isSome then advanceMeasure n h.elapsed else h.elapsed) ≤ _
    split
    · exact Nat.min_le_right _ _
    · exact hk.1
  · obtain ⟨r', _, rfl⟩ := Option.map_eq_some_iff.1 hr
    exact Nat.min_le_right _ _

/-- The Hall timer of an unlocked part stands still. -/
theorem HallTimer.advance_reset (n : Nat) (raw : BitVec 3) :
    (HallTimer.reset raw).advance n = HallTimer.reset raw := rfl

theorem Device.leads_advanceBy (n : Nat) (d : Device) : d.Leads (d.advanceBy n) := by
  unfold Device.advanceBy
  split
  · exact fun h => ⟨{ h with unlocked := fun hs => { h.unlocked hs with } }, { Device.Keeps.refl d with }⟩
  · intro h
    have measures := h.hall.advance (n := n)
    have quiet : d.setup = none → d.hall.advance n = HallTimer.reset (d.hall.advance n).raw := fun hs => by
      have hq := (h.unlocked hs).hall
      rw [show d.hall.advance n = d.hall by rw [hq, HallTimer.advance_reset]]; exact hq
    exact ⟨{ h with hall := measures, unlocked := fun hs => { h.unlocked hs with hall := quiet hs } },
      { Device.Keeps.refl d with }⟩

theorem Device.leads_advanceTo (t : RefCount) (d : Device) : d.Leads (d.advanceTo t) :=
  .ite (fun _ => Device.leads_advanceBy _ d) (fun _ => .refl d)

/-- A change of the request list or the converters of a locked part. -/
theorem Device.leads_arbiter {d : Device} (hl : d.setup ≠ none) (r : List Entry) (a b : Option Conversion) :
    d.Leads { d with requests := r, cva := a, cvb := b } := fun h =>
  ⟨{ h with unlocked := fun hs => absurd hs hl }, { Device.Keeps.refl d with }⟩

/-! ### Conditions -/

/-- A condition instance that is not a fault line's. -/
def ConditionId.notFault : ConditionId → Prop
  | .fl0 => False
  | .fl1 => False
  | _ => True

theorem Device.leads_setCondition {d : Device} {id : ConditionId} (hid : id.notFault) (hl : d.setup ≠ none)
    {x : Condition} (hx : x.sane) : d.Leads (d.setCondition id x) := by
  cases id with
  | fl0 => exact hid.elim
  | fl1 => exact hid.elim
  | cur c => exact Device.leads_modChan (f := fun ch => { ch with cur := x }) fun _ h =>
      { h with unlocked := fun hs => absurd hs hl, conditions := ⟨hx, h.conditions.2⟩ }
  | zer c => exact Device.leads_modChan (f := fun ch => { ch with zer := x }) fun _ h =>
      { h with unlocked := fun hs => absurd hs hl, conditions := ⟨h.conditions.1, hx, h.conditions.2.2⟩ }
  | age c => exact Device.leads_modChan (f := fun ch => { ch with age := x }) fun _ h =>
      { h with unlocked := fun hs => absurd hs hl, conditions := ⟨h.conditions.1, h.conditions.2.1, hx⟩ }
  | hal => exact fun h =>
      ⟨{ h with unlocked := fun hs => absurd hs hl, conditions := ⟨hx, h.conditions.2⟩ }, { Device.Keeps.refl d with }⟩
  | lov => exact fun h =>
      ⟨{ h with unlocked := fun hs => absurd hs hl, conditions := ⟨h.conditions.1, hx, h.conditions.2.2⟩ },
       { Device.Keeps.refl d with }⟩
  | lun => exact fun h =>
      ⟨{ h with
          unlocked := fun hs => absurd hs hl
          conditions := ⟨h.conditions.1, h.conditions.2.1, hx, h.conditions.2.2.2⟩ }, { Device.Keeps.refl d with }⟩

theorem Device.condition_sane {d : Device} (h : d.Sound) (id : ConditionId) : (d.condition id).sane := by
  cases id with
  | cur c => exact (h.channels c).conditions.1
  | zer c => exact (h.channels c).conditions.2.1
  | age c => exact (h.channels c).conditions.2.2
  | hal => exact h.conditions.1
  | lov => exact h.conditions.2.1
  | lun => exact h.conditions.2.2.1
  | fl0 => exact h.conditions.2.2.2.1
  | fl1 => exact h.conditions.2.2.2.2

/-- A channel that is not OFF is a channel of a locked part. -/
theorem Device.Sound.locked_of_on {d : Device} (h : d.Sound) {c : ChannelId} (hs : (d.chan c).state ≠ .off) :
    d.setup ≠ none := fun hn => hs ((h.channels c).unlocked hn).1

/-! ### Legs -/

theorem LegState.safe_idle : LegState.idle.safe := by simp [LegState.safe, LegState.idle]

theorem LegState.safe_command {l : LegState} (h : l.safe) (cmd : LegCommand) (t : RefCount) : (l.command cmd t).safe := by
  cases cmd with
  | toHigh =>
    show (if l.high || l.awaits .high then l else _).safe
    split
    · exact h
    · simp [LegState.safe]
  | toLow =>
    show (if l.low || l.awaits .low then l else _).safe
    split
    · exact h
    · simp [LegState.safe]
  | toFloat => exact LegState.safe_idle

/-- A command to low leaves no high gate on and none awaited, on a safe leg. -/
theorem LegState.notHigh_low {l : LegState} (h : l.safe) (t : RefCount) : (l.command .toLow t).notHigh := by
  obtain ⟨hi, lo, p⟩ := l
  cases hi <;> cases lo <;> rcases p with _ | ⟨_ | _, i⟩ <;>
    simp_all [LegState.safe, LegState.command, LegState.notHigh, LegState.awaits]

theorem LegState.safe_turnOn {l : LegState} (h : l.safe) {p : PendingTurnOn} (hp : l.pending = some p) :
    (l.turnOn p.side).safe := by
  have := h.2 (by simp [hp])
  cases hs : p.side <;> simp [LegState.turnOn, LegState.safe, this]

theorem LegState.notHigh_turnOn {l : LegState} (h : l.notHigh) {p : PendingTurnOn} (hp : l.pending = some p) :
    (l.turnOn p.side).notHigh := by
  obtain ⟨h1, h2⟩ := h
  cases hs : p.side <;> simp_all [LegState.turnOn, LegState.notHigh, LegState.awaits]

theorem LegsSound.off {state : ChannelState} {hold : Bool} (legs : PerLeg LegState) (t : RefCount) :
    LegsSound state hold (legs.map (LegState.command .toFloat t)) := by
  intro l
  rw [PerLeg.get_map]
  exact ⟨LegState.safe_idle, fun _ => rfl, fun _ _ => ⟨rfl, rfl⟩⟩

theorem LegsSound.low {hold : Bool} {state' : ChannelState} {hold' : Bool} {legs : PerLeg LegState}
    (h : LegsSound state' hold' legs) (t : RefCount) :
    LegsSound .running hold (legs.map (LegState.command .toLow t)) := by
  intro l
  rw [PerLeg.get_map]
  exact ⟨LegState.safe_command (h l).1 _ _, fun hn => absurd rfl hn, fun _ _ => LegState.notHigh_low (h l).1 t⟩

/-- A command to one leg of a RUNNING channel that is not under the hold. -/
theorem LegsSound.command {state : ChannelState} {hold : Bool} {legs : PerLeg LegState} (h : LegsSound state hold legs)
    (hr : state = .running) (hh : hold = false) (l : Leg) (cmd : LegCommand) (t : RefCount) :
    LegsSound state hold (legs.set l ((legs.get l).command cmd t)) := by
  intro l'
  rw [PerLeg.get_set]
  split
  · exact ⟨LegState.safe_command (h l).1 _ _, fun hn => absurd hr hn, fun _ hb => by simp [hh] at hb⟩
  · exact h l'

/-- Legs that were idle are sound in any state. -/
theorem LegsSound.of_idle {state : ChannelState} {hold : Bool} {legs : PerLeg LegState}
    (h : ∀ l, legs.get l = .idle) : LegsSound state hold legs := fun l => by
  rw [h l]; exact ⟨LegState.safe_idle, fun _ => rfl, fun _ _ => ⟨rfl, rfl⟩⟩

/-- Clearing the BRAKE hold keeps the legs sound. -/
theorem LegsSound.clear {state : ChannelState} {hold : Bool} {legs : PerLeg LegState} (h : LegsSound state hold legs) :
    LegsSound state false legs := fun l => ⟨(h l).1, (h l).2.1, fun _ hb => by simp at hb⟩

end Sys2Proof.Machine
end

