-- ==== Sys2Proof/Laws/LeadsLimits.lean ====
section
/-! SUPPORT. The converter arbiter, the capture unit, the conditions and the fault lines keep the part sound. -/

namespace Sys2Proof.Machine

open Sys2Proof

/-! ### The arbiter -/

theorem Device.startableIn_mem {d : Device} {l : List Entry} {cv : Converter} {e : Entry}
    (h : d.startableIn l = some (cv, e)) : e ∈ l ∧ d.mayStart cv e = true := by
  unfold Device.startableIn at h
  obtain ⟨e', he', hf⟩ := List.exists_of_findSome?_eq_some h
  split at hf
  · obtain ⟨rfl, rfl⟩ : Converter.cva = cv ∧ e' = e := by simpa using hf
    exact ⟨he', ‹_›⟩
  · split at hf
    · obtain ⟨rfl, rfl⟩ : Converter.cvb = cv ∧ e' = e := by simpa using hf
      exact ⟨he', ‹_›⟩
    · simp at hf

theorem Device.mayStart_free {d : Device} {cv : Converter} {e : Entry} (h : d.mayStart cv e = true) :
    d.converter cv = none := by
  simp only [Device.mayStart, Bool.and_eq_true] at h
  exact Option.isNone_iff_eq_none.1 h.1.1.1.1

/-- A part with a request is locked. -/
theorem Device.Sound.locked_of_mem {d : Device} (h : d.Sound) {e : Entry} (he : e ∈ d.requests) : d.setup ≠ none :=
  fun hs => by simp [(h.unlocked hs).requests] at he

theorem Device.leads_requests {d : Device} (hl : d.setup ≠ none) (r : List Entry) :
    d.Leads { d with requests := r } := fun h =>
  ⟨{ h with unlocked := fun hs => absurd hs hl }, { Device.Keeps.refl d with }⟩

theorem Device.leads_setConverter {d : Device} (hl : d.setup ≠ none) (cv : Converter) (x : Option Conversion) :
    d.Leads (d.setConverter cv x) := by
  cases cv <;>
    exact fun h => ⟨{ h with unlocked := fun hs => absurd hs hl }, { Device.Keeps.refl d with }⟩

theorem Device.leads_startEntry {d : Device} (hl : d.setup ≠ none) (cv : Converter) (e : Entry) :
    d.Leads (d.startEntry cv e) :=
  ((Device.leads_requests hl (d.requests.erase e)).trans
    (Device.leads_setConverter (d := { d with requests := d.requests.erase e }) hl cv _)).trans
    (Device.leads_setReport _ _ _ _)

theorem Device.leads_startThis {d : Device} (hl : d.setup ≠ none) (choice : Option (Converter × Entry)) :
    d.Leads (d.startThis choice) := by
  unfold Device.startThis
  split
  · exact Device.leads_startEntry hl _ _
  · exact .refl d

theorem Device.leads_startSecond {d : Device} (hl : d.setup ≠ none) (l : List Entry) : d.Leads (d.startSecond l) := by
  unfold Device.startSecond
  split
  · exact Device.leads_startThis hl _
  · exact Device.leads_startThis hl _

theorem Device.leads_arbitrate (d : Device) : d.Leads d.arbitrate := by
  unfold Device.arbitrate
  refine .ite (fun _ => .refl d) fun _ => ?_
  split
  · rename_i cv e hs
    intro h
    have hl := h.locked_of_mem (Device.startableIn_mem hs).1
    have h1 := Device.leads_startEntry hl cv e h
    have h2 := Device.leads_startSecond (by rw [h1.2.setup]; exact hl) (entriesAfter e d.requests) h1.1
    exact ⟨h2.1, h1.2.trans h2.2⟩
  · exact .refl d

theorem Device.entryOf_mem {d : Device} {c : ChannelId} {k : RequestKind} {e : Entry} (h : d.entryOf c k = some e) :
    e ∈ d.requests := List.mem_of_find?_eq_some h

theorem Device.leads_withdrawOne (c : ChannelId) (k : RequestKind) (d : Device) : d.Leads (d.withdrawOne c k) := by
  refine .ite (fun h => ?_) fun _ => .refl d
  obtain ⟨e, he, _⟩ := List.any_eq_true.1 h
  exact fun hd => ((Device.leads_requests (hd.locked_of_mem he) _).trans (Device.leads_setReport _ _ _ _)) hd

theorem Device.leads_withdrawWindows (c : ChannelId) (d : Device) : d.Leads (d.withdrawWindows c) :=
  (Device.leads_withdrawOne _ _ _).trans (Device.leads_withdrawOne _ _ _)

theorem Device.leads_withdrawAll (c : ChannelId) (d : Device) : d.Leads (d.withdrawAll c) := fun h =>
  ⟨{ h with unlocked := fun hs => { h.unlocked hs with
      requests := by simp [Device.withdrawAll, (h.unlocked hs).requests]
      cva := by simp [Device.withdrawAll, (h.unlocked hs).cva]
      cvb := by simp [Device.withdrawAll, (h.unlocked hs).cvb] } }, { Device.Keeps.refl d with }⟩

theorem EdgeSet.miss_modulus (k : RequestKind) (e : EdgeSet) : (e.miss k).modulus = e.modulus := by
  cases k <;> simp only [EdgeSet.miss] <;> split <;> rfl

theorem Device.leads_missEntry {d : Device} {e : Entry} (he : e ∈ d.requests) : d.Leads (d.missEntry e) := fun h =>
  (((Device.leads_requests (h.locked_of_mem he) _).trans (Device.leads_setReport _ _ _ _)).trans
    (Device.leads_modChan (f := fun ch => { ch with
      inForce := ch.inForce.map (EdgeSet.miss e.kind)
      counters := { ch.counters with missedConversions := ch.counters.missedConversions + 1 } }) fun _ hc =>
      { hc with
        off := fun ho => by
          have := hc.off ho
          simp_all [Channel.Empty]
        on := fun ho => by simpa using hc.on ho
        sets := fun s hs => by
          rcases hs with hs | hs
          · exact hc.sets s (.inl hs)
          · obtain ⟨s', hs', rfl⟩ := Option.map_eq_some_iff.1 hs
            rw [EdgeSet.miss_modulus]; exact hc.sets s' (.inr hs') })) h

theorem Device.leads_entryFallsDue (c : ChannelId) (k : RequestKind) (d : Device) :
    d.Leads (d.entryFallsDue c k) := by
  unfold Device.entryFallsDue
  split
  · exact (Device.leads_advanceTo _ _).trans (Device.leads_arbitrate _)
  · exact .refl d

theorem Device.leads_entryPassesDeadline (c : ChannelId) (k : RequestKind) (d : Device) :
    d.Leads (d.entryPassesDeadline c k) := by
  unfold Device.entryPassesDeadline
  split
  · exact ((Device.leads_advanceTo _ _).trans
      (Device.leads_missEntry (by simpa using Device.entryOf_mem ‹_›))).trans (Device.leads_arbitrate _)
  · exact .refl d

/-! ### The capture unit -/

/-- A change of the working buffer alone. -/
theorem Device.leads_following {d : Device} {b : Option CaptureBuffer}
    (hb : (∀ x, d.capture.following = some x → x.fits) → ∀ x, b = some x → x.fits) :
    d.Leads { d with capture := { d.capture with following := b } } := fun h =>
  ⟨{ h with
      unlocked := fun hs => { h.unlocked hs with }
      capture := { h.capture with following := hb h.capture.following } }, { Device.Keeps.refl d with }⟩

theorem Device.leads_followPeriod (c : ChannelId) (d : Device) : d.Leads (d.followPeriod c) :=
  .ite (fun _ => Device.leads_following fun _ x hx => by
    cases hx; exact ⟨Nat.zero_le _, Nat.zero_le _⟩) fun _ => .refl d

theorem Device.leads_unfollow (c : ChannelId) (d : Device) : d.Leads (d.unfollow c) :=
  .ite (fun _ => Device.leads_following fun _ x hx => by simp at hx) fun _ => .refl d

theorem Device.leads_gather (c : ChannelId) {f : CaptureBuffer → CaptureBuffer} (hf : ∀ b, b.fits → (f b).fits)
    (d : Device) : d.Leads (d.gather c f) :=
  .ite (fun _ => Device.leads_following fun hb x hx => by
    obtain ⟨y, hy, rfl⟩ := Option.map_eq_some_iff.1 hx
    exact hf y (hb y hy)) fun _ => .refl d

theorem CaptureBuffer.fits_addChange (x : ConditionChange) {b : CaptureBuffer} (h : b.fits) : (b.addChange x).fits :=
  ⟨by simp [CaptureBuffer.addChange], h.2⟩

theorem CaptureBuffer.fits_addHall (t : RefCount) (code : BitVec 3) {b : CaptureBuffer} (h : b.fits) :
    (b.addHall t code).fits := by
  unfold CaptureBuffer.addHall
  split
  · refine ⟨h.1, ?_⟩
    simp only [List.length_append, List.length_singleton]
    omega
  · exact h

theorem requestSlot_length (p : ClosedPeriod) (k : RequestKind) : (requestSlot p k).length = 10 := by
  unfold requestSlot
  split
  · rfl
  · simp only; split <;> rfl

theorem padTo_length {n : Nat} {l : List Word} (h : l.length ≤ n) : (padTo n l).length = n := by
  simp [padTo]; omega

/-- A copied period has the 107 words of the capture area from 0x0201 to 0x026B. -/
theorem captureWords_length (clamped : Bool) (p : ClosedPeriod) {b : CaptureBuffer} (h : b.fits) :
    (captureWords clamped p b).length = 107 := by
  have hc : (b.changes.flatMap changeWords).length = 3 * b.changes.length := by
    induction b.changes with
    | nil => rfl
    | cons x rest ih => simp only [List.flatMap_cons, List.length_append, ih, List.length_cons]; simp [changeWords]; omega
  have hh : (b.hall.flatMap transitionWords).length = 3 * b.hall.length := by
    induction b.hall with
    | nil => rfl
    | cons x rest ih =>
      simp only [List.flatMap_cons, List.length_append, ih, List.length_cons]; simp [transitionWords, twoWords]; omega
  have h1 := padTo_length (n := 24) (l := b.changes.flatMap changeWords) (by have := h.1; omega)
  have h2 := padTo_length (n := 12) (l := b.hall.flatMap transitionWords) (by have := h.2; omega)
  simp [captureWords, h1, h2, requestSlot_length, twoWords]

/-- A change of the capture unit of a locked part, with the words it writes. -/
theorem Device.leads_capture {d : Device} {m : Memory} {u : CaptureUnit} (hl : d.setup ≠ none)
    (hm : d.ram.wf = true → m.wf = true ∧ ∀ a, ¬ partWord a → m.read a = d.ram.read a)
    (hu : d.capture.Sound → u.Sound) : d.Leads { d with ram := m, capture := u } := fun h =>
  ⟨{ h with ram := (hm h.ram).1, unlocked := fun hs => absurd hs hl, capture := hu h.capture },
   { Device.Keeps.refl d with host := (hm h.ram).2 }⟩

/-- A change of the capture unit of a locked part that writes no word. -/
theorem Device.leads_captureOnly {d : Device} {u : CaptureUnit} (hl : d.setup ≠ none)
    (hu : d.capture.Sound → u.Sound) : d.Leads { d with capture := u } :=
  Device.leads_capture (m := d.ram) hl (fun h => ⟨h, fun _ _ => rfl⟩) hu

/-- Writing one word that is the part's. -/
theorem Memory.read_write_part {m : Memory} (h : m.wf = true) {k : Nat} (hk : partWord k) (v : Word) {a : Nat}
    (ha : ¬ partWord a) : (m.write k v).read a = m.read a := by
  rw [Memory.read_write h, if_neg]
  rintro rfl; exact ha hk

theorem CaptureUnit.sound_toIdle (u : CaptureUnit) : u.toIdle.Sound :=
  ⟨by simp [CaptureUnit.toIdle], by simp [CaptureUnit.toIdle], by simp [CaptureUnit.toIdle]⟩

theorem CaptureUnit.armedFor_mode {u : CaptureUnit} {c : ChannelId} (h : u.armedFor c = true) : u.mode = .armed := by
  simp [CaptureUnit.armedFor] at h; exact h.1

/-- A unit that is not idle belongs to a locked part. -/
theorem Device.Sound.locked_of_capture {d : Device} (h : d.Sound) (hm : d.capture.mode ≠ .idle) : d.setup ≠ none :=
  fun hs => hm (h.unlocked hs).mode

theorem Device.leads_selectPeriod (c : ChannelId) (p : ClosedPeriod) (d : Device) : d.Leads (d.selectPeriod c p) := by
  unfold Device.selectPeriod
  split
  · rename_i b hb
    split
    · rename_i hm
      have ha : d.capture.mode = .armed := CaptureUnit.armedFor_mode (by simp at hm; exact hm.1)
      intro h
      have hl := h.locked_of_capture (by rw [ha]; decide)
      split
      · refine Device.leads_capture hl (fun hw => ⟨Memory.wf_write hw _ _, fun a hn =>
          Memory.read_write_part hw (.inl (by omega)) _ hn⟩) (fun hc => ⟨by simp, fun k hk => ?_, hc.following⟩) h
        cases hk
        exact captureWords_length _ p (hc.following b hb)
      · exact Device.leads_captureOnly hl (fun hc => { hc with }) h
    · exact .refl d
  · exact .refl d

theorem Device.leads_refuseCapture {d : Device} (hl : d.setup ≠ none) (g : Word) : d.Leads (d.refuseCapture g) :=
  (Device.leads_capture (m := Memory.write (Memory.write d.ram 0x201 2) 0x200 g)
    (u := { d.capture.toIdle with lastServed := g }) hl
    (fun hw => ⟨Memory.wf_write (Memory.wf_write hw _ _) _ _, fun a hn => by
      rw [Memory.read_write_part (Memory.wf_write hw _ _) (.inl (by omega)) _ hn,
        Memory.read_write_part hw (.inl (by omega)) _ hn]⟩)
    (fun _ => { CaptureUnit.sound_toIdle d.capture with })).trans (Device.leads_setNotice _ _)

theorem Device.leads_serveRequest {d : Device} (hl : d.setup ≠ none) (g : Word) : d.Leads (d.serveRequest g) := by
  unfold Device.serveRequest
  simp only
  split
  · exact Device.leads_captureOnly hl fun _ => ⟨by simp, by simp, by simp⟩
  · exact Device.leads_refuseCapture hl g

theorem Device.leads_actOnRequest {d : Device} (hl : d.setup ≠ none) : d.Leads d.actOnRequest := by
  unfold Device.actOnRequest
  simp only
  split
  · exact .refl d
  · exact .ite (fun _ => .refl d) fun _ => Device.leads_serveRequest hl _
  · refine .ite (fun _ => .refl d) fun _ => .ite (fun _ => ?_) fun _ => Device.leads_serveRequest hl _
    exact Device.leads_captureOnly hl fun _ => CaptureUnit.sound_toIdle _

theorem Device.leads_pollRequest (d : Device) : d.Leads d.pollRequest := by
  unfold Device.pollRequest
  split
  · rename_i t ht
    intro h
    have hl : (d.advanceTo t).setup ≠ none := fun hs => by
      rw [Device.advanceTo_setup] at hs; simp [(h.unlocked hs).poll] at ht
    have h1 := Device.leads_advanceTo t d
    simp only
    generalize d.advanceTo t = e at hl h1
    exact (h1.trans ((Device.leads_captureOnly
      (u := { e.capture with nextPoll := some (e.refCount + BitVec.ofNat 32 Config.pollInterval) }) hl
      (fun hc => { hc with })).trans (Device.leads_actOnRequest (d := { e with capture := _ }) hl))) h
  · exact .refl d

theorem Device.leads_endCopy (d : Device) : d.Leads d.endCopy := by
  unfold Device.endCopy
  split
  · rename_i k hk
    intro h
    have hl : d.setup ≠ none := fun hs => by simp [(h.unlocked hs).copy] at hk
    have hn := h.capture.copy k hk
    exact ((Device.leads_capture (m := Memory.write (Memory.writeSome (fun a => !k.kept.contains a) d.ram 0x201 k.words) 0x200 d.capture.generation)
      (u := { d.capture.toIdle with lastServed := d.capture.generation }) hl
      (fun hw => ⟨Memory.wf_write (Memory.wf_writeSome hw _ _ _) _ _, fun a ha => by
        rw [Memory.read_write_part (Memory.wf_writeSome hw _ _ _) (.inl (by omega)) _ ha, Memory.read_writeSome hw,
          if_neg fun hb => ha (.inl (by omega))]⟩)
      (fun _ => { CaptureUnit.sound_toIdle d.capture with })).trans (Device.leads_setNotice _ _)) h
  · exact .refl d

/-! ### What a change of the override or a float does to a channel -/

theorem Device.modChan_modChan (d : Device) (c : ChannelId) (f g : Channel → Channel) :
    (d.modChan c f).modChan c g = d.modChan c fun ch => g (f ch) := by
  simp [Device.modChan, Device.setChan, Device.chan]

/-- The hold is set, and the legs of a RUNNING channel go to low. -/
theorem Device.leads_applyBrake (c : ChannelId) (d : Device) : d.Leads (d.applyBrake c) := by
  refine Device.Leads.trans (b := if ((d.modChan c fun ch => { ch with brakeHold := true }).chan c).state = .running
    then (d.modChan c fun ch => { ch with brakeHold := true }).commandLegs c .toLow
    else d.modChan c fun ch => { ch with brakeHold := true }) ?_ (Device.leads_withdrawWindows _ _)
  rw [Device.chan_modChan_same]
  split
  · rename_i hr
    rw [Device.commandLegs, Device.modChan_modChan]
    refine Device.leads_modChan fun _ h => { h with legs := ?_ }
    show LegsSound (d.chan c).state true _
    rw [show (d.chan c).state = .running from hr]
    exact LegsSound.low h.legs _
  · rename_i hr
    refine Device.leads_modChan fun _ h => { h with legs := fun l => ?_ }
    exact ⟨(h.legs l).1, (h.legs l).2.1, fun hr' => absurd hr' hr⟩

theorem Device.leads_afterRise (c : ChannelId) (before : Override) (d : Device) : d.Leads (d.afterRise c before) :=
  .ite (fun _ => d.leads_applyBrake c) fun _ => .refl d

theorem Channel.Sound.zeroVa {setup : Option (List Word)} {c : ChannelId} {ch : Channel} (h : ch.Sound setup c) :
    ch.zeroVa.Sound setup c :=
  { h with
    off := fun ho => by have := h.off ho; simp_all [Channel.Empty, Channel.zeroVa]
    computation := fun k hk => by
      obtain ⟨k', hk', rfl⟩ := Option.map_eq_some_iff.1 hk
      exact h.computation k' hk'
    ranges := ⟨Nat.zero_le _, h.ranges.2⟩ }

theorem Channel.Sound.dropHold {setup : Option (List Word)} {c : ChannelId} {ch : Channel} (h : ch.Sound setup c) :
    ch.dropHold.Sound setup c := by
  unfold Channel.dropHold
  split
  · exact h
  · exact { h with legs := LegsSound.clear h.legs }

@[simp] theorem Channel.dropHold_state (ch : Channel) : ch.dropHold.state = ch.state := by
  unfold Channel.dropHold; split <;> rfl

@[simp] theorem Channel.zeroVa_state (ch : Channel) : ch.zeroVa.state = ch.state := rfl

theorem Device.leads_afterFall (c : ChannelId) (before : Override) (d : Device) : d.Leads (d.afterFall c before) := by
  unfold Device.afterFall
  refine .ite (fun _ => Device.leads_modChan (fun _ h => ?_) (by split <;> simp)) fun _ => .refl d
  split
  · exact h.zeroVa.dropHold
  · exact h.zeroVa

theorem Device.leads_floatChannel {c : ChannelId} {d : Device} (hr : (d.chan c).state = .running) :
    d.Leads (d.floatChannel c) := by
  unfold Device.floatChannel
  refine Device.Leads.trans ?_ (Device.leads_withdrawWindows _ _)
  rw [Device.commandLegs, Device.modChan_modChan]
  refine Device.leads_modChan (fun hd h => { h with legs := ?_, latch := ?_, off := ?_, on := ?_, unlocked := ?_, plan := ?_ })
    (by simp)
  · exact LegsSound.off _ _
  · simp
  · intro ho; simp at ho
  · intro _; exact h.on (by rw [hr]; decide)
  · intro hs; exact absurd hs (hd.locked_of_on (c := c) (by rw [hr]; decide))
  · exact ⟨h.plan.1, fun _ => h.plan.2 (by rw [hr]; decide)⟩

/-! ### Assertion and release -/

@[simp] theorem Device.chan_withdrawOne_state (c c' : ChannelId) (k : RequestKind) (d : Device) :
    ((d.withdrawOne c k).chan c').state = (d.chan c').state := by
  unfold Device.withdrawOne
  split
  · simp only [Device.setReport, Device.chan_modChan]
    split
    · subst_vars; rfl
    · rfl
  · rfl

theorem Device.chan_afterRise_state (c : ChannelId) (before : Override) (d : Device) :
    ((d.afterRise c before).chan c).state = (d.chan c).state := by
  unfold Device.afterRise
  split
  · simp only [Device.applyBrake, Device.withdrawWindows, Device.chan_withdrawOne_state, Device.chan_modChan_same]
    split <;> simp [Device.commandLegs]
  · rfl

theorem Device.leads_assertFor (id : ConditionId) (value : Int) (extra : Word) (before : Override) (c : ChannelId)
    (d : Device) : d.Leads (d.assertFor id value extra before c) := by
  unfold Device.assertFor
  simp only
  refine ((Device.leads_afterRise c before d).trans ?_)
  have hst := Device.chan_afterRise_state c before d
  generalize Device.afterRise c before d = d1 at hst
  refine Device.Leads.trans (b := if (d.action id c == .float && (d.chan c).state == .running) = true
    then d1.floatChannel c else d1) ?_ ?_
  · refine .ite (fun hf => Device.leads_floatChannel ?_) fun _ => .refl _
    rw [hst]; simp at hf; exact hf.2
  generalize (if (d.action id c == .float && (d.chan c).state == .running) = true then d1.floatChannel c else d1) = d2
  have h3 := Device.leads_hand d2 c (d2.conditionRecord .conditionAsserted id c value extra)
  generalize d2.hand c (d2.conditionRecord .conditionAsserted id c value extra) = d3 at h3
  refine h3.trans ?_
  have h4 : d3.Leads (if (d.action id c == .float && (d.chan c).state == .running) = true then d3.hand c (.event
      { code := .floated, periodCount := (d3.chan c).periodCount, condition := id.code, value := 0,
        action := Action.float.code, extra := 0, state := .floated }) else d3) :=
    .ite (fun _ => Device.leads_hand d3 c _) fun _ => .refl d3
  refine h4.trans (Device.Leads.trans (b := _) ?_ (Device.leads_gather _ (fun _ hb => CaptureBuffer.fits_addChange _ hb) _))
  exact .ite (fun _ => .refl _) fun _ => Device.leads_setNotice _ _

theorem Device.leads_releaseFor (id : ConditionId) (value : Int) (extra : Word) (before : Override) (c : ChannelId)
    (d : Device) : d.Leads (d.releaseFor id value extra before c) :=
  ((Device.leads_afterFall c before d).trans (Device.leads_hand _ _ _)).trans
    (Device.leads_gather _ (fun _ hb => CaptureBuffer.fits_addChange _ hb) _)

theorem Device.leads_foldl {f : Device → ChannelId → Device} (hf : ∀ (d : Device) (c : ChannelId), d.Leads (f d c)) (l : List ChannelId)
    (d : Device) : d.Leads (l.foldl f d) := by
  induction l generalizing d with
  | nil => exact .refl d
  | cons c rest ih => exact (hf d c).trans (ih _)

theorem Device.leads_assertCondition {d : Device} {id : ConditionId} (hid : id.notFault) (hl : d.setup ≠ none)
    (value : Int) (extra : Word) : d.Leads (d.assertCondition id value extra) := by
  unfold Device.assertCondition
  refine Device.Leads.trans (Device.leads_setCondition
    (x := { asserted := true, count := 0, assertions := (d.condition id).assertions + 1 }) hid hl ⟨Nat.zero_le _, fun _ => rfl⟩) ?_
  refine Device.Leads.trans (Device.leads_foldl (f := fun x c => x.assertFor id value extra (d.override c) c)
    (fun x c => Device.leads_assertFor _ _ _ _ _ _) (d.scope id) _) ?_
  exact .ite (fun _ => Device.leads_setNotice _ _) fun _ => .refl _

theorem Device.leads_releaseCondition {d : Device} {id : ConditionId} (hid : id.notFault) (hl : d.setup ≠ none)
    (value : Int) (extra : Word) : d.Leads (d.releaseCondition id value extra) :=
  (Device.leads_setCondition
    (x := { asserted := false, count := 0, assertions := (d.condition id).assertions }) hid hl
    ⟨Nat.zero_le _, fun _ => rfl⟩).trans
    (Device.leads_foldl (f := fun x c => x.releaseFor id value extra (d.override c) c) (fun _ _ => Device.leads_releaseFor _ _ _ _ _ _) _ _)

theorem Device.leads_evaluateFiltered {d : Device} {id : ConditionId} (hid : id.notFault) (hl : d.setup ≠ none)
    (outside back : Bool) {f : Nat} (hf : f ≤ 15) (value : Int) :
    d.Leads (d.evaluateFiltered id outside back f value) := by
  unfold Device.evaluateFiltered
  simp only
  refine .ite (fun _ => .ite (fun _ => Device.leads_releaseCondition hid hl _ _) fun _ => .refl d) fun ha => ?_
  refine .ite (fun _ => .ite (fun _ => Device.leads_assertCondition hid hl _ _) fun hk => ?_) fun _ => ?_
  · exact Device.leads_setCondition hid hl ⟨by simp only; omega, fun h => absurd h ha⟩
  · exact Device.leads_setCondition hid hl ⟨by simp, fun h => absurd h ha⟩

/-! ### Evaluation -/

theorem bitField_lt (x lo n : Nat) : bitField x lo n < 2 ^ n := Nat.mod_lt _ (Nat.two_pow_pos n)

theorem Device.leads_evaluateCur {d : Device} (hl : d.setup ≠ none) (c : ChannelId) (metric : Option Nat) :
    d.Leads (d.evaluateCur c metric) := by
  unfold Device.evaluateCur
  split
  · exact Device.leads_evaluateFiltered (id := .cur c) trivial hl _ _ (Nat.le_of_lt_succ (bitField_lt _ 0 4)) _
  · exact .refl d

theorem Device.leads_evaluateZer {d : Device} (hl : d.setup ≠ none) (c : ChannelId) (z : ZeroSample) :
    d.Leads (d.evaluateZer c z) :=
  Device.leads_evaluateFiltered (id := .zer c) trivial hl _ _ (Nat.le_of_lt_succ (bitField_lt _ 4 4)) _

theorem Device.leads_evaluateLov {d : Device} (hl : d.setup ≠ none) (code : Nat) : d.Leads (d.evaluateLov code) :=
  Device.leads_evaluateFiltered (id := .lov) trivial hl _ _ (Nat.le_of_lt_succ (bitField_lt _ 0 4)) _

theorem Device.leads_evaluateLun {d : Device} (hl : d.setup ≠ none) (code : Nat) : d.Leads (d.evaluateLun code) :=
  Device.leads_evaluateFiltered (id := .lun) trivial hl _ _ (Nat.le_of_lt_succ (bitField_lt _ 0 4)) _

theorem Device.leads_evaluateAge (c : ChannelId) (d : Device) : d.Leads (d.evaluateAge c) := by
  unfold Device.evaluateAge
  refine .ite (fun ht => ?_) fun _ => .refl d
  intro h
  have hr : (d.chan c).state = .running := by simp [Device.ageTrips] at ht; exact ht.1.1.1.1
  exact Device.leads_assertCondition (id := .age c) trivial (h.locked_of_on (c := c) (by rw [hr]; decide)) _ _ h

theorem Device.leads_releaseAge (c : ChannelId) (generation : Word) (d : Device) :
    d.Leads (d.releaseAge c generation) := by
  unfold Device.releaseAge
  refine .ite (fun ha => ?_) fun _ => .refl d
  intro h
  have hl : d.setup ≠ none := fun hs => by simp [((h.channels c).unlocked hs).2.2.2] at ha
  exact Device.leads_releaseCondition (id := .age c) trivial hl _ _ h

theorem Device.leads_evaluateHal (code : BitVec 3) (d : Device) : d.Leads (d.evaluateHal code) := by
  unfold Device.evaluateHal
  refine .ite (fun _ => .refl d) fun hs => ?_
  intro h
  have hl := h.locked_of_on hs
  revert h
  show d.Leads _
  split
  · exact .ite (fun _ => .refl d) fun _ => Device.leads_assertCondition (id := .hal) trivial hl _ _
  · exact .ite (fun _ => Device.leads_releaseCondition (id := .hal) trivial hl _ _) fun _ => .refl d

theorem Device.leads_clearOwnConditions (c : ChannelId) (d : Device) : d.Leads (d.clearOwnConditions c) := by
  unfold Device.clearOwnConditions
  simp only
  refine Device.Leads.trans (Device.leads_modChan (c := c) (f := fun ch => { ch with
      cur := { ch.cur with asserted := false, count := 0 }
      zer := { ch.zer with asserted := false, count := 0 }
      age := { ch.age with asserted := false, count := 0 } }) fun _ h =>
    { h with
      unlocked := fun hs => ⟨(h.unlocked hs).1, rfl, rfl, rfl⟩
      conditions := ⟨⟨Nat.zero_le _, fun _ => rfl⟩, ⟨Nat.zero_le _, fun _ => rfl⟩, Nat.zero_le _, fun _ => rfl⟩ }) ?_
  generalize d.modChan c _ = e
  refine .ite (fun _ => ?_) fun _ => .refl e
  exact fun h => ⟨{ h with
      unlocked := fun hs => { h.unlocked hs with hal := rfl }
      conditions := ⟨⟨Nat.zero_le _, fun _ => rfl⟩, h.conditions.2⟩ }, { Device.Keeps.refl e with }⟩

end Sys2Proof.Machine
end

