-- ==== Sys2Proof/Laws/HandsOut.lean ====
section
/-! SUPPORT. What the arbiter's hand-out may change, once: `Device.handsOut_arbitrate`. -/

namespace Sys2Proof.Machine

open Sys2Proof

/-! ### One start -/

theorem Device.converter_startEntry (d : Device) (cv cv' : Converter) (e : Entry) :
    (d.startEntry cv e).converter cv' =
      if cv' = cv then some { entry := e, start := d.refCount, discard := false } else d.converter cv' := by
  cases cv <;> cases cv' <;> rfl

@[simp] theorem Device.startEntry_requests (d : Device) (cv : Converter) (e : Entry) :
    (d.startEntry cv e).requests = d.requests.erase e := by cases cv <;> rfl

@[simp] theorem Device.startEntry_refCount (d : Device) (cv : Converter) (e : Entry) :
    (d.startEntry cv e).refCount = d.refCount := by cases cv <;> rfl

theorem Device.startEntry_rest (d : Device) (cv : Converter) (e : Entry) :
    d.startEntry cv e = { d with
      requests := (d.startEntry cv e).requests, cva := (d.startEntry cv e).cva, cvb := (d.startEntry cv e).cvb,
      channels := (d.startEntry cv e).channels } := by cases cv <;> rfl

theorem Device.chan_setReport (d : Device) (c c' : ChannelId) (k : RequestKind) (r : Report) :
    (d.setReport c k r).chan c' = { d.chan c' with
      buffer := { (d.chan c').buffer with reports := ((d.setReport c k r).chan c').buffer.reports } } := by
  unfold Device.setReport
  rw [Device.chan_modChan]
  split
  · subst_vars; rfl
  · rfl

theorem Device.chan_startEntry (d : Device) (cv : Converter) (e : Entry) (c : ChannelId) :
    (d.startEntry cv e).chan c = { d.chan c with
      buffer := { (d.chan c).buffer with reports := ((d.startEntry cv e).chan c).buffer.reports } } := by
  have h := Device.chan_setReport (Device.setConverter cv (some { entry := e, start := d.refCount, discard := false })
    { d with requests := d.requests.erase e }) e.channel c e.kind (.started cv d.refCount (d.refCount - e.due).toNat none)
  cases cv <;> exact h

/-- What the start of an entry reports. -/
theorem Device.report_startEntry (d : Device) (cv : Converter) (e : Entry) (c : ChannelId) (k : RequestKind) :
    ((d.startEntry cv e).chan c).buffer.reports.get k =
      if c = e.channel ∧ k = e.kind then some (.started cv d.refCount (d.refCount - e.due).toNat none)
      else (d.chan c).buffer.reports.get k := by
  have h : ∀ x : Device, x.chan = d.chan → ((x.setReport e.channel e.kind
      (.started cv d.refCount (d.refCount - e.due).toNat none)).chan c).buffer.reports.get k =
      if c = e.channel ∧ k = e.kind then some (.started cv d.refCount (d.refCount - e.due).toNat none)
      else (d.chan c).buffer.reports.get k := fun x hx => by
    unfold Device.setReport
    rw [Device.chan_modChan, hx]
    split
    · subst_vars; simp [PerKind.get_set]
    · rw [if_neg fun hc => ‹¬_› hc.1]
  cases cv <;> exact h _ rfl

/-- An entry that a converter may start. -/
theorem Device.mayStart_spec {d : Device} {cv : Converter} {e : Entry} (h : d.mayStart cv e = true) :
    d.converter cv = none ∧ d.eligible e = true ∧ later d.refCount e.deadline = false ∧ e.reachable cv = true := by
  simp only [Device.mayStart, Bool.and_eq_true, Bool.not_eq_true'] at h
  exact ⟨Option.isNone_iff_eq_none.1 h.1.1.1.1, h.1.1.1.2, h.1.1.2, h.1.2⟩

theorem Device.startableIn_none {d : Device} {l : List Entry} (h : d.startableIn l = none) {cv : Converter} {x : Entry}
    (hx : x ∈ l) : d.mayStart cv x = false := by
  unfold Device.startableIn at h
  rw [List.findSome?_eq_none_iff] at h
  have := h x hx
  cases hc : d.mayStart cv x with
  | false => rfl
  | true =>
    split at this
    · simp at this
    · cases cv <;> simp_all

/-- A chain of hand-outs before it is known that none is left. -/
structure Device.Hands (d e : Device) : Prop where
  rest : e = { d with requests := e.requests, cva := e.cva, cvb := e.cvb, channels := e.channels }
  channels : ∀ c,
    e.chan c = { d.chan c with buffer := { (d.chan c).buffer with reports := (e.chan c).buffer.reports } }
  busy : ∀ cv k, d.converter cv = some k → e.converter cv = some k
  started : ∀ cv k, d.converter cv = none → e.converter cv = some k →
    k.start = d.refCount ∧ k.discard = false ∧ k.entry ∈ d.requests ∧ k.entry.reachable cv = true ∧
      d.eligible k.entry = true ∧ later d.refCount k.entry.deadline = false
  reported : ∀ cv k, d.converter cv = none → e.converter cv = some k →
    (∀ cv' k', cv' ≠ cv → d.converter cv' = none → e.converter cv' = some k' →
      k'.entry.channel ≠ k.entry.channel ∨ k'.entry.kind ≠ k.entry.kind) →
    (e.chan k.entry.channel).buffer.reports.get k.entry.kind =
      some (.started cv d.refCount (d.refCount - k.entry.due).toNat none)
  unreported : ∀ c kind, (∀ cv k, d.converter cv = none → e.converter cv = some k →
      k.entry.channel ≠ c ∨ k.entry.kind ≠ kind) →
    (e.chan c).buffer.reports.get kind = (d.chan c).buffer.reports.get kind
  listed : e.requests.Sublist d.requests
  left : ∀ x, x ∈ d.requests → x ∉ e.requests →
    ∃ cv k, d.converter cv = none ∧ e.converter cv = some k ∧ k.entry = x

theorem Device.Hands.refl (d : Device) : d.Hands d where
  rest := rfl
  channels := fun _ => rfl
  busy := fun _ _ h => h
  started := fun cv k h1 h2 => by simp [h1] at h2
  reported := fun cv k h1 h2 => by simp [h1] at h2
  unreported := fun _ _ _ => rfl
  listed := List.Sublist.refl _
  left := fun x h1 h2 => absurd h1 h2

theorem Device.Hands.refCount {d e : Device} (h : d.Hands e) : e.refCount = d.refCount := by rw [h.rest]

/-- A converter that is free before a hand-out was free before an earlier one. -/
theorem Device.Hands.free {a b : Device} (h : a.Hands b) {cv : Converter} (hb : b.converter cv = none) :
    a.converter cv = none := by
  cases ha : a.converter cv with
  | none => rfl
  | some x => rw [h.busy cv x ha] at hb; simp at hb

theorem Device.Hands.trans {a b c : Device} (h : a.Hands b) (k : b.Hands c) : a.Hands c where
  rest := by rw [k.rest, h.rest]
  channels := fun x => by rw [k.channels x, h.channels x]
  busy := fun cv x hx => k.busy cv x (h.busy cv x hx)
  started := fun cv x h1 h2 => by
    cases hb : b.converter cv with
    | some y =>
      have := k.busy cv y hb
      rw [h2] at this
      obtain rfl : x = y := by simpa using this
      exact h.started cv x h1 hb
    | none =>
      obtain ⟨p1, p2, p3, p4, p5, p6⟩ := k.started cv x hb h2
      rw [h.refCount] at p1 p6
      refine ⟨p1, p2, h.listed.subset p3, p4, ?_, p6⟩
      unfold Device.eligible at *
      rw [h.refCount] at p5; exact p5
  reported := fun cv x h1 h2 hu => by
    cases hb : b.converter cv with
    | some y =>
      have := k.busy cv y hb
      rw [h2] at this
      obtain rfl : x = y := by simpa using this
      rw [k.unreported _ _ fun cv' y hn hy => hu cv' y (fun hc => by subst hc; simp [hb] at hn) (h.free hn) hy]
      exact h.reported cv x h1 hb fun cv' y hc hn hy => hu cv' y hc hn (k.busy cv' y hy)
    | none =>
      have := k.reported cv x hb h2 fun cv' y hc hn hy => hu cv' y hc (h.free hn) hy
      rwa [h.refCount] at this
  unreported := fun c kind hu => by
    rw [k.unreported c kind fun cv y hn hy => hu cv y (h.free hn) hy]
    exact h.unreported c kind fun cv y hn hy => hu cv y hn (k.busy cv y hy)
  listed := k.listed.trans h.listed
  left := fun x h1 h2 => by
    by_cases hb : x ∈ b.requests
    · obtain ⟨cv, y, q1, q2, q3⟩ := k.left x hb h2
      refine ⟨cv, y, ?_, q2, q3⟩
      cases ha : a.converter cv with
      | none => rfl
      | some z => rw [h.busy cv z ha] at q1; simp at q1
    · obtain ⟨cv, y, q1, q2, q3⟩ := h.left x h1 hb
      exact ⟨cv, y, q1, k.busy cv y q2, q3⟩

theorem Device.hands_startEntry {d : Device} {cv : Converter} {e : Entry} (h : d.mayStart cv e = true)
    (he : e ∈ d.requests) : d.Hands (d.startEntry cv e) := by
  obtain ⟨h1, h2, h3, h4⟩ := Device.mayStart_spec h
  exact {
    rest := d.startEntry_rest cv e
    channels := d.chan_startEntry cv e
    busy := fun cv' k hk => by
      rw [Device.converter_startEntry, if_neg]
      · exact hk
      · rintro rfl; simp [h1] at hk
    started := fun cv' k hn hk => by
      rw [Device.converter_startEntry] at hk
      split at hk
      · subst_vars; cases hk; exact ⟨rfl, rfl, he, h4, h2, h3⟩
      · simp [hn] at hk
    reported := fun cv' k hn hk _ => by
      rw [Device.converter_startEntry] at hk
      split at hk
      · subst_vars; cases hk; rw [Device.report_startEntry, if_pos ⟨rfl, rfl⟩]
      · simp [hn] at hk
    unreported := fun c kind hu => by
      rw [Device.report_startEntry, if_neg]
      rintro ⟨rfl, rfl⟩
      exact (hu cv _ h1 (by rw [Device.converter_startEntry, if_pos rfl])).elim (fun h => h rfl) fun h => h rfl
    listed := by rw [Device.startEntry_requests]; exact List.erase_sublist
    left := fun x hx hn => by
      rw [Device.startEntry_requests] at hn
      have hxe : x = e := by
        refine Classical.byContradiction fun hc => ?_
        exact hn ((List.mem_erase_of_ne hc).2 hx)
      subst hxe
      exact ⟨cv, _, h1, by rw [Device.converter_startEntry, if_pos rfl], rfl⟩ }

theorem Device.hands_startThis {d : Device} {choice : Option (Converter × Entry)}
    (h : ∀ cv e, choice = some (cv, e) → e ∈ d.requests ∧ d.mayStart cv e = true) : d.Hands (d.startThis choice) := by
  unfold Device.startThis
  split
  · have := h _ _ rfl
    exact Device.hands_startEntry this.2 this.1
  · exact .refl d

theorem entriesAfter_sublist (e : Entry) (l : List Entry) : (entriesAfter e l).Sublist l := by
  induction l with
  | nil => exact List.Sublist.refl _
  | cons f rest ih =>
    unfold entriesAfter
    split
    · exact List.sublist_cons_self f rest
    · exact ih.trans (List.sublist_cons_self f rest)

theorem entriesAfter_erase (e : Entry) (l : List Entry) : (entriesAfter e l).Sublist (l.erase e) := by
  induction l with
  | nil => exact List.Sublist.refl _
  | cons f rest ih =>
    unfold entriesAfter
    split
    · subst_vars; simp
    · rw [List.erase_cons_tail (by simpa using ‹_›)]
      exact ih.trans (List.sublist_cons_self f _)

/-- After a start both converters are taken, or no entry is left that one may start. -/
theorem Device.settled_startSecond {d : Device} {cv : Converter} {k : Conversion} (hk : d.converter cv = some k)
    {l : List Entry} (hl : ∀ x ∈ l, x ∈ d.requests) :
    d.Hands (d.startSecond l) ∧ ∀ cv' x, x ∈ (d.startSecond l).requests → (d.startSecond l).mayStart cv' x = false := by
  have full : ∀ cv' e, e ∈ d.requests → d.mayStart cv' e = true →
      d.Hands (d.startEntry cv' e) ∧ ∀ cv'' x, (d.startEntry cv' e).mayStart cv'' x = false := by
    intro cv' e he hm
    have hh := Device.hands_startEntry hm he
    refine ⟨hh, fun cv'' x => ?_⟩
    have hfree := Device.mayStart_free hm
    have hbusy : ((d.startEntry cv' e).converter cv'').isNone = false := by
      rw [Device.converter_startEntry]
      split
      · rfl
      · have : cv'' = cv := by cases cv <;> cases cv' <;> cases cv'' <;> simp_all
        rw [this, hk]; rfl
    simp [Device.mayStart, hbusy]
  unfold Device.startSecond
  split
  · rename_i choice hc
    obtain ⟨cv', e⟩ := choice
    obtain ⟨he, hm⟩ := Device.startableIn_mem hc
    have := full cv' e (hl e he) hm
    exact ⟨this.1, fun cv'' x _ => this.2 cv'' x⟩
  · unfold Device.startThis
    split
    · rename_i cv' e hc
      obtain ⟨he, hm⟩ := Device.startableIn_mem hc
      have := full cv' e he hm
      exact ⟨this.1, fun cv'' x _ => this.2 cv'' x⟩
    · rename_i hc
      exact ⟨.refl d, fun cv' x hx => Device.startableIn_none hc hx⟩

/-- The first entry of a list that a converter may start is the one that is started, on CVA if CVA may start it. -/
theorem Device.startableIn_append {d : Device} {before after : List Entry} {y : Entry} {cv : Converter}
    (hb : ∀ z ∈ before, ∀ cv', d.mayStart cv' z = false) (hm : d.mayStart cv y = true)
    (hc : cv = .cvb → d.mayStart .cva y = false) : d.startableIn (before ++ y :: after) = some (cv, y) := by
  unfold Device.startableIn
  rw [List.findSome?_append, List.findSome?_eq_none_iff.2 fun z hz => by simp [hb z hz], Option.none_or, List.findSome?_cons]
  cases cv with
  | cva => simp [hm]
  | cvb => simp [hm, hc rfl]

theorem Device.startableIn_eq_none {d : Device} {l : List Entry} (h : ∀ x ∈ l, ∀ cv, d.mayStart cv x = false) :
    d.startableIn l = none := List.findSome?_eq_none_iff.2 fun z hz => by simp [h z hz]

theorem entriesAfter_append {before after : List Entry} {y : Entry} (h : y ∉ before) :
    entriesAfter y (before ++ y :: after) = after := by
  induction before with
  | nil => simp [entriesAfter]
  | cons x l ih =>
    simp only [List.mem_cons, not_or] at h
    rw [List.cons_append, entriesAfter, if_neg (Ne.symm h.1), ih h.2]

/-- What the start of an entry leaves the other converter to start. -/
theorem Device.mayStart_startEntry {d : Device} {cv cv' : Converter} (hc : cv' ≠ cv) (y z : Entry) :
    (d.startEntry cv y).mayStart cv' z = { d with requests := d.requests.erase y }.mayStart cv' z := by
  cases cv <;> cases cv' <;> first | exact absurd rfl hc | rfl

theorem Device.mayStart_of_busy {d : Device} {cv : Converter} {k : Conversion} (h : d.converter cv = some k) (z : Entry) :
    d.mayStart cv z = false := by simp [Device.mayStart, h]

/-- A start taken second is the one `SecondStart` says. -/
theorem Device.secondStart_startSecond {d : Device} {cv cv' : Converter} {y : Entry} {before after : List Entry}
    (hc : cv' ≠ cv) (he : d.requests.erase y = before ++ after) :
    d.SecondStart ((d.startEntry cv y).startSecond after) cv' before after := by
  have hstart : (d.startEntry cv y).converter cv = some { entry := y, start := d.refCount, discard := false } := by
    rw [Device.converter_startEntry, if_pos rfl]
  have hmay : ∀ z, (d.startEntry cv y).mayStart cv' z = { d with requests := before ++ after }.mayStart cv' z := fun z => by
    rw [Device.mayStart_startEntry hc, he]
  have hnone : ∀ l : List Entry, (∀ w ∈ l, { d with requests := before ++ after }.mayStart cv' w = false) →
      ∀ w ∈ l, ∀ c, (d.startEntry cv y).mayStart c w = false := fun l hl w hw c => by
    by_cases hcc : c = cv
    · subst hcc; exact Device.mayStart_of_busy hstart w
    · obtain rfl : c = cv' := by cases c <;> cases cv <;> cases cv' <;> simp_all
      rw [hmay]; exact hl w hw
  have hsome : ∀ pre z post, (∀ w ∈ pre, { d with requests := before ++ after }.mayStart cv' w = false) →
      { d with requests := before ++ after }.mayStart cv' z = true →
      (d.startEntry cv y).startableIn (pre ++ z :: post) = some (cv', z) := fun pre z post hp hz =>
    Device.startableIn_append (hnone pre hp) (by rw [hmay]; exact hz) fun h => by
      obtain rfl : cv = .cva := by cases cv <;> simp_all
      exact Device.mayStart_of_busy hstart z
  have hgets : ∀ z, ((d.startEntry cv y).startEntry cv' z).converter cv' =
      some { entry := z, start := d.refCount, discard := false } := fun z => by
    rw [Device.converter_startEntry, if_pos rfl, Device.startEntry_refCount]
  have hlist : (d.startEntry cv y).requests = before ++ after := by rw [Device.startEntry_requests, he]
  refine ⟨fun pre z post hl hp hz => ?_, fun ha => ⟨fun pre z post hl hp hz => ?_, fun hb => ?_⟩⟩
  · rw [Device.startSecond, hl, hsome pre z post hp hz]
    exact hgets z
  · rw [Device.startSecond, Device.startableIn_eq_none (hnone after ha), Device.startable, hlist, hl, List.append_assoc,
      List.cons_append, hsome pre z (post ++ after) hp hz]
    exact hgets z
  · rw [Device.startSecond, Device.startableIn_eq_none (hnone after ha), Device.startable, hlist,
      Device.startableIn_eq_none (hnone _ fun w hw => (List.mem_append.1 hw).elim (hb w) (ha w))]
    rw [Device.startThis, Device.converter_startEntry, if_neg hc]

/-- What `arbitrate` does: the hand-out of R93 and R94. -/
theorem Device.handsOut_arbitrate (d : Device) : d.HandsOut d.arbitrate := by
  have make : ∀ e : Device, d.Hands e → (d.completing = true → e = d) →
      ((∀ cv x, x ∈ d.requests → d.mayStart cv x = false) → e = d) →
      (d.completing = false → ∀ cv before y after, d.requests = before ++ y :: after →
        (∀ z ∈ before, ∀ cv', d.mayStart cv' z = false) → d.mayStart cv y = true →
        (cv = .cvb → d.mayStart .cva y = false) →
        e.converter cv = some { entry := y, start := d.refCount, discard := false } ∧
          ∀ cv', cv' ≠ cv → d.SecondStart e cv' before after) →
      (d.completing = false → ∀ cv x, x ∈ e.requests → e.mayStart cv x = false) → d.HandsOut e :=
    fun e h h1 h2 h3 h4 => { h with waits := h1, idle := h2, order := h3, settled := h4 }
  unfold Device.arbitrate
  split
  · rename_i hc
    exact make d (.refl d) (fun _ => rfl) (fun _ => rfl) (fun hn => by simp [hc] at hn) fun hn => by simp [hc] at hn
  · rename_i hc
    split
    · rename_i cv e hs
      obtain ⟨he, hm⟩ := Device.startableIn_mem hs
      have h1 := Device.hands_startEntry hm he
      have h2 := Device.settled_startSecond (d := d.startEntry cv e) (cv := cv)
        (by rw [Device.converter_startEntry, if_pos rfl]) (l := entriesAfter e d.requests) fun x hx => by
          rw [Device.startEntry_requests]; exact (entriesAfter_erase e d.requests).subset hx
      refine make _ (h1.trans h2.1) (fun hn => absurd hn hc) (fun hn => by simp [hn cv e he] at hm) ?_ fun _ => h2.2
      intro _ cv1 before y after hl hb hy hcv
      have hy' : d.startable = some (cv1, y) := by rw [Device.startable, hl, Device.startableIn_append hb hy hcv]
      obtain ⟨rfl, rfl⟩ : cv = cv1 ∧ e = y := by simpa [hs] using hy'
      have hne : e ∉ before := fun hn => by simp [hb e hn cv] at hm
      have hafter : entriesAfter e d.requests = after := by rw [hl, entriesAfter_append hne]
      have herase : d.requests.erase e = before ++ after := by rw [hl, List.erase_append_right _ hne, List.erase_cons_head]
      rw [hafter] at h2 ⊢
      exact ⟨h2.1.busy cv _ (by rw [Device.converter_startEntry, if_pos rfl]),
        fun cv' hc' => Device.secondStart_startSecond hc' herase⟩
    · rename_i hs
      refine make d (.refl d) (fun hn => absurd hn hc) (fun _ => rfl) ?_ fun _ cv x hx => Device.startableIn_none hs hx
      intro _ cv1 before y after hl hb hy hcv
      have hy' : d.startable = some (cv1, y) := by rw [Device.startable, hl, Device.startableIn_append hb hy hcv]
      simp [hs] at hy'

end Sys2Proof.Machine
end

