-- ==== Sys2Proof/Laws/LeadsEvents.lean ====
section
/-! SUPPORT. The conditioner, the Hall timer, the log writer, the vector unit, placement, the leg stage and the channel
controller keep the part sound. -/

namespace Sys2Proof.Machine

open Sys2Proof

/-! ### The conditioner -/

theorem correctedCode_le (trim raw : Nat) : correctedCode trim raw ≤ 4095 := Nat.min_le_left _ _

theorem trackedZero_le {z8 r : Nat} (hz : z8 ≤ 32767) (hr : r ≤ 4095) : trackedZero z8 r ≤ 32767 := by
  unfold trackedZero; omega

theorem Device.leads_takeZero {d : Device} (hl : d.setup ≠ none) (c : ChannelId) {r : Nat} (hr : r ≤ 4095) :
    d.Leads (d.takeZero c r) := by
  unfold Device.takeZero
  simp only
  generalize (decide ((d.cfg c).zlo ≤ r) && decide (r ≤ (d.cfg c).zhi)) = accepted
  have h1 : d.Leads (d.modChan c fun ch => { ch with
      z8 := if accepted then trackedZero ch.z8 r else ch.z8
      buffer := { ch.buffer with zero := some { accepted := accepted, code := r } } }) := by
    refine Device.leads_modChan fun _ h => ?_
    have hz8 : (if accepted then trackedZero (d.chan c).z8 r else (d.chan c).z8) ≤ 32767 := by
      split
      · exact trackedZero_le h.ranges.2.1 hr
      · exact h.ranges.2.1
    exact { h with ranges := ⟨h.ranges.1, hz8, h.ranges.2.2⟩ }
  exact h1.trans (Device.leads_evaluateZer (d := d.modChan c _) hl c _)

theorem Device.leads_takeLink {d : Device} (hl : d.setup ≠ none) (c : ChannelId) (code : Nat) :
    d.Leads (d.takeLink c code) := by
  unfold Device.takeLink
  simp only
  have h1 : d.Leads (d.modChan c fun ch => { ch with buffer := { ch.buffer with link := some code } }) :=
    Device.leads_modChan fun _ h => { h with }
  have hl1 : (d.modChan c fun ch => { ch with buffer := { ch.buffer with link := some code } }).setup ≠ none := hl
  generalize (d.modChan c fun ch => { ch with buffer := { ch.buffer with link := some code } }) = e at h1 hl1
  have lov {x : Device} (hx : x.setup ≠ none) := Device.leads_showing (Device.leads_evaluateLov hx code)
  have lun {x : Device} (hx : x.setup ≠ none) := Device.leads_showing (Device.leads_evaluateLun hx code)
  exact h1.trans (.ite (fun _ => (lov hl1).andThen fun hs => lun (by rw [hs]; exact hl1))
    fun _ => (lun hl1).andThen fun hs => lov (by rw [hs]; exact hl1))

theorem Device.leads_deliver {d : Device} (hl : d.setup ≠ none) (cv : Converter) (k : Conversion) (raw : Nat) :
    d.Leads (d.deliver cv k raw) := by
  unfold Device.deliver
  simp only
  have hc := correctedCode_le (gainTrim d.words (inputOf k.entry.channel k.entry.kind)) raw
  generalize correctedCode (gainTrim d.words (inputOf k.entry.channel k.entry.kind)) raw = code at hc
  generalize hr : Report.started cv k.start (k.start - k.entry.due).toNat (some (raw, code)) = r
  have h1 := Device.leads_setReport d k.entry.channel k.entry.kind r
  have hl1 : (d.setReport k.entry.channel k.entry.kind r).setup ≠ none := hl
  generalize d.setReport k.entry.channel k.entry.kind r = e at h1 hl1
  refine h1.trans ?_
  split
  · exact Device.leads_modChan fun _ h => { h with }
  · exact Device.leads_modChan fun _ h => { h with }
  · exact Device.leads_takeZero hl1 _ hc
  · exact Device.leads_takeLink hl1 _ _

theorem Device.leads_completeConversion (cv : Converter) (raw : BitVec 12) (d : Device) :
    d.Leads (d.completeConversion cv raw) := by
  unfold Device.completeConversion
  split
  · rename_i k hk
    intro h
    have hl : (d.advanceTo k.completes).setup ≠ none := by
      rw [Device.advanceTo_setup]
      intro hs
      cases cv <;> simp [Device.converter, (h.unlocked hs).cva, (h.unlocked hs).cvb] at hk
    have h1 := Device.leads_advanceTo k.completes d
    simp only
    generalize d.advanceTo k.completes = e at hl h1
    have h2 : e.Leads (e.setConverter cv none) := Device.leads_setConverter hl cv none
    have hl2 : (e.setConverter cv none).setup ≠ none := by cases cv <;> exact hl
    generalize e.setConverter cv none = f at h2 hl2
    refine (h1.trans (h2.trans ?_)) h
    refine .ite (fun _ => Device.leads_arbitrate f) fun _ => ?_
    have h3 := Device.leads_deliver hl2 cv k raw.toNat
    refine .ite (fun _ => h3.trans (Device.leads_arbitrate _)) fun _ => ?_
    refine .ite (fun _ => ?_) fun _ => h3.trans (Device.leads_arbitrate _)
    refine Device.Leads.trans ((Device.leads_arbitrate f).andThen fun hs => ?_) (Device.leads_arbitrate _)
    exact Device.leads_deliver (by rw [hs]; exact hl2) cv k raw.toNat
  · exact .refl d

/-- A channel with a set in force is not OFF. -/
theorem Channel.Sound.on_of_inForce {setup : Option (List Word)} {c : ChannelId} {ch : Channel} (h : ch.Sound setup c)
    {e : EdgeSet} (he : ch.inForce = some e) : ch.state ≠ .off := fun ho => by
  have := (h.off ho).2.1; simp [this] at he

theorem Device.leads_closePeriod (c : ChannelId) (d : Device) : d.Leads (d.closePeriod c) := by
  unfold Device.closePeriod
  split
  · rename_i e he
    intro h
    have hl := h.locked_of_on ((h.channels c).on_of_inForce he)
    simp only
    generalize closedPeriod (d.chan c) e = p
    have h1 : d.Leads (d.modChan c (Channel.countClose p)) := Device.leads_modChan fun _ h => { h with }
    refine (h1.trans (Device.Leads.trans (Device.leads_evaluateCur (by simpa using hl) c p.metric) ?_)) h
    refine Device.Leads.trans ?_ (Device.leads_selectPeriod _ _ _)
    exact .ite (fun _ => Device.leads_hand _ _ _) fun _ => .refl _
  · exact .refl d

/-! ### The Hall timer -/

/-- A change of the Hall timer of a locked part. -/
theorem Device.leads_hall {d : Device} (hl : d.setup ≠ none) {u : HallTimer}
    (hu : d.hall.Bounded → u.Bounded) : d.Leads { d with hall := u } := fun h =>
  ⟨{ h with unlocked := fun hs => absurd hs hl, hall := hu h.hall }, { Device.Keeps.refl d with }⟩

theorem partWord_hallWords : ∀ a ∈ hallWords, partWord a := by
  simp [hallWords, partWord]

theorem Device.leads_acquire {d : Device} (hl : d.setup ≠ none) : d.Leads d.acquire :=
  (((Device.leads_hall (u := d.hall.acquisition (hallSector d.words d.hall.raw)) hl id).trans
    (Device.leads_showStatus _ partWord_hallWords)).trans (Device.leads_evaluateHal _ _))

theorem HallTimer.intervalAt_le (h : HallTimer) (r : HallRun) (he : h.elapsed ≤ Config.measureLimit) :
    h.intervalAt r ≤ 65535 := by
  unfold HallTimer.intervalAt HallTimer.elapsedAt
  unfold Config.measureLimit at *
  split
  · split <;> omega
  · exact Nat.le_refl _

theorem HallTimer.Bounded.transition {h : HallTimer} (hb : h.Bounded) (sector : Option Nat) {r : HallRun}
    (hr : h.run = some r) : (h.transition sector r).Bounded :=
  ⟨hb.2.1 r hr, fun _ hn => by simp [HallTimer.transition] at hn, HallTimer.intervalAt_le h r hb.1⟩

theorem Device.leads_snap {d : Device} (hl : d.setup ≠ none) (dir : Direction) (sector : Nat) (t : RefCount) :
    d.Leads (d.snap dir sector t) := by
  unfold Device.snap
  simp only
  generalize snapError d.words (d.chan .ch0) _ dir sector t = e
  generalize hf : (fun ch : Channel => { ch with
      q := ch.q + BitVec.ofInt 16 (clampInt (-(hallCsnap d.words : Int)) (hallCsnap d.words) e)
      counters := { ch.counters with hallSnaps := ch.counters.hallSnaps + 1 } }) = f
  have h1 : d.Leads (d.modChan .ch0 f) := by
    subst hf; exact Device.leads_modChan fun _ h => { h with }
  have hl1 : (d.modChan .ch0 f).setup ≠ none := hl
  generalize d.modChan .ch0 f = x at h1 hl1
  exact (h1.trans (Device.leads_hall (u := { x.hall with snapError := some e }) hl1 id)).trans
    (Device.leads_showStatus _ (by simp [partWord]))

theorem Device.leads_reportSkip (ref : Option Nat) (code : BitVec 3) (d : Device) : d.Leads (d.reportSkip ref code) := by
  unfold Device.reportSkip
  have h1 : d.Leads (d.modChan .ch0 fun ch =>
      { ch with counters := { ch.counters with hallSkips := ch.counters.hallSkips + 1 } }) :=
    Device.leads_modChan fun _ h => { h with }
  exact (h1.trans (Device.leads_hand _ _ _)).trans (Device.leads_setNotice _ _)

theorem Device.leads_acceptTransition {d : Device} (hl : d.setup ≠ none) {r : HallRun} (hr : d.hall.run = some r) :
    d.Leads (d.acceptTransition r) := by
  unfold Device.acceptTransition
  simp only
  generalize hallSector d.words d.hall.raw = sector
  generalize classify sector d.hall.refSector = dir
  have h1 : d.Leads { d with hall := d.hall.transition sector r } :=
    Device.leads_hall (u := d.hall.transition sector r) hl fun hb => hb.transition sector hr
  have hl1 : ({ d with hall := d.hall.transition sector r } : Device).setup ≠ none := hl
  generalize ({ d with hall := d.hall.transition sector r } : Device) = e at h1 hl1
  have h3 : e.Leads (((e.showStatus hallWords).evaluateHal d.hall.raw).gather .ch0
      (CaptureBuffer.addHall r.first d.hall.raw)) :=
    ((Device.leads_showStatus e partWord_hallWords).trans (Device.leads_evaluateHal _ _)).trans
      (Device.leads_gather _ (fun _ hb => CaptureBuffer.fits_addHall _ _ hb) _)
  generalize ((e.showStatus hallWords).evaluateHal d.hall.raw).gather .ch0
    (CaptureBuffer.addHall r.first d.hall.raw) = f at h3
  refine h1.trans (h3.andThen fun hs => ?_)
  have hl2 : f.setup ≠ none := by rw [hs]; exact hl1
  have h2 : f.Leads (if dir = .skip then f.reportSkip d.hall.refSector d.hall.raw else f) :=
    .ite (fun _ => Device.leads_reportSkip _ _ f) fun _ => .refl f
  refine h2.andThen fun hs2 => ?_
  generalize (if dir = .skip then f.reportSkip d.hall.refSector d.hall.raw else f) = g at hs2
  exact .ite (fun _ => Device.leads_snap (by rw [hs2]; exact hl2) _ _ _) fun _ => .refl g

theorem Device.leads_acceptHall {d : Device} (hl : d.setup ≠ none) : d.Leads d.acceptHall := by
  unfold Device.acceptHall
  split
  · exact Device.leads_acquire hl
  · exact Device.leads_acceptTransition hl ‹_›
  · exact .refl d

theorem Device.leads_acceptAtOnce {d : Device} (hl : d.setup ≠ none) : d.Leads d.acceptAtOnce :=
  .ite (fun _ => Device.leads_acceptHall hl) fun _ => .refl d

theorem Device.leads_beginAcquisition {d : Device} (hl : d.setup ≠ none) : d.Leads d.beginAcquisition :=
  (Device.leads_hall (u := { d.hall with acquiring := some d.refCount }) hl id).trans
    (Device.leads_acceptAtOnce (d := { d with hall := _ }) hl)

theorem Device.leads_filterHall {d : Device} (hl : d.setup ≠ none) : d.Leads d.filterHall := by
  unfold Device.filterHall
  split
  · exact Device.leads_beginAcquisition hl
  · refine .ite (fun _ => Device.leads_hall hl fun hb => ⟨hb.1, fun _ hn => by simp at hn, hb.2.2⟩) fun _ => ?_
    refine (Device.leads_hall (u := { d.hall with run := some (d.hall.runAfter d.refCount) }) hl fun hb => ?_).trans
      (Device.leads_acceptAtOnce (d := { d with hall := _ }) hl)
    refine ⟨hb.1, fun r hr => ?_, hb.2.2⟩
    obtain rfl : d.hall.runAfter d.refCount = r := by simpa using hr
    unfold HallTimer.runAfter
    split
    · exact Nat.zero_le _
    · rename_i r' hr'
      exact hb.2.1 r' hr'

theorem Device.leads_changeHall (code : BitVec 3) (d : Device) : d.Leads (d.changeHall code) := by
  unfold Device.changeHall
  refine .ite (fun _ => .refl d) fun _ => ?_
  have h1 : d.Leads { d with hall := { d.hall with raw := code } } := fun h =>
    ⟨{ h with
        unlocked := fun hs => { h.unlocked hs with
          hall := by
            have := (h.unlocked hs).hall
            simp only [HallTimer.reset, HallTimer.mk.injEq] at this ⊢
            generalize d.hall = u at this
            obtain ⟨⟩ := u
            simp_all } }, { Device.Keeps.refl d with }⟩
  simp only
  refine h1.trans (.ite (fun hl => ?_) fun _ => .refl _)
  have hl' : d.setup ≠ none := fun hs => by simp [Device.locked, hs] at hl
  exact (Device.leads_filterHall (d := { d with hall := { d.hall with raw := code } }) hl').trans
    (Device.leads_arbitrate _)

theorem Device.leads_expireHall (d : Device) : d.Leads d.expireHall := by
  unfold Device.expireHall
  split
  · rename_i t ht
    have hl : (d.advanceTo t).setup ≠ none := by
      rw [Device.advanceTo_setup]
      intro hs
      simp [Device.hallExpiry, Device.locked, hs] at ht
    exact ((Device.leads_advanceTo t d).trans (Device.leads_acceptHall hl)).trans (Device.leads_arbitrate _)
  · exact .refl d

/-! ### The log writer -/

theorem Device.leads_judgeRelease (c : ChannelId) (d : Device) : d.Leads (d.judgeRelease c) := by
  unfold Device.judgeRelease
  simp only
  refine .ite (fun hv => Device.leads_modChan fun _ h => { h with log := ?_ }) fun _ => ?_
  · have hf := h.log
    unfold Log.fits Log.unreleased at hf ⊢
    simp only [Log.releaseOk, decide_eq_true_eq] at hv
    refine Nat.le_trans (Nat.add_le_add_right ?_ _) hf
    generalize (d.chan c).log.written = w at *
    generalize (d.chan c).log.releaseValid = v at *
    generalize Memory.read d.ram (releaseAddress c) = r at *
    bv_omega
  · have h1 : d.Leads (d.modChan c fun ch => { ch with log := { ch.log with badRelease := true } }) :=
      Device.leads_modChan fun _ h => { h with }
    exact h1.trans (Device.leads_setNotice _ _)

/-- A period record and an event record have 16 words each (R145). -/
theorem Device.periodRecord_length (d : Device) (c : ChannelId) (p : ClosedPeriod) : (d.periodRecord c p).length = 16 := rfl

theorem eventRecord_length (written : Word) (c : ChannelId) (e : EventRecord) : (eventRecord written c e).length = 16 := rfl

/-- A record that begins where the free count is 1 or more fits. -/
theorem Device.leads_beginRecord {d : Device} {c : ChannelId} {words : List Word} (hn : words.length = 16)
    (event : Option EventCode) (hf : 1 ≤ (d.chan c).log.free c) : d.Leads (d.beginRecord c words event) :=
  Device.leads_modChan fun _ h => { h with
    log := by
      have := h.log
      unfold Log.fits at this ⊢
      unfold Log.free at hf
      show (d.chan c).log.unreleased + 1 ≤ logCapacity c
      omega
    writing := fun w hw => by
      cases hw
      exact ⟨hn, rfl⟩ }

theorem Device.leads_noticeRefusal (c : ChannelId) (event : Option EventCode) (d : Device) :
    d.Leads (d.noticeRefusal c event) := .ite (fun _ => Device.leads_setNotice _ _) fun _ => .refl _

theorem Device.leads_placeRecord (c : ChannelId) (item : LogItem) (d : Device) : d.Leads (d.placeRecord c item) := by
  unfold Device.placeRecord
  simp only
  split
  · rename_i p
    refine .ite (fun hf => ?_) fun _ => Device.leads_modChan fun _ h => { h with }
    refine (Device.leads_beginRecord (d.periodRecord_length c p) none (Nat.le_of_succ_le hf)).trans ?_
    exact Device.leads_modChan (f := fun ch => { ch with
      clampedMark := false, log := { ch.log with groupNotOk := 0, groupMissed := 0 } }) fun _ h => { h with }
  · refine .ite (fun hf => Device.leads_beginRecord (eventRecord_length _ c _) _ hf) fun _ => ?_
    have h1 : d.Leads (d.modChan c fun ch => { ch with log := { ch.log with eventLost := true } }) :=
      Device.leads_modChan fun _ h => { h with }
    exact (h1.trans (Device.leads_setNotice _ _)).trans (Device.leads_noticeRefusal _ _ _)

theorem Device.leads_takeRecord (c : ChannelId) (d : Device) : d.Leads (d.takeRecord c) := by
  unfold Device.takeRecord
  split
  · rename_i item rest _ _
    have h1 : d.Leads (d.modChan c fun ch => { ch with log := { ch.log with waiting := rest } }) :=
      Device.leads_modChan fun _ h => { h with }
    exact (h1.trans (Device.leads_judgeRelease c _)).trans (Device.leads_placeRecord c item _)
  · exact .refl d

theorem logCapacity_lt (c : ChannelId) : logCapacity c < 65535 := by cases c <;> decide

/-- The words of a log's places are the part's. -/
theorem partWord_place {c : ChannelId} {k a : Nat} (hk : k < logCapacity c) (h1 : logBase c + 16 * k ≤ a)
    (h2 : a < logBase c + 16 * k + 16) : partWord a := by
  right
  cases c <;> simp only [logCapacity, logBase] at * <;> omega

theorem Device.leads_endRecord (c : ChannelId) (d : Device) : d.Leads (d.endRecord c) := by
  unfold Device.endRecord
  split
  · rename_i w hw
    intro hd
    obtain ⟨hlen, k, hk, hplace⟩ := (hd.channels c).writing.within hw
    have h1 : d.Leads { d with ram := Memory.writeSome (fun a => !w.kept.contains a) d.ram w.place w.words } :=
      Device.leads_ram (fun hm => Memory.wf_writeSome hm _ _ _) fun hm a ha => by
        rw [Memory.read_writeSome hm, if_neg fun hb => ha (partWord_place hk (by omega) (by omega))]
    have hw1 : (({ d with ram := Memory.writeSome (fun a => !w.kept.contains a) d.ram w.place w.words } : Device).chan c).log.writing = some w := hw
    simp only
    generalize ({ d with ram := Memory.writeSome (fun a => !w.kept.contains a) d.ram w.place w.words } : Device) = e at h1 hw1
    have h2 : e.Leads (e.modChan c fun ch =>
        { ch with log := { ch.log with written := ch.log.written + 1, writing := none } }) := by
      refine Device.leads_modChan fun _ h => { h with log := ?_, writing := fun _ hn => by simp at hn }
      have hf := h.log
      have hcap := logCapacity_lt c
      unfold Log.fits Log.unreleased at hf ⊢
      simp only [hw1, Option.isSome_some, Option.isSome_none, if_true, Bool.false_eq_true, if_false] at hf ⊢
      generalize (e.chan c).log.written = wr at *
      generalize (e.chan c).log.releaseValid = v at *
      generalize logCapacity c = cap at *
      bv_omega
    exact h1.trans (h2.trans (.trans (.ite (fun _ => Device.leads_setNotice _ _) fun _ => .refl _)
      (Device.leads_noticeRefusal _ _ _))) hd
  · exact .refl d

/-! ### The vector unit and placement -/

theorem clampInt_bounds {lo hi x : Int} (h : lo ≤ hi) : lo ≤ clampInt lo hi x ∧ clampInt lo hi x ≤ hi := by
  unfold clampInt; repeat' split
  all_goals omega

theorem slewToward_le {va target slew : Nat} (hv : va ≤ 32767) (ht : target ≤ 32767) :
    slewToward va target slew ≤ 32767 := by
  unfold slewToward; repeat' split
  all_goals omega

theorem amplitudeStep_le {plan : Plan} {hold : Bool} {va : Nat} {metric : Option Nat} (hp : plan.inRange)
    (hv : va ≤ 32767) : amplitudeStep plan hold va metric ≤ 32767 := by
  have ht := hp.1
  unfold amplitudeStep
  split
  · exact hv
  · split
    · exact Nat.zero_le _
    · exact Nat.zero_le _
    · exact slewToward_le hv ht
    · unfold alignStep
      split
      · split
        · omega
        · split
          · exact slewToward_le hv ht
          · exact hv
      · exact hv

theorem Device.leads_peak (c : ChannelId) (d : Device) : d.Leads (d.peak c) := by
  unfold Device.peak
  split
  · rename_i e he
    refine .ite (fun hr => ?_) fun _ => .refl d
    simp only
    have h1 := Device.leads_advanceTo (d.instantOf c (e.period / 2)) d
    refine h1.trans ?_
    have hon : (d.chan c).state ≠ .off := by simp [Channel.runs] at hr; exact hr.1
    have hon' : ((d.advanceTo (d.instantOf c (e.period / 2))).chan c).state ≠ .off := by
      rw [Device.chan_advanceTo]; exact hon
    generalize d.advanceTo (d.instantOf c (e.period / 2)) = x at hon'
    refine Device.leads_modChan fun _ h => { h with off := fun ho => absurd ho hon', computation := ?_ }
    rintro k ⟨⟩
    exact ⟨h.plan.1, h.plan.2 hon', h.ranges.1⟩
  · exact .refl d

theorem Device.leads_endComputation (c : ChannelId) (d : Device) : d.Leads (d.endComputation c) := by
  unfold Device.endComputation
  split
  · rename_i k hk
    refine Device.leads_modChan fun hd h => ?_
    have hc := h.computation k hk
    have hon : (d.chan c).state ≠ .off := fun ho => by have := (h.off ho).2.2.2.1; simp [this] at hk
    have hva : (if k.zeroed then 0 else k.newVa) ≤ 32767 := by
      split
      · exact Nat.zero_le _
      · exact amplitudeStep_le hc.1 hc.2.2
    exact { h with
      off := fun ho => absurd ho hon
      computation := fun _ hn => by simp at hn
      placement := fun r hr => by cases hr; exact hc.2.1
      ranges := ⟨hva, h.ranges.2⟩ }
  · exact .refl d

theorem stagedSet_modulus (g : ChannelSetup) (hold : Bool) (run : PlacementRun) :
    (stagedSet g hold run).modulus = run.modulus := by
  unfold stagedSet; split <;> rfl

theorem Device.leads_endPlacement (c : ChannelId) (d : Device) : d.Leads (d.endPlacement c) := by
  unfold Device.endPlacement
  split
  · rename_i run hk
    refine Device.leads_modChan fun hd h => ?_
    have hon : (d.chan c).state ≠ .off := fun ho => by have := (h.off ho).2.2.2.2.1; simp [this] at hk
    exact { h with
      off := fun ho => absurd ho hon
      on := fun ho => ⟨rfl, (h.on ho).2⟩
      placement := fun _ hn => by simp at hn
      sets := fun e he => by
        rcases he with he | he
        · cases he; rw [stagedSet_modulus]; exact h.placement run hk
        · exact h.sets e (.inr he) }
  · exact .refl d

/-! ### The leg stage -/

theorem Device.leads_pulseEdge (c : ChannelId) (leg : Leg) (edge : PulseEdge) (d : Device) :
    d.Leads (d.pulseEdge c leg edge) := by
  have key : ∀ (t : RefCount) (cmd : LegCommand), (d.chan c).followsSet = true →
      d.Leads ((d.advanceTo t).commandLeg c leg cmd) := fun t cmd hf => by
    refine (Device.leads_advanceTo t d).trans (Device.leads_modChan fun _ h => { h with legs := ?_ })
    have : ((d.advanceTo t).chan c).followsSet = true := by rw [Device.chan_advanceTo]; exact hf
    simp only [Channel.followsSet, Bool.and_eq_true, beq_iff_eq, Bool.not_eq_true'] at this
    exact LegsSound.command h.legs this.1 this.2 leg cmd _
  unfold Device.pulseEdge
  split
  · refine .ite (fun hf => ?_) fun _ => .refl d
    split
    · exact key _ _ hf
    · exact key _ _ hf
  · exact .refl d

theorem Device.leads_takeTurnOn (c : ChannelId) (leg : Leg) (d : Device) : d.Leads (d.takeTurnOn c leg) := by
  unfold Device.takeTurnOn
  split
  · rename_i p hp
    refine (Device.leads_advanceTo _ d).trans (Device.leads_modChan fun _ h => { h with legs := fun l => ?_ })
    have hp' : (((d.advanceTo p.instant).chan c).legs.get leg).pending = some p := by
      rw [Device.chan_advanceTo]; exact hp
    generalize (d.advanceTo p.instant).chan c = ch at h hp'
    rw [PerLeg.get_set]
    split
    · refine ⟨LegState.safe_turnOn (h.legs leg).1 hp', fun hn => ?_, fun hr hh =>
        LegState.notHigh_turnOn ((h.legs leg).2.2 hr hh) hp'⟩
      have := (h.legs leg).2.1 hn
      rw [this] at hp'; simp [LegState.idle] at hp'
    · exact h.legs l
  · exact .refl d

end Sys2Proof.Machine
end

