-- ==== Sys2Proof/Laws/LeadsCommands.lean ====
section
/-! SUPPORT. The load event, the plan fetch, the commands of the host, the resets and the passing of time keep the part
sound. -/

namespace Sys2Proof.Machine

open Sys2Proof

/-! ### The load event -/

theorem EdgeSet.intoForce_modulus (g : ChannelSetup) (number : BitVec 32) (e : EdgeSet) :
    (e.intoForce g number).modulus = e.modulus := by unfold EdgeSet.intoForce; split <;> rfl

theorem Channel.Sound.openPeriod {setup : Option (List Word)} {c : ChannelId} {ch : Channel} (h : ch.Sound setup c)
    (hon : ch.state ≠ .off) (g : ChannelSetup) (now : RefCount) : (ch.openPeriod g now).Sound setup c :=
  { h with
    off := fun ho => absurd ho hon
    on := fun _ => ⟨(h.on hon).1, by simpa [Channel.openPeriod] using (h.on hon).1⟩
    sets := fun e he => by
      rcases he with he | he
      · exact h.sets e (.inl he)
      · obtain ⟨e', he', rfl⟩ := Option.map_eq_some_iff.1 he
        rw [EdgeSet.intoForce_modulus]; exact h.sets e' (.inl he')
    ranges := ⟨h.ranges.1, h.ranges.2.1, Nat.min_le_right _ _⟩ }

theorem Device.leads_clearHold (c : ChannelId) (d : Device) : d.Leads (d.clearHold c) :=
  .ite (fun _ => .refl d) fun _ => Device.leads_modChan fun _ h => { h with legs := LegsSound.clear h.legs }

theorem Device.leads_loadLegs (c : ChannelId) (d : Device) : d.Leads (d.loadLegs c) := by
  have key : ∀ (x : Device) (l : Leg) (cmd : LegCommand), (x.chan c).state = .running →
      (x.chan c).brakeHold = false → x.Leads (x.commandLeg c l cmd) := fun x l cmd hr hh =>
    Device.leads_modChan fun _ h => { h with legs := LegsSound.command h.legs hr hh l cmd _ }
  unfold Device.loadLegs
  refine .ite (fun hr => .ite (fun _ => ?_) fun hh => ?_) fun _ => .refl d
  · refine Device.leads_modChan fun _ h => { h with legs := ?_ }
    show LegsSound (d.chan c).state _ _
    rw [show (d.chan c).state = .running from hr]
    exact LegsSound.low h.legs _
  · have hh' : (d.chan c).brakeHold = false := by simpa using hh
    split
    · refine ((key d .a _ hr hh').trans (key _ .b _ ?_ ?_)).trans (key _ .c _ ?_ ?_) <;>
        simp [Device.commandLeg, hr, hh']
    · exact .refl d

theorem Device.leads_enterRequests (c : ChannelId) (d : Device) : d.Leads (d.enterRequests c) := by
  unfold Device.enterRequests
  split
  · rename_i e he
    exact fun h => Device.leads_requests (h.locked_of_on ((h.channels c).on_of_inForce he)) _ h
  · exact .refl d

theorem Device.leads_followSet (c : ChannelId) (d : Device) : d.Leads (d.followSet c) :=
  ((Device.leads_clearHold c d).trans (Device.leads_loadLegs c _)).trans (Device.leads_enterRequests c _)

theorem Device.leads_startFetch {c : ChannelId} {d : Device} (hon : (d.chan c).state ≠ .off) :
    d.Leads (d.startFetch c) :=
  Device.leads_modChan fun _ h => { h with off := fun ho => absurd ho hon }

theorem Device.leads_openPeriod {c : ChannelId} {d : Device} (hon : (d.chan c).state ≠ .off) :
    d.Leads (d.openPeriod c) := by
  unfold Device.openPeriod
  simp only
  have h1 : d.Leads (d.modChan c (Channel.openPeriod (d.cfg c) d.refCount)) :=
    Device.leads_modChan fun _ h => h.openPeriod hon _ _
  have hon1 : ((d.modChan c (Channel.openPeriod (d.cfg c) d.refCount)).chan c).state ≠ .off := by
    rw [Device.chan_modChan_same]; exact hon
  generalize d.modChan c (Channel.openPeriod (d.cfg c) d.refCount) = e at h1 hon1
  have h2 : e.Leads (e.followPeriod c) := Device.leads_followPeriod c e
  generalize e.followPeriod c = f at h2
  have h3 : f.Leads (if f.ageTrips c = true then
      if Config.takenFirst f.freeIndex = true then (f.evaluateAge c).followSet c else (f.followSet c).evaluateAge c
      else f.followSet c) :=
    .ite (fun _ => .ite (fun _ => (Device.leads_evaluateAge c f).trans (Device.leads_followSet c _))
      fun _ => (Device.leads_followSet c f).trans (Device.leads_evaluateAge c _)) fun _ => Device.leads_followSet c f
  intro hd
  have he := h1 hd
  have hf := h2 he.1
  have hg := h3 hf.1
  have hs := Device.leads_startFetch (hg.2.on c (hf.2.on c hon1)) hg.1
  exact ⟨hs.1, ((he.2.trans hf.2).trans hg.2).trans hs.2⟩

theorem Device.leads_load (c : ChannelId) (d : Device) : d.Leads (d.load c) := by
  unfold Device.load
  split
  · rename_i e he
    refine .ite (fun hr => ?_) fun _ => .refl d
    simp only
    have hon : (d.chan c).state ≠ .off := by simp [Channel.runs] at hr; exact hr
    intro hd
    have h1 := ((Device.leads_advanceTo (d.instantOf c e.period) d).trans (Device.leads_closePeriod c _)) hd
    generalize (d.advanceTo (d.instantOf c e.period)).closePeriod c = x at h1
    have honx := h1.2.on c hon
    have h2 : x.Leads (x.modChan c Channel.advanceTheta) := Device.leads_modChan fun _ h =>
      { h with off := fun ho => absurd ho honx }
    have hony : ((x.modChan c Channel.advanceTheta).chan c).state ≠ .off := by
      rw [Device.chan_modChan_same]; exact honx
    have h3 := ((h2.trans (Device.leads_openPeriod hony)).trans (Device.leads_arbitrate _)) h1.1
    exact ⟨h3.1, h1.2.trans h3.2⟩
  · exact .refl d

/-! ### The plan fetch -/

theorem clampedPlan_inRange (slot : List Word) (mode : Mode) : (clampedPlan slot mode).inRange := by
  have h1 := clampInt_bounds (lo := -8191) (hi := 8191) (x := wordInt slot 6) (by decide)
  have h2 := clampInt_bounds (lo := -4095) (hi := 4095) (x := wordInt slot 12) (by decide)
  have h3 := clampInt_bounds (lo := -4095) (hi := 4095) (x := wordInt slot 13) (by decide)
  refine ⟨Nat.min_le_right _ _, Nat.min_le_right _ _, h1.1, h1.2, Nat.min_le_right _ _, Nat.min_le_right _ _, ?_, ?_,
    h2.1, h2.2, h3.1, h3.2⟩
  · show 1 ≤ clampInterval _
    unfold clampInterval; split <;> omega
  · show clampInterval _ ≤ 64
    unfold clampInterval; split <;> omega

/-- A plan that a fetch accepts is in range and has a modulus a period may have (R23, R26). -/
theorem fetchOutcome_accepted {g : ChannelSetup} {last : Word} {slot : List Word} {plan : Plan} {clamped : Bool}
    (h : fetchOutcome g last slot = .accepted plan clamped) : plan.inRange ∧ modulusOk plan.modulus := by
  unfold fetchOutcome at h
  simp only at h
  split at h; · simp at h
  split at h; · simp at h
  split at h; · simp at h
  split at h
  · simp at h
  · rename_i mode hm
    obtain ⟨rfl, -⟩ : clampedPlan slot mode = plan ∧ _ := by simpa using h
    refine ⟨clampedPlan_inRange slot mode, ?_⟩
    unfold planCheck at hm
    split at hm
    · simp at hm
    · simp only at hm
      split at hm
      · simp at hm
      · rename_i hr
        show 250 ≤ wordNat slot 3 ∧ wordNat slot 3 ≤ 16000
        simp at hr; omega

theorem Device.leads_decideFetch {c : ChannelId} {d : Device} (f : Fetch) (hf : (d.chan c).fetch = some f) :
    d.Leads (d.decideFetch c f) := by
  unfold Device.decideFetch
  simp only
  intro hd
  have hon : (d.chan c).state ≠ .off := fun ho => by
    have := ((hd.channels c).off ho).2.2.1; simp [this] at hf
  have h1 : d.Leads (d.modChan c fun ch => { ch with fetch := none }) :=
    Device.leads_modChan fun _ h => { h with off := fun ho => absurd ho hon }
  have h1 := h1 hd
  generalize (d.modChan c fun ch => { ch with fetch := none }) = e at h1
  have hone := h1.2.on c hon
  refine ⟨?_, ?_⟩
  all_goals
    have key : e.Leads (match fetchOutcome (e.cfg c) (e.chan c).lastSeen (slotWords (f.reader.finish d.ram)) with
      | .torn => e.tornFetch c
      | .empty => e
      | .duplicate => e
      | .refused reason => e.refusePlan c f.period ((slotWords (f.reader.finish d.ram)).getD 0 0) reason
      | .accepted plan clamped => (e.modChan c (Channel.acceptPlan plan clamped)).releaseAge c plan.generation) := by
      split
      · exact Device.leads_modChan fun _ h => { h with }
      · exact .refl e
      · exact .refl e
      · unfold Device.refusePlan
        simp only
        generalize (slotWords (f.reader.finish d.ram)).getD 0 0 = gen
        have h2 : e.Leads (e.modChan c fun ch => { ch with
            lastSeen := gen, counters := { ch.counters with refusedPlans := ch.counters.refusedPlans + 1 } }) :=
          Device.leads_modChan fun _ h => { h with }
        exact h2.trans (Device.leads_hand _ _ _)
      · rename_i plan clamped hp
        have hp := fetchOutcome_accepted hp
        have h2 : e.Leads (e.modChan c (Channel.acceptPlan plan clamped)) := Device.leads_modChan fun _ h =>
          { h with
            off := fun ho => absurd ho hone
            plan := ⟨hp.1, fun _ => hp.2⟩
            ranges := ⟨h.ranges.1, h.ranges.2.1, Nat.zero_le _⟩ }
        exact h2.trans (Device.leads_releaseAge c _ _)
  · exact (key h1.1).1
  · exact h1.2.trans (key h1.1).2

theorem Device.leads_endFetch (c : ChannelId) (d : Device) : d.Leads (d.endFetch c) := by
  unfold Device.endFetch
  split
  · exact Device.leads_decideFetch _ ‹_›
  · exact .refl d

/-! ### START, STOP and RESUME -/

theorem Plan.null_inRange (m : Nat) : (Plan.null m).inRange := by
  refine ⟨?_, ?_, ?_, ?_, ?_, ?_, ?_, ?_, ?_, ?_, ?_, ?_⟩ <;> simp [Plan.null]

/-- The settings of a locked copy passed the checks: no check fails (R165). -/
theorem checkFails_false {words : List Word} (h : setupError words = none) {k : Nat} (hk : k ∈ checkCodes)
    (c : ChannelId) : checkFails words k c = false := by
  unfold setupError at h
  have h1 := List.findSome?_eq_none_iff.1 h k hk
  have h2 := List.findSome?_eq_none_iff.1 h1 c (by cases c <;> simp [allChannels])
  cases hc : checkFails words k c
  · rfl
  · simp [hc] at h2

theorem m0_ok {words : List Word} (h : setupError words = none) (c : ChannelId) :
    modulusOk (channelSetup words c).m0 := by
  have := checkFails_false h (k := 10) (by simp [checkCodes]) c
  simp only [checkFails, Bool.or_eq_false_iff, decide_eq_false_iff_not] at this
  unfold modulusOk; omega

/-- M0 of a locked part is a modulus a period may have. -/
theorem Device.Sound.m0 {d : Device} (h : d.Sound) (hl : d.setup ≠ none) (c : ChannelId) : modulusOk (d.cfg c).m0 := by
  unfold Device.cfg Device.words
  cases hs : d.setup with
  | none => exact absurd hs hl
  | some words => exact m0_ok (h.setup words hs) c

theorem Channel.Sound.starting {setup : Option (List Word)} {c : ChannelId} {ch : Channel} (h : ch.Sound setup c)
    (hoff : ch.state = .off) (hl : setup ≠ none) {g : ChannelSetup} (hm : modulusOk g.m0) :
    (ch.starting g).Sound setup c :=
  { h with
    legs := LegsSound.of_idle fun l => (h.legs l).2.1 (by rw [hoff]; decide)
    latch := by simp [Channel.starting]
    off := fun ho => by simp [Channel.starting] at ho
    on := fun _ => ⟨rfl, rfl⟩
    sets := fun e he => by
      have : startSet g = e := by rcases he with he | he <;> simpa [Channel.starting] using he
      subst this; exact hm
    unlocked := fun hs => absurd hs hl
    plan := ⟨Plan.null_inRange _, fun _ => hm⟩
    computation := fun _ hn => by simp [Channel.starting] at hn
    placement := fun _ hn => by simp [Channel.starting] at hn
    ranges := ⟨Nat.zero_le _, h.ranges.2.1, Nat.zero_le _⟩ }

theorem Device.leads_brakeAtStart {c : ChannelId} {d : Device} (hr : (d.chan c).state = .running) :
    d.Leads (d.brakeAtStart c) := by
  unfold Device.brakeAtStart
  refine .ite (fun _ => ?_) fun _ => .refl d
  rw [Device.commandLegs, Device.modChan_modChan]
  refine Device.leads_modChan fun _ h => { h with legs := ?_ }
  show LegsSound (d.chan c).state true _
  rw [hr]
  exact LegsSound.low h.legs _

theorem Device.leads_halAtStart (c : ChannelId) (d : Device) : d.Leads (d.halAtStart c) := by
  unfold Device.halAtStart
  split
  · exact Device.leads_evaluateHal _ _
  · exact .refl d

theorem Device.chan_clearOwnConditions_state (c c' : ChannelId) (d : Device) :
    ((d.clearOwnConditions c).chan c').state = (d.chan c').state := by
  unfold Device.clearOwnConditions
  simp only
  have key : ∀ f : Channel → Channel, (∀ ch, (f ch).state = ch.state) →
      ((d.modChan c f).chan c').state = (d.chan c').state := fun f hf => by
    rw [Device.chan_modChan]
    split
    · subst_vars; exact hf _
    · rfl
  split
  · exact key (fun ch => { ch with
      cur := { ch.cur with asserted := false, count := 0 }
      zer := { ch.zer with asserted := false, count := 0 }
      age := { ch.age with asserted := false, count := 0 } }) fun _ => rfl
  · exact key _ fun _ => rfl

theorem Device.leads_startChannel {c : ChannelId} {d : Device} (hl : d.setup ≠ none) (hoff : (d.chan c).state = .off) :
    d.Leads (d.startChannel c) := by
  unfold Device.startChannel
  simp only
  have h1 : d.Leads ((d.modChan c (Channel.starting (d.cfg c))).clearOwnConditions c) :=
    (Device.leads_modChan (fun hd h => h.starting hoff hl (hd.m0 hl c)) fun _ => by simp [Channel.starting]).trans
      (Device.leads_clearOwnConditions c _)
  have hr : (((d.modChan c (Channel.starting (d.cfg c))).clearOwnConditions c).chan c).state = .running := by
    rw [Device.chan_clearOwnConditions_state, Device.chan_modChan_same]; rfl
  generalize (d.modChan c (Channel.starting (d.cfg c))).clearOwnConditions c = e at h1 hr
  intro hd
  have he := h1 hd
  have hf := Device.leads_brakeAtStart hr he.1
  generalize e.brakeAtStart c = f at hf
  have hon := hf.2.on c (by rw [hr]; decide)
  have hw : ∀ a ∈ [statusBase c + 5], partWord a := fun a ha => partWord_statusAddresses (by
    rw [List.mem_singleton.1 ha]; cases c <;> decide)
  have hg := ((((Device.leads_openPeriod hon).trans (Device.leads_showStatus _ hw)).trans
    (Device.leads_handPlain _ c .started)).trans
    ((Device.leads_halAtStart c _).trans (Device.leads_arbitrate _))) hf.1
  exact ⟨hg.1, (he.2.trans hf.2).trans hg.2⟩

/-- Two parts agree in all that the invariant of the part says of the lock and the fault lines. -/
theorem Device.Sound.stopping {d : Device} (h : d.Sound) (c : ChannelId) : (d.modChan c Channel.stopping).Sound :=
  Device.sound_modChan h fun hc =>
    { hc with
      legs := LegsSound.off _ _
      latch := by simp [Channel.stopping]
      off := fun _ => ⟨rfl, rfl, rfl, rfl, rfl, rfl, rfl, rfl⟩
      on := fun ho => absurd rfl ho
      sets := fun e he => by rcases he with he | he <;> simp [Channel.stopping] at he
      unlocked := fun hs => ⟨rfl, (hc.unlocked hs).2⟩
      plan := ⟨hc.plan.1, fun ho => absurd rfl ho⟩
      computation := fun _ hn => by simp [Channel.stopping] at hn
      placement := fun _ hn => by simp [Channel.stopping] at hn }

theorem Device.sound_stopChannel {d : Device} (h : d.Sound) (hf : d.FaultsFollow) (c : ChannelId) :
    (d.stopChannel c).Sound ∧ (d.stopChannel c).FaultsFollow := by
  have hs := h.stopping c
  have hfs : (d.modChan c Channel.stopping).FaultsFollow := hf
  unfold Device.stopChannel
  simp only
  generalize d.modChan c Channel.stopping = e at hs hfs
  have hl : e.Leads _ := ((((Device.leads_withdrawAll c e).trans (Device.leads_clearOwnConditions c _)).trans
    (Device.leads_unfollow c _)).trans (Device.leads_handPlain _ c .stopped)).trans (Device.leads_arbitrate _)
  exact ⟨(hl hs).1, (hl hs).2.faults hfs⟩

theorem Device.leads_resumeChannel {c : ChannelId} {d : Device} (hst : (d.chan c).state = .floated) :
    d.Leads (d.resumeChannel c) := by
  unfold Device.resumeChannel
  simp only
  refine Device.Leads.trans ?_ (Device.leads_handPlain _ c .resumed)
  have hsound : d.Sound → ∀ legs, LegsSound .running (d.chan c).brakeHold legs →
      ({ Channel.resuming (d.cfg c) (d.chan c) with legs := legs }).Sound d.setup c := fun hd legs hlegs =>
    have h := hd.channels c
    have hz := h.zeroVa
    { hz with
      legs := hlegs
      latch := by simp [Channel.resuming]
      off := fun ho => by simp [Channel.resuming] at ho
      on := fun _ => by
        have := h.on (by rw [hst]; decide)
        simpa [Channel.resuming] using this
      sets := fun e he => by
        rcases he with he | he
        · obtain ⟨e', he', rfl⟩ := Option.map_eq_some_iff.1 he
          exact h.sets e' (.inl he')
        · obtain ⟨e', he', rfl⟩ := Option.map_eq_some_iff.1 he
          exact h.sets e' (.inr he')
      unlocked := fun hs => absurd hs (hd.locked_of_on (c := c) (by rw [hst]; decide))
      plan := ⟨h.plan.1, fun _ => h.plan.2 (by rw [hst]; decide)⟩ }
  have hidle : d.Sound → ∀ l, (d.chan c).legs.get l = LegState.idle := fun hd l =>
    ((hd.channels c).legs l).2.1 (by rw [hst]; decide)
  rw [Device.chan_modChan_same]
  split
  · rename_i hh
    rw [Device.commandLegs, Device.modChan_modChan]
    refine Device.leads_modChan (fun hd h => hsound hd _ ?_) fun _ => by simp [Channel.resuming]
    exact LegsSound.low h.legs _
  · refine Device.leads_modChan (fun hd h => hsound hd _ (LegsSound.of_idle (hidle hd))) fun _ => by
      simp [Channel.resuming]

/-! ### A part whose invariant holds -/

/-- The invariant of the part, without its queue. -/
def Device.Good (d : Device) : Prop := d.Sound ∧ d.FaultsFollow

theorem Device.Good.leads {d e : Device} (h : d.Good) (hl : d.Leads e) : e.Good :=
  ⟨(hl h.1).1, (hl h.1).2.faults h.2⟩

theorem Device.Good.publish {old new : Device} (h : new.Good) : (publish old new).Good :=
  h.leads (leads_publish old new)

/-! ### The fault lines -/

theorem Device.sound_setFault {d : Device} (h : d.Sound) (line : FaultLine) (x : FaultFilter) :
    (d.setFault line x).Sound := by
  cases line <;> exact { h with unlocked := fun hs => { h.unlocked hs with } }

/-- What the assertion or the release of a fault condition of a locked part leaves. -/
structure Device.FaultSet (d e : Device) (line : FaultLine) (asserted : Bool) : Prop where
  sound : e.Sound
  setup : e.setup = d.setup
  flt0 : e.flt0 = d.flt0
  flt1 : e.flt1 = d.flt1
  this : (e.condition (faultCondition line)).asserted = asserted
  fl0 : line ≠ .flt0 → e.fl0 = d.fl0
  fl1 : line ≠ .flt1 → e.fl1 = d.fl1
  host : ∀ a, ¬ partWord a → e.ram.read a = d.ram.read a

theorem Device.faultSet {d : Device} (h : d.Sound) (hl : d.setup ≠ none) (line : FaultLine) {x : Condition}
    (hx : x.sane) {e : Device} (he : (d.setCondition (faultCondition line) x).Leads e) :
    d.FaultSet e line x.asserted := by
  have hm : (d.setCondition (faultCondition line) x).Sound := by
    cases line
    · exact { h with
        unlocked := fun hs => absurd hs hl
        conditions := ⟨h.conditions.1, h.conditions.2.1, h.conditions.2.2.1, hx, h.conditions.2.2.2.2⟩ }
    · exact { h with
        unlocked := fun hs => absurd hs hl
        conditions := ⟨h.conditions.1, h.conditions.2.1, h.conditions.2.2.1, h.conditions.2.2.2.1, hx⟩ }
  obtain ⟨hs, hk⟩ := he hm
  cases line
  · exact ⟨hs, hk.setup, hk.flt0, hk.flt1, congrArg Condition.asserted hk.fl0, fun hn => absurd rfl hn, fun _ => hk.fl1,
      hk.host⟩
  · exact ⟨hs, hk.setup, hk.flt0, hk.flt1, congrArg Condition.asserted hk.fl1, fun _ => hk.fl0, fun hn => absurd rfl hn,
      hk.host⟩

theorem Device.faultSet_assert {d : Device} (h : d.Sound) (hl : d.setup ≠ none) (line : FaultLine) (value : Int)
    (extra : Word) : d.FaultSet (d.assertCondition (faultCondition line) value extra) line true := by
  unfold Device.assertCondition
  simp only
  refine Device.faultSet h hl line 
    (x := { asserted := true, count := 0, assertions := (d.condition (faultCondition line)).assertions + 1 })
    ⟨Nat.zero_le _, fun _ => rfl⟩ ?_
  refine Device.Leads.trans (Device.leads_foldl
    (f := fun x c => x.assertFor (faultCondition line) value extra (d.override c) c)
    (fun x c => Device.leads_assertFor _ _ _ _ _ _) (d.scope (faultCondition line)) _) ?_
  exact .ite (fun _ => Device.leads_setNotice _ _) fun _ => .refl _

theorem Device.faultSet_release {d : Device} (h : d.Sound) (hl : d.setup ≠ none) (line : FaultLine) (value : Int)
    (extra : Word) : d.FaultSet (d.releaseCondition (faultCondition line) value extra) line false :=
  Device.faultSet h hl line
    (x := { asserted := false, count := 0, assertions := (d.condition (faultCondition line)).assertions })
    ⟨Nat.zero_le _, fun _ => rfl⟩
    (Device.leads_foldl (f := fun x c => x.releaseFor (faultCondition line) value extra (d.override c) c)
      (fun _ _ => Device.leads_releaseFor _ _ _ _ _ _) _ _)

/-- The other line's condition follows its filtered level. -/
def Device.OtherFollows (d : Device) (line : FaultLine) : Prop :=
  d.locked = true → (line ≠ .flt0 → d.fl0.asserted = d.flt0.filtered) ∧ (line ≠ .flt1 → d.fl1.asserted = d.flt1.filtered)

theorem Device.FaultSet.good {d e : Device} {line : FaultLine} {b : Bool} (h : d.FaultSet e line b)
    (ho : d.OtherFollows line) (hb : (d.fault line).filtered = b) : e.Good := by
  refine ⟨h.sound, fun hl => ?_⟩
  have ho := ho (by rw [← hl]; exact Device.locked_congr h.setup.symm)
  have ht := h.this
  rw [h.flt0, h.flt1]
  cases line
  · refine ⟨?_, ?_⟩
    · rw [← hb] at ht; exact ht
    · rw [h.fl1 (by decide)]; exact ho.2 (by decide)
  · refine ⟨?_, ?_⟩
    · rw [h.fl0 (by decide)]; exact ho.1 (by decide)
    · rw [← hb] at ht; exact ht

theorem Device.good_followFault {d : Device} (h : d.Sound) (line : FaultLine) (ho : d.OtherFollows line) :
    (d.followFault line).Good := by
  unfold Device.followFault
  split
  · rename_i hl
    have hl' : d.setup ≠ none := fun hs => by simp [Device.locked, hs] at hl
    split
    · exact (Device.faultSet_assert h hl' line 0 0).good ho ‹_›
    · rename_i hf
      exact (Device.faultSet_release h hl' line 0 0).good ho (by simpa using hf)
  · rename_i hl
    exact ⟨h, fun hl' => absurd hl' hl⟩

theorem Device.good_changeFault {d : Device} (h : d.Good) (line : FaultLine) (level : Bool) :
    (d.changeFault line level).Good := by
  have key : ∀ x : FaultFilter, x.filtered = (d.fault line).filtered → (d.setFault line x).Good := fun x hx => by
    refine ⟨Device.sound_setFault h.1 line x, fun hl => ?_⟩
    cases line
    · have := h.2 hl
      exact ⟨this.1.trans hx.symm, this.2⟩
    · have := h.2 hl
      exact ⟨this.1, this.2.trans hx.symm⟩
  unfold Device.changeFault
  split
  · exact key _ rfl
  · refine key _ ?_
    unfold FaultFilter.change
    split <;> rfl

theorem Device.good_expireFault {d : Device} (h : d.Good) (line : FaultLine) : (d.expireFault line).Good := by
  unfold Device.expireFault
  split
  · rename_i t _
    simp only
    have h1 := h.leads (Device.leads_advanceTo (t + BitVec.ofNat 32 Config.faultPersistence) d)
    generalize d.advanceTo (t + BitVec.ofNat 32 Config.faultPersistence) = e at h1
    refine Device.Good.leads (Device.good_followFault (Device.sound_setFault h1.1 line _) line ?_)
      (Device.leads_arbitrate _)
    intro hl
    have hl' : e.locked = true := by cases line <;> exact hl
    have hf := h1.2 hl'
    cases line
    · exact ⟨fun hn => absurd rfl hn, fun _ => hf.2⟩
    · exact ⟨fun _ => hf.1, fun hn => absurd rfl hn⟩
  · exact h

/-! ### LOCK -/

theorem Device.faultSet_takeUp {d : Device} (h : d.Sound) (hl : d.setup ≠ none) (line : FaultLine)
    (hn : (d.condition (faultCondition line)).asserted = false) :
    d.FaultSet (d.takeUpFault line) line (d.fault line).filtered := by
  unfold Device.takeUpFault
  split
  · rename_i hf
    rw [hf]; exact Device.faultSet_assert h hl line 0 0
  · rename_i hf
    have hf : (d.fault line).filtered = false := by simpa using hf
    rw [hf]
    exact ⟨h, rfl, rfl, rfl, hn, fun _ => rfl, fun _ => rfl, fun _ _ => rfl⟩

theorem Device.leads_takeM0 (c : ChannelId) {d : Device} (hl : d.setup ≠ none) : d.Leads (d.takeM0 c) :=
  Device.leads_modChan fun hd h => { h with plan := ⟨Plan.null_inRange _, fun _ => hd.m0 hl c⟩ }

/-! ### The command port -/

/-- What CMD reads is not part of the invariant. -/
theorem Device.leads_answer (d : Device) (code : BitVec 4) (field : BitVec 2) (r : CmdResult) :
    d.Leads (d.answer code field r) := fun h =>
  ⟨{ h with unlocked := fun hs => { h.unlocked hs with } }, { Device.Keeps.refl d with }⟩

theorem Channel.Sound.lock {c : ChannelId} {ch : Channel} (h : ch.Sound none c) (words : List Word) :
    ch.Sound (some words) c :=
  { h with
    unlocked := fun hs => by simp at hs
    plan := ⟨h.plan.1, fun ho => absurd (h.unlocked rfl).1 ho⟩ }

theorem Device.good_completeLock {d : Device} (h : d.Sound) (hn : d.setup = none) {words : List Word}
    (hw : setupError words = none) (hr : d.lockRun.isSome = true) :
    (d.completeLock words).Good ∧ ∀ a, ¬ partWord a → (d.completeLock words).ram.read a = d.ram.read a := by
  have hq := h.unlocked hn
  have hreset : d.inReset = false := by
    cases hi : d.inReset
    · rfl
    · have := (h.reset hi).2.1; simp [this] at hr
  unfold Device.completeLock
  simp only
  generalize hx : ({ d with lockRun := none, setup := some words, setupErrorCode := 0, setupErrorChannel := 0, outputsDriven := true } : Device) = x
  have hxs : x.Sound := by
    subst hx
    exact { h with
      setup := fun w hw' => by cases hw'; exact hw
      outputs := rfl
      lockRun := fun hl => by simp at hl
      reset := fun hi => absurd (show d.inReset = true from hi) (by simp [hreset])
      unlocked := fun hs => by simp at hs
      channels := fun c => (hn ▸ h.channels c).lock words }
  have hxr : x.ram = d.ram := by subst hx; rfl
  have hxl : x.setup ≠ none := by subst hx; simp
  have hxa : x.fl0.asserted = false ∧ x.fl1.asserted = false := by subst hx; exact ⟨hq.fl0, hq.fl1⟩
  have h1 := Device.leads_beginAcquisition hxl hxs
  generalize x.beginAcquisition = y at h1
  have hyl : y.setup ≠ none := by rw [h1.2.setup]; exact hxl
  generalize hz : ({ y with capture := { y.capture with
    nextPoll := some (y.refCount + BitVec.ofNat 32 Config.pollInterval) } } : Device) = z
  have h2 : z.Sound ∧ y.Keeps z := by
    subst hz; exact Device.leads_captureOnly hyl (fun hc => { hc with }) h1.1
  have hzl : z.setup ≠ none := by rw [h2.2.setup]; exact hyl
  have h3 := Device.faultSet_takeUp h2.1 hzl .flt0 (by
    show z.fl0.asserted = false
    rw [h2.2.fl0, h1.2.fl0]; exact hxa.1)
  generalize hu : z.takeUpFault .flt0 = u at h3
  have hul : u.setup ≠ none := by rw [h3.setup]; exact hzl
  have h4 := Device.faultSet_takeUp h3.sound hul .flt1 (by
    show u.fl1.asserted = false
    rw [h3.fl1 (by decide), h2.2.fl1, h1.2.fl1]; exact hxa.2)
  have hgood : (u.takeUpFault .flt1).Good := h4.good (fun _ => ⟨fun _ => by
    rw [h3.flt0]; exact h3.this, fun hne => absurd rfl hne⟩) rfl
  have hvl : (u.takeUpFault .flt1).setup ≠ none := by rw [h4.setup]; exact hul
  have hvr : ∀ a, ¬ partWord a → (u.takeUpFault .flt1).ram.read a = d.ram.read a := fun a ha => by
    rw [h4.host a ha, h3.host a ha, h2.2.host a ha, h1.2.host a ha, hxr]
  generalize u.takeUpFault .flt1 = v at hgood hvl hvr
  have h5 : v.Leads (((v.takeM0 .ch0).takeM0 .ch1).takeM0 .ch2) :=
    ((Device.leads_takeM0 .ch0 hvl).trans (Device.leads_takeM0 .ch1 hvl)).trans (Device.leads_takeM0 .ch2 hvl)
  generalize ((v.takeM0 .ch0).takeM0 .ch1).takeM0 .ch2 = w at h5
  have h6 : w.Leads { w.setNotice noticeLock with cmd := { w.cmd with result := .done } } := fun hw =>
    ⟨{ hw with unlocked := fun hs => { hw.unlocked hs with } }, { Device.Keeps.refl w with }⟩
  have h7 := h5.trans h6
  exact ⟨hgood.leads h7, fun a ha => ((h7 hgood.1).2.host a ha).trans (hvr a ha)⟩

theorem Device.good_endLock {d : Device} (h : d.Good) : d.endLock.Good := by
  unfold Device.endLock
  split
  · rename_i r hr
    have hn : d.setup = none := h.1.lockRun (by simp [hr])
    simp only
    split
    · refine ⟨{ h.1 with
        lockRun := fun hl => by simp [Device.failLock] at hl
        reset := fun hi => ⟨hn, rfl, (h.1.reset hi).2.2⟩
        unlocked := fun hs => { h.1.unlocked hs with } }, h.2⟩
    · exact (Device.good_completeLock h.1 hn ‹_› (by simp [hr])).1
  · exact h

/-! ### Resets -/

theorem Device.wf_abandonedRam {d : Device} (h : d.ram.wf = true) : d.abandonedRam.wf = true := by
  have key : ∀ l : List ChannelId, ∀ m : Memory, m.wf = true →
      (l.foldl (fun m c => match (d.chan c).log.writing with
        | some w => Memory.writeSome (fun b => !List.contains w.kept b && Config.wordWritten d.freeIndex b) m w.place w.words
        | none => m) m).wf = true := by
    intro l
    induction l with
    | nil => exact fun m hm => hm
    | cons c rest ih =>
      intro m hm
      rw [List.foldl_cons]
      refine ih _ ?_
      split
      · exact Memory.wf_writeSome hm _ _ _
      · exact hm
  unfold Device.abandonedRam
  simp only
  split
  · exact Memory.wf_writeSome (key _ _ h) _ _ _
  · exact key _ _ h

theorem Channel.sound_reset (setup : Option (List Word)) (c : ChannelId) (m : Nat) : (Channel.reset m).Sound setup c where
  legs := LegsSound.of_idle fun l => by cases l <;> rfl
  latch := by simp [Channel.reset]
  off := fun _ => ⟨rfl, rfl, rfl, rfl, rfl, rfl, rfl, rfl⟩
  on := fun h => absurd rfl h
  sets := fun e h => by rcases h with h | h <;> simp [Channel.reset] at h
  unlocked := fun _ => ⟨rfl, rfl, rfl, rfl⟩
  plan := ⟨Plan.null_inRange m, fun h => absurd rfl h⟩
  computation := fun _ h => by simp [Channel.reset] at h
  placement := fun _ h => by simp [Channel.reset] at h
  ranges := ⟨Nat.zero_le _, by simp [Channel.reset], Nat.zero_le _⟩
  conditions := by simp [Channel.reset, Condition.clear, Condition.sane]
  log := by cases c <;> simp [Channel.reset, Log.reset, Log.fits, Log.unreleased, logCapacity]
  writing := fun _ h => by simp [Channel.reset, Log.reset] at h

theorem HallTimer.bounded_reset (raw : BitVec 3) : (HallTimer.reset raw).Bounded :=
  ⟨Nat.zero_le _, fun _ h => by simp [HallTimer.reset] at h, Nat.le_refl _⟩

theorem CaptureUnit.sound_reset (t : Option RefCount) : (CaptureUnit.reset t).Sound :=
  ⟨by simp [CaptureUnit.reset], by simp [CaptureUnit.reset], by simp [CaptureUnit.reset]⟩

theorem Condition.sane_clear : Condition.clear.sane := ⟨Nat.zero_le _, fun _ => rfl⟩

/-- A part at the beginning of a power-on or pin reset, whatever the levels of its lines. -/
theorem Device.sound_initial {m : Memory} (hm : m.wf = true) (f0 f1 : FaultFilter) (raw : BitVec 3) (i : Nat)
    (p l : Bool) :
    ({ Device.initial with
      ram := m, flt0 := f0, flt1 := f1, hall := HallTimer.reset raw, freeIndex := i, powerOn := p,
      resetLow := l } : Device).Good where
  left := {
    ram := hm
    setup := fun _ h => by simp [Device.initial] at h
    outputs := rfl
    lockRun := fun _ => rfl
    reset := fun _ => ⟨rfl, rfl, rfl⟩
    unlocked := fun _ => ⟨rfl, rfl, rfl, rfl, rfl, rfl, rfl, rfl, rfl, rfl, rfl, rfl⟩
    channels := fun c => by cases c <;> exact Channel.sound_reset _ _ _
    conditions := ⟨Condition.sane_clear, Condition.sane_clear, Condition.sane_clear, Condition.sane_clear, Condition.sane_clear⟩
    capture := CaptureUnit.sound_reset none
    hall := HallTimer.bounded_reset raw }
  right := fun h => by simp [Device.locked, Device.initial] at h

theorem Device.good_beginPowerOn {d : Device} (h : d.Good) : d.beginPowerOn.Good :=
  Device.sound_initial (Device.wf_abandonedRam h.1.ram) _ _ _ _ _ _

theorem Device.good_beginPin {d : Device} (h : d.Good) : d.beginPin.Good :=
  Device.sound_initial (Device.wf_abandonedRam h.1.ram) _ _ _ _ _ _

/-- Only an unlocked part is in a power-on or pin reset, and its release leaves it unlocked. -/
theorem Device.good_release {d : Device} (h : d.Good) (hs : d.setup = none) (hr : d.inReset = false)
    (kind : ResetKind) : (d.release kind).Good :=
  ⟨{ h.1 with
      reset := fun hi => by rw [show (d.release kind).inReset = d.inReset from rfl, hr] at hi; simp at hi
      lockRun := fun _ => hs
      unlocked := fun _ => { h.1.unlocked hs with } },
   fun hk => by rw [show (d.release kind).locked = d.locked from rfl, Device.locked, hs] at hk; simp at hk⟩

theorem Device.good_endPowerOn {d : Device} (h : d.Good) : d.endPowerOn.Good := by
  unfold Device.endPowerOn
  split
  · rename_i hp
    have hq := h.1.reset (by simp [Device.inReset, hp])
    have h1 : ({ d with powerOn := false, ram := [] } : Device).Good :=
      ⟨{ h.1 with ram := rfl, reset := fun _ => hq, unlocked := fun hs => { h.1.unlocked hs with } }, h.2⟩
    simp only
    split
    · exact h1
    · rename_i hl
      exact Device.good_release h1 hq.1 (by simp [Device.inReset]; simpa using hl) _
  · exact h

theorem Device.good_endPin {d : Device} (h : d.Good) : d.endPin.Good := by
  unfold Device.endPin
  split
  · rename_i hp
    have hq := h.1.reset (by simp [Device.inReset, hp])
    have h1 : ({ d with resetLow := false } : Device).Good :=
      ⟨{ h.1 with reset := fun _ => hq, unlocked := fun hs => { h.1.unlocked hs with } }, h.2⟩
    simp only
    split
    · exact h1
    · rename_i hl
      exact Device.good_release h1 hq.1 (by simp [Device.inReset]; simpa using hl) _
  · exact h

theorem Device.good_endStatusWrite {d : Device} (h : d.Good) : d.endStatusWrite.Good := by
  unfold Device.endStatusWrite
  split
  · exact ⟨{ h.1 with
      ram := Memory.wf_foldl_write h.1.ram _ _
      reset := fun hi => ⟨(h.1.reset hi).1, (h.1.reset hi).2.1, rfl⟩
      unlocked := fun hs => { h.1.unlocked hs with } }, h.2⟩
  · exact h

theorem Device.good_softResetValues {d : Device} (h : d.Good) (hl : d.locked = true) (field : BitVec 2) :
    (d.softResetValues field).Good := by
  have hl' : d.setup ≠ none := fun hs => by simp [Device.locked, hs] at hl
  refine ⟨?_, fun _ => h.2 hl⟩
  exact {
    ram := Device.wf_abandonedRam h.1.ram
    setup := h.1.setup
    outputs := hl.symm
    lockRun := fun hr => by simp [Device.softResetValues, Device.initial] at hr
    reset := fun hi => absurd (h.1.reset hi).1 hl'
    unlocked := fun hs => absurd hs hl'
    channels := fun c => by cases c <;> exact Channel.sound_reset _ _ _
    conditions := ⟨Condition.sane_clear, Condition.sane_clear, Condition.sane_clear, ⟨Nat.zero_le _, fun _ => rfl⟩,
      ⟨Nat.zero_le _, fun _ => rfl⟩⟩
    capture := CaptureUnit.sound_reset _
    hall := HallTimer.bounded_reset _ }

theorem Device.leads_softReset {d : Device} (hl : d.locked = true) (field : BitVec 2) :
    (d.softResetValues field).Leads (d.softReset field) :=
  Device.leads_beginAcquisition fun hs => by
    have hs : d.setup = none := hs
    simp [Device.locked, hs] at hl

theorem Device.good_softReset {d : Device} (h : d.Good) (hl : d.locked = true) (field : BitVec 2) :
    (d.softReset field).Good := (Device.good_softResetValues h hl field).leads (Device.leads_softReset hl field)

/-! ### Writes of the host -/

theorem Device.startRefusal_none {d : Device} {c : ChannelId} (h : d.startRefusal c = none) :
    d.setup ≠ none ∧ (d.cfg c).enabled = true ∧ (d.chan c).state = .off ∧ d.presentWith c .float = false := by
  unfold Device.startRefusal at h
  split at h; · simp at h
  split at h; · simp at h
  split at h; · simp at h
  split at h; · simp at h
  rename_i h1 h2 h3 h4
  exact ⟨fun hs => by simp [Device.locked, hs] at h1, by simpa using h2, by simpa using h3, by simpa using h4⟩

theorem Device.resumeRefusal_none {d : Device} {c : ChannelId} (h : d.resumeRefusal c = none) :
    d.setup ≠ none ∧ (d.chan c).state = .floated ∧ d.presentWith c .float = false := by
  unfold Device.resumeRefusal at h
  split at h; · simp at h
  split at h; · simp at h
  split at h; · simp at h
  rename_i h1 h2 h3
  exact ⟨fun hs => by simp [Device.locked, hs] at h1, by simpa using h2, by simpa using h3⟩

theorem Device.good_carryOut {d : Device} {code : BitVec 4} {field : BitVec 2} {refusal : Option CmdResult}
    {f : Device → Device} (h : d.Good) (hf : refusal = none → (f d).Good) :
    (d.carryOut code field refusal f).Good := by
  unfold Device.carryOut
  split
  · exact h.leads (Device.leads_answer _ _ _ _)
  · exact ((hf rfl).leads (Device.leads_answer _ _ _ _)).publish

theorem Device.good_writeCmd {d : Device} (h : d.Good) (code : BitVec 4) (field : BitVec 2) :
    (d.writeCmd code field).Good := by
  have ans : ∀ r, (d.answer code field r).Good := fun r => h.leads (Device.leads_answer _ _ _ _)
  unfold Device.writeCmd
  split
  · exact h
  · rename_i hb
    split
    · exact ans _
    · split
      · split
        · exact ans _
        · rename_i hl
          have hs : d.setup = none := by
            cases hs : d.setup
            · rfl
            · simp [Device.locked, hs] at hl
          have hr : d.inReset = false := by
            cases hi : d.inReset
            · rfl
            · simp [Device.takesCommands, hi] at hb
          exact ⟨{ h.1 with
            lockRun := fun _ => hs
            reset := fun hi => absurd (show d.inReset = true from hi) (by simp [hr])
            unlocked := fun hs => { h.1.unlocked hs with } }, h.2⟩
      · split
        · split
          · exact Device.good_softReset h ‹_› field
          · exact ans _
        · split
          · split
            · refine Device.good_carryOut h fun hn => ?_
              have := Device.startRefusal_none hn
              exact h.leads (Device.leads_startChannel this.1 this.2.2.1)
            · split
              · exact Device.good_carryOut h fun hn => Device.sound_stopChannel h.1 h.2 _
              · refine Device.good_carryOut h fun hn => ?_
                exact h.leads (Device.leads_resumeChannel (Device.resumeRefusal_none hn).2.1)
          · exact ans _

theorem Device.leads_settleReads (a : Nat) (d : Device) : d.Leads (d.settleReads a) := by
  unfold Device.settleReads
  simp only
  have h1 : d.Leads { d with
      lockRun := d.lockRun.map (WordReader.beforeWrite d.freeIndex a d.ram), freeIndex := d.freeIndex + 1 } := fun h =>
    ⟨{ h with
        lockRun := fun hl => h.lockRun (by simpa using hl)
        reset := fun hi => ⟨(h.reset hi).1, by simp [(h.reset hi).2.1], (h.reset hi).2.2⟩
        unlocked := fun hs => { h.unlocked hs with } }, { Device.Keeps.refl d with lockRun := by simp }⟩
  generalize WordReader.beforeWrite d.freeIndex a d.ram = ahead at h1
  refine h1.trans (Device.leads_foldl (f := fun x c => x.modChan c fun ch =>
    { ch with fetch := ch.fetch.map fun f => { f with reader := ahead f.reader } }) (fun x c => ?_) allChannels _)
  refine Device.leads_modChan fun _ h => ?_
  have off : (x.chan c).state = .off → (x.chan c).fetch.map (fun f => { f with reader := ahead f.reader }) = none :=
    fun ho => by rw [(h.off ho).2.2.1]; rfl
  exact { h with off := fun ho => ⟨(h.off ho).1, (h.off ho).2.1, off ho, (h.off ho).2.2.2⟩ }

theorem Device.leads_keepHostWord (a : Nat) (d : Device) : d.Leads (d.keepHostWord a) := by
  unfold Device.keepHostWord
  simp only
  have h1 : d.Leads { d with
      capture := { d.capture with copy := d.capture.copy.map fun k => { k with kept := k.kept ++ [a] } }
      statusWrite := d.statusWrite.map fun w => { w with touched := w.touched ++ [a] } } := fun h =>
    ⟨{ h with
        capture :=
          { mode := by simpa using h.capture.mode
            copy := fun k hk => by
              obtain ⟨k0, hk0, rfl⟩ := Option.map_eq_some_iff.1 hk
              exact h.capture.copy k0 hk0
            following := h.capture.following }
        reset := fun hi => ⟨(h.reset hi).1, (h.reset hi).2.1, by simp [(h.reset hi).2.2]⟩
        unlocked := fun hs => { h.unlocked hs with copy := by simp [(h.unlocked hs).copy] } },
      { Device.Keeps.refl d with statusWrite := by simp }⟩
  refine h1.trans (Device.leads_foldl (f := fun x c => x.modChan c fun ch =>
    { ch with log := { ch.log with writing := ch.log.writing.map fun w => { w with kept := w.kept ++ [a] } } })
    (fun x c => ?_) allChannels _)
  refine Device.leads_modChan fun _ h => { h with log := ?_, writing := fun w hw => ?_ }
  · simpa [Log.fits, Log.unreleased] using h.log
  · obtain ⟨w0, hw0, rfl⟩ := Option.map_eq_some_iff.1 hw
    exact h.writing w0 hw0

/-- A host write keeps the invariant; it may change any word of the exchange RAM. -/
theorem Device.good_hostWrite {d : Device} (h : d.Good) (a : Nat) (v : Word) : (d.hostWrite a v).Good := by
  unfold Device.hostWrite
  split
  · simp only
    have h1 : (if d.readsAhead a then d.settleReads a else d).Good :=
      h.leads (.ite (fun _ => Device.leads_settleReads a d) fun _ => .refl d)
    generalize (if d.readsAhead a then d.settleReads a else d) = e at h1
    have h2 : (if e.writesAt a && Config.wordWritten e.freeIndex a then e.keepHostWord a else e).Good :=
      h1.leads (.ite (fun _ => Device.leads_keepHostWord a e) fun _ => .refl e)
    generalize (if e.writesAt a && Config.wordWritten e.freeIndex a then e.keepHostWord a else e) = e at h2
    exact ⟨{ h2.1 with ram := Memory.wf_write h2.1.ram _ _, unlocked := fun hs => { h2.1.unlocked hs with } }, h2.2⟩
  · exact h

theorem Device.leads_writeNotice (v : Word) (d : Device) : d.Leads (d.writeNotice v) :=
  .ite (fun _ h => ⟨{ h with unlocked := fun hs => { h.unlocked hs with } }, { Device.Keeps.refl d with }⟩)
    fun _ => .refl d

theorem Device.leads_writeNoticeEn (v : Word) (d : Device) : d.Leads (d.writeNoticeEn v) :=
  .ite (fun _ h => ⟨{ h with unlocked := fun hs => { h.unlocked hs with } }, { Device.Keeps.refl d with }⟩)
    fun _ => .refl d

theorem Device.good_portWrite {d : Device} (h : d.Good) (address : BitVec 14) (v : Word) :
    (d.portWrite address v).Good := by
  unfold Device.portWrite
  simp only
  split
  · exact Device.good_hostWrite h _ _
  · split
    · exact Device.good_writeCmd h _ _
    · split
      · exact h.leads (Device.leads_writeNotice _ _)
      · split
        · exact h.leads (Device.leads_writeNoticeEn _ _)
        · exact h

end Sys2Proof.Machine
end

