-- ==== Sys2Proof/Laws/HostWords.lean ====
section
/-! SUPPORT. The words of the exchange RAM that are not the part's to write (R171): every operation but a host write and
the clearing at the end of a power-on reset leaves them. For the operations that `Leads` covers, `Keeps.host` says so;
here are the others. And what an abandoned writing leaves (`Device.read_abandonedRam`). -/

namespace Sys2Proof.Machine

open Sys2Proof

/-- The words that are not the part's to write read in `e` as in `d`. -/
def Device.HostKept (d e : Device) : Prop := ∀ a, ¬ partWord a → e.ram.read a = d.ram.read a

theorem Device.HostKept.refl (d : Device) : d.HostKept d := fun _ _ => rfl

theorem Device.HostKept.trans {a b c : Device} (h : a.HostKept b) (k : b.HostKept c) : a.HostKept c :=
  fun x hx => (k x hx).trans (h x hx)

theorem Device.Leads.host {d e : Device} (h : d.Leads e) (hd : d.Sound) : d.HostKept e := (h hd).2.host

theorem Device.HostKept.publish {old d new : Device} (h : d.HostKept new) (hs : new.Sound) :
    d.HostKept (publish old new) := h.trans ((leads_publish old new).host hs)

theorem Device.host_stopChannel {d : Device} (h : d.Sound) (c : ChannelId) : d.HostKept (d.stopChannel c) := by
  unfold Device.stopChannel
  simp only
  have h1 : (d.modChan c Channel.stopping).Sound := h.stopping c
  have l : (d.modChan c Channel.stopping).Leads
      (((((d.modChan c Channel.stopping).withdrawAll c).clearOwnConditions c).unfollow c).handPlain c .stopped).arbitrate :=
    ((((Device.leads_withdrawAll c _).trans (Device.leads_clearOwnConditions c _)).trans (Device.leads_unfollow c _)).trans
      (Device.leads_handPlain _ _ _)).trans (Device.leads_arbitrate _)
  exact l.host h1

theorem Device.host_followFault {d : Device} (h : d.Sound) (line : FaultLine) : d.HostKept (d.followFault line) := by
  unfold Device.followFault
  split
  · rename_i hl
    have hl : d.setup ≠ none := fun hs => by simp [Device.locked, hs] at hl
    split
    · exact (Device.faultSet_assert h hl line 0 0).host
    · exact (Device.faultSet_release h hl line 0 0).host
  · exact .refl d

theorem Device.host_expireFault {d : Device} (h : d.Good) (line : FaultLine) : d.HostKept (d.expireFault line) := by
  unfold Device.expireFault
  split
  · rename_i t _
    simp only
    have h1 := Device.leads_advanceTo (t + BitVec.ofNat 32 Config.faultPersistence) d
    have hg := h.leads h1
    refine (h1.host h.1).trans ?_
    generalize d.advanceTo (t + BitVec.ofNat 32 Config.faultPersistence) = e at hg
    generalize hx : { e.fault line with filtered := !(e.fault line).level, since := none } = x
    have hs := Device.sound_setFault hg.1 line x
    have hr : e.HostKept (e.setFault line x) := by cases line <;> exact fun _ _ => rfl
    have ho : (e.setFault line x).OtherFollows line := by
      intro hl
      have hf := hg.2 (show e.locked = true by cases line <;> exact hl)
      cases line
      · exact ⟨fun hn => absurd rfl hn, fun _ => hf.2⟩
      · exact ⟨fun _ => hf.1, fun hn => absurd rfl hn⟩
    exact (hr.trans (Device.host_followFault hs line)).trans
      ((Device.leads_arbitrate _).host (Device.good_followFault hs line ho).1)
  · exact .refl d

theorem Device.host_abandonedRam {d : Device} (h : d.Sound) {a : Nat} (ha : ¬ partWord a) :
    d.abandonedRam.read a = d.ram.read a := by
  have key : ∀ l : List ChannelId, ∀ m : Memory, m.wf = true → m.read a = d.ram.read a →
      (l.foldl (fun m c => match (d.chan c).log.writing with
        | some w => Memory.writeSome (fun b => !List.contains w.kept b && Config.wordWritten d.freeIndex b) m w.place w.words
        | none => m) m).wf = true ∧
      (l.foldl (fun m c => match (d.chan c).log.writing with
        | some w => Memory.writeSome (fun b => !List.contains w.kept b && Config.wordWritten d.freeIndex b) m w.place w.words
        | none => m) m).read a = d.ram.read a := by
    intro l
    induction l with
    | nil => exact fun m hm hr => ⟨hm, hr⟩
    | cons c rest ih =>
      intro m hm hr
      rw [List.foldl_cons]
      have hm' : (match (d.chan c).log.writing with
          | some w => Memory.writeSome (fun b => !List.contains w.kept b && Config.wordWritten d.freeIndex b) m w.place w.words
          | none => m).wf = true ∧
          (match (d.chan c).log.writing with
          | some w => Memory.writeSome (fun b => !List.contains w.kept b && Config.wordWritten d.freeIndex b) m w.place w.words
          | none => m).read a = d.ram.read a := by
        split
        · rename_i w hw
          obtain ⟨hlen, k, hk, hplace⟩ := (h.channels c).writing.within hw
          refine ⟨Memory.wf_writeSome hm _ _ _, ?_⟩
          rw [Memory.read_writeSome_outside hm, hr]
          by_cases h1 : a < w.place
          · exact .inl h1
          · by_cases h2 : w.place + w.words.length ≤ a
            · exact .inr h2
            · exact absurd (partWord_place hk (by omega) (by omega)) ha
        · exact ⟨hm, hr⟩
      exact ih _ hm'.1 hm'.2
  have hl := key allChannels d.ram h.ram rfl
  unfold Device.abandonedRam
  simp only
  split
  · rename_i k hk
    have := h.capture.copy k hk
    refine (Memory.read_writeSome_outside hl.1 _ _ _ ?_).trans hl.2
    by_cases h1 : a < 0x201
    · exact .inl h1
    · by_cases h2 : 0x201 + k.words.length ≤ a
      · exact .inr h2
      · exact absurd (.inl (by omega)) ha
  · exact hl.2

/-- A word that the part is not writing is not among the words under way. -/
theorem Device.not_mem_wordsUnderWay {d : Device} {a : Nat} (h : d.writesAt a = false) : ∀ v, (a, v) ∉ wordsUnderWay d := by
  intro v hv
  have : ∀ l : List (Nat × Word), (a, v) ∈ l → (l.lookup a).isSome = true := by
    intro l
    induction l with
    | nil => simp
    | cons x rest ih =>
      intro hm
      obtain ⟨k, w⟩ := x
      rw [List.lookup_cons]
      by_cases hk : a = k
      · simp [hk]
      · simp only [List.mem_cons, Prod.mk.injEq, hk, false_and, false_or] at hm
        have hk' : (a == k) = false := by simpa using hk
        simpa only [hk'] using ih hm
  simp [Device.writesAt, this _ hv] at h

/-- A place of a writing that is not among its words is one that it leaves to the host. -/
theorem mem_kept_of_placedWords {place a : Nat} {words : List Word} {kept : List Nat}
    (h : ∀ v, (a, v) ∉ placedWords place words kept) (h1 : place ≤ a) (h2 : a < place + words.length) : a ∈ kept := by
  by_contra hk
  apply h (words[a - place]'(by omega))
  rw [placedWords, List.mem_filter]
  refine ⟨?_, by simpa using hk⟩
  have hi : a - place < (((List.range words.length).map fun k => place + k).zip words).length := by simp; omega
  have hm := List.getElem_mem hi
  rw [List.getElem_zip, List.getElem_map, List.getElem_range, Nat.add_sub_cancel' h1] at hm
  exact hm

/-- The abandoned writings leave every word that the part was not writing (R146, R160). -/
theorem Device.read_abandonedRam {d : Device} (hw : d.ram.wf = true) {a : Nat} (h : d.writesAt a = false) :
    d.abandonedRam.read a = d.ram.read a := by
  have hn := Device.not_mem_wordsUnderWay h
  have some_ : ∀ (m : Memory) place words kept, m.wf = true → (∀ v, (a, v) ∉ placedWords place words kept) →
      Memory.read (Memory.writeSome (fun b => !List.contains kept b && Config.wordWritten d.freeIndex b) m place words) a = m.read a := by
    intro m place words kept hm hp
    rw [Memory.read_writeSome hm]
    split
    · rename_i hc
      exact absurd (mem_kept_of_placedWords hp hc.1 hc.2.1) (by simpa using fun hk => by simp [hk] at hc)
    · rfl
  have key : ∀ l : List ChannelId, (∀ c ∈ l, c ∈ allChannels) → ∀ m : Memory, m.wf = true → m.read a = d.ram.read a →
      (l.foldl (fun m c => match (d.chan c).log.writing with
        | some w => Memory.writeSome (fun b => !List.contains w.kept b && Config.wordWritten d.freeIndex b) m w.place w.words
        | none => m) m).wf = true ∧
      (l.foldl (fun m c => match (d.chan c).log.writing with
        | some w => Memory.writeSome (fun b => !List.contains w.kept b && Config.wordWritten d.freeIndex b) m w.place w.words
        | none => m) m).read a = d.ram.read a := by
    intro l
    induction l with
    | nil => exact fun _ m hm hr => ⟨hm, hr⟩
    | cons c rest ih =>
      intro hl m hm hr
      rw [List.foldl_cons]
      cases hw : (d.chan c).log.writing with
      | none => exact ih (fun c hc => hl c (.tail _ hc)) _ hm hr
      | some w =>
        refine ih (fun c hc => hl c (.tail _ hc)) _ (Memory.wf_writeSome hm _ _ _) ?_
        rw [some_ _ _ _ _ hm, hr]
        intro v hv
        apply hn v
        unfold wordsUnderWay
        refine List.mem_append_left _ (List.mem_append_left _ ?_)
        rw [List.mem_flatMap]
        exact ⟨c, hl c (.head _), by simpa only [hw] using hv⟩
  have hl := key allChannels (fun _ h => h) d.ram hw rfl
  unfold Device.abandonedRam
  simp only
  cases hk : d.capture.copy with
  | none => exact hl.2
  | some k =>
    refine (some_ _ _ _ _ hl.1 ?_).trans hl.2
    intro v hv
    apply hn v
    unfold wordsUnderWay
    exact List.mem_append_left _ (List.mem_append_right _ (by simpa only [hk] using hv))

theorem Device.host_endPin (d : Device) : d.HostKept d.endPin := by
  unfold Device.endPin
  split
  · simp only
    split <;> exact fun _ _ => rfl
  · exact .refl d

theorem Device.host_endStatusWrite {d : Device} (h : d.Sound) : d.HostKept d.endStatusWrite := by
  unfold Device.endStatusWrite
  split
  · intro a ha
    rw [show ∀ x : Device, x.ram.read a = Memory.read x.ram a from fun _ => rfl]
    simp only
    rw [Memory.read_foldl_write h.ram, if_neg]
    intro hm
    simp only [List.mem_filter, statusBlock, List.mem_map, List.mem_range] at hm
    obtain ⟨⟨k, hk, rfl⟩, _⟩ := hm
    exact ha (.inl (by omega))
  · exact .refl d

theorem Device.host_softReset {d : Device} (h : d.Good) (hl : d.locked = true) (field : BitVec 2) :
    d.HostKept (d.softReset field) :=
  Device.HostKept.trans (b := d.softResetValues field) (fun _ ha => Device.host_abandonedRam h.1 ha)
    ((Device.leads_softReset hl field).host (Device.good_softResetValues h hl field).1)

theorem Device.host_endLock {d : Device} (h : d.Good) : d.HostKept d.endLock := by
  unfold Device.endLock
  split
  · rename_i r hr
    simp only
    split
    · exact fun _ _ => rfl
    · exact (Device.good_completeLock h.1 (h.1.lockRun (by simp [hr])) ‹_› (by simp [hr])).2
  · exact .refl d

theorem Device.host_writeCmd {d : Device} (h : d.Good) (code : BitVec 4) (field : BitVec 2) :
    d.HostKept (d.writeCmd code field) := by
  have carry : ∀ (refusal : Option CmdResult) (f : Device → Device),
      (refusal = none → d.HostKept (f d) ∧ (f d).Sound) → d.HostKept (d.carryOut code field refusal f) := by
    intro refusal f hf
    unfold Device.carryOut
    split
    · exact fun _ _ => rfl
    · have := hf rfl
      exact Device.HostKept.publish (new := (f d).answer code field .done) (fun a ha => this.1 a ha)
        (Device.leads_answer _ _ _ _ this.2).1
  unfold Device.writeCmd
  split
  · exact .refl d
  · split
    · exact fun _ _ => rfl
    · split
      · split <;> exact fun _ _ => rfl
      · split
        · split
          · exact Device.host_softReset h ‹_› field
          · exact fun _ _ => rfl
        · split
          · rename_i c _
            split
            · refine carry _ _ fun hn => ?_
              have := Device.startRefusal_none hn
              have hl := Device.leads_startChannel this.1 this.2.2.1
              exact ⟨hl.host h.1, (hl h.1).1⟩
            · split
              · exact carry _ _ fun _ => ⟨Device.host_stopChannel h.1 c, (Device.sound_stopChannel h.1 h.2 c).1⟩
              · refine carry _ _ fun hn => ?_
                have hl := Device.leads_resumeChannel (Device.resumeRefusal_none hn).2.1
                exact ⟨hl.host h.1, (hl h.1).1⟩
          · exact fun _ _ => rfl

end Sys2Proof.Machine
end

