-- ==== Sys2Proof/Laws/Sine.lean ====
section
/-! SUPPORT. The sine table's first quarter against the real sine: each entry is within a half of 32767·sin(2πi/1024), by the
rotation through 2π/1024 carried in whole numbers scaled by 2^60. -/

namespace Sys2Proof.Machine

open Real

/-! ### The sine and the cosine of 2π/1024 -/

theorem cos_half_bounds {x l u l' u' : ℝ} (h0 : 0 ≤ x) (h1 : x ≤ π) (hl : l ≤ cos x) (hu : cos x ≤ u) (hu0 : 0 ≤ u')
    (hl' : 2 * l' ^ 2 ≤ 1 + l) (hu' : 1 + u ≤ 2 * u' ^ 2) : l' ≤ cos (x / 2) ∧ cos (x / 2) ≤ u' := by
  have hc : cos x = 2 * cos (x / 2) ^ 2 - 1 := by rw [← cos_two_mul]; ring_nf
  have hp : 0 ≤ cos (x / 2) := cos_nonneg_of_neg_pi_div_two_le_of_le (by linarith) (by linarith)
  exact ⟨abs_le_of_sq_le_sq' (by linarith) hp |>.2, abs_le_of_sq_le_sq' (by linarith) hu0 |>.2⟩

theorem cos_step_bounds : (99998117528260114265699042 : ℝ) / 10 ^ 26 ≤ cos (π / 512) ∧
    cos (π / 512) ≤ 99998117528260114265699045 / 10 ^ 26 := by
  have hpi := pi_pos
  have h1 : (0 : ℝ) ≤ cos (π / 2) ∧ cos (π / 2) ≤ 0 := by rw [cos_pi_div_two]; simp
  have h2 := cos_half_bounds (l' := 70710678118654752440084435 / 10 ^ 26) (u' := 70710678118654752440084438 / 10 ^ 26)
    (by positivity) (by linarith) h1.1 h1.2 (by norm_num) (by norm_num) (by norm_num)
  have h3 := cos_half_bounds (l' := 92387953251128675612818317 / 10 ^ 26) (u' := 92387953251128675612818320 / 10 ^ 26)
    (by positivity) (by linarith) h2.1 h2.2 (by norm_num) (by norm_num) (by norm_num)
  have h4 := cos_half_bounds (l' := 98078528040323044912618222 / 10 ^ 26) (u' := 98078528040323044912618225 / 10 ^ 26)
    (by positivity) (by linarith) h3.1 h3.2 (by norm_num) (by norm_num) (by norm_num)
  have h5 := cos_half_bounds (l' := 99518472667219688624483694 / 10 ^ 26) (u' := 99518472667219688624483697 / 10 ^ 26)
    (by positivity) (by linarith) h4.1 h4.2 (by norm_num) (by norm_num) (by norm_num)
  have h6 := cos_half_bounds (l' := 99879545620517239271477159 / 10 ^ 26) (u' := 99879545620517239271477162 / 10 ^ 26)
    (by positivity) (by linarith) h5.1 h5.2 (by norm_num) (by norm_num) (by norm_num)
  have h7 := cos_half_bounds (l' := 99969881869620422011576563 / 10 ^ 26) (u' := 99969881869620422011576566 / 10 ^ 26)
    (by positivity) (by linarith) h6.1 h6.2 (by norm_num) (by norm_num) (by norm_num)
  have h8 := cos_half_bounds (l' := 99992470183914454092164648 / 10 ^ 26) (u' := 99992470183914454092164651 / 10 ^ 26)
    (by positivity) (by linarith) h7.1 h7.2 (by norm_num) (by norm_num) (by norm_num)
  have h9 := cos_half_bounds (l' := 99998117528260114265699042 / 10 ^ 26) (u' := 99998117528260114265699045 / 10 ^ 26)
    (by positivity) (by linarith) h8.1 h8.2 (by norm_num) (by norm_num) (by norm_num)
  have : π / 2 / 2 / 2 / 2 / 2 / 2 / 2 / 2 / 2 = π / 512 := by ring
  rwa [this] at h9

theorem sin_step_bounds : (613588464915447535963022 : ℝ) / 10 ^ 26 ≤ sin (π / 512) ∧
    sin (π / 512) ≤ 613588464915447535965025 / 10 ^ 26 := by
  have hc := cos_step_bounds
  have hs : 0 ≤ sin (π / 512) := sin_nonneg_of_nonneg_of_le_pi (by positivity) (by linarith [pi_pos])
  have h := sin_sq_add_cos_sq (π / 512)
  have hc0 : 0 ≤ cos (π / 512) := by linarith [hc.1, show (0 : ℝ) ≤ 99998117528260114265699042 / 10 ^ 26 by norm_num]
  have hl := mul_self_le_mul_self (by norm_num) hc.1
  have hu := mul_self_le_mul_self hc0 hc.2
  exact ⟨abs_le_of_sq_le_sq' (by nlinarith) hs |>.2, abs_le_of_sq_le_sq' (by nlinarith) (by norm_num) |>.2⟩

/-! ### The rotation -/

/-- 2^60 times the cosine and the sine of 2π/1024, rounded down. -/
def stepCos : Int := 1152899801185339686
def stepSin : Int := 7074193361797233

/-- 2^60 times the sine and the cosine of 2πk/1024, nearly. -/
def rotated : Nat → Int × Int
  | 0 => (0, 2 ^ 60)
  | k + 1 =>
    let p := rotated k
    ((p.1 * stepCos + p.2 * stepSin) / 2 ^ 60, (p.2 * stepCos - p.1 * stepSin) / 2 ^ 60)

theorem floor_close (n : Int) : |((n / 2 ^ 60 : Int) : ℝ) - n / 2 ^ 60| ≤ 1 := by
  have h := Int.emod_add_mul_ediv n (2 ^ 60)
  have h1 := Int.emod_nonneg n (show (2 ^ 60 : Int) ≠ 0 by norm_num)
  have h2 := Int.emod_lt_of_pos n (show (0 : Int) < 2 ^ 60 by norm_num)
  generalize n / 2 ^ 60 = q at *
  generalize n % 2 ^ 60 = r at *
  have h0 : (n : ℝ) = r + 2 ^ 60 * q := by exact_mod_cast h.symm
  have h1' : (0 : ℝ) ≤ r := by exact_mod_cast h1
  have h2' : (r : ℝ) ≤ 2 ^ 60 := by exact_mod_cast h2.le
  rw [h0, abs_le]
  constructor <;> linarith

/-- One product of the rotation: the exact factors against the scaled ones. -/
theorem product_close {S s0 x y e : ℝ} (hS : |S - 2 ^ 60 * x| ≤ e) (h0 : |s0 - 2 ^ 60 * y| ≤ 1) (hx : |x| ≤ 1) :
    |S * s0 / 2 ^ 60 - 2 ^ 60 * (x * y)| ≤ e * (|s0| / 2 ^ 60) + 1 := by
  have : S * s0 / 2 ^ 60 - 2 ^ 60 * (x * y) = (S - 2 ^ 60 * x) * (s0 / 2 ^ 60) + x * (s0 - 2 ^ 60 * y) := by ring
  rw [this]
  refine (abs_add_le _ _).trans (add_le_add ?_ ?_)
  · rw [abs_mul, abs_div, abs_of_pos (show (0 : ℝ) < 2 ^ 60 by norm_num)]
    exact mul_le_mul_of_nonneg_right hS (by positivity)
  · rw [abs_mul]
    calc |x| * |s0 - 2 ^ 60 * y| ≤ 1 * 1 := mul_le_mul hx h0 (abs_nonneg _) (by norm_num)
      _ = 1 := one_mul 1

/-- The rotation is off by a bound that grows by 1/64 and 3 at each step. -/
theorem rotated_close (k : Nat) :
    |((rotated k).1 : ℝ) - 2 ^ 60 * sin (k * (π / 512))| ≤ 192 * (65 / 64) ^ k - 192 ∧
      |((rotated k).2 : ℝ) - 2 ^ 60 * cos (k * (π / 512))| ≤ 192 * (65 / 64) ^ k - 192 := by
  induction k with
  | zero => norm_num [rotated]
  | succ k ih =>
    have hs : |(stepSin : ℝ) - 2 ^ 60 * sin (π / 512)| ≤ 1 := by
      have := sin_step_bounds
      rw [abs_le]; unfold stepSin; push_cast; constructor <;> nlinarith
    have hc : |(stepCos : ℝ) - 2 ^ 60 * cos (π / 512)| ≤ 1 := by
      have := cos_step_bounds
      rw [abs_le]; unfold stepCos; push_cast; constructor <;> nlinarith
    have hsum : |(stepCos : ℝ)| / 2 ^ 60 + |(stepSin : ℝ)| / 2 ^ 60 ≤ 65 / 64 := by
      unfold stepCos stepSin; push_cast; rw [abs_of_pos (by norm_num), abs_of_pos (by norm_num)]; norm_num
    have ha : ((k + 1 : Nat) : ℝ) * (π / 512) = k * (π / 512) + π / 512 := by push_cast; ring
    rw [pow_succ (65 / 64 : ℝ) k]
    generalize (65 / 64 : ℝ) ^ k = g at *
    have he : 0 ≤ 192 * g - 192 := (abs_nonneg _).trans ih.1
    have grow : (192 * g - 192) * (|(stepCos : ℝ)| / 2 ^ 60 + |(stepSin : ℝ)| / 2 ^ 60) ≤ (192 * g - 192) * (65 / 64) :=
      mul_le_mul_of_nonneg_left hsum he
    have p1 := product_close ih.1 hc (abs_sin_le_one _)
    have p2 := product_close ih.2 hs (abs_cos_le_one _)
    have p3 := product_close ih.2 hc (abs_cos_le_one _)
    have p4 := product_close ih.1 hs (abs_sin_le_one _)
    have f1 := floor_close ((rotated k).1 * stepCos + (rotated k).2 * stepSin)
    have f2 := floor_close ((rotated k).2 * stepCos - (rotated k).1 * stepSin)
    push_cast at f1 f2
    rw [abs_le] at *
    rw [abs_le, ha, sin_add, cos_add]
    simp only [rotated]
    rw [add_div] at f1
    rw [sub_div] at f2
    refine ⟨⟨?_, ?_⟩, ?_, ?_⟩ <;> linarith [p1.1, p1.2, p2.1, p2.2, p3.1, p3.2, p4.1, p4.2, f1.1, f1.2, f2.1, f2.2]

/-- The table against the rotation: entry k for the sine and entry 256 - k for the cosine. -/
theorem table_near_rotated : ∀ k, k ≤ 128 →
    |65534 * (rotated k).1 - 2 ^ 61 * (sineQuarter.getD k 0 : Nat)| + 2 ^ 30 < 2 ^ 60 ∧
      |65534 * (rotated k).2 - 2 ^ 61 * (sineQuarter.getD (256 - k) 0 : Nat)| + 2 ^ 30 < 2 ^ 60 := by decide +kernel

theorem drift_le {k : Nat} (h : k ≤ 128) : 192 * ((65 : ℝ) / 64) ^ k - 192 ≤ 2 ^ 11 := by
  have : ((65 : ℝ) / 64) ^ k ≤ (65 / 64) ^ 128 := pow_le_pow_right₀ (by norm_num) h
  linarith [show 192 * ((65 : ℝ) / 64) ^ 128 ≤ 2 ^ 11 by norm_num]

/-- A table entry near a scaled value stands within a half of 32767 times that value. -/
theorem entry_close {S : Int} {q : Nat} {x : ℝ} (h : |65534 * S - 2 ^ 61 * (q : Int)| + 2 ^ 30 < 2 ^ 60)
    (hx : |(S : ℝ) - 2 ^ 60 * x| ≤ 2 ^ 11) : |(q : ℝ) - 32767 * x| < 1 / 2 := by
  have h' : |65534 * (S : ℝ) - 2 ^ 61 * q| + 2 ^ 30 < 2 ^ 60 := by exact_mod_cast h
  have h1 := (abs_lt.1 (lt_sub_iff_add_lt.2 h'))
  have h2 := abs_le.1 hx
  rw [abs_lt]
  constructor <;> linarith

/-- Every entry of the first quarter is 32767·sin(2πi/1024) to within a half (R44). -/
theorem sineQuarter_close {i : Nat} (h : i ≤ 256) :
    |((sineQuarter.getD i 0 : Nat) : ℝ) - 32767 * sin (2 * π * i / 1024)| < 1 / 2 := by
  have angle : 2 * π * i / 1024 = i * (π / 512) := by ring
  rw [angle]
  rcases Nat.lt_or_ge 128 i with hi | hi
  · have hk : 256 - i ≤ 128 := by omega
    have hc := (rotated_close (256 - i)).2.trans (drift_le hk)
    have ha : cos ((256 - i : Nat) * (π / 512)) = sin (i * (π / 512)) := by
      rw [← cos_pi_div_two_sub, Nat.cast_sub h]; congr 1; push_cast; ring
    rw [ha] at hc
    have ht := (table_near_rotated (256 - i) hk).2
    rw [Nat.sub_sub_self h] at ht
    exact entry_close ht hc
  · have hc := (rotated_close i).1.trans (drift_le hi)
    exact entry_close (table_near_rotated i hi).1 hc

end Sys2Proof.Machine
end

