-- ==== Sys2Proof/Laws/Spares.lean ====
section
/-! SUPPORT. Which operations leave the channels they are not given (R2): one lemma for each shared operation, up to
the commands of one channel. -/

namespace Sys2Proof.Machine

open Sys2Proof

theorem Device.Spares.refl (c : ChannelId) (d : Device) : d.Spares c d := fun _ _ => rfl

theorem Device.Spares.trans {c : ChannelId} {x y z : Device} (h : x.Spares c y) (k : y.Spares c z) : x.Spares c z :=
  fun c' hc => by rw [k c' hc, h c' hc]

theorem Device.Spares.of_channels {c : ChannelId} {d e : Device} (h : e.channels = d.channels) : d.Spares c e :=
  fun c' _ => by rw [Device.chan_congr h c']

theorem Device.Spares.ite {c : ChannelId} {d a b : Device} {p : Prop} [Decidable p] (ha : p → d.Spares c a)
    (hb : ¬p → d.Spares c b) : d.Spares c (if p then a else b) := by
  split
  · exact ha ‹_›
  · exact hb ‹_›

theorem Device.spares_modChan (c : ChannelId) (f : Channel → Channel) (d : Device) : d.Spares c (d.modChan c f) :=
  fun c' hc => by rw [Device.chan_modChan_other d f hc]

theorem Device.spares_arbitrate (c : ChannelId) (d : Device) : d.Spares c d.arbitrate :=
  fun c' _ => d.handsOut_arbitrate.channels c'

theorem Device.spares_advanceTo (c : ChannelId) (t : RefCount) (d : Device) : d.Spares c (d.advanceTo t) :=
  fun c' _ => by rw [Device.chan_advanceTo]

theorem spares_publish (c : ChannelId) (old new : Device) : new.Spares c (publish old new) :=
  .of_channels rfl

theorem Device.spares_setNotice (c : ChannelId) (bit : Nat) (d : Device) : d.Spares c (d.setNotice bit) :=
  .of_channels rfl

theorem Device.spares_withdrawOne (c : ChannelId) (k : RequestKind) (d : Device) : d.Spares c (d.withdrawOne c k) :=
  .ite (fun _ => Device.Spares.trans (y := { d with requests := d.requests.filter fun e => !e.isOf c k })
    (.of_channels rfl) (Device.spares_modChan _ _ _)) fun _ => .refl _ d

theorem Device.spares_withdrawWindows (c : ChannelId) (d : Device) : d.Spares c (d.withdrawWindows c) :=
  (Device.spares_withdrawOne _ _ _).trans (Device.spares_withdrawOne _ _ _)

theorem Device.spares_gather (c c' : ChannelId) (f : CaptureBuffer → CaptureBuffer) (d : Device) :
    d.Spares c (d.gather c' f) := .ite (fun _ => .of_channels rfl) fun _ => .refl _ d

/-! ### Conditions of the channel -/

theorem Device.spares_applyBrake (c : ChannelId) (d : Device) : d.Spares c (d.applyBrake c) := by
  unfold Device.applyBrake
  simp only
  refine Device.Spares.trans ?_ (Device.spares_withdrawWindows _ _)
  exact .ite (fun _ => (Device.spares_modChan c _ d).trans (Device.spares_modChan _ _ _)) fun _ =>
    Device.spares_modChan _ _ _

theorem Device.spares_afterRise (c : ChannelId) (before : Override) (d : Device) : d.Spares c (d.afterRise c before) :=
  .ite (fun _ => Device.spares_applyBrake c d) fun _ => .refl _ d

theorem Device.spares_afterFall (c : ChannelId) (before : Override) (d : Device) : d.Spares c (d.afterFall c before) :=
  .ite (fun _ => Device.spares_modChan _ _ _) fun _ => .refl _ d

theorem Device.spares_floatChannel (c : ChannelId) (d : Device) : d.Spares c (d.floatChannel c) :=
  ((Device.spares_modChan _ _ _).trans (Device.spares_modChan _ _ _)).trans (Device.spares_withdrawWindows _ _)

theorem Device.spares_hand (c : ChannelId) (item : LogItem) (d : Device) : d.Spares c (d.hand c item) :=
  Device.spares_modChan _ _ _

theorem Device.spares_assertFor (id : ConditionId) (value : Int) (extra : Word) (before : Override) (c : ChannelId)
    (d : Device) : d.Spares c (d.assertFor id value extra before c) := by
  unfold Device.assertFor
  simp only
  refine (Device.spares_afterRise c before d).trans ?_
  generalize Device.afterRise c before d = d1
  refine Device.Spares.trans (y := if (d.action id c == .float && (d.chan c).state == .running) = true
    then d1.floatChannel c else d1) (.ite (fun _ => Device.spares_floatChannel _ _) fun _ => .refl _ _) ?_
  generalize (if (d.action id c == .float && (d.chan c).state == .running) = true then d1.floatChannel c else d1) = d2
  refine (Device.spares_hand c (d2.conditionRecord .conditionAsserted id c value extra) d2).trans ?_
  refine Device.Spares.trans ?_ (Device.spares_gather _ _ _ _)
  refine Device.Spares.trans ?_ (.ite (fun _ => .refl _ _) fun _ => Device.spares_setNotice _ _ _)
  exact .ite (fun _ => Device.spares_hand _ _ _) fun _ => .refl _ _

theorem Device.spares_releaseFor (id : ConditionId) (value : Int) (extra : Word) (before : Override) (c : ChannelId)
    (d : Device) : d.Spares c (d.releaseFor id value extra before c) :=
  ((Device.spares_afterFall c before d).trans (Device.spares_hand _ _ _)).trans (Device.spares_gather _ _ _ _)

/-- A condition of one channel alone: its own three, and HAL of CH0. -/
def ConditionId.ofChannel : ConditionId → Option ChannelId
  | .cur c => some c
  | .zer c => some c
  | .age c => some c
  | .hal => some .ch0
  | _ => none

theorem Device.scope_own {id : ConditionId} {c : ChannelId} (h : id.ofChannel = some c) (d : Device) :
    d.scope id = [c] := by
  cases id <;> simp only [ConditionId.ofChannel, Option.some.injEq, reduceCtorEq] at h <;> subst h
  case hal => rfl
  all_goals rename_i c; cases c <;> rfl

theorem Device.spares_setCondition {id : ConditionId} {c : ChannelId} (h : id.ofChannel = some c) (x : Condition)
    (d : Device) : d.Spares c (d.setCondition id x) := by
  cases id <;> simp only [ConditionId.ofChannel, Option.some.injEq, reduceCtorEq] at h <;> subst h
  case hal => exact .of_channels rfl
  all_goals exact Device.spares_modChan _ _ _

theorem Device.spares_assertCondition {id : ConditionId} {c : ChannelId} (h : id.ofChannel = some c) (value : Int)
    (extra : Word) (d : Device) : d.Spares c (d.assertCondition id value extra) := by
  unfold Device.assertCondition
  simp only [Device.scope_own h, List.foldl_cons, List.foldl_nil]
  refine Device.Spares.trans ?_ (.ite (fun _ => Device.spares_setNotice _ _ _) fun _ => .refl _ _)
  exact (Device.spares_setCondition h _ d).trans (Device.spares_assertFor _ _ _ _ _ _)

theorem Device.spares_releaseCondition {id : ConditionId} {c : ChannelId} (h : id.ofChannel = some c) (value : Int)
    (extra : Word) (d : Device) : d.Spares c (d.releaseCondition id value extra) := by
  unfold Device.releaseCondition
  simp only [Device.scope_own h, List.foldl_cons, List.foldl_nil]
  exact (Device.spares_setCondition h _ d).trans (Device.spares_releaseFor _ _ _ _ _ _)

theorem Device.spares_evaluateFiltered {id : ConditionId} {c : ChannelId} (h : id.ofChannel = some c)
    (outside back : Bool) (f : Nat) (value : Int) (d : Device) : d.Spares c (d.evaluateFiltered id outside back f value) :=
  .ite (fun _ => .ite (fun _ => Device.spares_releaseCondition h _ _ _) fun _ => .refl _ _) fun _ =>
    .ite (fun _ => .ite (fun _ => Device.spares_assertCondition h _ _ _) fun _ => Device.spares_setCondition h _ _)
      fun _ => Device.spares_setCondition h _ _

theorem Device.spares_evaluateCur (c : ChannelId) (m : Option Nat) (d : Device) : d.Spares c (d.evaluateCur c m) := by
  unfold Device.evaluateCur
  split
  · exact Device.spares_evaluateFiltered rfl _ _ _ _ _
  · exact .refl _ _

theorem Device.spares_evaluateAge (c : ChannelId) (d : Device) : d.Spares c (d.evaluateAge c) :=
  .ite (fun _ => Device.spares_assertCondition rfl _ _ _) fun _ => .refl _ _

theorem Device.spares_releaseAge (c : ChannelId) (g : Word) (d : Device) : d.Spares c (d.releaseAge c g) :=
  .ite (fun _ => Device.spares_releaseCondition rfl _ _ _) fun _ => .refl _ _

theorem Device.spares_evaluateHal (code : BitVec 3) (d : Device) : d.Spares .ch0 (d.evaluateHal code) := by
  unfold Device.evaluateHal
  refine .ite (fun _ => .refl _ _) fun _ => ?_
  split
  · exact .ite (fun _ => .refl _ _) fun _ => Device.spares_assertCondition rfl _ _ _
  · exact .ite (fun _ => Device.spares_releaseCondition rfl _ _ _) fun _ => .refl _ _

theorem Device.spares_clearOwnConditions (c : ChannelId) (d : Device) : d.Spares c (d.clearOwnConditions c) := by
  unfold Device.clearOwnConditions
  simp only
  generalize hf : (fun ch : Channel => { ch with
      cur := { ch.cur with asserted := false, count := 0 }
      zer := { ch.zer with asserted := false, count := 0 }
      age := { ch.age with asserted := false, count := 0 } }) = f
  have h := Device.spares_modChan c f d
  generalize d.modChan c f = x at h
  exact .ite (fun _ => h.trans (.of_channels rfl)) fun _ => h

/-! ### The load event and the fetch -/

theorem Device.spares_selectPeriod (c c' : ChannelId) (p : ClosedPeriod) (d : Device) :
    d.Spares c (d.selectPeriod c' p) := by
  unfold Device.selectPeriod
  split
  · exact .ite (fun _ => .ite (fun _ => .of_channels rfl) fun _ => .of_channels rfl) fun _ => .refl _ _
  · exact .refl _ _

theorem Device.spares_closePeriod (c : ChannelId) (d : Device) : d.Spares c (d.closePeriod c) := by
  unfold Device.closePeriod
  split
  · rename_i e _
    simp only
    refine Device.Spares.trans ?_ (Device.spares_selectPeriod _ _ _ _)
    generalize closedPeriod (d.chan c) e = p
    refine (Device.spares_modChan c (Channel.countClose p) d).trans ?_
    refine (Device.spares_evaluateCur c p.metric _).trans ?_
    exact .ite (fun _ => Device.spares_hand _ _ _) fun _ => .refl _ _
  · exact .refl _ _

theorem Device.spares_loadLegs (c : ChannelId) (d : Device) : d.Spares c (d.loadLegs c) := by
  unfold Device.loadLegs
  refine .ite (fun _ => .ite (fun _ => Device.spares_modChan _ _ _) fun _ => ?_) fun _ => .refl _ _
  split
  · exact ((Device.spares_modChan c _ d).trans (Device.spares_modChan c _ _)).trans (Device.spares_modChan c _ _)
  · exact .refl _ _

theorem Device.spares_enterRequests (c c' : ChannelId) (d : Device) : d.Spares c (d.enterRequests c') := by
  unfold Device.enterRequests
  split
  · exact .of_channels rfl
  · exact .refl _ _

theorem Device.spares_followSet (c : ChannelId) (d : Device) : d.Spares c (d.followSet c) :=
  (Device.Spares.trans (.ite (fun _ => .refl _ _) fun _ => Device.spares_modChan _ _ _)
    (Device.spares_loadLegs c _)).trans (Device.spares_enterRequests _ _ _)

theorem Device.spares_openPeriod (c : ChannelId) (d : Device) : d.Spares c (d.openPeriod c) := by
  unfold Device.openPeriod
  simp only
  refine (Device.spares_modChan c (Channel.openPeriod (d.cfg c) d.refCount) d).trans ?_
  generalize d.modChan c (Channel.openPeriod (d.cfg c) d.refCount) = x
  refine Device.Spares.trans (y := x.followPeriod c) (.ite (fun _ => .of_channels rfl) fun _ => .refl _ _) ?_
  generalize x.followPeriod c = y
  refine Device.Spares.trans ?_ (Device.spares_modChan _ _ _)
  exact .ite (fun _ => .ite (fun _ => (Device.spares_evaluateAge c y).trans (Device.spares_followSet c _)) fun _ =>
    (Device.spares_followSet c y).trans (Device.spares_evaluateAge c _)) fun _ => Device.spares_followSet c y

theorem Device.spares_load (c : ChannelId) (d : Device) : d.Spares c (d.load c) := by
  unfold Device.load
  split
  · refine .ite (fun _ => ?_) fun _ => .refl _ _
    refine Device.Spares.trans ?_ (Device.spares_arbitrate _ _)
    exact (((Device.spares_advanceTo c _ d).trans (Device.spares_closePeriod c _)).trans (Device.spares_modChan c _ _)).trans
      (Device.spares_openPeriod c _)
  · exact .refl _ _

theorem Device.spares_endFetch (c : ChannelId) (d : Device) : d.Spares c (d.endFetch c) := by
  unfold Device.endFetch
  split
  · rename_i f _
    unfold Device.decideFetch
    simp only
    refine (Device.spares_modChan c (fun ch => { ch with fetch := none }) d).trans ?_
    generalize d.modChan c (fun ch => { ch with fetch := none }) = x
    split
    · exact Device.spares_modChan _ _ _
    · exact .refl _ _
    · exact .refl _ _
    · exact (Device.spares_modChan c _ x).trans (Device.spares_hand _ _ _)
    · exact (Device.spares_modChan c _ x).trans (Device.spares_releaseAge _ _ _)
  · exact .refl _ _

/-! ### The other events of a channel -/

theorem Device.spares_peak (c : ChannelId) (d : Device) : d.Spares c (d.peak c) := by
  unfold Device.peak
  split
  · exact .ite (fun _ => (Device.spares_advanceTo c _ d).trans (Device.spares_modChan c _ _)) fun _ => .refl _ _
  · exact .refl _ _

theorem Device.spares_endComputation (c : ChannelId) (d : Device) : d.Spares c (d.endComputation c) := by
  unfold Device.endComputation
  split
  · exact Device.spares_modChan _ _ _
  · exact .refl _ _

theorem Device.spares_endPlacement (c : ChannelId) (d : Device) : d.Spares c (d.endPlacement c) := by
  unfold Device.endPlacement
  split
  · exact Device.spares_modChan _ _ _
  · exact .refl _ _

theorem Device.spares_pulseEdge (c : ChannelId) (leg : Leg) (edge : PulseEdge) (d : Device) :
    d.Spares c (d.pulseEdge c leg edge) := by
  unfold Device.pulseEdge
  split
  · refine .ite (fun _ => ?_) fun _ => .refl _ _
    split
    · exact (Device.spares_advanceTo c _ d).trans (Device.spares_modChan c _ _)
    · exact (Device.spares_advanceTo c _ d).trans (Device.spares_modChan c _ _)
  · exact .refl _ _

theorem Device.spares_takeTurnOn (c : ChannelId) (leg : Leg) (d : Device) : d.Spares c (d.takeTurnOn c leg) := by
  unfold Device.takeTurnOn
  split
  · exact (Device.spares_advanceTo c _ d).trans (Device.spares_modChan c _ _)
  · exact .refl _ _

theorem Device.spares_judgeRelease (c : ChannelId) (d : Device) : d.Spares c (d.judgeRelease c) :=
  .ite (fun _ => Device.spares_modChan _ _ _) fun _ =>
    (Device.spares_modChan c (fun ch => { ch with log := { ch.log with badRelease := true } }) d).trans
      (Device.spares_setNotice _ _ _)

theorem Device.spares_noticeRefusal (c : ChannelId) (event : Option EventCode) (d : Device) :
    d.Spares c (d.noticeRefusal c event) := .ite (fun _ => Device.spares_setNotice _ _ _) fun _ => .refl _ _

theorem Device.spares_placeRecord (c : ChannelId) (item : LogItem) (d : Device) : d.Spares c (d.placeRecord c item) := by
  unfold Device.placeRecord
  simp only
  split
  · exact .ite (fun _ => (Device.spares_modChan c _ d).trans (Device.spares_modChan c _ _)) fun _ =>
      Device.spares_modChan _ _ _
  · exact .ite (fun _ => Device.spares_modChan _ _ _) fun _ =>
      ((Device.spares_modChan c (fun ch => { ch with log := { ch.log with eventLost := true } }) d).trans
        (Device.spares_setNotice _ _ _)).trans (Device.spares_noticeRefusal c _ _)

theorem Device.spares_takeRecord (c : ChannelId) (d : Device) : d.Spares c (d.takeRecord c) := by
  unfold Device.takeRecord
  split
  · rename_i item rest _ _
    refine (Device.spares_modChan c (fun ch => { ch with log := { ch.log with waiting := rest } }) d).trans ?_
    exact (Device.spares_judgeRelease c _).trans (Device.spares_placeRecord c item _)
  · exact .refl _ _

theorem Device.spares_endRecord (c : ChannelId) (d : Device) : d.Spares c (d.endRecord c) := by
  unfold Device.endRecord
  split
  · rename_i w _
    simp only
    refine Device.Spares.trans (y := { d with ram := Memory.writeSome (fun a => !w.kept.contains a) d.ram w.place w.words }) (.of_channels rfl) ?_
    generalize ({ d with ram := Memory.writeSome (fun a => !w.kept.contains a) d.ram w.place w.words } : Device) = x
    refine (Device.spares_modChan c (fun ch =>
      { ch with log := { ch.log with written := ch.log.written + 1, writing := none } }) x).trans ?_
    exact Device.Spares.trans (.ite (fun _ => Device.spares_setNotice _ _ _) fun _ => .refl _ _)
      (Device.spares_noticeRefusal c _ _)
  · exact .refl _ _

/-! ### The commands of a channel -/

theorem Device.spares_startChannel (c : ChannelId) (d : Device) : d.Spares c (d.startChannel c) := by
  unfold Device.startChannel
  simp only
  refine Device.Spares.trans ?_ (Device.spares_arbitrate _ _)
  refine (Device.spares_modChan c (Channel.starting (d.cfg c)) d).trans ?_
  refine (Device.spares_clearOwnConditions c _).trans ?_
  generalize (d.modChan c (Channel.starting (d.cfg c))).clearOwnConditions c = x
  refine Device.Spares.trans (y := x.brakeAtStart c)
    (.ite (fun _ => (Device.spares_modChan c _ x).trans (Device.spares_modChan c _ _)) fun _ => .refl _ _) ?_
  generalize x.brakeAtStart c = y
  refine (Device.spares_openPeriod c y).trans ?_
  generalize y.openPeriod c = y
  refine Device.Spares.trans (y := y.showStatus [statusBase c + 5]) (.of_channels rfl) ?_
  generalize y.showStatus [statusBase c + 5] = z
  refine Device.Spares.trans (y := z.handPlain c .started) (Device.spares_hand c _ _) ?_
  generalize z.handPlain c .started = w
  unfold Device.halAtStart
  split
  · exact Device.spares_evaluateHal _ _
  · exact .refl _ _

theorem Device.spares_stopChannel (c : ChannelId) (d : Device) : d.Spares c (d.stopChannel c) := by
  unfold Device.stopChannel
  simp only
  refine Device.Spares.trans ?_ (Device.spares_arbitrate _ _)
  refine (Device.spares_modChan c Channel.stopping d).trans ?_
  generalize d.modChan c Channel.stopping = x
  refine Device.Spares.trans (y := x.withdrawAll c) (.of_channels rfl) ?_
  refine (Device.spares_clearOwnConditions c _).trans ?_
  refine Device.Spares.trans (y := ((x.withdrawAll c).clearOwnConditions c).unfollow c) ?_ (Device.spares_hand _ _ _)
  exact .ite (fun _ => .of_channels rfl) fun _ => .refl _ _

theorem Device.spares_resumeChannel (c : ChannelId) (d : Device) : d.Spares c (d.resumeChannel c) := by
  unfold Device.resumeChannel
  simp only
  refine Device.Spares.trans ?_ (Device.spares_hand _ _ _)
  exact .ite (fun _ => (Device.spares_modChan c _ d).trans (Device.spares_modChan c _ _)) fun _ =>
    Device.spares_modChan _ _ _

theorem Device.spares_answer (c : ChannelId) (code : BitVec 4) (field : BitVec 2) (r : CmdResult) (d : Device) :
    d.Spares c (d.answer code field r) := .of_channels rfl

theorem Device.spares_carryOut {c : ChannelId} {f : Device → Device} (code : BitVec 4) (field : BitVec 2)
    (refusal : Option CmdResult) {d : Device} (hf : d.Spares c (f d)) : d.Spares c (d.carryOut code field refusal f) := by
  unfold Device.carryOut
  split
  · exact Device.spares_answer _ _ _ _ d
  · exact (hf.trans (Device.spares_answer c code field .done (f d))).trans (spares_publish c d _)

/-- A START, STOP or RESUME leaves the other channels. -/
theorem Device.spares_writeCmd (c : ChannelId) {code : BitVec 4} (h : code = 2 ∨ code = 3 ∨ code = 4) (d : Device) :
    d.Spares c (d.writeCmd code (channelField c)) := by
  have hc : channelOfNat (channelField c).toNat = some c := by cases c <;> rfl
  unfold Device.writeCmd
  split
  · exact .refl _ _
  split
  · exact Device.spares_answer _ _ _ _ d
  rw [hc, if_neg (by rcases h with rfl | rfl | rfl <;> decide), if_neg (by rcases h with rfl | rfl | rfl <;> decide)]
  exact .ite (fun _ => Device.spares_carryOut _ _ _ (Device.spares_startChannel c d)) fun _ =>
    .ite (fun _ => Device.spares_carryOut _ _ _ (Device.spares_stopChannel c d)) fun _ =>
      Device.spares_carryOut _ _ _ (Device.spares_resumeChannel c d)

end Sys2Proof.Machine
end

