-- ==== Sys2Proof/Tests/Slice0.lean ====
section
/-! SUPPORT. Tests: ill-formed commands, the worked examples of the manual's chapters (expected values are the manual's own
figures), the state after reset, and one witness for every statement that has hypotheses: a state and operands that meet
all of them together. -/

namespace Sys2Proof.Tests

set_option Elab.async false

open Sys2Proof Sys2Proof.Machine

/-! ### Helpers -/

/-- What a command leaves. -/
def after (i : Instr) (s : State) : State :=
  match exec i s with
  | .next t => t
  | .fault _ => s
  | .refused _ => s

/-- CH0's group: the setup of section 4.10, the trims and bounds of section 7.5, the Hall tables of Chapter 9. -/
def group0 : List Word :=
  [3, 2000, 64, 160, 24, 23, 4, 1900, 2200, 1, 1000, 100, 0, 0, 0, 4,
   4, 512, 6, 0, 2, 1, 4, 5, 3, 7, 0, 10923, 21845, 32768, 43691, 54613]

/-- CH1's group: the setup of section 4.12; the action of LOV is BRAKE. -/
def group1 : List Word :=
  [1, 1000, 400, 420, 16, 15, 1, 1900, 2200, 64, 1000, 100, 0, 0x2000, 0, 0] ++ List.replicate 16 0

/-- CH2's group: as CH1's, with the bounds of the zero sequence of section 7.3. -/
def group2 : List Word :=
  [0, 1000, 400, 420, 16, 15, 8, 1900, 2200, 64, 1000, 100, 0, 0, 0, 0] ++ List.replicate 16 0

/-- The global group: the trims of section 7.5, limits, and FLT0 mapped to CH0, FLT1 to CH1 and CH2. -/
def globalGroup : List Word := [32768, 32768, 32768, 30000, 3000, 100, 0, 500, 100, 0, 1, 6] ++ List.replicate 20 0

def setupWords : List Word := group0 ++ group1 ++ group2 ++ globalGroup

/-- A locked part with every channel OFF. -/
def lockedPart : Device :=
  { Device.initial with
    setup := some setupWords, outputsDriven := true, capture := CaptureUnit.reset (some 32768)
    hall := { HallTimer.reset 1 with acquiring := some 0 }
    channels := { ch0 := Channel.reset 2000, ch1 := Channel.reset 1000, ch2 := Channel.reset 1000 } }

def locked : State := { lockedPart with pending := [] }

/-- The drives of section 4.10. -/
def ordinaryRun : PlacementRun :=
  { since := 0, period := 120, modulus := 2000, demands := { a := .pulse 5492, b := .pulse 2496, c := .pulse 5503 }
    vector := .zero }

/-- The set of section 4.10. -/
def ordinarySet : EdgeSet := placedSet (channelSetup setupWords .ch0) ordinaryRun

/-- The plan of section 9.4. -/
def drumPlan : Plan := { Plan.null 2000 with mode := .rotate, snap := true, rate := 2621, generation := 7 }

/-- A record that waits. -/
def skipRecord : EventRecord :=
  { code := .hallSkip, periodCount := 120, condition := 0, value := 0, action := 0, extra := 0, state := .running }

/-- CH0 on its way, with work of every kind in progress. -/
def drum : Channel :=
  { Channel.reset 2000 with
    state := .running, periodCount := 120, staged := some ordinarySet, inForce := some ordinarySet, plan := drumPlan
    fetch := some { period := 120, reader := { since := 0, todo := fetchOrder .ch0, got := [] } }
    computation := some {
      since := 0, period := 121, plan := drumPlan, state := .running, override := .none, hold := false, theta := 10000
      q := 0, va := 0, pendingAngle := none, metric := none, zeroed := false }
    placement := some ordinaryRun
    log := { Log.reset with waiting := [.event skipRecord] } }

/-- The part with CH0 as given. -/
def withDrum (ch : Channel) : State := { lockedPart with channels := { lockedPart.channels with ch0 := ch }, pending := [] }

def running : State := withDrum drum

/-- CH0 floated. -/
def floated : State := withDrum { drum with state := .floated, floatedLatch := true }

/-! ### Well-formedness -/

theorem test_unknown_needs_bad_fields : wellFormed (.unknownCommand 2 1) = false := by decide +kernel
theorem test_unknown_code_6 : wellFormed (.unknownCommand 6 0) = true := by decide +kernel
theorem test_unknown_start_3 : wellFormed (.unknownCommand 2 3) = true := by decide +kernel
theorem test_write_of_cmd_has_its_rows : wellFormed (.registerWrite 0x2001 0x0010) = false := by decide +kernel
theorem test_write_of_notice_has_its_row : wellFormed (.registerWrite 0x2003 1) = false := by decide +kernel
theorem test_write_of_notice_en_has_its_row : wellFormed (.registerWrite 0x2004 1) = false := by decide +kernel
theorem test_write_of_ram : wellFormed (.registerWrite 0x0080 1) = true := by decide +kernel
theorem test_no_row_gives_bits : decodeTableWord 16 0x0011 = none := by decide +kernel

/-! ### The state after reset -/

theorem test_reset_memory : Memory.wf State.reset.ram = true := by decide +kernel
/-- R1: the counter steps at even positions; from P/2 = 4000 it holds M = 2000 for a whole tick, and it is 1 until P. -/
theorem test_counter_on_the_way_down :
    ([3999, 4000, 4001, 4002, 7999].map fun t =>
      ({ running with refCount := drum.loadTime + t } : State).timebaseCounter .ch0) = [1999, 2000, 2000, 1999, 1] := by
  decide +kernel
theorem test_reset_ready : State.reset.ready = true := by decide +kernel
theorem test_reset_status : statRegister State.reset.toDevice = 0x8000 := by decide +kernel
theorem test_reset_zero_level : Memory.read State.reset.ram 0x0107 = 2048 := by decide +kernel

/-- The state after reset is what a power-on reset and its two ends leave, but for the model's own counter. -/
theorem test_reset_is_a_power_on_reset :
    let t := after .statusResetWriteEnd (after .powerOnResetEnd (after .powerOnReset State.reset))
    { t with freeIndex := 0 } = State.reset := by decide +kernel

/-! ### The voltage vector (Chapter 3) -/

/-- Section 3.8, the ordinary vector: θ_mid 5461, V_a 16384, P 8000. -/
theorem test_ordinary_vector :
    centred (phaseVoltages 16384 5461) = { a := 12230, b := -12316, c := 12317 } ∧
      (centred (phaseVoltages 16384 5461)).map (legWidth 8000) = { a := 5492, b := 2496, c := 5503 } := by decide +kernel

/-- Section 3.8, the full amplitude: θ_mid 10880, P 4000, D 400. -/
theorem test_full_amplitude :
    (centred (phaseVoltages 32767 10880)).map (fun u => clampedDemand 4000 400 (legWidth 4000 u)) =
      { a := .high, b := .low, c := .pulse 2018 } := by decide +kernel

/-- Section 3.5, the two wraps. -/
theorem test_angles :
    thetaMid { drumPlan with rate := 301 } 65300 (BitVec.ofInt 16 (-40)) none = 175 ∧
      thetaMid { drumPlan with rate := -301 } 100 0 none = 65184 ∧
      advancedTheta { drumPlan with rate := -301 } 100 0 none = 65335 := by decide +kernel

/-- Section 3.3, the slew. -/
theorem test_slew :
    amplitudeStep { drumPlan with target := 16384, slew := 2000 } false 10000 none = 12000 ∧
      amplitudeStep { drumPlan with target := 16384, slew := 2000 } false 16000 none = 16384 := by decide +kernel

/-! ### Window placement (Chapter 4) -/

/-- Section 4.10. -/
theorem test_ordinary_set :
    ordinarySet.order = .cab ∧ ordinarySet.s1 = 154 ∧ ordinarySet.s2 = 0 ∧
      ordinarySet.drives = { a := .pulse 1254 6746, b := .pulse 2752 5248, c := .pulse 1094 6597 } ∧
      ordinarySet.requests = [⟨.first, 1230, 1253⟩, ⟨.second, 2728, 2751⟩, ⟨.zero, 6906, 7871⟩, ⟨.link, 4000, 7871⟩] := by
  decide +kernel

/-- Section 4.11. -/
theorem test_zero_override_set :
    (placedSet (channelSetup setupWords .ch0) { ordinaryRun with
      period := 121, demands := { a := .pulse 4000, b := .pulse 4000, c := .pulse 4000 } }).requests =
      [⟨.first, 1976, 1999⟩, ⟨.second, 2136, 2159⟩, ⟨.link, 4000, 7871⟩] := by decide +kernel

/-- Section 4.12. -/
theorem test_low_min_leg :
    let set := placedSet (channelSetup setupWords .ch1) { ordinaryRun with
      modulus := 1000, demands := { a := .pulse 411, b := .pulse 3600, c := .low } }
    set.order = .bac ∧ set.second = .failedShort ∧ set.requests = [⟨.first, 1778, 1793⟩] := by decide +kernel

/-- Section 4.13, with legs B and C LOW. -/
theorem test_failed_late :
    let set := placedSet (channelSetup setupWords .ch1) { ordinaryRun with
      modulus := 1000, demands := { a := .high, b := .low, c := .low } }
    set.first = .failedLate ∧ set.second = .absent ∧ set.requests = [] := by decide +kernel

/-- Section 4.14. -/
theorem test_shift_cut_short :
    let set := placedSet (channelSetup setupWords .ch1) { ordinaryRun with
      modulus := 1000, demands := { a := .pulse 3540, b := .pulse 440, c := .pulse 3560 } }
    set.s1 = 20 ∧ set.first = .failedShort ∧ set.requests = [⟨.second, 1764, 1779⟩] := by decide +kernel

/-! ### The converter arbiter (Chapter 6) -/

/-- The list of section 6.5, both converters free at 1000. -/
def reachPart : Device :=
  { lockedPart with
    refCount := 1000
    requests := [⟨.ch1, .first, 1000, 1023, 1⟩, ⟨.ch0, .second, 1010, 1033, 1⟩, ⟨.ch2, .first, 1015, 1038, 1⟩] }

/-- Section 6.5: CVB takes CH1 FIRST at 1000, CVA takes CH0 SECOND at 1010, and CH2 FIRST is missed at 1039. -/
theorem test_reach_and_a_miss :
    let s1 := after (.entryDue .ch1 .first) { reachPart with pending := [] }
    let s2 := after (.entryMissed .ch2 .first) (after (.entryDue .ch0 .second) s1)
    (s1.cvb.map Conversion.start = some 1000 ∧ s1.cva = none) ∧ s2.cva.map Conversion.start = some 1010 ∧
      s2.refCount = 1039 ∧ s2.requests = [] ∧ (s2.chan .ch2).counters.missedConversions = 1 := by decide +kernel

/-- Section 6.7, the guard on CVB at 200150 and its end at 200250. -/
theorem test_guarded_start :
    let d : Device := { lockedPart with
      refCount := 200150
      cva := some { entry := ⟨.ch0, .first, 200072, 200080, 1⟩, start := 200072, discard := false }
      requests := [⟨.ch2, .second, 200250, 200265, 1⟩, ⟨.ch1, .zero, 199900, 200700, 1⟩, ⟨.ch0, .link, 200000, 202900, 1⟩] }
    d.arbitrate.cvb = none ∧
      (after (.conversionComplete .cva 0) { d with pending := [] }).cva.map (fun k => k.entry.kind) = some .link := by decide +kernel

/-- Section 6.7, both converters free at 300000. -/
theorem test_both_free :
    let d : Device := { lockedPart with
      refCount := 300000
      requests := [⟨.ch1, .first, 299990, 300005, 1⟩, ⟨.ch0, .second, 299995, 300018, 1⟩, ⟨.ch2, .zero, 299000, 300900, 1⟩,
        ⟨.ch0, .link, 299500, 302100, 1⟩] }
    (d.arbitrate.cvb.map fun k => k.entry.channel) = some .ch1 ∧
      (d.arbitrate.cva.map fun k => k.entry.kind) = some .second ∧ d.arbitrate.requests.length = 2 := by decide +kernel

/-! ### The conditioner (Chapter 7) -/

/-- Section 7.2 and the LINK code of section 7.5. -/
theorem test_corrected_codes :
    correctedCode 32768 3021 = 3021 ∧ correctedCode 30000 2600 = 2545 ∧ correctedCode 65535 3276 = 4094 ∧
      correctedCode 65535 3277 = 4095 := by decide +kernel

/-- Section 7.3: five samples of 2040 from 16384. -/
theorem test_zero_tracking :
    trackedZero (trackedZero (trackedZero (trackedZero (trackedZero 16384 2040) 2040) 2040) 2040) 2040 = 16354 ∧
      zeroLevel 16376 = 2047 ∧ zeroLevel 16354 = 2044 ∧ trackedZero 16320 2048 = 16328 ∧ zeroLevel 16328 = 2041 := by decide +kernel

/-- Section 7.5: the samples 981 and 933 under the order C, A, B; and the injected values that saturate. -/
theorem test_currents :
    let ch := { drum with buffer := { PeriodBuffer.empty with first := some ⟨981, 3021⟩, second := some ⟨933, 2973⟩ } }
    let injecting := { ch with plan := { drumPlan with inject := true, injectFirst := 3000, injectSecond := -2000 } }
    (closedPeriod ch ordinarySet).currents = { a := some ⟨-48, false⟩, b := some ⟨-933, false⟩, c := some ⟨981, false⟩ } ∧
      (closedPeriod ch ordinarySet).metric = some 981 ∧
      (closedPeriod injecting ordinarySet).currents =
        { a := some ⟨-4095, true⟩, b := some ⟨2000, false⟩, c := some ⟨3000, false⟩ } ∧
      (closedPeriod injecting ordinarySet).metric = some 4095 := by decide +kernel

/-! ### Plans and the Hall timer (Chapters 2, 9) -/

/-- Section 2.4: the clamped plan, and guards of 5000 and 4500. -/
theorem test_clamps :
    let slot : List Word := [77, 3, 0, 2000, 40000, 500, BitVec.ofInt 16 (-9000), 0, 0, 5000, 4500, 0, 0, 0]
    let plan := clampedPlan slot .rotate
    plan.target = 32767 ∧ plan.slew = 500 ∧ plan.rate = -8191 ∧ plan.interval = 1 ∧ plan.guardHigh = 4095 ∧
      plan.guardLow = 4095 ∧ needsClamp slot plan = true := by decide +kernel

/-- CH0 of section 9.4, the accepted code 1 in sector 0 and a run for code 3 since 3003000. -/
def snapState : State :=
  { withDrum { drum with theta := 10000, loadTime := 3000000 } with
    refCount := 3003000
    hall := { HallTimer.reset 3 with
      accepted := some 1, refSector := some 0, run := some { first := 3003000, last := 3003000, measure := 0 } } }

/-- Section 9.4, the snap before the peak. -/
theorem test_snap_before_the_peak :
    let t := after .hallFilterExpiry snapState
    t.refCount = 3003512 ∧ t.hall.direction = .forward ∧ t.hall.snapError = some (-59) ∧
      (t.chan .ch0).q = BitVec.ofInt 16 (-59) := by decide +kernel

/-- Section 9.4, the snap across a load event, clamped to 512. -/
theorem test_snap_clamped :
    snapError setupWords { drum with theta := 45000, loadTime := 5000000, plan := { drumPlan with rate := -2621 } }
      8000 .reverse 4 4999800 = 9548 := by decide +kernel

/-! ### Command results -/

theorem test_lock_then_invalid :
    (after .lockEnd (after (.lock 2) State.reset)).cmd = { result := .setupInvalid, command := 1, channel := 2 } := by decide +kernel
theorem test_start_before_lock : (after (.start .ch0) State.reset).cmd.result = .notLocked := by decide +kernel
theorem test_setup_passes : setupError setupWords = none := by decide +kernel
theorem test_start_of_a_disabled_channel : (after (.start .ch2) locked).cmd.result = .notEnabled := by decide +kernel
theorem test_step_takes_the_front_command :
    ∃ t, step { State.reset with pending := [.noticeEnWrite 0x1FFF, .stop .ch1] } = .next t ∧
      t.noticeEn = 0x1FFF ∧ t.pending = [.stop .ch1] := ⟨_, rfl, by decide⟩

/-! ### Witnesses: states that meet the hypotheses of the statements -/

theorem reset_inv : State.reset.Inv := Device.sound_initial (m := resetStatusWords) (by decide) _ _ _ _ _ _

/-- A part locked with `setupWords`, CH0 as given, that holds no request and no assertion, is sound. -/
theorem withDrum_inv {ch : Channel} (h : ch.Sound (some setupWords) .ch0) : (withDrum ch).Inv :=
  ⟨{ ram := (by decide : lockedPart.ram.wf = true)
     setup := fun words hw => by
       have : words = setupWords := (Option.some.inj hw).symm
       rw [this]; exact test_setup_passes
     outputs := rfl
     lockRun := fun hl => by simp [withDrum, lockedPart, Device.initial] at hl
     reset := fun hr => by simp [withDrum, lockedPart, Device.initial, Device.inReset] at hr
     unlocked := fun hu => by simp [withDrum, lockedPart] at hu
     channels := fun c => by
       cases c
       · exact h
       · exact Channel.sound_reset _ _ _
       · exact Channel.sound_reset _ _ _
     conditions := ⟨Condition.sane_clear, Condition.sane_clear, Condition.sane_clear, Condition.sane_clear,
       Condition.sane_clear⟩
     capture := CaptureUnit.sound_reset _
     hall := ⟨(by decide : lockedPart.hall.elapsed ≤ _), fun _ hr => by
       simp [withDrum, lockedPart, HallTimer.reset] at hr, (by decide : lockedPart.hall.interval ≤ 65535)⟩ },
   fun _ => ⟨rfl, rfl⟩⟩

theorem locked_inv : locked.Inv := withDrum_inv (Channel.sound_reset _ _ _)

/-- `drum`, RUNNING or FLOATED, is sound. -/
theorem drum_sound {state : ChannelState} {latch : Bool} (hs : state ≠ .off) (hl : latch = true ↔ state = .floated) :
    ({ drum with state := state, floatedLatch := latch } : Channel).Sound (some setupWords) .ch0 where
  legs := LegsSound.of_idle fun l => by cases l <;> rfl
  latch := hl
  off := fun h => absurd h hs
  on := fun _ => ⟨rfl, rfl⟩
  sets := fun e he => by
    have : e = ordinarySet := by
      rcases he with he | he <;> exact (Option.some.inj he).symm
    rw [this]; unfold modulusOk; decide +kernel
  unlocked := fun h => by simp at h
  plan := by
    have h : drumPlan.inRange ∧ modulusOk drumPlan.modulus := by unfold Plan.inRange modulusOk; decide
    exact ⟨h.1, fun _ => h.2⟩
  computation := fun k hk => by
    have : k = { since := 0, period := 121, plan := drumPlan, state := .running, override := .none, hold := false,
                 theta := 10000, q := 0, va := 0, pendingAngle := none, metric := none, zeroed := false } :=
      (Option.some.inj hk).symm
    rw [this]; unfold Plan.inRange modulusOk; decide
  placement := fun r hr => by
    have : r = ordinaryRun := (Option.some.inj hr).symm
    rw [this]; unfold modulusOk; decide
  ranges := (by decide : drum.va ≤ 32767 ∧ drum.z8 ≤ 32767 ∧ drum.planAge ≤ 65535)
  conditions := ⟨Condition.sane_clear, Condition.sane_clear, Condition.sane_clear⟩
  log := (by unfold Log.fits; decide : drum.log.fits .ch0)
  writing := fun w hw => by simp [drum, Log.reset] at hw

theorem running_inv : running.Inv := withDrum_inv (drum_sound (by decide) (by decide))
theorem floated_inv : floated.Inv := withDrum_inv (drum_sound (by decide) (by decide))

/-- A LOCK whose copy is whole. -/
def lockRunning : State := { State.reset with lockRun := some { since := 0, todo := [], got := setupWords } }

theorem lockRunning_inv : lockRunning.Inv :=
  ⟨{ reset_inv.1 with lockRun := fun _ => rfl, reset := fun h => by simp [lockRunning, State.reset, Device.initial,
      Device.inReset] at h, unlocked := fun h => { reset_inv.1.unlocked h with } }, reset_inv.2⟩


theorem witness_StepCarriesOutTheFrontCommand :
    ({ State.reset with pending := [.poll] } : State).pending = .poll :: [] := rfl

/-- The clauses: nothing is due after reset; a poll is due at its instant; time passes outside and during a reset. -/
theorem witness_AnEmptyQueueLetsTimePass :
    (State.reset.pending = [] ∧ State.reset.dueEvents = []) ∧
      (let s : State := { State.reset with capture := CaptureUnit.reset (some 0) }
       s.pending = [] ∧ s.dueEvents = [.poll]) ∧
      (State.reset.powerOn = false ∧ State.reset.resetLow = false) ∧
      ({ State.reset with powerOn := true } : State).powerOn = true := by decide

theorem witness_EveryStepKeepsTheInvariant :
    State.reset.Inv ∧ ∃ t, step { State.reset with pending := [.noticeEnWrite 1] } = .next t := ⟨reset_inv, _, rfl⟩

theorem witness_TheHostsWordsAreTheHosts :
    State.reset.Inv ∧ ¬((0x100 ≤ 0xFF ∧ 0xFF < 0x280) ∨ (0x800 ≤ 0xFF ∧ 0xFF < 0x1800)) ∧
      ∃ t, exec (.noticeWrite 1) State.reset = .next t := ⟨reset_inv, by decide, _, rfl⟩

theorem witness_GateOutputsFollowTheLegs :
    (State.reset.Inv ∧ State.reset.setup = none) ∧ (floated.Inv ∧ floated.setup ≠ none ∧ (floated.chan .ch0).state ≠ .running) :=
  ⟨⟨reset_inv, rfl⟩, floated_inv, by decide, by decide⟩

theorem witness_AChannelsEventsLeaveTheOthers :
    ChannelId.ch1 ≠ .ch0 ∧ ∃ t, exec (.start .ch0) locked = .next t := ⟨by decide, _, rfl⟩

theorem witness_StatusWordsAreRewrittenOnChange :
    locked.ram.wf = true ∧ locked.Inv ∧ 0x105 ∈ statusAddresses ∧
      ∃ t, exec (.start .ch0) locked = .next t ∧ statusWord locked.toDevice 0x105 ≠ statusWord t.toDevice 0x105 :=
  ⟨by decide, locked_inv, by decide, _, rfl, by decide +kernel⟩

/-- Each clause: an open port unlocked and locked, and a running LOCK whose copy fails the first check. -/
theorem witness_LockBeginsOrFails :
    (State.reset.portOpen ∧ State.reset.setup = none) ∧ (locked.portOpen ∧ locked.setup ≠ none) ∧
      (let r : WordReader := { since := 0, todo := List.range 128, got := [] }
       ({ State.reset with lockRun := some r } : State).lockRun = some r ∧
         setupError (r.got ++ r.todo.map (Memory.read State.reset.ram)) = some (1, .ch0)) :=
  ⟨⟨⟨rfl, rfl⟩, rfl⟩, ⟨⟨rfl, rfl⟩, by decide⟩, rfl, by decide +kernel⟩

theorem witness_CommandsUntakenOrUnknown :
    lockRunning.lockRun ≠ none ∧ ({ State.reset with powerOn := true } : State).takesCommands = false ∧
      State.reset.portOpen ∧ 5 < (6 : BitVec 4).toNat ∧ (4 : BitVec 4) = 4 ∧ (3 : BitVec 2) = 3 :=
  ⟨by decide, by decide, ⟨rfl, rfl⟩, by decide, rfl, rfl⟩

/-- A sound part under another setup copy that passes the checks is sound. -/
theorem inv_with_setup {s : State} (h : s.Inv) (hl : s.setup ≠ none) {words : List Word} (hw : setupError words = none) :
    ({ s with setup := some words } : State).Inv :=
  ⟨{ h.1 with
      setup := fun _ hs => by cases hs; exact hw
      outputs := by
        have := h.1.outputs
        cases hs : s.setup
        · exact absurd hs hl
        · simpa [Device.locked, hs] using this
      lockRun := fun hr => absurd (h.1.lockRun hr) hl
      reset := fun hr => absurd (h.1.reset hr).1 hl
      unlocked := fun hs => by simp at hs
      channels := fun c => { h.1.channels c with unlocked := fun hs => by simp at hs } },
   fun _ => h.2 (by cases hs : s.setup; exact absurd hs hl; simp [Device.locked, hs])⟩

/-- Th at 4 and at 0, with FLT0, which maps CH0, low and filtered. -/
theorem witness_LockSucceedsOnAValidSetup : ∀ th ∈ ([4, 0] : List Word),
    let words := setupWords.set 16 th
    let r : WordReader := { since := 0, todo := [], got := words }
    let s : State := { lockRunning with
      lockRun := some r, flt0 := { level := false, filtered := true, since := none } }
    s.Inv ∧ s.lockRun = some r ∧ setupError (r.got ++ r.todo.map (Memory.read s.ram)) = none ∧
      (s.fault .flt0).filtered = true ∧ faultMapped words .flt0 .ch0 = true ∧ (hallTh words = 0 ↔ th = 0) := by
  intro th hth
  refine ⟨⟨{ lockRunning_inv.1 with
      lockRun := fun _ => rfl
      unlocked := fun h => { lockRunning_inv.1.unlocked h with }
      reset := fun h => by simp [lockRunning, State.reset, Device.initial, Device.inReset] at h },
    fun h => by simp [lockRunning, State.reset, Device.initial, Device.locked] at h⟩, rfl, ?_⟩
  simp only [List.mem_cons, List.mem_nil_iff, or_false] at hth
  obtain rfl | rfl := hth <;> decide +kernel

theorem not_present {d : Device} (h : ∀ id, (d.condition id).asserted = false) (c : ChannelId) : ¬d.floatPresent c :=
  fun ⟨id, ha, _⟩ => by simp [h id] at ha

theorem locked_clear (id : ConditionId) : (locked.condition id).asserted = false := by
  cases id <;> first | rfl | (rename_i c; cases c <;> rfl)

theorem floated_clear (id : ConditionId) : (floated.condition id).asserted = false := by
  cases id <;> first | rfl | (rename_i c; cases c <;> rfl)

/-- Every clause: not locked, not enabled, running, a fault line's FLOAT present, and none of these. -/
theorem witness_StartIsRefusedInOrder :
    (State.reset.portOpen ∧ State.reset.setup = none) ∧
      (locked.portOpen ∧ locked.setup ≠ none ∧ (locked.cfg .ch2).enabled = false) ∧
      (running.portOpen ∧ (running.cfg .ch0).enabled = true ∧ (running.chan .ch0).state ≠ .off) ∧
      (let s : State := { locked with fl0 := { asserted := true, count := 0, assertions := 1 } }
       s.portOpen ∧ (s.cfg .ch0).enabled = true ∧ (s.chan .ch0).state = .off ∧ s.floatPresent .ch0) ∧
      ((locked.cfg .ch0).enabled = true ∧ (locked.chan .ch0).state = .off ∧ ¬locked.floatPresent .ch0) :=
  ⟨⟨⟨rfl, rfl⟩, rfl⟩, ⟨⟨rfl, rfl⟩, by decide, by decide⟩, ⟨⟨rfl, rfl⟩, by decide, by decide⟩,
    ⟨⟨rfl, rfl⟩, by decide, by decide, .fl0, by decide, by decide, by decide⟩, by decide, by decide,
    not_present locked_clear _⟩

theorem witness_StartOpensPeriodOne :
    locked.Inv ∧ locked.portOpen ∧ locked.setup ≠ none ∧ (locked.cfg .ch0).enabled = true ∧
      (locked.chan .ch0).state = .off ∧ ¬locked.floatPresent .ch0 ∧
      (∀ code, locked.hall.accepted = some code → hallSector locked.words code ≠ none) :=
  ⟨locked_inv, ⟨rfl, rfl⟩, by decide, by decide, by decide, not_present locked_clear _, fun _ h => by
    simp [locked, lockedPart, HallTimer.reset] at h⟩

/-- CH0 off, with the accepted code 7, which maps to INVALID; HAL's action NOTE, BRAKE and FLOAT. -/
theorem witness_StartEvaluatesHal : ∀ w ∈ ([0, 0x20, 0x30] : List Word),
    let s : State := { locked with
      hall := { HallTimer.reset 7 with accepted := some 7 }, setup := some (setupWords.set 14 w) }
    s.Inv ∧ s.portOpen ∧ s.setup ≠ none ∧ (s.cfg .ch0).enabled = true ∧ (s.chan .ch0).state = .off ∧
      ¬s.floatPresent .ch0 ∧ s.hall.accepted = some 7 ∧ hallSector s.words 7 = none ∧
      (s.action .hal .ch0).code = w.toNat / 16 := by
  have hall : ({ HallTimer.reset 7 with accepted := some 7 } : HallTimer).Bounded :=
    ⟨(by decide : (HallTimer.reset 7).elapsed ≤ _), fun _ h => by simp [HallTimer.reset] at h,
      (by decide : (HallTimer.reset 7).interval ≤ _)⟩
  have inv : ({ locked with hall := { HallTimer.reset 7 with accepted := some 7 } } : State).Inv :=
    ⟨{ locked_inv.1 with
        unlocked := fun h => by simp [locked, lockedPart] at h
        hall := hall }, locked_inv.2⟩
  intro w hw
  have setup : setupError (setupWords.set 14 w) = none := by
    simp only [List.mem_cons, List.mem_nil_iff, or_false] at hw
    obtain rfl | rfl | rfl := hw <;> decide +kernel
  refine ⟨inv_with_setup inv (by decide) setup, ⟨rfl, rfl⟩, by simp, ?_, rfl, ?_, rfl, ?_, ?_⟩
  case refine_2 =>
    exact not_present (fun id => by cases id <;> first | rfl | (rename_i c; cases c <;> rfl)) _
  all_goals
    simp only [List.mem_cons, List.mem_nil_iff, or_false] at hw
    obtain rfl | rfl | rfl := hw <;> decide +kernel

theorem witness_StopAndResumeAreRefusedInOrder :
    (State.reset.portOpen ∧ State.reset.setup = none) ∧ (locked.portOpen ∧ (locked.chan .ch0).state = .off) ∧
      (running.portOpen ∧ (running.chan .ch0).state ≠ .floated) ∧
      (let s : State := { floated with fl0 := { asserted := true, count := 0, assertions := 1 } }
       s.portOpen ∧ s.setup ≠ none ∧ (s.chan .ch0).state = .floated ∧ s.floatPresent .ch0) :=
  ⟨⟨⟨rfl, rfl⟩, rfl⟩, ⟨⟨rfl, rfl⟩, by decide⟩, ⟨⟨rfl, rfl⟩, by decide⟩, ⟨rfl, rfl⟩, by decide, by decide, .fl0, by decide,
    by decide, by decide⟩

theorem witness_StopDiscardsTheOpenPeriod :
    running.portOpen ∧ running.setup ≠ none ∧ (running.chan .ch0).state ≠ .off := ⟨⟨rfl, rfl⟩, by decide, by decide⟩

theorem witness_ResumeHoldsTheLegsFloating :
    floated.Inv ∧ floated.portOpen ∧ floated.setup ≠ none ∧ (floated.chan .ch0).state = .floated ∧
      ¬floated.floatPresent .ch0 ∧ (floated.chan .ch0).inForce = some ordinarySet ∧
      (floated.chan .ch0).staged = some ordinarySet := by
  refine ⟨floated_inv, ⟨rfl, rfl⟩, by decide, by decide, not_present floated_clear _, rfl, rfl⟩

/-- READY high and low, for the statements about host writes. -/
theorem witness_NoticesAndTheInterruptLine :
    State.reset.ready = true ∧ State.reset.resetLow = false ∧
      ({ State.reset with resetLow := true } : State).ready = false := by decide

theorem witness_HostWritesOneWord :
    State.reset.ram.wf = true ∧ (0x1FFF : BitVec 14).toNat < 0x2000 ∧ State.reset.ready = true ∧
      State.reset.readsAhead 0x1FFF = false ∧ running.ready = true ∧ running.readsAhead 0x80 = true ∧
      (let s : State := { State.reset with statusWrite := some { kind := .soft, since := 0, touched := [0x117] } }
       s.ready = true ∧ s.writesAt 0x107 = true ∧ s.writesAt 0x117 = false ∧ s.writesAt 0x1FFF = false) ∧
      ({ State.reset with powerOn := true } : State).ready = false := by decide +kernel

theorem witness_RegisterAddressesBehave :
    0x2005 ≤ (0x2005 : BitVec 14).toNat ∧ (0x0110 : Word).extractLsb' 4 4 = 1 ∧ (0x0120 : Word).extractLsb' 4 4 = 2 ∧
      (0x0120 : Word).extractLsb' 8 2 = BitVec.ofNat 2 (channelIndex .ch1) ∧
      cmdUnknown ((0x0320 : Word).extractLsb' 4 4) ((0x0320 : Word).extractLsb' 8 2) = true ∧
      State.reset.resetLow = false ∧ ({ State.reset with powerOn := true } : State).ready = false ∧
      ({ State.reset with resetLow := true } : State).resetLow = true := by decide

/-- A running part that writes no record, with words of a log and of the capture area that a reset keeps. -/
theorem witness_HardResetsTakeTheirValues :
    running.Inv ∧ running.writesAt 0x800 = false ∧ running.writesAt 0x200 = false := ⟨running_inv, by decide, by decide⟩

/-- Each clause: power-on alone, the pin alone, both, and the writing of the reset values. -/
theorem witness_ResetsEndAndTheStatusBlockIsWritten :
    (let s : State := { State.reset with powerOn := true }
     s.powerOn = true ∧ s.resetLow = false) ∧
      (let s : State := { State.reset with resetLow := true }
       s.resetLow = true ∧ s.powerOn = false) ∧
      (let s : State := { State.reset with powerOn := true, resetLow := true }
       s.powerOn = true ∧ s.resetLow = true) ∧
      (let s : State := { State.reset with statusWrite := some { kind := .pin, since := 0, touched := [0x105] } }
       s.Inv ∧ s.statusWrite = some { kind := .pin, since := 0, touched := [0x105] }) :=
  ⟨⟨rfl, rfl⟩, ⟨rfl, rfl⟩, ⟨rfl, rfl⟩, ⟨{ reset_inv.1 with
    reset := fun h => by simp [State.reset, Device.initial, Device.inReset] at h
    unlocked := fun h => { reset_inv.1.unlocked h with } }, reset_inv.2⟩, rfl⟩

theorem witness_SoftResetKeepsTheLock :
    (State.reset.Inv ∧ State.reset.portOpen ∧ State.reset.setup = none) ∧
      (running.Inv ∧ running.portOpen ∧ running.setup ≠ none ∧ hallHold running.words ≠ 0) ∧
      (let s : State := { running with setup := some (setupWords.set 16 0) }
       s.Inv ∧ s.portOpen ∧ s.setup ≠ none ∧ hallHold s.words = 0 ∧ s.writesAt 0x800 = false) :=
  ⟨⟨reset_inv, ⟨rfl, rfl⟩, rfl⟩, ⟨running_inv, ⟨rfl, rfl⟩, by decide, by decide⟩,
   inv_with_setup running_inv (by decide) (by decide +kernel), ⟨rfl, rfl⟩, by decide, by decide, by decide⟩

/-- A drum at plan age 0, and at 4, its Amax: the next load event exceeds it and AGE trips. -/
theorem witness_LoadEventOpensTheNextPeriod :
    running.Inv ∧ (running.chan .ch0).state ≠ .off ∧ (running.chan .ch0).inForce = some ordinarySet ∧
      (running.chan .ch0).staged = some ordinarySet ∧ (running.chan .ch0).age.asserted = false ∧
      (running.chan .ch0).plan.mode = .rotate ∧ (running.cfg .ch0).amax = 4 ∧
      ¬(running.cfg .ch0).amax < min ((running.chan .ch0).planAge + 1) 65535 ∧
      (let s := withDrum { drum with planAge := 4 }
       (s.chan .ch0).inForce = some ordinarySet ∧ (s.cfg .ch0).amax < min ((s.chan .ch0).planAge + 1) 65535) :=
  ⟨running_inv, by decide, rfl, rfl, rfl, rfl, by decide, by decide, rfl, by decide⟩

/-- A period with a metric and one without. -/
theorem witness_TheCloseEvaluatesCurAndHandsItsRecord :
    ((running.chan .ch0).state ≠ .off ∧ (running.chan .ch0).inForce = some ordinarySet ∧
      (closedPeriod (running.chan .ch0) ordinarySet).metric = none) ∧
      (let ch := { drum with buffer := { PeriodBuffer.empty with first := some ⟨981, 3021⟩ } }
       ((withDrum ch).chan .ch0).inForce = some ordinarySet ∧ (closedPeriod ch ordinarySet).metric = some 981) := by
  decide +kernel

theorem witness_TheLoadEventCommandsTheLegs :
    (running.chan .ch0).inForce = some ordinarySet ∧ (running.chan .ch0).state = .running ∧
      (floated.chan .ch0).inForce = some ordinarySet ∧ (floated.chan .ch0).state ≠ .running := by decide +kernel

/-- A slot whose head and tail are 77, with the other words 0, read by CH0's fetch; a torn one; and an empty one. -/
theorem witness_FetchesThatApplyNoPlan :
    let slot := slotWords ((fetchOrder .ch0).map (Memory.read ([(0x80, 77), (0x9F, 77)] : Memory)))
    let torn := slotWords ((fetchOrder .ch0).map (Memory.read ([(0x80, 77), (0x9F, 76)] : Memory)))
    let empty := slotWords ((fetchOrder .ch0).map (Memory.read ([] : Memory)))
    (running.chan .ch0).fetch = some { period := 120, reader := { since := 0, todo := fetchOrder .ch0, got := [] } } ∧
      torn.getD 0 0 ≠ torn.getD 31 0 ∧ (empty.getD 0 0 = empty.getD 31 0 ∧ empty.getD 0 0 = 0) ∧
      (slot.getD 0 0 = slot.getD 31 0 ∧ slot.getD 0 0 ≠ 0 ∧ slot.getD 0 0 ≠ (running.chan .ch0).lastSeen ∧
        planCheck (running.cfg .ch0) slot = .error 2) := by
  refine ⟨rfl, ?_, ?_, ?_, ?_, ?_, rfl⟩ <;> decide +kernel

/-- Each clause at its boundary: mode 4; moduli 249 and 16001; a FIT short by one; and the last modulus that fits. -/
theorem witness_APlanIsRefusedInOrder :
    let g := channelSetup setupWords .ch1
    let slot := fun (mode modulus : Word) => ([1, mode, 0, modulus] : List Word)
    3 < wordNat (slot 4 249) 1 ∧ planCheck g (slot 4 249) = .error 1 ∧ planCheck g (slot 3 249) = .error 2 ∧
      planCheck g (slot 0 16001) = .error 2 ∧ 4 * 819 / 2 < 2 * g.wwin + 2 * g.d ∧ planCheck g (slot 3 819) = .error 3 ∧
      planCheck g (slot 3 820) = .ok .rotate ∧ planCheck g (slot 0 16000) = .ok .coast := by
  refine ⟨by decide, rfl, rfl, rfl, by decide, rfl, rfl, rfl⟩

/-- A whole new slot that is accepted, with AGE not asserted, and asserted with the action BRAKE, which its release lets fall. -/
theorem witness_AnAcceptedPlanComesIntoForce :
    let ram : Memory := [(0x80, 77), (0x81, 3), (0x83, 2000), (0x9F, 77)]
    let f : Fetch := { period := 120, reader := { since := 0, todo := fetchOrder .ch0, got := [] } }
    let slot := slotWords (f.reader.got ++ f.reader.todo.map (Memory.read ram))
    let age : Condition := { asserted := true, count := 0, assertions := 1 }
    let s : State := { withDrum { drum with age := age } with ram := ram, setup := some (setupWords.set 13 0x200) }
    (({ running with ram := ram } : State).chan .ch0).fetch = some f ∧ drum.age.asserted = false ∧
      (s.chan .ch0).fetch = some f ∧ (s.chan .ch0).age.asserted = true ∧ s.override .ch0 = .brake ∧
      ({ s with channels := running.channels } : State).override .ch0 = .none ∧
      slot.getD 0 0 = slot.getD 31 0 ∧ slot.getD 0 0 ≠ 0 ∧ slot.getD 0 0 ≠ (s.chan .ch0).lastSeen ∧
      planCheck (s.cfg .ch0) slot = .ok .rotate := by
  refine ⟨rfl, rfl, rfl, rfl, ?_, ?_, ?_, ?_, ?_, rfl⟩ <;> decide +kernel

/-- The ends of each working range, and the first value beyond each. -/
theorem witness_AcceptanceClampsEachField :
    let plan := fun slot : List Word => clampedPlan slot .rotate
    let inside : List Word := [1, 3, 0, 2000, 32767, 32767, BitVec.ofInt 16 (-8191), 0, 0, 4095, 4095, 64,
      BitVec.ofInt 16 (-4095), 4095]
    let beyond : List Word := [1, 3, 0, 2000, 32768, 32768, 8192, 0, 0, 4096, 4096, 65, BitVec.ofInt 16 (-4096), 4096]
    needsClamp inside (plan inside) = false ∧ needsClamp beyond (plan beyond) = true ∧
      (plan beyond).target = 32767 ∧ (plan beyond).rate = 8191 ∧ (plan beyond).guardHigh = 4095 ∧
      (plan beyond).interval = 64 ∧ (plan beyond).injectFirst = -4095 ∧ (plan beyond).injectSecond = 4095 := by decide

/-- The peak of the running part; a channel that is OFF; and the timebase at P/2 = 4000, where both its ways meet, and at P. -/
theorem witness_ThePeakBeginsAComputation :
    (running.chan .ch0).state ≠ .off ∧ (running.chan .ch0).inForce = some ordinarySet ∧
      (running.chan .ch0).falling = false ∧ (running.chan .ch1).state = .off ∧ ordinarySet.modulus = 2000 ∧
      ([4000, 8000].map fun t => ({ running with refCount := drum.loadTime + t } : State).timebaseCounter .ch0) = [2000, 0] := by
  decide +kernel

theorem witness_ComputationsEndInAStagedSet :
    (running.chan .ch0).computation.isSome = true ∧ (running.chan .ch0).placement = some ordinaryRun := by decide

/-- Each mode, and in ALIGN each case of the guard at its boundary: guard high 1800, guard low 1500. -/
theorem witness_TheAmplitudeStep :
    let plan := { drumPlan with mode := .align, target := 16384, slew := 2000, guardHigh := 1800, guardLow := 1500 }
    amplitudeStep plan false 10000 (some 1800) = 8000 ∧ amplitudeStep plan false 10000 (some 1799) = 10000 ∧
      amplitudeStep plan false 10000 (some 1501) = 10000 ∧ amplitudeStep plan false 10000 (some 1500) = 12000 ∧
      amplitudeStep plan false 10000 none = 10000 ∧ amplitudeStep { plan with mode := .coast } false 10000 none = 0 ∧
      amplitudeStep { plan with mode := .rotate, slew := 0 } false 10000 none = 16384 := by decide

theorem witness_ThePredictedAngle :
    drumPlan.mode ≠ .align ∧ ({ drumPlan with mode := .align } : Plan).mode = .align := by decide

theorem witness_LegVoltagesAndCentering : 1 ≤ 1 ∧ 1023 ≤ 1023 ∧ 256 ≤ 256 ∧ 32767 ≤ 32767 := by decide

/-- Each clause: a short first and second window with pulses, a long one, no window, and a leg that is no pulse. -/
theorem witness_ShiftsWidenShortWindows :
    let g := channelSetup setupWords .ch0
    let r : Ranked := { max := .pulse 1248 6751, mid := .pulse 1254 6746, min := .pulse 1260 6740 }
    (firstWindow 8000 r = some (1248, 1254) ∧ 1254 - 1248 < g.wwin ∧ secondWindow 8000 r = some (1254, 1260) ∧
      g.d / 2 ≤ 8000) ∧
      (firstWindow 8000 { r with mid := .pulse 1408 6592 } = some (1248, 1408) ∧ g.wwin ≤ 1408 - 1248) ∧
      firstWindow 8000 { r with max := .low } = none ∧ firstWindow 8000 ⟨.high, .high, .high⟩ = none ∧
      firstWindow 8000 ⟨.high, .high, .low⟩ = some (0, 0) ∧ ({ r with max := .high } : Ranked).max = .high := by decide

/-- The drives of section 4.12: D and P - D are met with equality by leg B, and legs are pulses and LOW. -/
theorem witness_PlacedPulsesStayInTheSpan :
    let g := channelSetup setupWords .ch1
    let run := { ordinaryRun with modulus := 1000, demands := { a := .pulse 411, b := .pulse 3600, c := .low } }
    g.d % 2 = 0 ∧ ∀ l w, run.demands.get l = .pulse w → g.d ≤ w ∧ w + g.d ≤ 4 * run.modulus := by
  refine ⟨by decide, fun l w h => ?_⟩
  cases l
  · cases h; decide
  · cases h; decide
  · exact absurd h (by simp [PerLeg.get])

/-- A placed set with every request; and windows that are a half-tick too short, just long enough, and too late. -/
theorem witness_PlacedRequestsFallInThePeriod :
    let g := channelSetup setupWords .ch1
    setupError setupWords = none ∧ 250 ≤ ordinaryRun.modulus ∧ ordinaryRun.modulus ≤ 16000 ∧
      (placedSet (channelSetup setupWords .ch0) ordinaryRun).requests.length = 4 ∧
      (windowResult g 4000 .first (some (0, g.wwin - 1))).1 = .failedShort ∧
      (windowResult g 4000 .first (some (0, g.wwin))).1 = .ok ∧
      (windowResult g 4000 .first (some (0, 4000))).1 = .failedLate := by decide +kernel

/-- The ZERO override at the smallest modulus that passes FIT, and LOW legs in a zero period. -/
theorem witness_OverriddenSets :
    let g := channelSetup setupWords .ch1
    setupError setupWords = none ∧ 250 ≤ 820 ∧ 2 * g.wwin + 2 * g.d ≤ 4 * 820 / 2 ∧
      g.kz ≠ 0 ∧ ordinaryRun.period.toNat % g.kz = 0 ∧ g.wwin ≤ 4 * 1000 - 128 - 1 ∧
      (channelSetup setupWords .ch0).link = true ∧ g.link = false := by decide +kernel

theorem witness_LegCommandsFollowTheTable :
    LegState.idle.safe ∧ ({ high := true, low := false, pending := none } : LegState).safe ∧
      (LegState.lowPending 5).safe := by simp [LegState.safe, LegState.idle, LegState.lowPending]

theorem witness_PulseEdgesAndPendingTurnOns :
    (running.chan .ch0).inForce = some ordinarySet ∧ ordinarySet.drives.get .a = .pulse 1254 6746 ∧
      (running.chan .ch0).state = .running ∧ (running.chan .ch0).brakeHold = false ∧ (floated.chan .ch0).state ≠ .running ∧
      ((allLegs (.lowPending 5)).get .b).pending = some { side := .low, instant := 5 } := by decide +kernel

/-- The list of section 6.5, where the first entry that may start is CH1's, on CVB; the list of section 6.7, where CVA then takes
the next one; and a list where the start of FIRST ends the guard of the ZERO entry before it. -/
theorem witness_DueEntriesAreHandedOut :
    (let s : State := { reachPart with pending := [] }
     let x : Entry := ⟨.ch1, .first, 1000, 1023, 1⟩
     s.requests.find? (fun e => e.channel == .ch1 && e.kind == .first) = some x ∧
       (s.advanceTo x.due).completing = false ∧
       s.requests = [] ++ x :: [⟨.ch0, .second, 1010, 1033, 1⟩, ⟨.ch2, .first, 1015, 1038, 1⟩] ∧
       (s.advanceTo x.due).mayStart .cvb x = true ∧ (s.advanceTo x.due).mayStart .cva x = false) ∧
      (let second : Entry := ⟨.ch0, .second, 299995, 300018, 1⟩
       let rest : Device := { lockedPart with refCount := 300000, requests := [] ++ [second, ⟨.ch0, .link, 299500, 302100, 1⟩] }
       rest.mayStart .cva second = true) ∧
      (let zero : Entry := ⟨.ch0, .zero, 900, 1020, 1⟩
       let d : Device := { lockedPart with refCount := 1000, requests := [zero, ⟨.ch0, .first, 1000, 1023, 1⟩] }
       (∀ cv ∈ [Converter.cva, .cvb], d.mayStart cv zero = false) ∧ d.mayStart .cva ⟨.ch0, .first, 1000, 1023, 1⟩ = true ∧
         { d with requests := [zero] ++ [] }.mayStart .cvb zero = true) := by decide +kernel

theorem witness_MissedEntriesAreReported :
    reachPart.requests.find? (fun e => e.channel == .ch2 && e.kind == .first) = some ⟨.ch2, .first, 1015, 1038, 1⟩ := by
  decide

/-- Each clause: a busy converter, discarded or not, with each kind. -/
theorem witness_ResultsAreConditioned :
    let of := fun (kind : RequestKind) (discard : Bool) =>
      ({ entry := ⟨.ch0, kind, 100, 200, 1⟩, start := 100, discard := discard } : Conversion)
    let s := fun k : Conversion => ({ running with cva := some k } : State)
    (s (of .first true)).converter .cva = some (of .first true) ∧ (of .first true).discard = true ∧
      (s (of .zero false)).converter .cva = some (of .zero false) ∧ (of .zero false).entry.kind = .zero ∧
      (of .first false).entry.kind = .first ∧ (of .second false).entry.kind = .second ∧
      (of .link false).entry.kind = .link := by decide +kernel

/-- An assertion of LOV that raises the override of CH0 to BRAKE, and its release; FL0, which floats CH0 and leaves CH1; and an
armed unit that takes them up. -/
theorem witness_TheOverrideIsTheHighestAction :
    let s : State := { running with setup := some (setupWords.set 13 0x2000) }
    let braked : State := { s with lov := { asserted := true, count := 0, assertions := 1 } }
    (s.inScope .lov .ch0 = true ∧ s.action .lov .ch0 = .brake ∧ s.override .ch0 = .none) ∧
      (braked.override .ch0 = .brake ∧ (braked.releaseCondition .lov 5 0).override .ch0 = .none) ∧
      (s.inScope .fl0 .ch0 = true ∧ s.action .fl0 .ch0 = .float ∧ (s.chan .ch0).state = .running) ∧
      s.inScope .fl0 .ch1 = false ∧
      (let u := { CaptureUnit.reset none with mode := .armed, following := some .empty }
       ({ s with capture := u } : State).capture.mode = .armed ∧
         ({ s with capture := u } : State).inScope .lov u.channel = true) := by decide +kernel

/-- Each clause: in a reset; the present level; a level that differs from the filtered one; one that equals it. -/
theorem witness_AFaultLineChangeBeginsItsMeasure :
    ({ State.reset with powerOn := true } : State).inReset = true ∧
      (State.reset.inReset = false ∧ true = (State.reset.fault .flt0).level) ∧
      (false ≠ (State.reset.fault .flt0).level ∧ (State.reset.fault .flt0).filtered = false) ∧
      (let s : State := { State.reset with flt0 := { level := false, filtered := false, since := some 0 } }
       s.inReset = false ∧ true ≠ (s.fault .flt0).level ∧ (s.fault .flt0).filtered ≠ true) := by decide

/-- A low FLT0 under measure on the running part, which maps it to CH0; FLT1, which does not; and an unlocked part. -/
theorem witness_AFilteredFaultFloatsItsChannels :
    (let s : State := { running with flt0 := { level := false, filtered := false, since := some 0 } }
     s.Inv ∧ (s.fault .flt0).since = some 0 ∧ s.setup ≠ none ∧ faultMapped s.words .flt0 .ch0 = true ∧
       (s.chan .ch0).state = .running ∧ faultMapped s.words .flt0 .ch1 = false) ∧
      (let s : State := { State.reset with flt1 := { level := false, filtered := false, since := some 0 } }
       s.Inv ∧ (s.fault .flt1).since = some 0 ∧ s.setup = none) :=
  ⟨⟨⟨{ running_inv.1 with unlocked := fun h => by simp [running, withDrum, lockedPart] at h }, running_inv.2⟩, rfl, by decide,
    by decide, by decide, by decide⟩,
   Device.sound_initial (m := resetStatusWords) (by decide) _ _ _ _ _ _, rfl, rfl⟩

/-- Each clause: the code the lines have; unlocked; before the acquisition; back to the accepted code; another code, with no
run and with one; and Th = 0. -/
theorem witness_AHallChangeBeginsOrContinuesARun :
    (1 : BitVec 3) = locked.hall.raw ∧ ((3 : BitVec 3) ≠ State.reset.hall.raw ∧ State.reset.setup = none) ∧
      ((3 : BitVec 3) ≠ locked.hall.raw ∧ locked.setup ≠ none ∧ locked.hall.accepted = none ∧ hallTh locked.words ≠ 0) ∧
      ((1 : BitVec 3) ≠ snapState.hall.raw ∧ snapState.hall.accepted = some 1) ∧
      ((7 : BitVec 3) ≠ snapState.hall.raw ∧ snapState.hall.accepted = some 1 ∧ (1 : BitVec 3) ≠ 7) ∧
      (let s : State := { snapState with setup := some (setupWords.set 16 0) }
       (7 : BitVec 3) ≠ s.hall.raw ∧ s.setup ≠ none ∧ hallTh s.words = 0 ∧ s.hall.accepted = some 1 ∧
         ({ s with hall := HallTimer.reset 1 } : State).hall.accepted = none) := by decide +kernel

theorem witness_TransitionsAreClassified :
    0 < 6 ∧ 5 < 6 ∧ ((5 : Nat) : Int) = (((0 : Nat) : Int) - 1) % 6 ∧ (0 : Nat) = (5 + 1) % 6 ∧
      ((3 : Nat) : Int) ≠ (((0 : Nat) : Int) - 1) % 6 ∧ 3 ≠ (0 + 1) % 6 ∧ 3 ≠ 0 := by decide

theorem witness_TheAcquisition :
    locked.setup ≠ none ∧ locked.hall.accepted = none ∧ locked.hall.acquiring = some 0 := by decide

/-- A transition that snaps, and the same run on a drum that is floated and does not. -/
theorem witness_TheTransition :
    let r : HallRun := { first := 3003000, last := 3003000, measure := 512 }
    snapState.setup ≠ none ∧ snapState.hall.accepted = some 1 ∧
      snapState.hall.run = some { first := 3003000, last := 3003000, measure := 0 } ∧
      (snapState.advanceTo (3003000 + BitVec.ofNat 32 (hallTh snapState.words * 128))).hall.run = some r ∧
      (snapState.chan .ch0).inForce = some ordinarySet ∧
      ((snapState.chan .ch0).state = .running ∧ (snapState.chan .ch0).plan.mode = .rotate ∧
        (snapState.chan .ch0).plan.snap = true ∧ 0 < (snapState.chan .ch0).plan.rate) ∧
      (floated.chan .ch0).state ≠ .running ∧ classify (some 3) (some 0) = .skip := by decide +kernel

/-- Each clause at its boundary: CH1's log with 2, 1 and 0 free places, for a period record, for an event record, and for a
refused plan's. -/
theorem witness_RecordsAreTakenByTheRoomRule :
    let log := fun (written : Word) (item : LogItem) => { Log.reset with written := written, waiting := [item] }
    let refusal : LogItem := .event { skipRecord with code := .planRefused }
    (log 0 (.event skipRecord)).writing = none ∧ (log 64 refusal).waiting = refusal :: [] ∧
      64 - ((log 62 refusal).written - 0).toNat = 2 ∧ 64 - ((log 63 refusal).written - 0).toNat = 1 ∧
      64 - ((log 64 refusal).written - 0).toNat = 0 ∧
      (log 0 (.period (closedPeriod drum ordinarySet))).waiting = .period (closedPeriod drum ordinarySet) :: [] := by
  decide +kernel

theorem witness_AWrittenRecordStandsInItsPlace :
    let w : LogWrite := { since := 0, place := 0x800, words := List.replicate 16 1, event := some .planRefused }
    let s := withDrum { drum with log := { Log.reset with writing := some w } }
    s.ram.wf = true ∧ (s.chan .ch0).log.writing = some w := by decide +kernel

/-- Each clause: a copying unit; an idle one that read 0; an armed one that read its generation and one that read 0; a new
request that is well formed at its limits, and two that are not. -/
theorem witness_APollActsOnTheRequest :
    let s := fun (mode : CaptureMode) (g : Word) (ram : Memory) => ({ locked with
      ram := ram, capture := { CaptureUnit.reset (some 0) with mode := mode, generation := g } } : State)
    let w := fun (ram : Memory) k => (Memory.read ram (0xE4 + k)).toNat
    (s .copying 0 []).capture.nextPoll = some 0 ∧ (s .copying 0 []).capture.mode = .copying ∧
      ((s .idle 0 []).capture.mode = .idle ∧ Memory.read (s .idle 0 []).ram 0xE4 = 0) ∧
      ((s .armed 5 [(0xE4, 5)]).capture.mode = .armed ∧ Memory.read ([(0xE4, 5)] : Memory) 0xE4 = 5) ∧
      ((5 : Word) ≠ 0 ∧ (5 : Word) ≠ (s .idle 0 []).capture.lastServed) ∧
      (w [(0xE4, 5), (0xE5, 2), (0xE6, 3)] 1 = channelIndex .ch2 ∧ w [(0xE4, 5), (0xE5, 2), (0xE6, 3)] 2 = 3) ∧
      2 < w [(0xE4, 5), (0xE5, 3)] 1 ∧ 3 < w [(0xE4, 5), (0xE6, 4)] 2 := by decide +kernel

/-- Each clause: a followed period with N at 1 and at 2, a filter it does not match, and a copy that ends. -/
theorem witness_CapturesSelectAndCopy :
    let u := { CaptureUnit.reset none with mode := .armed, following := some .empty }
    let p := closedPeriod drum ordinarySet
    (u.mode = .armed ∧ u.channel = .ch0 ∧ u.following = some .empty ∧ u.skip ≤ 1 ∧ 0 < p.set.s1) ∧
      1 < ({ u with skip := 2 } : CaptureUnit).skip ∧ (p.set.first = .ok ∧ p.set.second = .ok) ∧
      CaptureBuffer.empty.assertionSeen = false ∧ (CaptureBuffer.empty.changes.length ≤ 8 ∧ CaptureBuffer.empty.hall.length ≤ 4) ∧
      ({ u with mode := .copying, copy := some { since := 0, words := [1] } } : CaptureUnit).copy =
        some { since := 0, words := [1] } := by decide +kernel

end Sys2Proof.Tests
end

