-- ==== Sys2Proof/Proofs/Invariant.lean ====
section
/-! The invariant: the state after reset meets it, and every step keeps it. -/

namespace Sys2Proof.Machine

open Sys2Proof

/-- A command that is an `apply` of `f` leaves a good part where `f` does. -/
theorem State.good_of_apply {f : Device → Device} {s t : State} (hf : (f s.toDevice).Good)
    (ht : s.apply f = .next t) : t.Inv := by
  cases ht
  exact hf.publish

/-- A command that is a `run` of `f` leaves a good part where `f` does. -/
theorem State.good_of_run {f : Device → Device} {s t : State} (hf : (f s.toDevice).Good)
    (ht : s.run f = .next t) : t.Inv := by
  cases ht
  exact hf

/-- Every command keeps the invariant. -/
theorem exec_keeps_inv {s t : State} (h : s.Inv) (i : Instr) (ht : exec i s = .next t) : t.Inv := by
  have h : s.toDevice.Good := h
  cases i with
  | lock => exact State.good_of_run (Device.good_writeCmd h _ _) ht
  | lockEnd => exact State.good_of_apply (Device.good_endLock h) ht
  | start => exact State.good_of_run (Device.good_writeCmd h _ _) ht
  | stop => exact State.good_of_run (Device.good_writeCmd h _ _) ht
  | resume => exact State.good_of_run (Device.good_writeCmd h _ _) ht
  | softReset => exact State.good_of_run (Device.good_writeCmd h _ _) ht
  | unknownCommand => exact State.good_of_run (Device.good_writeCmd h _ _) ht
  | commandDuringLock => exact State.good_of_run (Device.good_writeCmd h _ _) ht
  | noticeWrite v => exact State.good_of_apply (h.leads (Device.leads_writeNotice v _)) ht
  | noticeEnWrite v => exact State.good_of_apply (h.leads (Device.leads_writeNoticeEn v _)) ht
  | registerWrite => exact State.good_of_run (Device.good_portWrite h _ _) ht
  | powerOnReset => exact State.good_of_run (Device.good_beginPowerOn h) ht
  | powerOnResetEnd => exact State.good_of_run (Device.good_endPowerOn h) ht
  | pinReset => exact State.good_of_run (Device.good_beginPin h) ht
  | pinResetEnd => exact State.good_of_run (Device.good_endPin h) ht
  | statusResetWriteEnd => exact State.good_of_run (Device.good_endStatusWrite h) ht
  | loadEvent c => exact State.good_of_apply (h.leads (Device.leads_load c _)) ht
  | planFetchEnd c => exact State.good_of_apply (h.leads (Device.leads_endFetch c _)) ht
  | peakEvent c => exact State.good_of_apply (h.leads (Device.leads_peak c _)) ht
  | vectorComputationEnd c => exact State.good_of_apply (h.leads (Device.leads_endComputation c _)) ht
  | placementRunEnd c => exact State.good_of_apply (h.leads (Device.leads_endPlacement c _)) ht
  | legEdge c leg edge => exact State.good_of_apply (h.leads (Device.leads_pulseEdge c leg edge _)) ht
  | pendingTurnOn c leg => exact State.good_of_apply (h.leads (Device.leads_takeTurnOn c leg _)) ht
  | entryDue c k => exact State.good_of_apply (h.leads (Device.leads_entryFallsDue c k _)) ht
  | conversionComplete cv raw =>
    exact State.good_of_apply (h.leads (Device.leads_completeConversion cv raw _)) ht
  | entryMissed c k => exact State.good_of_apply (h.leads (Device.leads_entryPassesDeadline c k _)) ht
  | faultLineChange => exact State.good_of_apply (Device.good_changeFault h _ _) ht
  | faultFilterExpiry => exact State.good_of_apply (Device.good_expireFault h _) ht
  | hallLineChange code => exact State.good_of_apply (h.leads (Device.leads_changeHall code _)) ht
  | hallFilterExpiry => exact State.good_of_apply (h.leads (Device.leads_expireHall _)) ht
  | poll => exact State.good_of_apply (h.leads (Device.leads_pollRequest _)) ht
  | captureCopyEnd => exact State.good_of_apply (h.leads (Device.leads_endCopy _)) ht
  | recordTake c => exact State.good_of_apply (h.leads (Device.leads_takeRecord c _)) ht
  | recordWriteEnd c => exact State.good_of_apply (h.leads (Device.leads_endRecord c _)) ht

/-- The model's own counter is not part of the invariant. -/
theorem Device.leads_freeIndex (d : Device) (n : Nat) : d.Leads { d with freeIndex := n } := fun h =>
  ⟨{ h with unlocked := fun hs => { h.unlocked hs with } }, { Device.Keeps.refl d with }⟩

theorem State.idle_keeps_inv {s : State} (h : s.Inv) : s.idle.Inv := by
  have h : s.toDevice.Good := h
  unfold State.idle
  split
  · exact h.leads (Device.leads_freeIndex _ _)
  · exact h.leads (Device.leads_advanceBy 1 _)

/-- Settles O4: a command by `exec_keeps_inv`, an empty queue by `State.idle_keeps_inv`. -/
theorem everyStepKeepsTheInvariant : Obligations.EveryStepKeepsTheInvariant := by
  intro s t h ht
  unfold step at ht
  split at ht
  case h_1 i rest _ => exact exec_keeps_inv (s := { s with pending := rest }) h i ht
  case h_2 =>
    cases ht
    exact State.idle_keeps_inv h

/-- Settles O5. -/
theorem resetMeetsTheInvariant : Obligations.ResetMeetsTheInvariant := by
  have hram : Memory.wf resetStatusWords = true := by decide
  exact Device.sound_initial hram _ _ 0 0 false false

end Sys2Proof.Machine
end

