-- ==== Sys2Proof/Proofs/OtherChannels.lean ====
section
/-! The commands and events of one channel leave the other channels. -/

namespace Sys2Proof.Machine

open Sys2Proof

theorem State.spares_of_apply {s t : State} {c : ChannelId} {f : Device → Device}
    (hf : s.toDevice.Spares c (f s.toDevice)) (ht : s.apply f = .next t) : s.toDevice.Spares c t.toDevice := by
  cases ht
  exact hf.trans (spares_publish c _ _)

/-- Settles O8. -/
theorem aChannelsEventsLeaveTheOthers : Obligations.AChannelsEventsLeaveTheOthers := by
  intro s t c c' i hc hi ht
  suffices hs : s.toDevice.Spares c t.toDevice from hs c' hc
  have written {code : BitVec 4} (hcode : code = 2 ∨ code = 3 ∨ code = 4)
      (ht : s.run (Device.writeCmd code (channelField c)) = .next t) : s.toDevice.Spares c t.toDevice := by
    cases ht
    exact Device.spares_writeCmd c hcode _
  rcases hi with rfl | rfl | rfl | rfl | rfl | rfl | rfl | rfl | ⟨leg, edge, rfl⟩ | ⟨leg, rfl⟩ | rfl | rfl
  · exact written (by simp) ht
  · exact written (by simp) ht
  · exact written (by simp) ht
  · exact State.spares_of_apply (Device.spares_load c _) ht
  · exact State.spares_of_apply (Device.spares_endFetch c _) ht
  · exact State.spares_of_apply (Device.spares_peak c _) ht
  · exact State.spares_of_apply (Device.spares_endComputation c _) ht
  · exact State.spares_of_apply (Device.spares_endPlacement c _) ht
  · exact State.spares_of_apply (Device.spares_pulseEdge c leg edge _) ht
  · exact State.spares_of_apply (Device.spares_takeTurnOn c leg _) ht
  · exact State.spares_of_apply (Device.spares_takeRecord c _) ht
  · exact State.spares_of_apply (Device.spares_endRecord c _) ht

end Sys2Proof.Machine
end

