-- ==== Sys2Proof/Proofs/Time.lean ====
section
/-! The step on an empty queue, the passing of time, the timebase, and the peak. -/

namespace Sys2Proof.Machine

open Sys2Proof

/-! ### The empty queue -/

theorem State.step_empty {s : State} (h : s.pending = []) : step s = .next s.idle := by
  simp [step, h]

theorem later_iff (a b : RefCount) : later a b = true ↔ a ≠ b ∧ (a - b).toNat < 2 ^ 31 := by
  simp [later]

theorem Device.advanceBy_inReset {d : Device} (h : d.inReset = true) (n : Nat) :
    d.advanceBy n = { d with freeIndex := d.freeIndex + n } := by
  simp [Device.advanceBy, h]

theorem Device.advanceBy_running {d : Device} (h : d.inReset = false) (n : Nat) :
    d.advanceBy n = { d with refCount := d.refCount + BitVec.ofNat 32 n, hall := d.hall.advance n,
                             freeIndex := d.freeIndex + n } := by
  simp [Device.advanceBy, h]

/-- Settles O2. -/
theorem anEmptyQueueLetsTimePass : Obligations.AnEmptyQueueLetsTimePass := by
  refine ⟨fun s hs => ⟨fun hnone => ?_, fun hsome => ?_⟩, fun d n => ⟨fun hr => ?_, fun hp hl => ?_⟩, fun d t => ?_⟩
  · rw [State.step_empty hs, State.idle, hnone]
    simp
  · have hi : Config.pick s.freeIndex % s.dueEvents.length < s.dueEvents.length :=
      Nat.mod_lt _ (List.length_pos_iff.2 hsome)
    refine ⟨s.dueEvents[_]'hi, List.getElem_mem hi, ?_⟩
    rw [State.step_empty hs, State.idle, List.getElem?_eq_getElem hi]
  · exact Device.advanceBy_inReset (by simpa [Device.inReset] using hr) n
  · rw [Device.advanceBy_running (by simp [Device.inReset, hp, hl])]
    cases hlast : d.hall.lastTransition <;> simp [HallTimer.advance, advanceMeasure, Config.measureLimit, hlast]
  · simp only [Device.advanceTo, later_iff]

/-! ### The timebase and the peak (R1, R9) -/

theorem Device.timebaseCounter_of_inForce {d : Device} {c : ChannelId} {e : EdgeSet} (h : (d.chan c).inForce = some e) :
    d.timebaseCounter c =
      if d.position c ≤ 2 * e.modulus then d.position c / 2 else (4 * e.modulus - d.position c + 1) / 2 := by
  simp [Device.timebaseCounter, h, EdgeSet.period]

theorem Device.position_of_off {d : Device} {c : ChannelId} (h : (d.chan c).state = .off) : d.position c = 0 := by
  simp [Device.position, h]

theorem Device.position_of_on {d : Device} {c : ChannelId} (h : (d.chan c).state ≠ .off) :
    d.position c = (d.refCount - (d.chan c).loadTime).toNat := by
  simp [Device.position, h]

/-- The counter of an OFF channel holds 0. -/
theorem Device.timebaseCounter_of_off {d : Device} {c : ChannelId} (h : (d.chan c).state = .off) :
    d.timebaseCounter c = 0 := by
  cases he : (d.chan c).inForce with
  | none => simp [Device.timebaseCounter, he]
  | some e => simp [Device.timebaseCounter_of_inForce he, Device.position_of_off h]

theorem Device.action_congr {d e : Device} (h : d.setup = e.setup) (id : ConditionId) (c : ChannelId) :
    d.action id c = e.action id c := by
  cases id <;> simp [Device.action, Device.cfg_congr h]

theorem Device.inScope_congr {d e : Device} (h : d.setup = e.setup) (id : ConditionId) (c : ChannelId) :
    d.inScope id c = e.inScope id c := by
  cases id <;> simp [Device.inScope, Device.words_congr h]

/-- An override follows the setup and the conditions alone. -/
theorem Device.override_of_conditions {d e : Device} (hs : d.setup = e.setup)
    (hc : ∀ id, d.condition id = e.condition id) (c : ChannelId) : d.override c = e.override c := by
  have hpresent (act : Action) : d.presentWith c act = e.presentWith c act := by
    simp only [Device.presentWith, hc, Device.inScope_congr hs, Device.action_congr hs]
  unfold Device.override
  rw [hpresent, hpresent]

/-- Time does not change an override. -/
@[simp] theorem Device.override_advanceTo (t : RefCount) (d : Device) (c : ChannelId) :
    (d.advanceTo t).override c = d.override c := by
  exact Device.override_of_conditions (by simp) (fun id => by cases id <;> simp [Device.condition]) c

/-- Which fields of a channel the status block shows. -/
structure Channel.ShowsAs (x y : Channel) : Prop where
  log : x.log = y.log
  plan : x.plan = y.plan
  lastSeen : x.lastSeen = y.lastSeen
  planAge : x.planAge = y.planAge
  cur : x.cur = y.cur
  zer : x.zer = y.zer
  age : x.age = y.age
  z8 : x.z8 = y.z8
  counters : x.counters = y.counters

/-- A channel that shows as before leaves the words shown as they were. -/
theorem statusWord_setChan {d : Device} {c : ChannelId} {x : Channel} (h : x.ShowsAs (d.chan c)) :
    statusWord (d.setChan c x) = statusWord d := by
  have hshow (c' : ChannelId) : ((d.setChan c x).chan c').ShowsAs (d.chan c') := by
    rw [Device.chan_setChan]
    split
    case isTrue hc => exact hc ▸ h
    case isFalse => exact ⟨rfl, rfl, rfl, rfl, rfl, rfl, rfl, rfl, rfl⟩
  have hcond : (d.setChan c x).condition = d.condition := by
    funext id
    cases id <;> simp [Device.condition, (hshow _).cur, (hshow _).zer, (hshow _).age]
  have hover : (d.setChan c x).override = d.override := by
    funext c'
    exact Device.override_of_conditions (d := d.setChan c x) (e := d) rfl (fun id => by rw [hcond]) c'
  have hwords : (d.setChan c x).words = d.words := rfl
  have hchannel (c' : ChannelId) : channelStatus (d.setChan c x) c' = channelStatus d c' := by
    funext k
    obtain ⟨hlog, hplan, hseen, hplanAge, hcur, hzer, hage, hz8, hcounters⟩ := hshow c'
    simp only [channelStatus, hlog, hplan, hseen, hplanAge, hcur, hzer, hage, hz8, hcounters, hover, hwords,
      Device.setChan_hal, Device.setChan_hall]
  have hglobal : globalStatus (d.setChan c x) = globalStatus d := by
    funext k
    unfold globalStatus
    rfl
  funext a
  simp only [statusWord, hchannel, hglobal]

/-- Time changes no word shown. -/
theorem statusWord_advanceTo (t : RefCount) (d : Device) : statusWord (d.advanceTo t) = statusWord d := by
  have hhall : (d.advanceTo t).hall = d.hall ∨ ∃ n, (d.advanceTo t).hall = d.hall.advance n := by
    unfold Device.advanceTo Device.advanceBy
    split_ifs
    · exact .inl rfl
    · exact .inr ⟨_, rfl⟩
    · exact .inl rfl
  rcases hhall with h | ⟨n, h⟩ <;> apply statusWord_congr <;> simp [h, HallTimer.advance]

/-- Where what is shown stays, `publish` changes nothing. -/
theorem publish_of_statusWord_eq {old new : Device} (h : statusWord new = statusWord old) : publish old new = new :=
  publish_same fun a _ => by rw [h]

/-- What a peak makes of the part where the timebase is on its way up. -/
theorem Device.peak_rising {d : Device} {c : ChannelId} {e : EdgeSet} (hon : (d.chan c).state ≠ .off)
    (he : (d.chan c).inForce = some e) (hf : (d.chan c).falling = false) :
    d.peak c = let at_ := d.advanceTo (d.instantOf c (2 * e.modulus))
      at_.setChan c { d.chan c with falling := true, computation := some (at_.computationAtPeak c) } := by
  have hhalf : e.period / 2 = 2 * e.modulus := by simp [EdgeSet.period]; omega
  have hruns : (d.chan c).runs = true := by simpa [Channel.runs] using hon
  simp [Device.peak, he, hf, hruns, hhalf, Device.modChan]

/-- Settles O34. -/
theorem thePeakBeginsAComputation : Obligations.ThePeakBeginsAComputation := by
  refine ⟨fun d c => ⟨fun hoff => ⟨Device.position_of_off hoff, Device.timebaseCounter_of_off hoff⟩,
    fun e hon he => ?_⟩, fun s c e hon he hf => ?_⟩
  · have hcounter := Device.timebaseCounter_of_inForce he
    rw [Device.position_of_on hon] at hcounter
    refine ⟨Device.position_of_on hon, fun hup => ?_, fun hdown hend => ?_⟩
    · rw [hcounter, if_pos (by omega)]
      omega
    · rw [hcounter]
      split_ifs <;> omega
  · have hpeak := Device.peak_rising hon he hf
    have hshown : statusWord (s.toDevice.peak c) = statusWord s.toDevice := by
      rw [hpeak, statusWord_setChan, statusWord_advanceTo]
      rw [Device.chan_advanceTo]
      exact ⟨rfl, rfl, rfl, rfl, rfl, rfl, rfl, rfl, rfl⟩
    show s.apply (Device.peak c) = _
    rw [State.apply_eq, publish_of_statusWord_eq hshown, hpeak]
    simp [Device.computationAtPeak, Device.instantOf]

end Sys2Proof.Machine
end

