-- ==== Sys2Proof/Proofs/Requests.lean ====
section
/-! The request list: how a period's requests enter it, and how it is handed out. -/

namespace Sys2Proof.Machine

open Sys2Proof

/-! ### Entering the list (R8, R91) -/

/-- A new entry comes before the first entry whose deadline is later. -/
theorem insertEntry_place (x : Entry) (l : List Entry) : ∃ before after,
    l = before ++ after ∧ insertEntry x l = before ++ x :: after ∧
    (∀ y ∈ before, later y.deadline x.deadline = false) ∧
    (∀ y, after.head? = some y → later y.deadline x.deadline = true) := by
  induction l with
  | nil => exact ⟨[], [], by simp [insertEntry]⟩
  | cons f rest ih =>
    by_cases hf : later f.deadline x.deadline = true
    · exact ⟨[], f :: rest, by simp [insertEntry, hf]⟩
    · obtain ⟨before, after, hl, hinsert, hbefore, hafter⟩ := ih
      refine ⟨f :: before, after, by simp [hl], by simp [insertEntry, hf, hinsert], ?_, hafter⟩
      simpa [hf] using hbefore

theorem insertEntry_perm (x : Entry) (l : List Entry) : (insertEntry x l).Perm (x :: l) := by
  obtain ⟨before, after, hl, hinsert, -⟩ := insertEntry_place x l
  rw [hinsert, hl]
  exact List.perm_middle

/-- Entries that join a list add their number to it, and nothing leaves it. -/
theorem count_foldl_insertEntry (x : Entry) (new l : List Entry) :
    (new.foldl (fun l y => insertEntry y l) l).count x = l.count x + new.count x := by
  induction new generalizing l with
  | nil => simp
  | cons y new ih =>
    rw [List.foldl_cons, ih, (insertEntry_perm y l).count_eq, List.count_cons, List.count_cons]
    omega

theorem isWindowKind_iff (k : RequestKind) : isWindowKind k = true ↔ k = .first ∨ k = .second := by
  cases k <;> simp [isWindowKind]

theorem Device.entersRequest_eq (d : Device) (c : ChannelId) (r : Request) : d.entersRequest c r =
    ((r.kind == .zero || r.kind == .link) || (decide ((d.chan c).state = .running) && decide (d.override c ≠ .brake))) := by
  unfold Device.entersRequest
  congr 1
  · cases r.kind <;> rfl
  · congr 1
    cases d.override c <;> rfl

theorem Device.enterRequests_of_inForce {d : Device} {c : ChannelId} {e : EdgeSet} (h : (d.chan c).inForce = some e) :
    d.enterRequests c = { d with requests :=
      ((e.requests.filter (d.entersRequest c)).map (d.entryFor c)).foldl (fun l x => insertEntry x l) d.requests } := by
  simp [Device.enterRequests, h]

/-- Settles O29. -/
theorem theRequestsEnterInDeadlineOrder : Obligations.TheRequestsEnterInDeadlineOrder := by
  refine ⟨fun d c e he => ?_, fun l x => insertEntry_place x l⟩
  have henter := Device.enterRequests_of_inForce he
  simp only [funext (Device.entersRequest_eq d c)] at henter
  refine ⟨henter, fun x => ?_⟩
  rw [henter]
  exact count_foldl_insertEntry x _ _

/-! ### The hand-out (R88 to R95, R100) -/

/-- The first entry of a list that satisfies a test, with what stands before it. -/
theorem List.exists_first_of_mem {α : Type} {p : α → Bool} {l : List α} {x : α} (hx : x ∈ l) (hp : p x = true) :
    ∃ pre z post, l = pre ++ z :: post ∧ (∀ w ∈ pre, p w = false) ∧ p z = true := by
  obtain ⟨z, hz⟩ := Option.isSome_iff_exists.1 (List.find?_isSome.2 ⟨x, hx, hp⟩)
  obtain ⟨hpz, pre, post, hl, hpre⟩ := List.find?_eq_some_iff_append.1 hz
  exact ⟨pre, z, post, hl, by simpa using hpre, hpz⟩

/-- A conversion that the second start begins is of an entry before or after the first one. -/
theorem Device.SecondStart.mem {d e : Device} {cv : Converter} {before after : List Entry} {k : Conversion}
    (h : d.SecondStart e cv before after) (hfree : d.converter cv = none) (hk : e.converter cv = some k) :
    k.entry ∈ before ++ after := by
  obtain ⟨hafter, hrest⟩ := h
  by_cases ha : ∀ w ∈ after, ({ d with requests := before ++ after } : Device).mayStart cv w = false
  · obtain ⟨hbefore, hnone⟩ := hrest ha
    by_cases hb : ∀ w ∈ before, ({ d with requests := before ++ after } : Device).mayStart cv w = false
    · rw [hnone hb, hfree] at hk
      cases hk
    · push Not at hb
      obtain ⟨w, hw, hm⟩ := hb
      obtain ⟨pre, z, post, hl, hpre, hz⟩ := List.exists_first_of_mem hw (by simpa using hm)
      rw [hbefore pre z post hl hpre hz] at hk
      cases hk
      simp [hl]
  · push Not at ha
    obtain ⟨w, hw, hm⟩ := ha
    obtain ⟨pre, z, post, hl, hpre, hz⟩ := List.exists_first_of_mem hw (by simpa using hm)
    rw [hafter pre z post hl hpre hz] at hk
    cases hk
    simp [hl]

theorem Entry.reachable_iff (e : Entry) (cv : Converter) :
    e.reachable cv = true ↔ cv = .cvb ∨ inputOf e.channel e.kind = 0 ∨ inputOf e.channel e.kind = 3 := by
  cases cv <;> simp [Entry.reachable, converterReaches]

theorem Device.eligible_iff (d : Device) (e : Entry) :
    d.eligible e = true ↔ ¬(e.due ≠ d.refCount ∧ (e.due - d.refCount).toNat < 2 ^ 31) := by
  rw [← later_iff]
  simp [Device.eligible]

theorem Device.not_guarded_iff (d : Device) (cv : Converter) (e : Entry) : d.guarded cv e = false ↔
    (¬(e.kind = .first ∨ e.kind = .second) → ∀ f ∈ d.requests, f.kind = .first ∨ f.kind = .second →
      f.reachable cv = true → later f.due (d.refCount + 128) = true) := by
  have hlimit : d.guardLimit = d.refCount + 128 := rfl
  simp only [← isWindowKind_iff, Device.guarded, hlimit, Bool.and_eq_false_imp, Bool.not_eq_true', Bool.not_eq_true,
    List.any_eq_false, Bool.and_eq_true, not_and, Bool.not_eq_false]
  exact ⟨fun h he f hf hw hr => h he f hf ⟨hw, hr⟩, fun h he f hf ⟨hw, hr⟩ => h he f hf hw hr⟩

theorem Device.mayStart_iff (d : Device) (cv : Converter) (e : Entry) : d.mayStart cv e = true ↔
    d.converter cv = none ∧ d.eligible e = true ∧ ¬later d.refCount e.deadline = true ∧ e.reachable cv = true ∧
      d.guarded cv e = false := by
  simp [Device.mayStart, and_assoc]

/-- What the first and the second start of a hand-out are, and the first one's report. -/
theorem Device.HandsOut.first {d e : Device} (h : d.HandsOut e) {cv : Converter} {y : Entry} {before after : List Entry}
    (hc : d.completing = false) (hl : d.requests = before ++ y :: after)
    (hb : ∀ z ∈ before, d.mayStart .cva z = false ∧ d.mayStart .cvb z = false) (hm : d.mayStart cv y = true)
    (ha : cv = .cvb → d.mayStart .cva y = false) :
    e.converter cv = some { entry := y, start := d.refCount, discard := false } ∧
      (∀ cv', cv' ≠ cv → d.SecondStart e cv' before after) ∧
      ((∀ z ∈ before ++ after, z.channel ≠ y.channel ∨ z.kind ≠ y.kind) →
        (e.chan y.channel).buffer.reports.get y.kind =
          some (.started cv d.refCount (d.refCount - y.due).toNat none)) := by
  have hb' : ∀ z ∈ before, ∀ cv', d.mayStart cv' z = false := fun z hz cv' => by
    cases cv'
    · exact (hb z hz).1
    · exact (hb z hz).2
  obtain ⟨hstart, hsecond⟩ := h.order hc cv before y after hl hb' hm ha
  exact ⟨hstart, hsecond, fun hz => h.reported cv _ (Device.mayStart_free hm) hstart
    fun cv' k' hcv hfree hk => hz _ ((hsecond cv' hcv).mem hfree hk)⟩

/-- Settles O46. -/
theorem dueEntriesAreHandedOut : Obligations.DueEntriesAreHandedOut := by
  refine ⟨fun s c k x hx => ?_, fun d cv x => ?_⟩
  · have hout := Device.handsOut_arbitrate (s.advanceTo x.due)
    have hdue : s.toDevice.entryFallsDue c k = (s.advanceTo x.due).arbitrate := by
      have hentry : s.toDevice.entryOf c k = some x := hx
      simp [Device.entryFallsDue, hentry]
    refine ⟨_, hout, ?_, fun cv y before after hc hl hb hm ha => hout.first hc (by simpa using hl) hb hm ha⟩
    show s.apply (Device.entryFallsDue c k) = _
    rw [State.apply_eq, hdue]
  · intro later' input reach window
    have hinput (y : Entry) : inputOf y.channel y.kind = input y := by
      rcases y with ⟨channel, kind, _, _, _⟩
      cases channel <;> cases kind <;> rfl
    have hreach (y : Entry) : y.reachable cv = true ↔ reach y := by rw [Entry.reachable_iff, hinput]
    have hlater (a b : RefCount) : later a b = true ↔ later' a b := later_iff a b
    refine ⟨hlater, Device.eligible_iff d x, hinput x, hreach x, ?_⟩
    rw [Device.mayStart_iff, Device.not_guarded_iff, Device.eligible_iff, hlater, hreach]
    simp only [hlater, hreach]
    rfl

end Sys2Proof.Machine
end

