-- ==== Sys2Proof/Proofs/Commands.lean ====
section
/-! The commands of one channel: when START, STOP and RESUME are refused, and what STOP and RESUME do. -/

namespace Sys2Proof.Machine

open Sys2Proof

/-! ### What is present for a channel -/

/-- A condition in whose scope the channel is, is one of those that may act on it. -/
theorem mem_conditionsOf {d : Device} {id : ConditionId} {c : ChannelId} (h : d.inScope id c = true) :
    id ∈ conditionsOf c := by
  cases id <;> simp_all [Device.inScope, conditionsOf]

theorem Device.presentWith_iff (d : Device) (c : ChannelId) (act : Action) : d.presentWith c act = true ↔
    ∃ id, (d.condition id).asserted = true ∧ d.inScope id c = true ∧ d.action id c = act := by
  simp only [Device.presentWith, List.any_eq_true, Bool.and_eq_true, beq_iff_eq, and_assoc]
  exact ⟨fun ⟨id, _, h⟩ => ⟨id, h⟩, fun ⟨id, h⟩ => ⟨id, mem_conditionsOf h.2.1, h⟩⟩

theorem Device.floatPresent_iff (d : Device) (c : ChannelId) : d.floatPresent c ↔ d.presentWith c .float = true :=
  (d.presentWith_iff c .float).symm

theorem Device.locked_iff (d : Device) : d.locked = true ↔ d.setup ≠ none := by
  simp [Device.locked, Option.isSome_iff_ne_none]

/-! ### The command port (R10, R12, R15, R166) -/

theorem channelOfNat_channelField (c : ChannelId) : channelOfNat (channelField c).toNat = some c := by
  cases c <;> rfl

theorem Device.writeCmd_start {d : Device} (h : d.portOpen) (c : ChannelId) : d.writeCmd 2 (channelField c) =
    d.carryOut 2 (channelField c) (d.startRefusal c) (Device.startChannel c) := by
  have hknown : cmdUnknown 2#4 (channelField c) = false := by cases c <;> decide
  simp [Device.writeCmd, h.1, h.2, hknown, channelOfNat_channelField]

theorem Device.writeCmd_stop {d : Device} (h : d.portOpen) (c : ChannelId) : d.writeCmd 3 (channelField c) =
    d.carryOut 3 (channelField c) (d.stopRefusal c) (Device.stopChannel c) := by
  have hknown : cmdUnknown 3#4 (channelField c) = false := by cases c <;> decide
  simp [Device.writeCmd, h.1, h.2, hknown, channelOfNat_channelField]

theorem Device.writeCmd_resume {d : Device} (h : d.portOpen) (c : ChannelId) : d.writeCmd 4 (channelField c) =
    d.carryOut 4 (channelField c) (d.resumeRefusal c) (Device.resumeChannel c) := by
  have hknown : cmdUnknown 4#4 (channelField c) = false := by cases c <;> decide
  simp [Device.writeCmd, h.1, h.2, hknown, channelOfNat_channelField]

/-- A START, by its refusal. -/
theorem exec_start {s : State} (h : s.portOpen) (c : ChannelId) : exec (.start c) s =
    .next { s with toDevice := s.carryOut 2 (channelField c) (s.startRefusal c) (Device.startChannel c) } := by
  show s.run (Device.writeCmd 2 (channelField c)) = _
  rw [State.run_eq, Device.writeCmd_start h]

/-- A STOP, by its refusal. -/
theorem exec_stop {s : State} (h : s.portOpen) (c : ChannelId) : exec (.stop c) s =
    .next { s with toDevice := s.carryOut 3 (channelField c) (s.stopRefusal c) (Device.stopChannel c) } := by
  show s.run (Device.writeCmd 3 (channelField c)) = _
  rw [State.run_eq, Device.writeCmd_stop h]

/-- A RESUME, by its refusal. -/
theorem exec_resume {s : State} (h : s.portOpen) (c : ChannelId) : exec (.resume c) s =
    .next { s with toDevice := s.carryOut 4 (channelField c) (s.resumeRefusal c) (Device.resumeChannel c) } := by
  show s.run (Device.writeCmd 4 (channelField c)) = _
  rw [State.run_eq, Device.writeCmd_resume h]

theorem Device.startRefusal_eq_none {d : Device} {c : ChannelId} (hl : d.setup ≠ none)
    (hen : (d.cfg c).enabled = true) (hoff : (d.chan c).state = .off) (hf : ¬d.floatPresent c) :
    d.startRefusal c = none := by
  rw [Device.floatPresent_iff] at hf
  simp [Device.startRefusal, (Device.locked_iff d).2 hl, hen, hoff, hf]

/-- Settles O14. -/
theorem startIsRefusedInOrder : Obligations.StartIsRefusedInOrder := by
  intro s c hopen shown
  rw [exec_start hopen]
  refine ⟨fun hn => ?_, fun hl hen => ?_, fun hl hen hon => ?_, fun hl hen hoff hf => ?_, fun hl hen hoff hf => ?_⟩
  · have hlocked : s.locked = false := by simp [Device.locked, hn]
    simp [Device.startRefusal, hlocked, Device.carryOut, Device.answer, shown, channelField]
  · simp [Device.startRefusal, (Device.locked_iff _).2 hl, hen, Device.carryOut, Device.answer, shown, channelField]
  · simp [Device.startRefusal, (Device.locked_iff _).2 hl, hen, hon, Device.carryOut, Device.answer, shown,
      channelField]
  · rw [Device.floatPresent_iff] at hf
    simp [Device.startRefusal, (Device.locked_iff _).2 hl, hen, hoff, hf, Device.carryOut, Device.answer, shown,
      channelField]
  · rw [Device.startRefusal_eq_none hl hen hoff hf]
    exact ⟨_, rfl, rfl⟩

/-- Settles O17. -/
theorem stopAndResumeAreRefusedInOrder : Obligations.StopAndResumeAreRefusedInOrder := by
  intro s c hopen shown
  rw [exec_stop hopen, exec_resume hopen]
  refine ⟨fun hn => ?_, fun hl hoff => ?_, fun hl hst => ?_, fun hl hst hf => ?_⟩
  · have hlocked : s.locked = false := by simp [Device.locked, hn]
    simp [Device.stopRefusal, Device.resumeRefusal, hlocked, Device.carryOut, Device.answer, shown, channelField]
  · simp [Device.stopRefusal, (Device.locked_iff _).2 hl, hoff, Device.carryOut, Device.answer, shown, channelField]
  · simp [Device.resumeRefusal, (Device.locked_iff _).2 hl, hst, Device.carryOut, Device.answer, shown, channelField]
  · rw [Device.floatPresent_iff] at hf
    simp [Device.resumeRefusal, (Device.locked_iff _).2 hl, hst, hf, Device.carryOut, Device.answer, shown,
      channelField]

/-! ### RESUME (R15, R16, R41, R82) -/

theorem PerLeg.eq_allLegs {v : PerLeg LegState} {x : LegState} (h : ∀ l, v.get l = x) : v = allLegs x := by
  cases v
  have ha := h .a; have hb := h .b; have hc := h .c
  simp only [PerLeg.get] at ha hb hc
  simp [allLegs, ha, hb, hc]

/-- The legs of a channel that does not run are idle. -/
theorem Channel.Sound.legs_idle {setup : Option (List Word)} {c : ChannelId} {ch : Channel} (h : ch.Sound setup c)
    (hs : ch.state ≠ .running) : ch.legs = allLegs .idle :=
  PerLeg.eq_allLegs fun l => (h.legs l).2.1 hs

/-- Idle legs given to low await their low gate alone. -/
theorem map_toLow_idle (t : RefCount) :
    (allLegs .idle).map (LegState.command .toLow t) = allLegs (.lowPending t) := rfl

/-! Changes of a channel that is already written out, for one record after another. -/

@[simp] theorem Device.setChan_setChan (d : Device) (c : ChannelId) (x y : Channel) :
    (d.setChan c x).setChan c y = d.setChan c y := by
  simp [Device.setChan]

theorem Device.modChan_eq_setChan (d : Device) (c : ChannelId) (f : Channel → Channel) :
    d.modChan c f = d.setChan c (f (d.chan c)) := rfl

theorem Device.modChan_setChan (d : Device) (c : ChannelId) (x : Channel) (f : Channel → Channel) :
    (d.setChan c x).modChan c f = d.setChan c (f x) := by
  simp [Device.modChan]

theorem Device.commandLegs_setChan (d : Device) (c : ChannelId) (x : Channel) (cmd : LegCommand) :
    (d.setChan c x).commandLegs c cmd =
      d.setChan c { x with legs := x.legs.map (LegState.command cmd (d.turnOnInstant c)) } :=
  Device.modChan_setChan ..

theorem Device.hand_setChan (d : Device) (c : ChannelId) (x : Channel) (item : LogItem) :
    (d.setChan c x).hand c item =
      d.setChan c { x with log := { x.log with waiting := x.log.waiting ++ [item] } } :=
  Device.modChan_setChan ..

theorem Device.handPlain_setChan (d : Device) (c : ChannelId) (x : Channel) (code : EventCode) :
    (d.setChan c x).handPlain c code = (d.setChan c x).hand c (.event
      { code := code, periodCount := x.periodCount, condition := 0, value := 0, action := 0, extra := 0,
        state := x.state }) := by
  simp [Device.handPlain]

/-- Settles O19. -/
theorem resumeHoldsTheLegsFloating : Obligations.ResumeHoldsTheLegsFloating := by
  intro s c e f hinv hopen hl hst hf he hstaged ch record channel
  have hnone : s.resumeRefusal c = none := by
    rw [Device.floatPresent_iff] at hf
    simp [Device.resumeRefusal, (Device.locked_iff _).2 hl, hst, hf]
  have hlegs : (s.chan c).legs = allLegs .idle := (hinv.1.channels c).legs_idle (by simp [hst])
  have hresume : s.toDevice.resumeChannel c = s.setChan c channel := by
    cases hb : (s.chan c).brakeHold <;>
      simp [Device.resumeChannel, Channel.resuming, Channel.zeroVa, Device.modChan_eq_setChan, hb, he, hstaged,
        Device.commandLegs_setChan, Device.handPlain_setChan, Device.hand_setChan, channel, ch, record, hlegs,
        floatDrives, map_toLow_idle, Device.turnOnInstant]
  rw [exec_resume hopen, hnone]
  simp only [Device.carryOut, hresume]
  rfl

/-! ### STOP (R12, R82, R97, R131) -/

/-- What STOP leaves in the channel. -/
def Channel.stopped (ch : Channel) : Channel :=
  { ch.stopping with
    cur := ch.cur.cleared, zer := ch.zer.cleared, age := ch.age.cleared
    log := { ch.log with waiting := ch.log.waiting ++ [.event
      { code := .stopped, periodCount := ch.periodCount, condition := 0, value := 0, action := 0, extra := 0,
        state := .off }] } }

/-- A channel's own conditions are cleared, and nothing else changes (R11, R12). -/
theorem Device.clearOwnConditions_eq (d : Device) (c : ChannelId) : d.clearOwnConditions c =
    { d.setChan c { d.chan c with
        cur := (d.chan c).cur.cleared, zer := (d.chan c).zer.cleared, age := (d.chan c).age.cleared } with
      hal := d.halAfter c } := by
  by_cases hc : c = .ch0 <;> simp [Device.clearOwnConditions, Device.halAfter, hc, Condition.cleared] <;> rfl

theorem Device.unfollow_eq (d : Device) (c : ChannelId) : d.unfollow c = { d with capture :=
    if d.capture.mode = .armed ∧ d.capture.channel = c then { d.capture with following := none } else d.capture } := by
  by_cases h : d.capture.mode = .armed ∧ d.capture.channel = c <;> simp [Device.unfollow, CaptureUnit.armedFor, h]

/-- STOP up to the hand-out: the channel as STOP leaves it, its entries gone, its conversions marked, and its own
conditions and the capture buffer of its open period cleared. -/
theorem Device.stopChannel_eq (d : Device) (c : ChannelId) : d.stopChannel c = Device.arbitrate
    { d.setChan c (d.chan c).stopped with
      requests := d.requests.filter fun e => e.channel != c
      cva := d.cva.map (Conversion.discardFor c), cvb := d.cvb.map (Conversion.discardFor c)
      hal := d.halAfter c
      capture := if d.capture.mode = .armed ∧ d.capture.channel = c then { d.capture with following := none }
        else d.capture } := by
  rw [Device.stopChannel, Device.clearOwnConditions_eq, Device.unfollow_eq]
  cases c <;> rfl

/-- Settles O18. -/
theorem stopDiscardsTheOpenPeriod : Obligations.StopDiscardsTheOpenPeriod := by
  intro s c hopen hl hon ch record channel discarded
  have hnone : s.stopRefusal c = none := by
    simp [Device.stopRefusal, (Device.locked_iff _).2 hl, hon]
  refine ⟨s.stopChannel c, ?_, ?_⟩
  · rw [Device.stopChannel_eq]
    exact Device.handsOut_arbitrate _
  · rw [exec_stop hopen, hnone]
    rfl

end Sys2Proof.Machine
end

