-- ==== Sys2Proof/Proofs/ResetEnds.lean ====
section
/-! The ends of the power-on and pin resets, and of the writing of the status block's reset values. -/

namespace Sys2Proof.Machine

open Sys2Proof

theorem Device.endPowerOn_of_powerOn {d : Device} (h : d.powerOn = true) : d.endPowerOn =
    if d.resetLow then { d with powerOn := false, ram := [] }
    else { d with powerOn := false, ram := [] }.release .powerOn := by
  simp [Device.endPowerOn, h]

theorem Device.endPin_of_resetLow {d : Device} (h : d.resetLow = true) : d.endPin =
    if d.powerOn then { d with resetLow := false } else { d with resetLow := false }.release .pin := by
  simp [Device.endPin, h]

theorem Device.endStatusWrite_of_writing {d : Device} {w : StatusWrite} (h : d.statusWrite = some w) :
    d.endStatusWrite = { d with
      ram := (statusBlock.filter fun a => !w.touched.contains a).foldl (fun m a => m.write a (statusWord d a)) d.ram
      statusWrite := none } := by
  simp [Device.endStatusWrite, h]

theorem mem_statusBlock {a : Nat} : a ∈ statusBlock ↔ 0x100 ≤ a ∧ a < 0x200 := by
  simp only [statusBlock, List.mem_map, List.mem_range]
  exact ⟨by rintro ⟨k, hk, rfl⟩; omega, fun ⟨hlow, hhigh⟩ => ⟨a - 0x100, by omega, by omega⟩⟩

/-- No power-on or pin reset is held while the status block is being written. -/
theorem Device.Sound.not_inReset {d : Device} (h : d.Sound) {w : StatusWrite} (hw : d.statusWrite = some w) :
    d.inReset = false := by
  by_contra hr
  have hnone := (h.reset (by simpa using hr)).2.2
  simp [hw] at hnone

/-- Settles O24. -/
theorem resetsEndAndTheStatusBlockIsWritten : Obligations.ResetsEndAndTheStatusBlockIsWritten := by
  refine ⟨?_, fun s w hinv hw => ?_⟩
  · intro s filter
    refine ⟨fun hp hl => ?_, fun hl hp => ?_, fun hp hl => ⟨?_, ?_⟩⟩
    · show s.run Device.endPowerOn = _
      rw [State.run_eq, Device.endPowerOn_of_powerOn hp, hl]
      rfl
    · show s.run Device.endPin = _
      rw [State.run_eq, Device.endPin_of_resetLow hl, hp]
      rfl
    · show s.run Device.endPowerOn = _
      rw [State.run_eq, Device.endPowerOn_of_powerOn hp, hl]
      rfl
    · show s.run Device.endPin = _
      rw [State.run_eq, Device.endPin_of_resetLow hl, hp]
      rfl
  · have hreset : s.inReset = false := hinv.1.not_inReset hw
    refine ⟨{ s with toDevice := s.toDevice.endStatusWrite }, rfl, ?_, ?_, rfl, fun a => ?_⟩
    · simp only [Device.endStatusWrite_of_writing hw]
    · simp only [Device.endStatusWrite_of_writing hw, Device.ready]
      simpa [Device.inReset] using hreset
    · simp only [Device.endStatusWrite_of_writing hw]
      rw [Memory.read_foldl_write hinv.1.ram]
      simp [mem_statusBlock, and_assoc]

end Sys2Proof.Machine
end

