-- ==== Sys2Proof/Proofs/Placement.lean ====
section
/-! The outcomes and requests of a placed set, and the sets of a ZERO override, of drives without windows, and of legs that
all float. -/

namespace Sys2Proof.Machine

open Sys2Proof

/-! ### One window, one request -/

theorem windowResult_none (g : ChannelSetup) (period : Nat) (kind : RequestKind) :
    windowResult g period kind none = (.absent, none) := rfl

theorem windowResult_some (g : ChannelSetup) (period : Nat) (kind : RequestKind) (b e : Nat) :
    windowResult g period kind (some (b, e)) =
      if e - b < g.wwin then (.failedShort, none)
      else if min (e - g.a + g.lw) (period - 128 - 1) < e - g.a then (.failedLate, none)
      else (.ok, some { kind := kind, due := e - g.a, deadline := min (e - g.a + g.lw) (period - 128 - 1) }) := rfl

/-- A window is OK exactly where its request is formed. -/
theorem windowResult_ok_iff (g : ChannelSetup) (period : Nat) (kind : RequestKind) (w : Window) :
    (windowResult g period kind w).1 = .ok ↔ ∃ r, (windowResult g period kind w).2 = some r := by
  rcases w with _ | ⟨b, e⟩
  · simp [windowResult_none]
  · rw [windowResult_some]
    split_ifs <;> simp

theorem windowResult_kind {g : ChannelSetup} {period : Nat} {kind : RequestKind} {w : Window} {r : Request}
    (h : (windowResult g period kind w).2 = some r) : r.kind = kind := by
  rcases w with _ | ⟨b, e⟩
  · simp [windowResult_none] at h
  · rw [windowResult_some] at h
    split_ifs at h
    cases h
    rfl

/-- A window request falls due within the period and ends there, where the sampling lead is shorter than Wwin. -/
theorem windowResult_within {g : ChannelSetup} {period : Nat} {kind : RequestKind} {w : Window} {r : Request}
    (h : (windowResult g period kind w).2 = some r) (ha : g.a < g.wwin) :
    0 < r.due ∧ r.due ≤ r.deadline ∧ r.deadline ≤ period - 128 - 1 := by
  rcases w with _ | ⟨b, e⟩
  · simp [windowResult_none] at h
  · rw [windowResult_some] at h
    split_ifs at h
    cases h
    refine ⟨?_, ?_, ?_⟩ <;> simp only <;> omega

theorem zeroPeriod_iff (g : ChannelSetup) (number : BitVec 32) :
    zeroPeriod g number = true ↔ g.kz ≠ 0 ∧ number.toNat % g.kz = 0 := by
  simp [zeroPeriod]

theorem anyHigh_eq_false_iff (drives : PerLeg Drive) : anyHigh drives = false ↔ ∀ l, drives.get l ≠ .high := by
  constructor
  · intro h l
    simp only [anyHigh, Bool.or_eq_false_iff, beq_eq_false_iff_ne, and_assoc] at h
    cases l
    · exact h.1
    · exact h.2.1
    · exact h.2.2
  · intro h
    have ha := h .a; have hb := h .b; have hc := h .c
    simp only [PerLeg.get] at ha hb hc
    simp [anyHigh, ha, hb, hc]

/-- The latest turn-off among the pulses is the largest of the three ends, where a leg without a pulse counts as 0. -/
theorem latestPulseEnd_getD (drives : PerLeg Drive) : (latestPulseEnd drives).getD 0 =
    max (driveEnd drives.a) (max (driveEnd drives.b) (driveEnd drives.c)) := by
  rcases drives with ⟨a, b, c⟩
  cases a <;> cases b <;> cases c <;>
    simp only [latestPulseEnd, driveEnd, List.foldl, Option.getD, Nat.max_zero, Nat.zero_max, Nat.max_assoc]

/-- When a ZERO request is formed, and which. -/
theorem zeroRequest_eq_some_iff {g : ChannelSetup} {period : Nat} {number : BitVec 32} {drives : PerLeg Drive}
    {r : Request} : zeroRequest g period number drives = some r ↔
      (g.kz ≠ 0 ∧ number.toNat % g.kz = 0) ∧ (∀ l, drives.get l ≠ .high) ∧
      (latestPulseEnd drives).getD 0 + g.wwin ≤ period - 128 - 1 ∧
      r = { kind := .zero, due := (latestPulseEnd drives).getD 0 + g.wwin, deadline := period - 128 - 1 } := by
  have hlast : lastStart period = period - 128 - 1 := rfl
  rw [← zeroPeriod_iff, ← anyHigh_eq_false_iff, zeroRequest, hlast]
  by_cases hz : zeroPeriod g number = true <;> by_cases hh : anyHigh drives = true <;>
    by_cases hl : period - 128 - 1 < (latestPulseEnd drives).getD 0 + g.wwin <;>
    simp [hz, hh, hl, Nat.not_lt.1, eq_comm]

theorem linkRequest_eq_some_iff {g : ChannelSetup} {period : Nat} {r : Request} :
    linkRequest g period = some r ↔
      g.link = true ∧ r = { kind := .link, due := period / 2, deadline := period - 128 - 1 } := by
  cases h : g.link <;> simp [linkRequest, h, lastStart, Config.conversionTime, eq_comm]

/-! ### What the checks of R165 give -/

/-- The bounds of R165 that placement leans on. -/
theorem setup_bounds {words : List Word} (h : setupError words = none) (c : ChannelId) :
    let g := channelSetup words c
    32 ≤ g.wwin ∧ g.d + g.a < g.wwin ∧ g.lw < g.a := by
  have h3 := checkFails_false h (k := 3) (by decide) c
  have h4 := checkFails_false h (k := 4) (by decide) c
  simp only [checkFails, Bool.or_eq_false_iff, decide_eq_false_iff_not] at h3 h4
  omega

/-! ### The requests of a placed set -/

/-- The drives of a placed set by rank, after both shifts. -/
def EdgeSet.ranked (e : EdgeSet) : Ranked := rankedDrives e.order e.drives

theorem placedSet_first (g : ChannelSetup) (run : PlacementRun) : (placedSet g run).first =
    (windowResult g (4 * run.modulus) .first (firstWindow (4 * run.modulus) (placedSet g run).ranked)).1 := rfl

theorem placedSet_second (g : ChannelSetup) (run : PlacementRun) : (placedSet g run).second =
    (windowResult g (4 * run.modulus) .second (secondWindow (4 * run.modulus) (placedSet g run).ranked)).1 := rfl

theorem placedSet_requests (g : ChannelSetup) (run : PlacementRun) : (placedSet g run).requests =
    [(windowResult g (4 * run.modulus) .first (firstWindow (4 * run.modulus) (placedSet g run).ranked)).2,
     (windowResult g (4 * run.modulus) .second (secondWindow (4 * run.modulus) (placedSet g run).ranked)).2,
     zeroRequest g (4 * run.modulus) run.period (placedSet g run).drives,
     linkRequest g (4 * run.modulus)].filterMap id := rfl

/-- Requests of four different kinds, each there or not, in the order of the kinds. -/
theorem kinds_sublist {f s z l : Option Request} (hf : ∀ r, f = some r → r.kind = .first)
    (hs : ∀ r, s = some r → r.kind = .second) (hz : ∀ r, z = some r → r.kind = .zero)
    (hl : ∀ r, l = some r → r.kind = .link) :
    (([f, s, z, l].filterMap id).map Request.kind).Sublist [.first, .second, .zero, .link] := by
  have hopt {o : Option Request} {k : RequestKind} (h : ∀ r, o = some r → r.kind = k) :
      (o.toList.map Request.kind).Sublist [k] := by
    cases o with
    | none => simp
    | some r => simp [h r rfl]
  have hlist : [f, s, z, l].filterMap id = f.toList ++ (s.toList ++ (z.toList ++ l.toList)) := by
    cases f <;> cases s <;> cases z <;> cases l <;> rfl
  rw [hlist]
  simpa using (hopt hf).append ((hopt hs).append ((hopt hz).append (hopt hl)))

section
variable {g : ChannelSetup} {run : PlacementRun} {r : Request}

theorem mem_placedSet_requests : r ∈ (placedSet g run).requests ↔
    (windowResult g (4 * run.modulus) .first (firstWindow (4 * run.modulus) (placedSet g run).ranked)).2 = some r ∨
    (windowResult g (4 * run.modulus) .second (secondWindow (4 * run.modulus) (placedSet g run).ranked)).2 = some r ∨
    zeroRequest g (4 * run.modulus) run.period (placedSet g run).drives = some r ∨
    linkRequest g (4 * run.modulus) = some r := by
  rw [placedSet_requests]
  simp [eq_comm (a := some r)]

theorem zeroRequest_kind {period : Nat} {number : BitVec 32} {drives : PerLeg Drive}
    (h : zeroRequest g period number drives = some r) : r.kind = .zero := by
  obtain ⟨-, -, -, rfl⟩ := zeroRequest_eq_some_iff.1 h
  rfl

theorem linkRequest_kind {period : Nat} (h : linkRequest g period = some r) : r.kind = .link := by
  obtain ⟨-, rfl⟩ := linkRequest_eq_some_iff.1 h
  rfl

/-- The request of each kind comes from its own source. -/
theorem mem_placedSet_first (hk : r.kind = .first) : r ∈ (placedSet g run).requests ↔
    (windowResult g (4 * run.modulus) .first (firstWindow (4 * run.modulus) (placedSet g run).ranked)).2 = some r := by
  refine mem_placedSet_requests.trans ⟨fun h => ?_, .inl⟩
  rcases h with h | h | h | h
  · exact h
  · cases hk.symm.trans (windowResult_kind h)
  · cases hk.symm.trans (zeroRequest_kind h)
  · cases hk.symm.trans (linkRequest_kind h)

theorem mem_placedSet_second (hk : r.kind = .second) : r ∈ (placedSet g run).requests ↔
    (windowResult g (4 * run.modulus) .second (secondWindow (4 * run.modulus) (placedSet g run).ranked)).2 = some r := by
  refine mem_placedSet_requests.trans ⟨fun h => ?_, fun h => .inr (.inl h)⟩
  rcases h with h | h | h | h
  · cases hk.symm.trans (windowResult_kind h)
  · exact h
  · cases hk.symm.trans (zeroRequest_kind h)
  · cases hk.symm.trans (linkRequest_kind h)

theorem mem_placedSet_zero (hk : r.kind = .zero) : r ∈ (placedSet g run).requests ↔
    zeroRequest g (4 * run.modulus) run.period (placedSet g run).drives = some r := by
  refine mem_placedSet_requests.trans ⟨fun h => ?_, fun h => .inr (.inr (.inl h))⟩
  rcases h with h | h | h | h
  · cases hk.symm.trans (windowResult_kind h)
  · cases hk.symm.trans (windowResult_kind h)
  · exact h
  · cases hk.symm.trans (linkRequest_kind h)

theorem mem_placedSet_link (hk : r.kind = .link) : r ∈ (placedSet g run).requests ↔
    linkRequest g (4 * run.modulus) = some r := by
  refine mem_placedSet_requests.trans ⟨fun h => ?_, fun h => .inr (.inr (.inr h))⟩
  rcases h with h | h | h | h
  · cases hk.symm.trans (windowResult_kind h)
  · cases hk.symm.trans (windowResult_kind h)
  · cases hk.symm.trans (zeroRequest_kind h)
  · exact h

end

/-- A window's outcome, and its request among those of a list that holds a request of this kind only from it. -/
theorem windowResult_judged {g : ChannelSetup} {period : Nat} {kind : RequestKind} {w : Window} {l : List Request}
    (hl : ∀ r : Request, r.kind = kind → (r ∈ l ↔ (windowResult g period kind w).2 = some r)) (hw : 0 < g.wwin) :
    (w = none → (windowResult g period kind w).1 = .absent) ∧
    ∀ b e, w = some (b, e) →
      let deadline := min (e - g.a + g.lw) (period - 128 - 1)
      (e < b + g.wwin → (windowResult g period kind w).1 = .failedShort) ∧
      (b + g.wwin ≤ e → deadline < e - g.a → (windowResult g period kind w).1 = .failedLate) ∧
      (b + g.wwin ≤ e → e - g.a ≤ deadline → (windowResult g period kind w).1 = .ok ∧
        ∀ r : Request, r.kind = kind → (r ∈ l ↔ r.due = e - g.a ∧ r.deadline = deadline)) := by
  refine ⟨fun h => by rw [h, windowResult_none], ?_⟩
  intro b e h deadline
  refine ⟨fun hs => ?_, fun hs hlate => ?_, fun hs hok => ?_⟩
  · rw [h, windowResult_some, if_pos (by omega)]
  · rw [h, windowResult_some, if_neg (by omega), if_pos hlate]
  · have hresult : windowResult g period kind w = (.ok, some { kind := kind, due := e - g.a, deadline := deadline }) := by
      rw [h, windowResult_some, if_neg (by omega), if_neg (by omega)]
    refine ⟨by rw [hresult], fun r hk => ?_⟩
    rw [hl r hk, hresult]
    rcases r with ⟨kind', due', deadline'⟩
    simp only at hk
    simp [hk, eq_comm]

theorem zeroRequest_within {g : ChannelSetup} {period : Nat} {number : BitVec 32} {drives : PerLeg Drive} {r : Request}
    (h : zeroRequest g period number drives = some r) (hw : 0 < g.wwin) :
    0 < r.due ∧ r.due ≤ r.deadline ∧ r.deadline ≤ period - 128 - 1 := by
  obtain ⟨-, -, hlast, rfl⟩ := zeroRequest_eq_some_iff.1 h
  exact ⟨by simp only; omega, hlast, Nat.le_refl _⟩

theorem linkRequest_within {g : ChannelSetup} {period : Nat} {r : Request} (h : linkRequest g period = some r)
    (hp : 258 ≤ period) : 0 < r.due ∧ r.due ≤ r.deadline ∧ r.deadline ≤ period - 128 - 1 := by
  obtain ⟨-, rfl⟩ := linkRequest_eq_some_iff.1 h
  exact ⟨by simp only; omega, by simp only; omega, Nat.le_refl _⟩

theorem exists_kind_iff {l : List Request} {k : RequestKind} {o : Option Request}
    (hl : ∀ r : Request, r.kind = k → (r ∈ l ↔ o = some r)) (ho : ∀ r, o = some r → r.kind = k) :
    (∃ r ∈ l, r.kind = k) ↔ ∃ r, o = some r :=
  ⟨fun ⟨r, hr, hk⟩ => ⟨r, (hl r hk).1 hr⟩, fun ⟨r, hr⟩ => ⟨r, (hl r (ho r hr)).2 hr, ho r hr⟩⟩

/-- Settles O42. -/
theorem placedRequestsFallInThePeriod : Obligations.PlacedRequestsFallInThePeriod := by
  intro words c run hsetup hlow hhigh g P set
  obtain ⟨hwwin, hlead, -⟩ := setup_bounds hsetup c
  have hpos : 0 < g.wwin := Nat.lt_of_lt_of_le (by decide) hwwin
  have ha : g.a < g.wwin := Nat.lt_of_le_of_lt (Nat.le_add_left _ _) hlead
  have hzero := exists_kind_iff (fun r => mem_placedSet_zero (g := g) (run := run) (r := r))
    fun _ => zeroRequest_kind
  have hlink := exists_kind_iff (fun r => mem_placedSet_link (g := g) (run := run) (r := r))
    fun _ => linkRequest_kind
  refine ⟨?_, fun r hr => ?_, ?_, ?_, fun hz => ?_, ?_, fun r hr hk => ?_, ?_, ?_⟩
  · exact kinds_sublist (fun _ => windowResult_kind) (fun _ => windowResult_kind) (fun _ => zeroRequest_kind)
      fun _ => linkRequest_kind
  · have hwithin : 0 < r.due ∧ r.due ≤ r.deadline ∧ r.deadline ≤ P - 128 - 1 := by
      rcases mem_placedSet_requests.1 hr with h | h | h | h
      · exact windowResult_within h ha
      · exact windowResult_within h ha
      · exact zeroRequest_within h hpos
      · exact linkRequest_within h (by omega)
    omega
  · exact (windowResult_ok_iff ..).trans
      (exists_kind_iff (fun r => mem_placedSet_first) fun _ => windowResult_kind).symm
  · exact (windowResult_ok_iff ..).trans
      (exists_kind_iff (fun r => mem_placedSet_second) fun _ => windowResult_kind).symm
  · obtain ⟨r, hr⟩ := hzero.1 hz
    obtain ⟨⟨hkz, hmod⟩, hhigh, -, -⟩ := zeroRequest_eq_some_iff.1 hr
    exact ⟨hkz, hmod, hhigh⟩
  · intro stop due
    have hdue : (latestPulseEnd set.drives).getD 0 + g.wwin = due := by
      have hstop : driveEnd = stop := by
        funext x
        cases x <;> rfl
      rw [latestPulseEnd_getD, hstop]
    refine ⟨fun r hr hk => ?_, ?_⟩
    · obtain ⟨-, -, -, rfl⟩ := zeroRequest_eq_some_iff.1 ((mem_placedSet_zero hk).1 hr)
      exact ⟨hdue, rfl⟩
    · rw [hzero]
      simp only [zeroRequest_eq_some_iff, ← hdue, and_assoc, exists_and_left, exists_eq, and_true]
      rfl
  · obtain ⟨-, rfl⟩ := linkRequest_eq_some_iff.1 ((mem_placedSet_link hk).1 hr)
    exact ⟨rfl, rfl⟩
  · rw [hlink]
    simp [linkRequest_eq_some_iff]
  · exact ⟨windowResult_judged (fun r hk => mem_placedSet_first hk) hpos,
      windowResult_judged (fun r hk => mem_placedSet_second hk) hpos⟩

end Sys2Proof.Machine
end

