-- ==== Sys2Proof/Proofs/OverriddenSets.lean ====
section
/-! The sets of a ZERO override, of drives without windows, and of legs that all float. -/

namespace Sys2Proof.Machine

open Sys2Proof

/-! ### A ZERO override: three pulses of half the period (R56, R58 to R62) -/

/-- The drives of a ZERO override, by rank, with the max leg moved left by `x` and the min leg right by `y`. -/
def zeroRanked (m x y : Nat) : Ranked :=
  { max := .pulse (m - x) (3 * m - x), mid := .pulse m (3 * m), min := .pulse (m + y) (3 * m + y) }

theorem firstWindow_zeroRanked {m x y : Nat} (hx : x ≤ m) :
    firstWindow (4 * m) (zeroRanked m x y) = some (m - x, m) := by
  have hmin : min m (3 * m - x) = m := by omega
  simp [firstWindow, zeroRanked, Ranked.allHigh, Drive.turnOn, Drive.turnOff, earliest, hmin]

theorem secondWindow_zeroRanked {m x y : Nat} (hx : x ≤ m) (hy : x + y ≤ 2 * m) :
    secondWindow (4 * m) (zeroRanked m x y) = some (m, m + y) := by
  have hmin : min (min (m + y) (3 * m)) (3 * m - x) = m + y := by omega
  simp [secondWindow, zeroRanked, Ranked.allHigh, Drive.turnOn, Drive.turnOff, earliest, hmin]

/-- The max leg is moved by a full Wwin. -/
theorem firstShift_zeroRanked {g : ChannelSetup} {m : Nat} (hw : 0 < g.wwin) (hfit : g.wwin + g.d ≤ m) :
    firstShift g (4 * m) (zeroRanked m 0 0) = g.wwin := by
  rw [firstShift, firstWindow_zeroRanked (Nat.zero_le m)]
  simp [zeroRanked, windowWidth, hw]
  omega

/-- The min leg is moved by a full Wwin. -/
theorem secondShift_zeroRanked {g : ChannelSetup} {m : Nat} (hw : 0 < g.wwin) (hfit : g.wwin + g.d ≤ m) :
    secondShift g (4 * m) (zeroRanked m g.wwin 0) = g.wwin := by
  rw [secondShift, secondWindow_zeroRanked (by omega) (by omega)]
  simp [zeroRanked, windowWidth, hw]
  omega

/-- A window of a full Wwin that ends within the middle half of the period is OK. -/
theorem windowResult_full {g : ChannelSetup} {m b e : Nat} (kind : RequestKind) (hm : 250 ≤ m) (he : e ≤ 2 * m)
    (hw : b + g.wwin = e) : (windowResult g (4 * m) kind (some (b, e))).1 = .ok := by
  rw [windowResult_some, if_neg (by omega), if_neg (by omega)]

/-- Three pulses of half the period before the shifts. -/
def halfDrives (m : Nat) : PerLeg Drive := { a := .pulse m (3 * m), b := .pulse m (3 * m), c := .pulse m (3 * m) }

/-- Three pulses of half the period after the shifts. -/
def spreadDrives (m w : Nat) : PerLeg Drive :=
  { a := .pulse (m - w) (3 * m - w), b := .pulse m (3 * m), c := .pulse (m + w) (3 * m + w) }

/-- Three pulses of half the period, placed. -/
theorem placedSet_halves {g : ChannelSetup} {run : PlacementRun} {m : Nat} (hm : run.modulus = m)
    (hdemands : run.demands = { a := .pulse (2 * m), b := .pulse (2 * m), c := .pulse (2 * m) }) (hw : 0 < g.wwin)
    (hfit : g.wwin + g.d ≤ m) :
    (placedSet g run).order = .abc ∧ (placedSet g run).s1 = g.wwin ∧ (placedSet g run).s2 = g.wwin ∧
    (placedSet g run).drives = spreadDrives m g.wwin := by
  have horder : legOrder (run.demands.map (LegDemand.effectiveWidth (4 * m))) = .abc := by
    simp [hdemands, PerLeg.map, LegDemand.effectiveWidth, legOrder]
  have hplain : run.demands.map (LegDemand.layOut (4 * m)) = halfDrives m := by
    have hhalf : (4 * m - 2 * m) / 2 = m := by omega
    have hend : m + 2 * m = 3 * m := by omega
    simp [hdemands, PerLeg.map, LegDemand.layOut, halfDrives, hhalf, hend]
  have hs1 : firstShift g (4 * m) (rankedDrives .abc (halfDrives m)) = g.wwin := firstShift_zeroRanked hw hfit
  have hs2 : secondShift g (4 * m) (rankedDrives .abc ((halfDrives m).set .a (shiftLeft g.wwin (.pulse m (3 * m))))) =
      g.wwin := secondShift_zeroRanked hw hfit
  subst hm
  simp only [placedSet, horder, hplain]
  refine ⟨trivial, hs1, ?_, ?_⟩
  · rw [hs1]
    exact hs2
  · rw [hs1]
    show PerLeg.set _ .c (shiftRight (secondShift g _ (rankedDrives .abc
      ((halfDrives run.modulus).set .a (shiftLeft g.wwin (.pulse run.modulus (3 * run.modulus)))))) _) = _
    rw [hs2]
    rfl

/-! ### Drives without windows, and all-float sets (R6, R60) -/

theorem firstWindow_of_no_turnOn {period : Nat} {r : Ranked} (h : r.max.turnOn = none) :
    firstWindow period r = none := by
  unfold firstWindow
  rw [h]
  split_ifs <;> rfl

theorem secondWindow_of_no_turnOn {period : Nat} {r : Ranked} (h : r.mid.turnOn = none) :
    secondWindow period r = none := by
  unfold secondWindow
  rw [h]
  split_ifs <;> rfl

/-- A shift moves pulses alone. -/
theorem shiftLeft_of_no_pulse {s : Nat} {x : Drive} (h : x.turnOn = none) : shiftLeft s x = x := by
  cases x <;> simp_all [shiftLeft, Drive.turnOn]

theorem shiftRight_of_no_pulse {s : Nat} {x : Drive} (h : x.turnOn = none) : shiftRight s x = x := by
  cases x <;> simp_all [shiftRight, Drive.turnOn]

/-- The three legs with one drive. -/
def allDrives (y : Drive) : PerLeg Drive := { a := y, b := y, c := y }

/-- Three legs with one demand that lays out as a drive without a turn-on, placed. -/
theorem placedSet_of_no_turnOn {g : ChannelSetup} {run : PlacementRun} {x : LegDemand} {y : Drive}
    (hdemands : run.demands = { a := x, b := x, c := x }) (hwidth : ∀ p, x.effectiveWidth p = 0)
    (hy : ∀ p, x.layOut p = y) (hnone : y.turnOn = none) :
    (placedSet g run).order = .abc ∧ (placedSet g run).s1 = 0 ∧ (placedSet g run).s2 = 0 ∧
      (placedSet g run).drives = allDrives y := by
  have horder : legOrder (run.demands.map (LegDemand.effectiveWidth (4 * run.modulus))) = .abc := by
    simp [hdemands, PerLeg.map, hwidth, legOrder]
  have hplain : run.demands.map (LegDemand.layOut (4 * run.modulus)) = allDrives y := by
    simp [hdemands, PerLeg.map, hy, allDrives]
  have hs1 : firstShift g (4 * run.modulus) (rankedDrives .abc (allDrives y)) = 0 := by
    rw [firstShift, firstWindow_of_no_turnOn hnone]
  have hs2 : secondShift g (4 * run.modulus) (rankedDrives .abc (allDrives y)) = 0 := by
    rw [secondShift, secondWindow_of_no_turnOn hnone]
  have hleft (s : Nat) : (allDrives y).set .a (shiftLeft s ((allDrives y).get .a)) = allDrives y := by
    rw [shiftLeft_of_no_pulse (x := (allDrives y).get .a) hnone]
    rfl
  have hright (s : Nat) : (allDrives y).set .c (shiftRight s ((allDrives y).get .c)) = allDrives y := by
    rw [shiftRight_of_no_pulse (x := (allDrives y).get .c) hnone]
    rfl
  simp only [placedSet, horder, hplain, LegOrder.ranks, hleft, hright, hs1, hs2, and_self]

/-- What the ZERO request of drives without a pulse is, where none is HIGH. -/
theorem zeroRequest_of_no_pulse {g : ChannelSetup} {period : Nat} {number : BitVec 32} {drives : PerLeg Drive}
    (hend : (latestPulseEnd drives).getD 0 = 0) (hhigh : ∀ l, drives.get l ≠ .high) :
    (g.kz ≠ 0 ∧ number.toNat % g.kz = 0 ∧ g.wwin ≤ period - 128 - 1 →
      zeroRequest g period number drives = some { kind := .zero, due := g.wwin, deadline := period - 128 - 1 }) ∧
    (¬(g.kz ≠ 0 ∧ number.toNat % g.kz = 0 ∧ g.wwin ≤ period - 128 - 1) → zeroRequest g period number drives = none) := by
  refine ⟨fun ⟨hkz, hmod, hlast⟩ => ?_, fun hno => ?_⟩
  · rw [zeroRequest_eq_some_iff, hend, Nat.zero_add]
    exact ⟨⟨hkz, hmod⟩, hhigh, hlast, rfl⟩
  · refine Option.eq_none_iff_forall_ne_some.2 fun r hr => hno ?_
    obtain ⟨⟨hkz, hmod⟩, -, hlast, -⟩ := zeroRequest_eq_some_iff.1 hr
    rw [hend, Nat.zero_add] at hlast
    exact ⟨hkz, hmod, hlast⟩

theorem linkRequest_of_link {g : ChannelSetup} {period : Nat} (h : g.link = true) :
    linkRequest g period = some { kind := .link, due := period / 2, deadline := period - 128 - 1 } :=
  linkRequest_eq_some_iff.2 ⟨h, rfl⟩

theorem linkRequest_of_no_link {g : ChannelSetup} {period : Nat} (h : g.link = false) : linkRequest g period = none := by
  simp [linkRequest, h]

theorem floatDrives_no_high (l : Leg) : floatDrives.get l ≠ .high := by
  cases l <;> simp [floatDrives, PerLeg.get]

/-- Settles O43. -/
theorem overriddenSets : Obligations.OverriddenSets := by
  refine ⟨?_, ?_, ?_, rfl⟩
  · intro words c run hsetup hlow g P hdemands hfit set
    obtain ⟨hwwin, -, -⟩ := setup_bounds hsetup c
    have hpos : 0 < g.wwin := Nat.lt_of_lt_of_le (by decide) hwwin
    have hhalf : P / 2 = 2 * run.modulus := by omega
    have hquarter : P / 4 = run.modulus := by omega
    rw [hhalf] at hdemands hfit
    rw [hquarter]
    have hfit' : g.wwin + g.d ≤ run.modulus := by omega
    obtain ⟨horder, hs1, hs2, hdrives⟩ := placedSet_halves rfl hdemands hpos hfit'
    have hranked : set.ranked = zeroRanked run.modulus g.wwin g.wwin := by
      rw [EdgeSet.ranked, horder, hdrives]
      rfl
    refine ⟨horder, hs1, hs2, ?_, ?_, hdrives⟩
    · rw [placedSet_first, hranked, firstWindow_zeroRanked (by omega)]
      exact windowResult_full _ hlow (by omega) (by omega)
    · rw [placedSet_second, hranked, secondWindow_zeroRanked (by omega) (by omega)]
      exact windowResult_full _ hlow (by omega) rfl
  · intro g run hdemands set P
    obtain ⟨x, y, hxs, hwidth, hlay, hnone, hhigh, hend⟩ : ∃ x y, run.demands = { a := x, b := x, c := x } ∧
        (∀ p, x.effectiveWidth p = 0) ∧ (∀ p, x.layOut p = y) ∧ y.turnOn = none ∧ y ≠ .high ∧
        latestPulseEnd (allDrives y) = none := by
      rcases hdemands with h | h
      · exact ⟨.low, .low, h, fun _ => rfl, fun _ => rfl, rfl, by simp, rfl⟩
      · exact ⟨.float, .float, h, fun _ => rfl, fun _ => rfl, rfl, by simp, rfl⟩
    obtain ⟨horder, hs1, hs2, hdrives⟩ := placedSet_of_no_turnOn (g := g) hxs hwidth hlay hnone
    have hranked : set.ranked = { max := y, mid := y, min := y } := by
      rw [EdgeSet.ranked, horder, hdrives]
      rfl
    have hfirst : firstWindow P set.ranked = none := by rw [hranked, firstWindow_of_no_turnOn hnone]
    have hsecond : secondWindow P set.ranked = none := by rw [hranked, secondWindow_of_no_turnOn hnone]
    refine ⟨horder, hs1, hs2, ?_, ?_, fun r hr => ?_, fun hkz hmod hlast => ?_⟩
    · rw [placedSet_first, hfirst, windowResult_none]
    · rw [placedSet_second, hsecond, windowResult_none]
    · rw [mem_placedSet_requests, hfirst, hsecond] at hr
      simp only [windowResult_none, reduceCtorEq, false_or] at hr
      exact hr.imp zeroRequest_kind linkRequest_kind
    · refine (mem_placedSet_zero rfl).2 ?_
      rw [hdrives]
      have hget (l : Leg) : (allDrives y).get l ≠ .high := by cases l <;> exact hhigh
      exact (zeroRequest_of_no_pulse (by rw [hend]; rfl) hget).1 ⟨hkz, hmod, hlast⟩
  · intro g modulus number vector P zero
    obtain ⟨hzero, hnone⟩ := zeroRequest_of_no_pulse (g := g) (period := P) (number := number) (drives := floatDrives)
      rfl floatDrives_no_high
    refine ⟨rfl, rfl, fun hz hl => ?_, fun hz hl => ?_, fun hz hl => ?_, fun hz hl => ?_⟩
    · simp [floatRequests, P, hzero hz, linkRequest_of_link hl]
    · simp [floatRequests, P, hzero hz, linkRequest_of_no_link hl]
    · simp [floatRequests, P, hnone hz, linkRequest_of_link hl]
    · simp [floatRequests, P, hnone hz, linkRequest_of_no_link hl]

end Sys2Proof.Machine
end

