-- ==== Sys2Proof/Proofs/Assertions.lean ====
section
/-! What an assertion and a release do: first for one channel in scope, written out as a whole, then for the part. -/

namespace Sys2Proof.Machine

open Sys2Proof

/-! ### The pieces of the part that a condition changes

An assertion and a release change channels, the request list, NOTICE and the capture unit; START changes HAL besides.
Written as `setChan`, `withHal`, `withRequests`, `withNotice` and `withCapture` in this order, two such changes can be
joined. -/

def Device.withRequests (r : List Entry) (d : Device) : Device := { d with requests := r }

def Device.withNotice (n : BitVec 13) (d : Device) : Device := { d with notice := n }

def Device.withCapture (u : CaptureUnit) (d : Device) : Device := { d with capture := u }

def Device.withHal (h : Condition) (d : Device) : Device := { d with hal := h }

section
variable (d : Device) (c c' : ChannelId) (x : Channel) (r r' : List Entry) (n n' : BitVec 13) (u u' : CaptureUnit)
  (h h' : Condition)

@[simp] theorem Device.requests_withRequests : (d.withRequests r).requests = r := rfl
@[simp] theorem Device.requests_withNotice : (d.withNotice n).requests = d.requests := rfl
@[simp] theorem Device.requests_withCapture : (d.withCapture u).requests = d.requests := rfl
@[simp] theorem Device.notice_withRequests : (d.withRequests r).notice = d.notice := rfl
@[simp] theorem Device.notice_withNotice : (d.withNotice n).notice = n := rfl
@[simp] theorem Device.notice_withCapture : (d.withCapture u).notice = d.notice := rfl
@[simp] theorem Device.capture_withRequests : (d.withRequests r).capture = d.capture := rfl
@[simp] theorem Device.capture_withNotice : (d.withNotice n).capture = d.capture := rfl
@[simp] theorem Device.capture_withCapture : (d.withCapture u).capture = u := rfl
@[simp] theorem Device.chan_withRequests : (d.withRequests r).chan c = d.chan c := rfl
@[simp] theorem Device.chan_withNotice : (d.withNotice n).chan c = d.chan c := rfl
@[simp] theorem Device.chan_withCapture : (d.withCapture u).chan c = d.chan c := rfl
@[simp] theorem Device.setChan_withRequests : (d.withRequests r).setChan c x = (d.setChan c x).withRequests r := rfl
@[simp] theorem Device.setChan_withNotice : (d.withNotice n).setChan c x = (d.setChan c x).withNotice n := rfl
@[simp] theorem Device.setChan_withCapture : (d.withCapture u).setChan c x = (d.setChan c x).withCapture u := rfl
@[simp] theorem Device.withRequests_withRequests : (d.withRequests r).withRequests r' = d.withRequests r' := rfl
@[simp] theorem Device.withRequests_withNotice : (d.withNotice n).withRequests r = (d.withRequests r).withNotice n := rfl
@[simp] theorem Device.withRequests_withCapture :
    (d.withCapture u).withRequests r = (d.withRequests r).withCapture u := rfl
@[simp] theorem Device.withNotice_withNotice : (d.withNotice n).withNotice n' = d.withNotice n' := rfl
@[simp] theorem Device.withNotice_withCapture : (d.withCapture u).withNotice n = (d.withNotice n).withCapture u := rfl
@[simp] theorem Device.withCapture_withCapture : (d.withCapture u).withCapture u' = d.withCapture u' := rfl
@[simp] theorem Device.withRequests_self : d.withRequests d.requests = d := rfl
@[simp] theorem Device.withNotice_self : d.withNotice d.notice = d := rfl
@[simp] theorem Device.withCapture_self : d.withCapture d.capture = d := rfl
@[simp] theorem Device.setChan_chan : d.setChan c (d.chan c) = d := by simp [Device.setChan, Device.chan]

@[simp] theorem Device.requests_withHal : (d.withHal h).requests = d.requests := rfl
@[simp] theorem Device.capture_withHal : (d.withHal h).capture = d.capture := rfl
@[simp] theorem Device.chan_withHal : (d.withHal h).chan c = d.chan c := rfl
@[simp] theorem Device.setChan_withHal : (d.withHal h).setChan c x = (d.setChan c x).withHal h := rfl
@[simp] theorem Device.withHal_withRequests : (d.withRequests r).withHal h = (d.withHal h).withRequests r := rfl
@[simp] theorem Device.withHal_withCapture : (d.withCapture u).withHal h = (d.withHal h).withCapture u := rfl

@[simp] theorem Device.refCount_withRequests : (d.withRequests r).refCount = d.refCount := rfl
@[simp] theorem Device.refCount_withCapture : (d.withCapture u).refCount = d.refCount := rfl
@[simp] theorem Device.refCount_withHal : (d.withHal h).refCount = d.refCount := rfl
@[simp] theorem Device.cfg_setChan : (d.setChan c x).cfg c' = d.cfg c' := rfl
@[simp] theorem Device.cfg_withRequests : (d.withRequests r).cfg c = d.cfg c := rfl
@[simp] theorem Device.cfg_withCapture : (d.withCapture u).cfg c = d.cfg c := rfl
@[simp] theorem Device.cfg_withHal : (d.withHal h).cfg c = d.cfg c := rfl
@[simp] theorem Device.turnOnInstant_withCapture : (d.withCapture u).turnOnInstant c = d.turnOnInstant c := rfl
@[simp] theorem Device.turnOnInstant_withHal : (d.withHal h).turnOnInstant c = d.turnOnInstant c := rfl
@[simp] theorem Device.turnOnInstant_setChan : (d.setChan c x).turnOnInstant c' = d.turnOnInstant c' := rfl
@[simp] theorem Device.turnOnInstant_withRequests : (d.withRequests r).turnOnInstant c = d.turnOnInstant c := rfl
@[simp] theorem Device.action_setChan (id : ConditionId) : (d.setChan c x).action id c' = d.action id c' := by
  cases id <;> rfl
@[simp] theorem Device.action_withRequests (id : ConditionId) : (d.withRequests r).action id c = d.action id c := by
  cases id <;> rfl
@[simp] theorem Device.action_withNotice (id : ConditionId) : (d.withNotice n).action id c = d.action id c := by
  cases id <;> rfl
end

/-! ### Withdrawals written out (R98, R99) -/

@[simp] theorem PerKind.set_get {α : Type} (v : PerKind α) (k : RequestKind) : v.set k (v.get k) = v := by
  cases k <;> rfl

/-- The channel has an entry of this kind in the list. -/
def Device.has (d : Device) (c : ChannelId) (k : RequestKind) : Bool :=
  d.requests.any fun x => x.channel == c && x.kind == k

/-- The report of a request of this kind once the window entries are withdrawn where `acts` holds. -/
def Device.reportAfter (d : Device) (c : ChannelId) (acts : Bool) (k : RequestKind) : Option Report :=
  if acts && d.has c k then some .withdrawn else (d.chan c).buffer.reports.get k

/-- A channel's buffer once its window entries are withdrawn where `acts` holds. -/
def Device.bufferAfter (d : Device) (c : ChannelId) (acts : Bool) : PeriodBuffer :=
  { (d.chan c).buffer with reports := { (d.chan c).buffer.reports with
      first := d.reportAfter c acts .first, second := d.reportAfter c acts .second } }

/-- The request list once a channel's window entries are withdrawn where `acts` holds. -/
def Device.requestsAfter (d : Device) (c : ChannelId) (acts : Bool) : List Entry :=
  d.requests.filter fun e => !(acts && e.channel == c && isWindowKind e.kind)

theorem Device.bufferAfter_false (d : Device) (c : ChannelId) : d.bufferAfter c false = (d.chan c).buffer := rfl

theorem Device.requestsAfter_false (d : Device) (c : ChannelId) : d.requestsAfter c false = d.requests := by
  simp [Device.requestsAfter]

theorem Device.withdrawOne_eq (c : ChannelId) (k : RequestKind) (d : Device) : d.withdrawOne c k =
    (d.setChan c { d.chan c with buffer := { (d.chan c).buffer with
        reports := (d.chan c).buffer.reports.set k (d.reportAfter c true k) } }).withRequests
      (d.requests.filter fun e => !e.isOf c k) := by
  have hhas : d.has c k = d.requests.any (Entry.isOf c k) := rfl
  by_cases h : d.requests.any (Entry.isOf c k) = true
  · rw [Device.withdrawOne, if_pos h, Device.reportAfter, hhas, h]
    rfl
  · have hkeep : d.requests.filter (fun e => !e.isOf c k) = d.requests :=
      List.filter_eq_self.2 fun e he => by simpa using fun hk => h (List.any_eq_true.2 ⟨e, he, hk⟩)
    have hreport : d.reportAfter c true k = (d.chan c).buffer.reports.get k := by
      rw [Device.reportAfter, hhas, if_neg (by simpa using h)]
    rw [Device.withdrawOne, if_neg h, hkeep, hreport, PerKind.set_get]
    exact (Device.setChan_chan d c).symm

theorem Device.withdrawWindows_eq (c : ChannelId) (d : Device) : d.withdrawWindows c =
    (d.setChan c { d.chan c with buffer := d.bufferAfter c true }).withRequests (d.requestsAfter c true) := by
  have hfilter : (d.requests.filter fun e => !e.isOf c .first).filter (fun e => !e.isOf c .second) =
      d.requestsAfter c true := by
    rw [List.filter_filter]
    refine List.filter_congr fun e _ => ?_
    simp only [Entry.isOf]
    cases e.kind <;> cases e.channel == c <;> rfl
  have hhas : (d.requests.filter fun e => !e.isOf c .first).any (fun e => e.channel == c && e.kind == .second) =
      d.has c .second := by
    rw [List.any_filter]
    refine List.any_congr rfl fun e => ?_
    simp only [Entry.isOf]
    cases e.kind <;> cases e.channel == c <;> rfl
  rw [Device.withdrawWindows, Device.withdrawOne_eq, Device.withdrawOne_eq]
  simp only [Device.setChan_withRequests, Device.requests_withRequests, Device.withRequests_withRequests, hfilter,
    Device.setChan_setChan, Device.chan_withRequests, Device.chan_setChan_same, Device.reportAfter, Device.has, hhas]
  rfl

/-! ### One channel in the scope of an assertion (R121) -/

/-- A channel in the scope of an assertion after it: `brakes` where the assertion raises its override to BRAKE, `floats`
where it floats the channel. -/
def Device.assertedChannel (d : Device) (id : ConditionId) (value : Int) (extra : Word) (brakes floats : Bool)
    (c : ChannelId) : Channel :=
  let ch := d.chan c
  let state := if floats then ChannelState.floated else ch.state
  let record : EventRecord := { code := .conditionAsserted, periodCount := ch.periodCount, condition := id.code,
                                value := value, action := (d.action id c).code, extra := extra, state := state }
  { ch with
    state := state, floatedLatch := ch.floatedLatch || floats, brakeHold := ch.brakeHold || brakes
    legs := if floats then allLegs .idle
      else if brakes && ch.state == .running then ch.legs.map (LegState.command .toLow (d.turnOnInstant c))
      else ch.legs
    buffer := d.bufferAfter c (brakes || floats)
    log := { ch.log with waiting := ch.log.waiting ++ [.event record] ++
      (if floats then [.event { record with code := .floated, value := 0, extra := 0, state := .floated }] else []) } }

/-- NOTICE after the assertion for a channel in scope. -/
def Device.noticeAfter (d : Device) (id : ConditionId) (c : ChannelId) : BitVec 13 :=
  if d.action id c = .note then d.notice else d.notice ||| BitVec.ofNat 13 (2 ^ noticeTrip c)

/-- The capture unit after a condition change for a channel in scope. -/
def Device.captureAfter (d : Device) (id : ConditionId) (assertion : Bool) (value : Int) (c : ChannelId) : CaptureUnit :=
  if d.capture.armedFor c then { d.capture with following := d.capture.following.map (CaptureBuffer.addChange
    { identifier := id.code, assertion := assertion, value := value, action := (d.action id c).code }) }
  else d.capture

theorem Device.captureChange_eq (id : ConditionId) (c : ChannelId) (assertion : Bool) (value : Int) (d : Device) :
    d.captureChange id c assertion value = d.withCapture (d.captureAfter id assertion value c) := by
  unfold Device.captureChange Device.gather Device.captureAfter
  split_ifs <;> rfl

theorem Device.applyBrake_eq (c : ChannelId) (d : Device) : d.applyBrake c =
    (d.setChan c { d.chan c with
      brakeHold := true
      legs := if (d.chan c).state = .running then (d.chan c).legs.map (LegState.command .toLow (d.turnOnInstant c))
        else (d.chan c).legs
      buffer := d.bufferAfter c true }).withRequests (d.requestsAfter c true) := by
  have hbuffer (x : Channel) (hx : x.buffer = (d.chan c).buffer) :
      (d.setChan c x).bufferAfter c true = d.bufferAfter c true := by
    simp [Device.bufferAfter, Device.reportAfter, Device.has, hx]
  by_cases hr : (d.chan c).state = .running
  · simp [Device.applyBrake, Device.modChan_eq_setChan, hr, Device.commandLegs_setChan, Device.withdrawWindows_eq,
      hbuffer, Device.requestsAfter]
  · simp [Device.applyBrake, Device.modChan_eq_setChan, hr, Device.withdrawWindows_eq, hbuffer, Device.requestsAfter]

theorem Device.floatChannel_eq (c : ChannelId) (d : Device) : d.floatChannel c =
    (d.setChan c { d.chan c with
      state := .floated, floatedLatch := true, legs := allLegs .idle
      buffer := d.bufferAfter c true }).withRequests (d.requestsAfter c true) := by
  have hbuffer (x : Channel) (hx : x.buffer = (d.chan c).buffer) :
      (d.setChan c x).bufferAfter c true = d.bufferAfter c true := by
    simp [Device.bufferAfter, Device.reportAfter, Device.has, hx]
  have hlegs (t : RefCount) (l : PerLeg LegState) : l.map (LegState.command .toFloat t) = allLegs .idle := rfl
  simp [Device.floatChannel, Device.modChan_eq_setChan, Device.commandLegs_setChan, Device.withdrawWindows_eq,
    hbuffer, Device.requestsAfter, hlegs]

/-- Steps 1 to 4 of R121 for one channel in scope, as a whole. -/
theorem Device.assertFor_eq {d : Device} {id : ConditionId} {c : ChannelId} {before : Override} {brakes floats : Bool}
    (hb : brakes = true ↔ d.override c = .brake ∧ before ≠ .brake)
    (hf : floats = (d.action id c == .float && (d.chan c).state == .running)) (hbf : ¬(brakes = true ∧ floats = true))
    (value : Int) (extra : Word) : d.assertFor id value extra before c =
      (((d.setChan c (d.assertedChannel id value extra brakes floats c)).withRequests
        (d.requestsAfter c (brakes || floats))).withNotice (d.noticeAfter id c)).withCapture
          (d.captureAfter id true value c) := by
  have hrise : d.afterRise c before = if brakes then d.applyBrake c else d := by
    simp only [Device.afterRise, hb]
  have htrip (e : Device) : (if d.action id c = .note then e else e.setNotice (noticeTrip c)) =
      e.withNotice (if d.action id c = .note then e.notice else e.notice ||| BitVec.ofNat 13 (2 ^ noticeTrip c)) := by
    split_ifs <;> rfl
  unfold Device.assertFor
  simp only [hrise, ← hf, htrip]
  cases brakes <;> cases floats
  case false.false =>
    simp [Device.hand, Device.modChan_eq_setChan, Device.conditionRecord, Device.captureChange_eq,
      Device.assertedChannel, Device.bufferAfter_false, Device.requestsAfter_false, Device.noticeAfter,
      Device.captureAfter]
    rfl
  case false.true =>
    obtain ⟨hact, hrun⟩ : d.action id c = .float ∧ (d.chan c).state = .running := by simpa using hf.symm
    simp [Device.hand, Device.modChan_eq_setChan, Device.conditionRecord, Device.captureChange_eq,
      Device.floatChannel_eq, Device.assertedChannel, Device.noticeAfter, Device.captureAfter, hact, Action.code]
  case true.false =>
    simp [Device.hand, Device.modChan_eq_setChan, Device.conditionRecord, Device.captureChange_eq,
      Device.applyBrake_eq, Device.assertedChannel, Device.noticeAfter, Device.captureAfter]
  case true.true => exact absurd ⟨rfl, rfl⟩ hbf

end Sys2Proof.Machine
end

