-- ==== Sys2Proof/Proofs/ConditionChanges.lean ====
section
/-! An assertion and a release for all the channels in scope, and the effective override. -/

namespace Sys2Proof.Machine

open Sys2Proof

/-! ### One channel in the scope of a release (R122) -/

/-- A channel in the scope of a release after it: `falls` where the release lowers its override, `braked` where the override
was BRAKE. -/
def Device.releasedChannel (d : Device) (id : ConditionId) (value : Int) (extra : Word) (falls braked : Bool)
    (c : ChannelId) : Channel :=
  let ch := d.chan c
  let record : EventRecord := { code := .conditionReleased, periodCount := ch.periodCount, condition := id.code,
                                value := value, action := (d.action id c).code, extra := extra, state := ch.state }
  { ch with
    va := if falls then 0 else ch.va
    computation := if falls then ch.computation.map (fun k => { k with zeroed := true }) else ch.computation
    brakeHold := if falls && braked && ch.state != .running then false else ch.brakeHold
    log := { ch.log with waiting := ch.log.waiting ++ [.event record] } }

theorem Device.releaseFor_eq {d : Device} {c : ChannelId} {before : Override} {falls braked : Bool}
    (hf : falls = true ↔ (d.override c).code < before.code) (hb : braked = true ↔ before = .brake) (id : ConditionId)
    (value : Int) (extra : Word) : d.releaseFor id value extra before c =
      (d.setChan c (d.releasedChannel id value extra falls braked c)).withCapture (d.captureAfter id false value c) := by
  unfold Device.releaseFor Device.afterFall
  simp only [← hf, ← hb]
  cases falls
  case false =>
    simp [Device.hand, Device.modChan_eq_setChan, Device.conditionRecord, Device.captureChange_eq,
      Device.releasedChannel, Device.captureAfter]
  case true =>
    by_cases hr : (d.chan c).state = .running <;> cases braked <;>
      simp [Device.hand, Device.modChan_eq_setChan, Device.conditionRecord, Device.captureChange_eq,
        Device.releasedChannel, Device.captureAfter, Channel.zeroVa, Channel.dropHold, hr]

/-! ### The channels in scope, one after another -/

/-- What a condition's change does for each channel in its scope. -/
structure ConditionEffect where
  channel : ChannelId → Channel
  withdraws : ChannelId → Bool
  notes : ChannelId → Bool
  change : ChannelId → ConditionChange

/-- The part `m`, with the condition changed, after the effects on the channels of `l`. -/
structure Device.Took (m : Device) (f : ConditionEffect) (l : List ChannelId) (x : Device) : Prop where
  rest : x = { m with channels := x.channels, requests := x.requests, notice := x.notice, capture := x.capture }
  chan : ∀ c, x.chan c = if c ∈ l then f.channel c else m.chan c
  conditions : ∀ id, x.condition id = m.condition id
  requests : x.requests =
    m.requests.filter fun e => !(decide (e.channel ∈ l) && f.withdraws e.channel && isWindowKind e.kind)
  notice : ∀ k, k < 13 → x.notice.getLsbD k =
    (m.notice.getLsbD k || l.any fun c => f.notes c && k == 3 + channelIndex c)
  capture : x.capture = if m.capture.mode = .armed ∧ m.capture.channel ∈ l then
      { m.capture with
        following := m.capture.following.map (CaptureBuffer.addChange (f.change m.capture.channel)) }
    else m.capture

theorem Device.Took.nil (m : Device) (f : ConditionEffect) : m.Took f [] m where
  rest := rfl
  chan := fun c => by simp
  conditions := fun _ => rfl
  requests := by simp
  notice := fun k _ => by simp
  capture := by simp

theorem getLsbD_noticeTrip (c : ChannelId) {k : Nat} (hk : k < 13) :
    (BitVec.ofNat 13 (2 ^ noticeTrip c)).getLsbD k = (k == 3 + channelIndex c) := by
  rw [BitVec.getLsbD_ofNat, Nat.testBit_two_pow]
  simp only [hk, decide_true, Bool.true_and, noticeTrip, beq_eq_decide, eq_comm]

section
variable {m x : Device} {f : ConditionEffect} {l : List ChannelId}

theorem Device.Took.setup (h : m.Took f l x) : x.setup = m.setup := by rw [h.rest]

theorem Device.Took.refCount (h : m.Took f l x) : x.refCount = m.refCount := by rw [h.rest]

theorem Device.Took.override (h : m.Took f l x) (c : ChannelId) : x.override c = m.override c :=
  Device.override_of_conditions h.setup h.conditions c

/-- A channel whose turn has not come has its entries still. -/
theorem Device.Took.has (h : m.Took f l x) {c : ChannelId} (hc : c ∉ l) (k : RequestKind) : x.has c k = m.has c k := by
  rw [Device.has, h.requests, List.any_filter]
  refine List.any_congr rfl fun e => ?_
  by_cases he : e.channel = c
  · simp [he, hc]
  · simp [he]

/-- A channel whose turn has not come is as it was. -/
theorem Device.Took.chan_waiting (h : m.Took f l x) {c : ChannelId} (hc : c ∉ l) : x.chan c = m.chan c := by
  rw [h.chan, if_neg hc]

theorem Device.Took.bufferAfter (h : m.Took f l x) {c : ChannelId} (hc : c ∉ l) (acts : Bool) :
    x.bufferAfter c acts = m.bufferAfter c acts := by
  simp only [Device.bufferAfter, Device.reportAfter, h.has hc, h.chan_waiting hc]

theorem Device.Took.turnOnInstant (h : m.Took f l x) (c : ChannelId) : x.turnOnInstant c = m.turnOnInstant c := by
  simp only [Device.turnOnInstant, h.refCount, Device.cfg_congr h.setup]

/-- The conditions of the channels are not changed by what is done for the channels. -/
theorem Device.condition_setChan {d : Device} {c : ChannelId} {x : Channel} (hcur : x.cur = (d.chan c).cur)
    (hzer : x.zer = (d.chan c).zer) (hage : x.age = (d.chan c).age) (id : ConditionId) :
    (d.setChan c x).condition id = d.condition id := by
  cases id <;> simp only [Device.condition, Device.chan_setChan, Device.setChan_hal, Device.setChan_lov,
    Device.setChan_lun, Device.setChan_fl0, Device.setChan_fl1] <;> split <;> simp_all

/-- The effect on one more channel. -/
theorem Device.Took.snoc (h : m.Took f l x) {c : ChannelId} (hc : c ∉ l) (hcur : (f.channel c).cur = (m.chan c).cur)
    (hzer : (f.channel c).zer = (m.chan c).zer) (hage : (f.channel c).age = (m.chan c).age) :
    m.Took f (l ++ [c]) ((((x.setChan c (f.channel c)).withRequests (x.requestsAfter c (f.withdraws c))).withNotice
      (if f.notes c then x.notice ||| BitVec.ofNat 13 (2 ^ noticeTrip c) else x.notice)).withCapture
        (if x.capture.armedFor c then { x.capture with
          following := x.capture.following.map (CaptureBuffer.addChange (f.change c)) } else x.capture)) where
  rest := by
    rw [h.rest]
    rfl
  chan := fun c' => by
    simp only [Device.chan_withCapture, Device.chan_withNotice, Device.chan_withRequests, Device.chan_setChan, h.chan,
      List.mem_append, List.mem_singleton]
    by_cases hcc : c' = c <;> simp [hcc]
  conditions := fun id => by
    have hset := Device.condition_setChan (d := x) (c := c) (x := f.channel c) (by rw [hcur, h.chan_waiting hc])
      (by rw [hzer, h.chan_waiting hc]) (by rw [hage, h.chan_waiting hc]) id
    rw [← h.conditions id, ← hset]
    cases id <;> rfl
  requests := by
    simp only [Device.requests_withCapture, Device.requests_withNotice, Device.requests_withRequests,
      Device.requestsAfter, h.requests, List.filter_filter]
    refine List.filter_congr fun e _ => ?_
    by_cases he : e.channel = c
    · simp [he, hc]
    · simp [he]
  notice := fun k hk => by
    simp only [Device.notice_withCapture, Device.notice_withNotice, List.any_append, List.any_cons, List.any_nil,
      Bool.or_false]
    cases f.notes c
    · simp [h.notice k hk]
    · rw [if_pos rfl, BitVec.getLsbD_or, getLsbD_noticeTrip c hk, h.notice k hk]
      simp [Bool.or_assoc]
  capture := by
    simp only [Device.capture_withCapture, h.capture, CaptureUnit.armedFor, List.mem_append, List.mem_singleton]
    by_cases hmode : m.capture.mode = .armed
    · by_cases hch : m.capture.channel = c
      · simp [hmode, hch, hc]
      · by_cases hl : m.capture.channel ∈ l <;> simp [hmode, hch, hl]
    · simp [hmode]

/-- The effects on channels one after another. -/
theorem Device.Took.foldl {p : ChannelId → Prop} {g : Device → ChannelId → Device}
    (hg : ∀ l x c, m.Took f l x → c ∉ l → p c → m.Took f (l ++ [c]) (g x c)) :
    ∀ (cs l : List ChannelId) (x : Device), m.Took f l x → (l ++ cs).Nodup → (∀ c ∈ cs, p c) →
      m.Took f (l ++ cs) (cs.foldl g x)
  | [], l, x, h, _, _ => by simpa using h
  | c :: cs, l, x, h, hn, hp => by
    have hc : c ∉ l := fun hl => (List.nodup_append.1 hn).2.2 c hl c (by simp) rfl
    have hassoc : l ++ c :: cs = (l ++ [c]) ++ cs := by simp
    rw [hassoc] at hn ⊢
    exact Device.Took.foldl hg cs _ _ (hg l x c h hc (hp c (by simp))) hn fun c' hc' => hp c' (by simp [hc'])
end

theorem Device.scope_nodup (d : Device) (id : ConditionId) : (d.scope id).Nodup :=
  List.Nodup.filter _ (by decide)

theorem Device.mem_scope (d : Device) (id : ConditionId) (c : ChannelId) : c ∈ d.scope id ↔ d.inScope id c = true := by
  cases c <;> simp [Device.scope, allChannels]

/-- The effects on all the channels in scope. -/
theorem Device.Took.scope {d m : Device} {id : ConditionId} {f : ConditionEffect} {g : Device → ChannelId → Device}
    (hg : ∀ l x c, m.Took f l x → c ∉ l → d.inScope id c = true → m.Took f (l ++ [c]) (g x c)) :
    m.Took f (d.scope id) ((d.scope id).foldl g m) := by
  have hall := Device.Took.foldl (p := fun c => d.inScope id c = true) hg (d.scope id) [] m (.nil m f)
    (by simpa using d.scope_nodup id) fun c hc => (d.mem_scope id c).1 hc
  simpa using hall

/-! ### The condition itself, and the override (R117, R119) -/

theorem Device.setCondition_eq (d : Device) (id : ConditionId) (x : Condition) : d.setCondition id x = { d with
    channels := (d.setCondition id x).channels
    hal := if id = .hal then x else d.hal, lov := if id = .lov then x else d.lov
    lun := if id = .lun then x else d.lun, fl0 := if id = .fl0 then x else d.fl0
    fl1 := if id = .fl1 then x else d.fl1 } := by
  cases id <;> rfl

theorem Device.chan_setCondition (d : Device) (id : ConditionId) (x : Condition) (c : ChannelId) :
    (d.setCondition id x).chan c = { d.chan c with
      cur := if id = .cur c then x else (d.chan c).cur, zer := if id = .zer c then x else (d.chan c).zer
      age := if id = .age c then x else (d.chan c).age } := by
  cases id with
  | cur c' | zer c' | age c' =>
    rw [Device.setCondition, Device.chan_modChan]
    by_cases hc : c = c'
    · simp [hc]
    · simp [hc, Ne.symm hc]
  | hal | lov | lun | fl0 | fl1 => rfl

theorem Device.condition_setCondition (d : Device) (id id' : ConditionId) (x : Condition) :
    (d.setCondition id x).condition id' = if id' = id then x else d.condition id' := by
  simp only [eq_comm (a := id')]
  cases id' with
  | cur c | zer c | age c => simp only [Device.condition, Device.chan_setCondition]
  | hal | lov | lun | fl0 | fl1 => simp only [Device.condition]; rw [Device.setCondition_eq]

theorem Device.override_eq_brake_iff (d : Device) (c : ChannelId) :
    d.override c = .brake ↔ d.presentWith c .brake = true := by
  unfold Device.override
  split_ifs <;> simp_all

theorem Device.override_eq_zero_iff (d : Device) (c : ChannelId) :
    d.override c = .zero ↔ ¬d.presentWith c .brake = true ∧ d.presentWith c .zero = true := by
  unfold Device.override
  split_ifs <;> simp_all

theorem Device.override_eq_none_iff (d : Device) (c : ChannelId) :
    d.override c = .none ↔ ¬d.presentWith c .brake = true ∧ ¬d.presentWith c .zero = true := by
  unfold Device.override
  split_ifs <;> simp_all

/-- An asserted condition raises the override of a channel in its scope to BRAKE exactly if that is its action. -/
theorem Device.raises_iff {d : Device} {id : ConditionId} {c : ChannelId} (hs : d.inScope id c = true) {x : Condition}
    (hx : x.asserted = true) : ((d.setCondition id x).override c = .brake ∧ d.override c ≠ .brake) ↔
      d.action id c = .brake ∧ d.override c ≠ .brake := by
  have hsetup : (d.setCondition id x).setup = d.setup := by rw [Device.setCondition_eq]
  refine and_congr_left fun hno => ?_
  rw [ne_eq, Device.override_eq_brake_iff, Device.presentWith_iff] at hno
  rw [Device.override_eq_brake_iff, Device.presentWith_iff]
  simp only [Device.inScope_congr hsetup, Device.action_congr hsetup, Device.condition_setCondition]
  constructor
  · rintro ⟨id', hasserted, hscope, hact⟩
    by_cases hid : id' = id
    · rwa [hid] at hact
    · rw [if_neg hid] at hasserted
      exact absurd ⟨id', hasserted, hscope, hact⟩ hno
  · exact fun hact => ⟨id, by simpa using hx, hs, hact⟩

/-! ### An assertion and a release as a whole -/

/-- The assertion raises the channel's override to BRAKE. -/
def Device.brakes (d : Device) (id : ConditionId) (c : ChannelId) : Bool :=
  d.inScope id c && d.action id c == .brake && d.override c != .brake

/-- The assertion floats the channel. -/
def Device.floats (d : Device) (id : ConditionId) (c : ChannelId) : Bool :=
  d.inScope id c && d.action id c == .float && (d.chan c).state == .running

/-- A condition once it is asserted. -/
def Condition.set (k : Condition) : Condition := { asserted := true, count := 0, assertions := k.assertions + 1 }

/-- The part with a condition asserted, before what that does. -/
def Device.withAsserted (d : Device) (id : ConditionId) : Device := d.setCondition id (d.condition id).set

/-- The part with a condition released, before what that does. -/
def Device.withReleased (d : Device) (id : ConditionId) : Device := d.setCondition id (d.condition id).cleared

theorem Device.setCondition_setup (d : Device) (id : ConditionId) (x : Condition) :
    (d.setCondition id x).setup = d.setup := by rw [Device.setCondition_eq]

/-- What an assertion does for the channels in its scope. -/
def Device.assertion (d : Device) (id : ConditionId) (value : Int) (extra : Word) : ConditionEffect where
  channel := fun c => (d.withAsserted id).assertedChannel id value extra (d.brakes id c) (d.floats id c) c
  withdraws := fun c => d.brakes id c || d.floats id c
  notes := fun c => d.action id c != .note
  change := fun c => { identifier := id.code, assertion := true, value := value, action := (d.action id c).code }

/-- What a release does for the channels in its scope. -/
def Device.releasing (d : Device) (id : ConditionId) (value : Int) (extra : Word) : ConditionEffect where
  channel := fun c => (d.withReleased id).releasedChannel id value extra
    (decide (((d.withReleased id).override c).code < (d.override c).code)) (d.override c == .brake) c
  withdraws := fun _ => false
  notes := fun _ => false
  change := fun c => { identifier := id.code, assertion := false, value := value, action := (d.action id c).code }

theorem Device.took_assertion (d : Device) (id : ConditionId) (value : Int) (extra : Word) :
    (d.withAsserted id).Took (d.assertion id value extra) (d.scope id)
      ((d.scope id).foldl (fun x c => x.assertFor id value extra (d.override c) c) (d.withAsserted id)) := by
  refine Device.Took.scope fun l x c h hc hs => ?_
  have hsetup : x.setup = d.setup := h.setup.trans (d.setCondition_setup id _)
  have hact : x.action id c = d.action id c := Device.action_congr hsetup id c
  have hactm : (d.withAsserted id).action id c = d.action id c := Device.action_congr (d.setCondition_setup id _) id c
  have hstate : (x.chan c).state = (d.chan c).state := by
    rw [h.chan_waiting hc, Device.withAsserted, Device.chan_setCondition]
  have hbrakes : d.brakes id c = true ↔ x.override c = .brake ∧ d.override c ≠ .brake := by
    rw [h.override, Device.withAsserted, Device.raises_iff hs rfl]
    simp [Device.brakes, hs]
  have hfloats : d.floats id c = (x.action id c == .float && (x.chan c).state == .running) := by
    simp [Device.floats, hs, hact, hstate]
  have hone : ¬(d.brakes id c = true ∧ d.floats id c = true) := by
    simp only [Device.brakes, Device.floats, Bool.and_eq_true, beq_iff_eq]
    rintro ⟨⟨⟨-, hb⟩, -⟩, ⟨⟨-, hf⟩, -⟩⟩
    cases hb.symm.trans hf
  have hchannel : x.assertedChannel id value extra (d.brakes id c) (d.floats id c) c =
      (d.assertion id value extra).channel c := by
    simp only [Device.assertion, Device.assertedChannel, h.chan_waiting hc, h.bufferAfter hc, h.turnOnInstant, hact,
      hactm]
  have hnotice : x.noticeAfter id c =
      if d.action id c != .note then x.notice ||| BitVec.ofNat 13 (2 ^ noticeTrip c) else x.notice := by
    by_cases hn : d.action id c = .note <;> simp [Device.noticeAfter, hact, hn]
  rw [Device.assertFor_eq hbrakes hfloats hone, hchannel, hnotice, Device.captureAfter, hact]
  exact h.snoc hc rfl rfl rfl

theorem Device.took_release (d : Device) (id : ConditionId) (value : Int) (extra : Word) :
    (d.withReleased id).Took (d.releasing id value extra) (d.scope id)
      ((d.scope id).foldl (fun x c => x.releaseFor id value extra (d.override c) c) (d.withReleased id)) := by
  refine Device.Took.scope fun l x c h hc hs => ?_
  have hsetup : x.setup = d.setup := h.setup.trans (d.setCondition_setup id _)
  have hact : x.action id c = d.action id c := Device.action_congr hsetup id c
  have hactm : (d.withReleased id).action id c = d.action id c := Device.action_congr (d.setCondition_setup id _) id c
  have hchannel : x.releasedChannel id value extra
      (decide (((d.withReleased id).override c).code < (d.override c).code)) (d.override c == .brake) c =
      (d.releasing id value extra).channel c := by
    simp only [Device.releasing, Device.releasedChannel, h.chan_waiting hc, hact, hactm]
  have hfalls : decide (((d.withReleased id).override c).code < (d.override c).code) = true ↔
      (x.override c).code < (d.override c).code := by rw [h.override, decide_eq_true_iff]
  have hsnoc := h.snoc hc (f := d.releasing id value extra) rfl rfl rfl
  rw [Device.releaseFor_eq hfalls beq_iff_eq, hchannel, Device.captureAfter, hact]
  have hkeep : x.requestsAfter c ((d.releasing id value extra).withdraws c) = x.requests := x.requestsAfter_false c
  rw [hkeep] at hsnoc
  exact hsnoc

end Sys2Proof.Machine
end

