-- ==== Sys2Proof/Proofs/Override.lean ====
section
/-! The effective override, and an assertion and a release as a whole. -/

namespace Sys2Proof.Machine

open Sys2Proof

theorem Device.assertCondition_eq (d : Device) (id : ConditionId) (value : Int) (extra : Word) :
    ∃ y, (d.withAsserted id).Took (d.assertion id value extra) (d.scope id) y ∧
      d.assertCondition id value extra = if id = .hal then y.setNotice noticeHall else y :=
  ⟨_, d.took_assertion id value extra, rfl⟩

theorem Device.releaseCondition_eq (d : Device) (id : ConditionId) (value : Int) (extra : Word) :
    (d.withReleased id).Took (d.releasing id value extra) (d.scope id) (d.releaseCondition id value extra) :=
  d.took_release id value extra

/-- The notice HALL is bit 10. -/
theorem Device.getLsbD_setNotice_hall (d : Device) {k : Nat} (hk : k < 13) :
    (d.setNotice noticeHall).notice.getLsbD k = (d.notice.getLsbD k || k == 10) := by
  have hbit : (BitVec.ofNat 13 (2 ^ noticeHall)).getLsbD k = (k == 10) := by
    rw [BitVec.getLsbD_ofNat, Nat.testBit_two_pow]
    simp only [hk, decide_true, Bool.true_and, noticeHall, beq_eq_decide, eq_comm]
  rw [← hbit, ← BitVec.getLsbD_or]
  rfl

/-- A condition's change leaves all but its own state and what its effects reach. -/
theorem Device.Took.rest_of {d x : Device} {id : ConditionId} {k : Condition} {f : ConditionEffect} {l : List ChannelId}
    (h : (d.setCondition id k).Took f l x) : x = { d with
      channels := x.channels, requests := x.requests, notice := x.notice, capture := x.capture
      hal := if id = .hal then k else d.hal, lov := if id = .lov then k else d.lov
      lun := if id = .lun then k else d.lun, fl0 := if id = .fl0 then k else d.fl0
      fl1 := if id = .fl1 then k else d.fl1 } := by
  calc x = { d.setCondition id k with channels := x.channels, requests := x.requests, notice := x.notice,
                                      capture := x.capture } := h.rest
    _ = _ := by rw [Device.setCondition_eq]

theorem Device.Took.capture_of {d x : Device} {id : ConditionId} {k : Condition} {f : ConditionEffect}
    (h : (d.setCondition id k).Took f (d.scope id) x) : x.capture =
      if d.capture.mode = .armed ∧ d.inScope id d.capture.channel = true then
        { d.capture with
          following := d.capture.following.map (CaptureBuffer.addChange (f.change d.capture.channel)) }
      else d.capture := by
  have hcapture : (d.setCondition id k).capture = d.capture := by rw [Device.setCondition_eq]
  rw [h.capture, hcapture]
  simp only [Device.mem_scope]

theorem Device.Took.chan_outside {d x : Device} {id : ConditionId} {k : Condition} {f : ConditionEffect}
    (h : (d.setCondition id k).Took f (d.scope id) x) {c : ChannelId} (hc : d.inScope id c = false) :
    x.chan c = d.chan c := by
  have hout : c ∉ d.scope id := by simp [Device.mem_scope, hc]
  rw [h.chan_waiting hout, Device.chan_setCondition]
  cases id <;> simp_all [Device.inScope]

theorem Device.Took.chan_inside {d x : Device} {id : ConditionId} {k : Condition} {f : ConditionEffect}
    (h : (d.setCondition id k).Took f (d.scope id) x) {c : ChannelId} (hc : d.inScope id c = true) :
    x.chan c = f.channel c := by
  rw [h.chan, if_pos ((d.mem_scope id c).2 hc)]

theorem isWindowKind_eq (k : RequestKind) : isWindowKind k = (k == .first || k == .second) := by
  cases k <;> rfl

/-- The request list after an assertion. -/
theorem Device.requests_assertion {d y : Device} {id : ConditionId} {value : Int} {extra : Word}
    (h : (d.withAsserted id).Took (d.assertion id value extra) (d.scope id) y) : y.requests =
      d.requests.filter fun x => !((x.kind == .first || x.kind == .second) &&
        (d.brakes id x.channel || d.floats id x.channel)) := by
  have hrequests : (d.withAsserted id).requests = d.requests := by rw [Device.withAsserted, Device.setCondition_eq]
  rw [h.requests, hrequests]
  refine List.filter_congr fun x _ => ?_
  rw [← isWindowKind_eq]
  by_cases hs : d.inScope id x.channel = true
  · simp [Device.mem_scope, hs, Device.assertion, Bool.and_comm]
  · simp [Device.mem_scope, hs, Device.brakes, Device.floats]

/-- NOTICE after an assertion, but for HALL. -/
theorem Device.notice_assertion {d y : Device} {id : ConditionId} {value : Int} {extra : Word}
    (h : (d.withAsserted id).Took (d.assertion id value extra) (d.scope id) y) {k : Nat} (hk : k < 13) :
    y.notice.getLsbD k = (d.notice.getLsbD k || [ChannelId.ch0, .ch1, .ch2].any fun c =>
      d.inScope id c && d.action id c != .note && k == 3 + channelIndex c) := by
  have hnotice : (d.withAsserted id).notice = d.notice := by rw [Device.withAsserted, Device.setCondition_eq]
  rw [h.notice k hk, hnotice, Device.scope, List.any_filter]
  simp [Device.assertion, allChannels, Bool.and_assoc]

/-- A channel in scope after an assertion, over the channel before it. -/
theorem Device.assertion_channel (d : Device) (id : ConditionId) (value : Int) (extra : Word) (c : ChannelId) :
    let ch := d.chan c
    let x := (d.condition id).set
    (d.assertion id value extra).channel c =
      { d.assertedChannel id value extra (d.brakes id c) (d.floats id c) c with
        cur := if id = .cur c then x else ch.cur, zer := if id = .zer c then x else ch.zer
        age := if id = .age c then x else ch.age } := by
  have hact : (d.withAsserted id).action id c = d.action id c := Device.action_congr (d.setCondition_setup id _) id c
  have hturn : (d.withAsserted id).turnOnInstant c = d.turnOnInstant c := by
    rw [Device.withAsserted, Device.setCondition_eq]
    rfl
  have hbuffer (acts : Bool) : (d.withAsserted id).bufferAfter c acts = d.bufferAfter c acts := by
    have hrequests : (d.withAsserted id).requests = d.requests := by rw [Device.withAsserted, Device.setCondition_eq]
    have hsame : ((d.withAsserted id).chan c).buffer = (d.chan c).buffer := by
      rw [Device.withAsserted, Device.chan_setCondition]
    have hhas (k : RequestKind) : (d.withAsserted id).has c k = d.has c k := by rw [Device.has, Device.has, hrequests]
    simp only [Device.bufferAfter, Device.reportAfter, hhas, hsame]
  simp only [Device.assertion, Device.assertedChannel, hact, hturn, hbuffer]
  rw [Device.withAsserted, Device.chan_setCondition]

/-- A channel in scope after a release, over the channel before it. -/
theorem Device.releasing_channel (d : Device) (id : ConditionId) (value : Int) (extra : Word) (c : ChannelId) :
    let ch := d.chan c
    let x := (d.condition id).cleared
    (d.releasing id value extra).channel c =
      { d.releasedChannel id value extra (decide (((d.withReleased id).override c).code < (d.override c).code))
          (d.override c == .brake) c with
        cur := if id = .cur c then x else ch.cur, zer := if id = .zer c then x else ch.zer
        age := if id = .age c then x else ch.age } := by
  have hact : (d.withReleased id).action id c = d.action id c := Device.action_congr (d.setCondition_setup id _) id c
  simp only [Device.releasing, Device.releasedChannel, hact]
  simp only [show (d.withReleased id).chan c = _ from Device.chan_setCondition ..]

/-! ### The part after an assertion, piece by piece -/

section
variable (d : Device) (id : ConditionId) (value : Int) (extra : Word)

theorem Device.chan_assertCondition (c : ChannelId) : (d.assertCondition id value extra).chan c =
    if d.inScope id c then (d.assertion id value extra).channel c else d.chan c := by
  obtain ⟨y, hy, he⟩ := d.assertCondition_eq id value extra
  have hchan : (d.assertCondition id value extra).chan c = y.chan c := by
    rw [he]
    split_ifs <;> rfl
  by_cases hs : d.inScope id c = true
  · rw [hchan, hy.chan_inside hs, if_pos hs]
  · rw [hchan, hy.chan_outside (by simpa using hs), if_neg hs]

theorem Device.assertCondition_rest : d.assertCondition id value extra = { d with
    channels := (d.assertCondition id value extra).channels
    requests := (d.assertCondition id value extra).requests
    notice := (d.assertCondition id value extra).notice
    capture := (d.assertCondition id value extra).capture
    hal := if id = .hal then (d.condition id).set else d.hal, lov := if id = .lov then (d.condition id).set else d.lov
    lun := if id = .lun then (d.condition id).set else d.lun, fl0 := if id = .fl0 then (d.condition id).set else d.fl0
    fl1 := if id = .fl1 then (d.condition id).set else d.fl1 } := by
  obtain ⟨y, hy, he⟩ := d.assertCondition_eq id value extra
  have hrest : d.assertCondition id value extra = { y with notice := (d.assertCondition id value extra).notice } := by
    rw [he]
    split_ifs <;> rfl
  rw [hrest, hy.rest_of]

theorem Device.requests_assertCondition : (d.assertCondition id value extra).requests =
    d.requests.filter fun x => !((x.kind == .first || x.kind == .second) &&
      (d.brakes id x.channel || d.floats id x.channel)) := by
  obtain ⟨y, hy, he⟩ := d.assertCondition_eq id value extra
  rw [← Device.requests_assertion hy, he]
  split_ifs <;> rfl

theorem Device.capture_assertCondition : (d.assertCondition id value extra).capture =
    if d.capture.mode = .armed ∧ d.inScope id d.capture.channel = true then
      { d.capture with following := d.capture.following.map (CaptureBuffer.addChange
        { identifier := id.code, assertion := true, value := value, action := (d.action id d.capture.channel).code }) }
    else d.capture := by
  obtain ⟨y, hy, he⟩ := d.assertCondition_eq id value extra
  have hcapture : (d.assertCondition id value extra).capture = y.capture := by
    rw [he]
    split_ifs <;> rfl
  rw [hcapture]
  exact hy.capture_of

theorem Device.notice_assertCondition {k : Nat} (hk : k < 13) : (d.assertCondition id value extra).notice.getLsbD k =
    (d.notice.getLsbD k || (k == 10 && decide (id = .hal)) || [ChannelId.ch0, .ch1, .ch2].any fun c =>
      d.inScope id c && d.action id c != .note && k == 3 + channelIndex c) := by
  obtain ⟨y, hy, he⟩ := d.assertCondition_eq id value extra
  have hnotice : (d.assertCondition id value extra).notice.getLsbD k =
      (y.notice.getLsbD k || (k == 10 && decide (id = .hal))) := by
    by_cases hid : id = .hal
    · rw [he, if_pos hid, Device.getLsbD_setNotice_hall y hk]
      simp [hid]
    · rw [he, if_neg hid]
      simp [hid]
  rw [hnotice, Device.notice_assertion hy hk, Bool.or_assoc, Bool.or_assoc, Bool.or_comm (List.any ..)]

/-! ### The part after a release, piece by piece -/

theorem Device.chan_releaseCondition (c : ChannelId) : (d.releaseCondition id value extra).chan c =
    if d.inScope id c then (d.releasing id value extra).channel c else d.chan c := by
  by_cases hs : d.inScope id c = true
  · rw [(d.releaseCondition_eq id value extra).chan_inside hs, if_pos hs]
  · rw [(d.releaseCondition_eq id value extra).chan_outside (by simpa using hs), if_neg hs]

theorem Device.requests_releaseCondition : (d.releaseCondition id value extra).requests = d.requests := by
  rw [(d.releaseCondition_eq id value extra).requests, Device.withReleased, Device.setCondition_eq]
  simp [Device.releasing]

theorem Device.notice_releaseCondition : (d.releaseCondition id value extra).notice = d.notice := by
  refine BitVec.eq_of_getLsbD_eq fun k hk => ?_
  rw [(d.releaseCondition_eq id value extra).notice k hk, Device.withReleased, Device.setCondition_eq]
  simp [Device.releasing]

theorem Device.releaseCondition_rest : d.releaseCondition id value extra = { d with
    channels := (d.releaseCondition id value extra).channels
    requests := (d.releaseCondition id value extra).requests
    notice := (d.releaseCondition id value extra).notice
    capture := (d.releaseCondition id value extra).capture
    hal := if id = .hal then (d.condition id).cleared else d.hal
    lov := if id = .lov then (d.condition id).cleared else d.lov
    lun := if id = .lun then (d.condition id).cleared else d.lun
    fl0 := if id = .fl0 then (d.condition id).cleared else d.fl0
    fl1 := if id = .fl1 then (d.condition id).cleared else d.fl1 } :=
  (d.releaseCondition_eq id value extra).rest_of
end

/-- Settles O50. -/
theorem theOverrideIsTheHighestAction : Obligations.TheOverrideIsTheHighestAction := by
  intro d c present
  have hpresent (act : Action) : d.presentWith c act = true ↔ present act := d.presentWith_iff c act
  refine ⟨?_, ?_, ?_, ?_⟩
  · rw [Device.override_eq_brake_iff, hpresent]
  · rw [Device.override_eq_zero_iff, hpresent, hpresent]
  · rw [Device.override_eq_none_iff, hpresent, hpresent]
  intro id value extra ch old record gathered with_ own
  refine ⟨?_, ?_⟩
  · intro e new brakes floats window withdrawn state
    refine ⟨d.assertCondition_rest id value extra, d.capture_assertCondition id value extra,
      d.requests_assertCondition id value extra, fun k hk => d.notice_assertCondition id value extra hk,
      fun hout => ?_, fun hin => ?_⟩
    · simp only [e, Device.chan_assertCondition, hout, Bool.false_eq_true, if_false, ch]
    · simp only [e, Device.chan_assertCondition, hin, if_true]
      exact d.assertion_channel id value extra c
  · intro e new falls
    have he : (d.withReleased id).Took (d.releasing id value extra) (d.scope id) e := d.releaseCondition_eq id value extra
    have hover : e.override c = (d.withReleased id).override c := he.override c
    refine ⟨d.releaseCondition_rest id value extra, he.capture_of, d.requests_releaseCondition id value extra,
      d.notice_releaseCondition id value extra, he.chan_outside, fun hin => ?_⟩
    have hfalls : falls = decide (((d.withReleased id).override c).code < (d.override c).code) := by
      simp only [falls, hin, hover, Bool.true_and]
    rw [he.chan_inside hin, Device.releasing_channel, ← hfalls]
    rfl

end Sys2Proof.Machine
end

