-- ==== Sys2Proof/Proofs/FaultLines.lean ====
section
/-! What a filtered fault does: the filter, the condition, and the channels that the line maps. -/

namespace Sys2Proof.Machine

open Sys2Proof

/-- The part with a line's filtered level following the level that the line has held. -/
def Device.lineFiltered (d : Device) (line : FaultLine) (since : RefCount) : Device :=
  let filter : FaultFilter := { level := (d.fault line).level, filtered := !(d.fault line).level, since := none }
  { d.advanceTo (since + 4) with
    flt0 := if line = .flt0 then filter else d.flt0
    flt1 := if line = .flt1 then filter else d.flt1 }

/-- The part with the line's condition following its filtered level, before the hand-out. -/
def Device.lineFollowed (d : Device) (line : FaultLine) (since : RefCount) : Device :=
  if d.setup = none then d.lineFiltered line since
  else if (!(d.fault line).level) = true then
    (d.lineFiltered line since).assertCondition (if line = .flt0 then .fl0 else .fl1) 0 0
  else (d.lineFiltered line since).releaseCondition (if line = .flt0 then .fl0 else .fl1) 0 0

theorem faultCondition_eq (line : FaultLine) : faultCondition line = if line = .flt0 then .fl0 else .fl1 := by
  cases line <;> rfl

section
variable {d : Device} {line : FaultLine} {since : RefCount}

@[simp] theorem Device.lineFiltered_chan (c : ChannelId) : (d.lineFiltered line since).chan c = d.chan c :=
  Device.chan_advanceTo ..

@[simp] theorem Device.lineFiltered_setup : (d.lineFiltered line since).setup = d.setup := Device.advanceTo_setup ..

@[simp] theorem Device.lineFiltered_requests : (d.lineFiltered line since).requests = d.requests :=
  Device.advanceTo_requests ..

@[simp] theorem Device.lineFiltered_condition (id : ConditionId) :
    (d.lineFiltered line since).condition id = d.condition id := by
  have htime : (d.advanceTo (since + 4)).condition id = d.condition id := by
    cases id <;> simp [Device.condition]
  rw [← htime]
  cases id <;> rfl

theorem Device.lineFiltered_fault : (d.lineFiltered line since).fault line =
    { level := (d.fault line).level, filtered := !(d.fault line).level, since := none } := by
  cases line <;> rfl

/-- The expiry of a line's filter, as a whole. -/
theorem Device.expireFault_eq (h : (d.fault line).since = some since) :
    d.expireFault line = (d.lineFollowed line since).arbitrate := by
  have hfault (t : RefCount) : (d.advanceTo t).fault line = d.fault line := by cases line <;> simp [Device.fault]
  have hset (t : RefCount) (x : FaultFilter) : (d.advanceTo t).setFault line x = { d.advanceTo t with
      flt0 := if line = .flt0 then x else d.flt0, flt1 := if line = .flt1 then x else d.flt1 } := by
    cases line
    case flt0 =>
      rw [← Device.advanceTo_flt1 t d]
      rfl
    case flt1 =>
      rw [← Device.advanceTo_flt0 t d]
      rfl
  have hfiltered : (d.advanceTo (since + 4)).setFault line { d.fault line with
      filtered := !(d.fault line).level, since := none } = d.lineFiltered line since := hset ..
  have hexpire : d.expireFault line = ((d.lineFiltered line since).followFault line).arbitrate := by
    simp only [Device.expireFault, h, hfault]
    rw [← hfiltered]
    rfl
  rw [hexpire, Device.followFault, Device.locked, Device.lineFiltered_setup, Device.lineFiltered_fault,
    faultCondition_eq, Device.lineFollowed]
  cases d.setup <;> rfl

/-- What the filter and its condition leave. -/
theorem Device.lineFollowed_rest : d.lineFollowed line since = { d.lineFiltered line since with
    channels := (d.lineFollowed line since).channels, requests := (d.lineFollowed line since).requests
    notice := (d.lineFollowed line since).notice, capture := (d.lineFollowed line since).capture
    fl0 := (d.lineFollowed line since).fl0, fl1 := (d.lineFollowed line since).fl1 } := by
  by_cases hs : d.setup = none
  · rw [Device.lineFollowed, if_pos hs]
  · by_cases ha : (!(d.fault line).level) = true
    · rw [Device.lineFollowed, if_neg hs, if_pos ha]
      rw [Device.assertCondition_rest]
      cases line <;> rfl
    · rw [Device.lineFollowed, if_neg hs, if_neg ha]
      rw [Device.releaseCondition_rest]
      cases line <;> rfl
end

/-! ### The three cases: an unlocked part, an assertion, a release -/

theorem Device.inScope_faultCondition (d : Device) (line : FaultLine) (c : ChannelId) :
    d.inScope (faultCondition line) c = faultMapped d.words line c := by
  cases line <;> rfl

theorem Device.action_faultCondition (d : Device) (line : FaultLine) (c : ChannelId) :
    d.action (faultCondition line) c = .float := by
  cases line <;> rfl

section
variable {d : Device} {line : FaultLine} {since : RefCount}

theorem Device.lineFollowed_unlocked (hs : d.setup = none) : d.lineFollowed line since = d.lineFiltered line since := by
  rw [Device.lineFollowed, if_pos hs]

theorem Device.lineFollowed_asserted (hs : d.setup ≠ none) (ha : (!(d.fault line).level) = true) :
    d.lineFollowed line since = (d.lineFiltered line since).assertCondition (faultCondition line) 0 0 := by
  rw [Device.lineFollowed, if_neg hs, if_pos ha, faultCondition_eq]

theorem Device.lineFollowed_released (hs : d.setup ≠ none) (ha : (!(d.fault line).level) = false) :
    d.lineFollowed line since = (d.lineFiltered line since).releaseCondition (faultCondition line) 0 0 := by
  rw [Device.lineFollowed, if_neg hs, if_neg (by simp [ha]), faultCondition_eq]

theorem Device.lineFiltered_inScope (c : ChannelId) :
    (d.lineFiltered line since).inScope (faultCondition line) c = faultMapped d.words line c := by
  rw [Device.inScope_faultCondition, Device.words_congr Device.lineFiltered_setup]

/-- A channel that the line does not map, and every channel of an unlocked part, is as it was. -/
theorem Device.lineFollowed_chan_unmapped {c : ChannelId} (h : d.setup = none ∨ faultMapped d.words line c = false) :
    (d.lineFollowed line since).chan c = d.chan c := by
  by_cases hs : d.setup = none
  · rw [Device.lineFollowed_unlocked hs, Device.lineFiltered_chan]
  · have hmap := h.resolve_left hs
    cases ha : !(d.fault line).level
    · rw [Device.lineFollowed_released hs ha, Device.chan_releaseCondition, Device.lineFiltered_inScope, hmap]
      simp
    · rw [Device.lineFollowed_asserted hs ha, Device.chan_assertCondition, Device.lineFiltered_inScope, hmap]
      simp

/-- The state and the legs of a channel that the fault does not float are as they were. -/
theorem Device.lineFollowed_state_legs {c : ChannelId} (h : (!(d.fault line).level) = false ∨ (d.chan c).state ≠ .running) :
    ((d.lineFollowed line since).chan c).state = (d.chan c).state ∧
      ((d.lineFollowed line since).chan c).legs = (d.chan c).legs := by
  by_cases hmap : d.setup = none ∨ faultMapped d.words line c = false
  · rw [Device.lineFollowed_chan_unmapped hmap]
    exact ⟨rfl, rfl⟩
  obtain ⟨hs, hmap⟩ : d.setup ≠ none ∧ faultMapped d.words line c = true := by simpa using hmap
  cases ha : !(d.fault line).level
  · rw [Device.lineFollowed_released hs ha, Device.chan_releaseCondition, Device.lineFiltered_inScope, hmap, if_pos rfl,
      Device.releasing_channel]
    simp [Device.releasedChannel]
  · have hst : (d.chan c).state ≠ .running := h.resolve_left (by simp [ha])
    rw [Device.lineFollowed_asserted hs ha, Device.chan_assertCondition, Device.lineFiltered_inScope, hmap, if_pos rfl,
      Device.assertion_channel]
    simp [Device.assertedChannel, Device.floats, Device.brakes, Device.action_faultCondition, hst]

/-- A mapped RUNNING channel is floated by its line's assertion. -/
theorem Device.lineFollowed_floats {c : ChannelId} (hs : d.setup ≠ none) (ha : (!(d.fault line).level) = true)
    (hmap : faultMapped d.words line c = true) (hr : (d.chan c).state = .running) :
    ((d.lineFollowed line since).chan c).state = .floated ∧ ((d.lineFollowed line since).chan c).floatedLatch = true ∧
      ((d.lineFollowed line since).chan c).legs = allLegs .idle ∧
      ∀ x ∈ (d.lineFollowed line since).requests, x.channel = c → x.kind ≠ .first ∧ x.kind ≠ .second := by
  have hfloats : (d.lineFiltered line since).floats (faultCondition line) c = true := by
    simp [Device.floats, Device.lineFiltered_inScope, hmap, Device.action_faultCondition, hr]
  rw [Device.lineFollowed_asserted hs ha, Device.chan_assertCondition, Device.lineFiltered_inScope, hmap, if_pos rfl,
    Device.assertion_channel, Device.requests_assertCondition, hfloats]
  refine ⟨rfl, by simp [Device.assertedChannel], rfl, fun x hx hc => ?_⟩
  have hkeep := (List.mem_filter.1 hx).2
  rw [hc, hfloats] at hkeep
  simpa using hkeep

theorem Device.condition_assertCondition (d : Device) (line : FaultLine) (value : Int) (extra : Word) :
    (d.assertCondition (faultCondition line) value extra).condition (faultCondition line) =
      (d.condition (faultCondition line)).set := by
  cases line <;> rw [Device.assertCondition_rest] <;> rfl

theorem Device.condition_releaseCondition (d : Device) (line : FaultLine) (value : Int) (extra : Word) :
    (d.releaseCondition (faultCondition line) value extra).condition (faultCondition line) =
      (d.condition (faultCondition line)).cleared := by
  cases line <;> rw [Device.releaseCondition_rest] <;> rfl

/-- The line's condition on a locked part. -/
theorem Device.lineFollowed_condition (hs : d.setup ≠ none) :
    (d.lineFollowed line since).condition (faultCondition line) =
      { asserted := !(d.fault line).level, count := 0
        assertions := (d.condition (faultCondition line)).assertions + if (!(d.fault line).level) then 1 else 0 } := by
  cases ha : !(d.fault line).level
  · rw [Device.lineFollowed_released hs ha, Device.condition_releaseCondition, Device.lineFiltered_condition]
    simp [Condition.cleared]
  · rw [Device.lineFollowed_asserted hs ha, Device.condition_assertCondition, Device.lineFiltered_condition]
    rfl

/-- TRIP of a mapped channel is noticed. -/
theorem Device.lineFollowed_notice {c : ChannelId} (hs : d.setup ≠ none) (ha : (!(d.fault line).level) = true)
    (hmap : faultMapped d.words line c = true) :
    (d.lineFollowed line since).notice.getLsbD (3 + channelIndex c) = true := by
  rw [Device.lineFollowed_asserted hs ha, Device.notice_assertCondition _ _ _ _ (by cases c <;> decide), Bool.or_eq_true]
  refine .inr (List.any_eq_true.2 ⟨c, by cases c <;> simp, ?_⟩)
  rw [Device.lineFiltered_inScope, hmap, Device.action_faultCondition]
  simp
end

/-- What the hand-out leaves in a channel. -/
theorem Device.HandsOut.state_legs {d e : Device} (h : d.HandsOut e) (c : ChannelId) :
    (e.chan c).state = (d.chan c).state ∧ (e.chan c).floatedLatch = (d.chan c).floatedLatch ∧
      (e.chan c).legs = (d.chan c).legs := by
  rw [h.channels c]
  exact ⟨rfl, rfl, rfl⟩

theorem Device.fault_congr {d e : Device} (h0 : e.flt0 = d.flt0) (h1 : e.flt1 = d.flt1) (line : FaultLine) :
    e.fault line = d.fault line := by
  cases line
  · exact h0
  · exact h1

/-- Settles O52. -/
theorem aFilteredFaultFloatsItsChannels : Obligations.AFilteredFaultFloatsItsChannels := by
  intro s line since hinv hsince asserted at_ filter filtered condition followed
  have hout : followed.HandsOut followed.arbitrate := Device.handsOut_arbitrate _
  have hfollowed : followed = s.lineFollowed line since := rfl
  have hrest : followed = _ := Device.lineFollowed_rest (d := s.toDevice) (line := line) (since := since)
  have hexec : exec (.faultFilterExpiry line) s =
      .next { s with toDevice := publish s.toDevice followed.arbitrate } := by
    show s.apply (Device.expireFault line) = _
    rw [State.apply_eq, Device.expireFault_eq hsince, hfollowed]
  generalize followed.arbitrate = e at hout hexec
  have hcond : (publish s.toDevice e).condition (faultCondition line) = followed.condition (faultCondition line) := by
    rw [hout.rest]
    cases line <;> rfl
  refine ⟨_, e, hexec, rfl, hout, ?_, ?_, fun hs c => ?_, fun hs => ?_, fun c => ?_, fun hs ha c hmap => ⟨fun hr => ?_,
    fun hr => ?_, ?_⟩, fun ha c => ?_⟩
  · have hfilter : (publish s.toDevice e).fault line = (s.lineFiltered line since).fault line :=
      Device.fault_congr (by rw [publish_flt0, hout.rest, hrest]) (by rw [publish_flt1, hout.rest, hrest]) line
    exact hfilter.trans Device.lineFiltered_fault
  · show (publish s.toDevice e).refCount = _
    rw [publish_refCount, hout.rest, hrest]
    rfl
  · have hidle : e = followed := hout.idle fun cv x hx => by
      rw [hfollowed, Device.lineFollowed_unlocked hs, Device.lineFiltered_requests, (hinv.1.unlocked hs).requests] at hx
      cases hx
    show (publish s.toDevice e).chan c = _
    rw [chan_publish, hidle, hfollowed, Device.lineFollowed_chan_unmapped (.inl hs)]
  · exact hcond.trans (hfollowed ▸ Device.lineFollowed_condition hs)
  · by_cases hmap : s.setup = none ∨ faultMapped s.words line c = false
    · right
      have hchan := hout.channels c
      rw [hfollowed, Device.lineFollowed_chan_unmapped hmap] at hchan
      exact hchan
    · left
      simpa using hmap
  · obtain ⟨hstate, hlatch, hlegs⟩ := hout.state_legs c
    obtain ⟨hst, hl, hg, hreq⟩ := Device.lineFollowed_floats (since := since) hs ha hmap hr
    rw [← hfollowed] at hst hl hg hreq
    exact ⟨hstate.trans hst, hlatch.trans hl, hlegs.trans hg, fun x hx => hreq x (hout.listed.subset hx)⟩
  · obtain ⟨hstate, -, hlegs⟩ := hout.state_legs c
    obtain ⟨hst, hg⟩ := Device.lineFollowed_state_legs (line := line) (since := since) (.inr hr)
    rw [← hfollowed] at hst hg
    exact ⟨hstate.trans hst, hlegs.trans hg⟩
  · show (publish s.toDevice e).notice.getLsbD _ = true
    rw [publish_notice, hout.rest]
    exact Device.lineFollowed_notice hs ha hmap
  · obtain ⟨hstate, -, hlegs⟩ := hout.state_legs c
    obtain ⟨hst, hg⟩ := Device.lineFollowed_state_legs (c := c) (line := line) (since := since) (.inl ha)
    rw [← hfollowed] at hst hg
    exact ⟨hstate.trans hst, hlegs.trans hg⟩

end Sys2Proof.Machine
end

