-- ==== Sys2Proof/Proofs/Opening.lean ====
section
/-! The opening of a period, step by step (R8), each step written over the part before it. -/

namespace Sys2Proof.Machine

open Sys2Proof

theorem Device.followPeriod_eq (c : ChannelId) (d : Device) : d.followPeriod c = d.withCapture
    (if d.capture.mode = .armed ∧ d.capture.channel = c then { d.capture with following := some .empty }
      else d.capture) := by
  by_cases h : d.capture.mode = .armed ∧ d.capture.channel = c <;>
    simp [Device.followPeriod, CaptureUnit.armedFor, h, Device.withCapture]

theorem Device.clearHold_eq (c : ChannelId) (d : Device) : d.clearHold c =
    d.setChan c { d.chan c with brakeHold := if d.override c = .brake then (d.chan c).brakeHold else false } := by
  by_cases h : d.override c = .brake
  · rw [Device.clearHold, if_pos h, if_pos h]
    exact (Device.setChan_chan d c).symm
  · rw [Device.clearHold, if_neg h, if_neg h]
    rfl

/-- Legs under the BRAKE hold are given to low. -/
theorem Device.loadLegs_of_hold {d : Device} {c : ChannelId} (hr : (d.chan c).state = .running)
    (hb : (d.chan c).brakeHold = true) : d.loadLegs c =
      d.setChan c { d.chan c with legs := (d.chan c).legs.map (LegState.command .toLow (d.turnOnInstant c)) } := by
  rw [Device.loadLegs, if_pos hr, if_pos hb]
  rfl

/-- The legs of a set in force that floats all three go off. -/
theorem Device.loadLegs_of_float {d : Device} {c : ChannelId} {e : EdgeSet} (hr : (d.chan c).state = .running)
    (hb : (d.chan c).brakeHold = false) (he : (d.chan c).inForce = some e) (hf : e.drives = floatDrives) :
    d.loadLegs c = d.setChan c { d.chan c with legs := allLegs .idle } := by
  rw [Device.loadLegs, if_pos hr, if_neg (by simp [hb]), he]
  simp [hf, floatDrives, Drive.command, Device.commandLeg, Device.modChan_eq_setChan, LegState.command, allLegs,
    PerLeg.set]

theorem Device.enterRequests_eq {d : Device} {c : ChannelId} {e : EdgeSet} (h : (d.chan c).inForce = some e) :
    d.enterRequests c = d.withRequests
      (((e.requests.filter (d.entersRequest c)).map (d.entryFor c)).foldl (fun l x => insertEntry x l) d.requests) :=
  Device.enterRequests_of_inForce h

theorem Device.startFetch_eq (c : ChannelId) (d : Device) : d.startFetch c = d.setChan c { d.chan c with
    fetch := some { period := (d.chan c).periodCount,
                    reader := { since := d.refCount, todo := fetchOrder c, got := [] } } } := rfl

/-- No window request is among those of an all-float set. -/
theorem floatRequests_enter {g : ChannelSetup} {modulus : Nat} {number : BitVec 32} (d : Device) (c : ChannelId) :
    (floatRequests g modulus number).filter (d.entersRequest c) = floatRequests g modulus number := by
  refine List.filter_eq_self.2 fun r hr => ?_
  have hkind : r.kind = .zero ∨ r.kind = .link := by
    simp only [floatRequests, List.mem_filterMap, List.mem_cons, List.not_mem_nil, or_false, id] at hr
    obtain ⟨o, rfl | rfl, ho⟩ := hr
    · exact .inl (zeroRequest_kind ho)
    · exact .inr (linkRequest_kind ho)
  rw [Device.entersRequest_eq]
  rcases hkind with h | h <;> simp [h]

/-- The set that START makes is in force as it was staged. -/
theorem startSet_intoForce (g : ChannelSetup) : (startSet g).intoForce g 1 = startSet g := by
  have hfloat : (startSet g).drives = floatDrives := rfl
  rw [EdgeSet.intoForce, if_pos hfloat]
  rfl

/-! ### START up to HAL (R11) -/

/-- The override of a channel whose own conditions are clear comes from LOV and LUN alone (R82, R130). -/
theorem Device.override_brake_of_clear {d e : Device} {c : ChannelId} (hs : e.setup = d.setup) (hlov : e.lov = d.lov)
    (hlun : e.lun = d.lun) (hcur : (e.chan c).cur.asserted = false) (hzer : (e.chan c).zer.asserted = false)
    (hage : (e.chan c).age.asserted = false) (hhal : c = .ch0 → e.hal.asserted = false) :
    e.override c = .brake ↔ d.brakedAtStart c = true := by
  have hact (id : ConditionId) : e.action id c = d.action id c := Device.action_congr hs id c
  have hstart : d.brakedAtStart c = true ↔
      (e.lov.asserted = true ∧ e.action .lov c = .brake) ∨ (e.lun.asserted = true ∧ e.action .lun c = .brake) := by
    simp [Device.brakedAtStart, hlov, hlun, hact]
  rw [Device.override_eq_brake_iff, Device.presentWith_iff, hstart]
  constructor
  · rintro ⟨id, ha, hscope, hb⟩
    cases id with
    | cur x =>
      obtain rfl : x = c := by simpa [Device.inScope] using hscope
      exact absurd ha (by simp [Device.condition, hcur])
    | zer x =>
      obtain rfl : x = c := by simpa [Device.inScope] using hscope
      exact absurd ha (by simp [Device.condition, hzer])
    | age x =>
      obtain rfl : x = c := by simpa [Device.inScope] using hscope
      exact absurd ha (by simp [Device.condition, hage])
    | hal =>
      obtain rfl : c = .ch0 := by simpa [Device.inScope] using hscope
      exact absurd ha (by simp [Device.condition, hhal rfl])
    | lov => exact .inl ⟨ha, hb⟩
    | lun => exact .inr ⟨ha, hb⟩
    | fl0 => cases hb
    | fl1 => cases hb
  · rintro (⟨ha, hb⟩ | ⟨ha, hb⟩)
    · exact ⟨.lov, ha, rfl, hb⟩
    · exact ⟨.lun, ha, rfl, hb⟩

/-- The channel with START's starting values and its own conditions cleared, its BRAKE hold and its legs as given. -/
def Channel.startedClear (g : ChannelSetup) (hold : Bool) (legs : PerLeg LegState) (ch : Channel) : Channel :=
  { ch.starting g with
    brakeHold := hold, legs := legs, cur := ch.cur.cleared, zer := ch.zer.cleared, age := ch.age.cleared }

/-- The legs that START gives a channel. -/
def Device.startLegs (d : Device) (c : ChannelId) : PerLeg LegState :=
  allLegs (if d.brakedAtStart c then .lowPending (d.refCount + BitVec.ofNat 32 (d.cfg c).d) else .idle)

theorem Device.starting_clear (d : Device) (c : ChannelId) :
    (d.modChan c (Channel.starting (d.cfg c))).clearOwnConditions c =
      (d.setChan c ((d.chan c).startedClear (d.cfg c) (d.chan c).brakeHold (d.chan c).legs)).withHal (d.halAfter c) := by
  rw [Device.clearOwnConditions_eq]
  simp [Device.modChan_eq_setChan, Channel.startedClear, Channel.starting]
  rfl

/-- START before the opening of period 1. -/
theorem Device.brakeAtStart_eq {d : Device} {c : ChannelId} (hlegs : (d.chan c).legs = allLegs .idle) :
    ((d.modChan c (Channel.starting (d.cfg c))).clearOwnConditions c).brakeAtStart c =
      (d.setChan c ((d.chan c).startedClear (d.cfg c) (if d.brakedAtStart c then true else (d.chan c).brakeHold)
        (d.startLegs c))).withHal (d.halAfter c) := by
  rw [Device.starting_clear]
  have hover : ((d.setChan c ((d.chan c).startedClear (d.cfg c) (d.chan c).brakeHold (d.chan c).legs)).withHal
      (d.halAfter c)).override c = .brake ↔ d.brakedAtStart c = true := by
    refine Device.override_brake_of_clear rfl rfl rfl ?_ ?_ ?_ fun hc => ?_
    · simp [Channel.startedClear, Condition.cleared]
    · simp [Channel.startedClear, Condition.cleared]
    · simp [Channel.startedClear, Condition.cleared]
    · simp [Device.withHal, Device.halAfter, hc, Condition.cleared]
  unfold Device.brakeAtStart
  simp only [hover]
  cases hb : d.brakedAtStart c
  · simp [Device.startLegs, hb, hlegs]
  · simp [Device.modChan_eq_setChan, Device.commandLegs, Channel.startedClear, hlegs, map_toLow_idle, Device.startLegs, hb]
    rfl

/-- The channel once START has opened its period 1. -/
def Device.startedChannel (d : Device) (c : ChannelId) : Channel :=
  { (d.chan c).startedClear (d.cfg c) (d.brakedAtStart c) (d.startLegs c) with
    falling := false, periodCount := 1, planAge := 1, loadTime := d.refCount
    fetch := some { period := 1, reader := { since := d.refCount, todo := fetchOrder c, got := [] } } }

/-- The request list once START has opened period 1. -/
def Device.startedRequests (d : Device) (c : ChannelId) : List Entry :=
  ((startSet (d.cfg c)).requests.map fun r => {
    channel := c, kind := r.kind, due := d.refCount + BitVec.ofNat 32 r.due
    deadline := d.refCount + BitVec.ofNat 32 r.deadline, period := 1 }).foldl (fun l e => insertEntry e l) d.requests

/-- The capture unit once a period of the channel has begun. -/
def Device.captureFollowing (d : Device) (c : ChannelId) : CaptureUnit :=
  if d.capture.mode = .armed ∧ d.capture.channel = c then { d.capture with following := some .empty } else d.capture

/-- Legs that await their low gate alone do so still after a command to low. -/
theorem startLegs_toLow {d : Device} {c : ChannelId} (hb : d.brakedAtStart c = true) (t : RefCount) :
    (d.startLegs c).map (LegState.command .toLow t) = d.startLegs c := by
  simp only [Device.startLegs, hb, if_true]
  rfl

/-- The part while START opens period 1, with the channel as given. -/
def Device.opening (d : Device) (c : ChannelId) (x : Channel) : Device :=
  ((d.setChan c x).withHal (d.halAfter c)).withCapture (d.captureFollowing c)

section
variable {d : Device} {c : ChannelId}

@[simp] theorem Device.chan_opening (x : Channel) : (d.opening c x).chan c = x := by simp [Device.opening]

theorem Device.setChan_opening (x y : Channel) : (d.opening c x).setChan c y = d.opening c y := by
  simp [Device.opening]

theorem Device.override_opening {x : Channel} (hcur : x.cur = (d.chan c).cur.cleared)
    (hzer : x.zer = (d.chan c).zer.cleared) (hage : x.age = (d.chan c).age.cleared) :
    (d.opening c x).override c = .brake ↔ d.brakedAtStart c = true := by
  refine Device.override_brake_of_clear rfl rfl rfl ?_ ?_ ?_ fun hc => ?_
  · simp [hcur, Condition.cleared]
  · simp [hzer, Condition.cleared]
  · simp [hage, Condition.cleared]
  · simp [Device.opening, Device.withHal, Device.withCapture, Device.halAfter, hc, Condition.cleared]

/-- The channel as START opens its period 1, before its fetch. -/
def Device.openedChannel (d : Device) (c : ChannelId) (hold : Bool) : Channel :=
  { d.startedChannel c with brakeHold := hold, fetch := none }

/-- Steps 2 to 4 of R8 on START's channel. -/
theorem Channel.openPeriod_startedClear (hold : Bool) :
    ((d.chan c).startedClear (d.cfg c) hold (d.startLegs c)).openPeriod (d.cfg c) d.refCount =
      d.openedChannel c hold := by
  have hforce : (startSet (d.cfg c)).intoForce (d.cfg c) 1#32 = startSet (d.cfg c) := startSet_intoForce _
  simp [Channel.openPeriod, Channel.startedClear, Channel.starting, Device.openedChannel, Device.startedChannel, hforce]

/-- The hold is cleared where no override is BRAKE at START. -/
theorem Device.clearHold_opening (hold : Bool) :
    (d.opening c (d.openedChannel c (if d.brakedAtStart c then true else hold))).clearHold c =
      d.opening c (d.openedChannel c (d.brakedAtStart c)) := by
  have hover := d.override_opening (x := d.openedChannel c (if d.brakedAtStart c then true else hold)) rfl rfl rfl
  rw [Device.clearHold_eq, Device.setChan_opening, Device.chan_opening]
  simp only [hover]
  cases d.brakedAtStart c <;> rfl

/-- The legs are at the opening as START left them. -/
theorem Device.loadLegs_opening :
    (d.opening c (d.openedChannel c (d.brakedAtStart c))).loadLegs c =
      d.opening c (d.openedChannel c (d.brakedAtStart c)) := by
  have hrun : ((d.opening c (d.openedChannel c (d.brakedAtStart c))).chan c).state = .running := by
    rw [Device.chan_opening]
    rfl
  cases hb : d.brakedAtStart c
  · have hlegs : d.startLegs c = allLegs .idle := by simp [Device.startLegs, hb]
    rw [hb] at hrun
    rw [Device.loadLegs_of_float (e := startSet (d.cfg c)) hrun (by rw [Device.chan_opening]; rfl)
      (by rw [Device.chan_opening]; rfl) rfl, Device.setChan_opening, Device.chan_opening, ← hlegs]
    rfl
  · rw [hb] at hrun
    rw [Device.loadLegs_of_hold hrun (by rw [Device.chan_opening]; rfl), Device.setChan_opening, Device.chan_opening]
    have hlegs := startLegs_toLow hb
    simp only [Device.openedChannel, Device.startedChannel, Channel.startedClear, hlegs]

/-- The requests of START's set enter the list. -/
theorem Device.enterRequests_opening (hold : Bool) :
    (d.opening c (d.openedChannel c hold)).enterRequests c =
      (d.opening c (d.openedChannel c hold)).withRequests (d.startedRequests c) := by
  have hforce : ((d.opening c (d.openedChannel c hold)).chan c).inForce = some (startSet (d.cfg c)) := by
    rw [Device.chan_opening]
    rfl
  have hentry : (d.opening c (d.openedChannel c hold)).entryFor c = fun r => {
      channel := c, kind := r.kind, due := d.refCount + BitVec.ofNat 32 r.due
      deadline := d.refCount + BitVec.ofNat 32 r.deadline, period := 1 } := by
    funext r
    simp only [Device.entryFor, Device.instantOf, Device.chan_opening]
    rfl
  rw [Device.enterRequests_eq hforce, hentry]
  exact congrArg (fun l => Device.withRequests (List.foldl (fun l x => insertEntry x l) d.requests (List.map _ l)) _)
    (floatRequests_enter _ c)

/-- The opening of period 1 by START. -/
theorem Device.openPeriod_started (hold : Bool) :
    ((d.setChan c ((d.chan c).startedClear (d.cfg c) (if d.brakedAtStart c then true else hold)
      (d.startLegs c))).withHal (d.halAfter c)).openPeriod c =
    (d.opening c (d.startedChannel c)).withRequests (d.startedRequests c) := by
  have hfollow : (((d.setChan c ((d.chan c).startedClear (d.cfg c) (if d.brakedAtStart c then true else hold)
      (d.startLegs c))).withHal (d.halAfter c)).modChan c (Channel.openPeriod (d.cfg c) d.refCount)).followPeriod c =
      d.opening c (d.openedChannel c (if d.brakedAtStart c then true else hold)) := by
    rw [Device.followPeriod_eq, Device.modChan_eq_setChan]
    simp only [Device.setChan_withHal, Device.setChan_setChan, Device.chan_withHal, Device.chan_setChan_same,
      Channel.openPeriod_startedClear]
    rfl
  have hcoast : (d.opening c (d.openedChannel c (if d.brakedAtStart c then true else hold))).ageTrips c = false := by
    rw [Device.ageTrips, Device.chan_opening]
    simp [Device.openedChannel, Device.startedChannel, Channel.startedClear, Channel.starting, Plan.null]
  rw [Device.openPeriod]
  simp only [Device.cfg_withHal, Device.cfg_setChan, Device.refCount_withHal, Device.setChan_refCount, hfollow, hcoast,
    Bool.false_eq_true, if_false, Device.followSet, Device.clearHold_opening, Device.loadLegs_opening,
    Device.enterRequests_opening, Device.startFetch_eq, Device.setChan_withRequests, Device.setChan_opening,
    Device.chan_withRequests, Device.chan_opening]
  rfl
end

/-- Word 5 of a channel's part of the status block is its plan age. -/
theorem statusWord_planAge (d : Device) (c : ChannelId) :
    statusWord d (statusBase c + 5) = BitVec.ofNat 16 (d.chan c).planAge := by
  cases c <;> rfl

/-- An accepted START up to HAL. -/
theorem Device.started_eq {d : Device} {c : ChannelId} (hlegs : (d.chan c).legs = allLegs .idle)
    (hw : d.statusWrite = none) :
    ((((((d.modChan c (Channel.starting (d.cfg c))).clearOwnConditions c).brakeAtStart c).openPeriod c).showStatus
      [statusBase c + 5]).handPlain c .started) = d.started c := by
  rw [Device.brakeAtStart_eq hlegs, Device.openPeriod_started]
  have hword : statusWord ((d.opening c (d.startedChannel c)).withRequests (d.startedRequests c)) (statusBase c + 5) =
      1 := by
    rw [statusWord_planAge, Device.chan_withRequests, Device.chan_opening]
    rfl
  have hwrite : ((d.opening c (d.startedChannel c)).withRequests (d.startedRequests c)).statusWrite = none := hw
  simp only [Device.showStatus, List.foldl_cons, List.foldl_nil, hword, hwrite, Option.map_none]
  simp only [Device.handPlain, Device.hand, Device.modChan, Device.opening, Device.withHal, Device.withRequests,
    Device.withCapture, Device.setChan, Device.chan, PerChannel.get_set_same, PerChannel.set_set, Device.started, hw]
  rfl

end Sys2Proof.Machine
end

