-- ==== Sys2Proof/Proofs/Starts.lean ====
section
/-! An accepted START: up to HAL it is written out in `Device.started`; HAL is evaluated on the result (R130). -/

namespace Sys2Proof.Machine

open Sys2Proof

/-- HAL, cleared by START of CH0. -/
theorem Device.hal_started (d : Device) : (d.started .ch0).hal = d.hal.cleared := rfl

/-- The channel that START made. -/
theorem Device.chan_started (d : Device) (c : ChannelId) : ((d.started c).chan c).state = .running := by
  cases c <;> rfl

/-- START leaves HAL where there is no accepted code, or one with a sector. -/
theorem Device.halAtStart_started {d : Device} {c : ChannelId}
    (h : c = .ch0 → ∀ code, d.hall.accepted = some code → hallSector d.words code ≠ none) :
    (d.started c).halAtStart c = d.started c := by
  cases c with
  | ch1 => rfl
  | ch2 => rfl
  | ch0 =>
    have haccepted : (d.started .ch0).hall.accepted = d.hall.accepted := rfl
    have hwords : (d.started .ch0).words = d.words := rfl
    cases hcode : d.hall.accepted with
    | none => simp [Device.halAtStart, haccepted, hcode]
    | some code =>
      obtain ⟨sector, hsector⟩ := Option.ne_none_iff_exists'.1 (h rfl code hcode)
      simp [Device.halAtStart, haccepted, hcode, Device.evaluateHal, Device.chan_started, hwords, hsector,
        Device.hal_started, Condition.cleared]

/-- START of CH0 on an INVALID code asserts HAL. -/
theorem Device.halAtStart_invalid {d : Device} {code : BitVec 3} (hcode : d.hall.accepted = some code)
    (hsector : hallSector d.words code = none) :
    (d.started .ch0).halAtStart .ch0 = (d.started .ch0).assertCondition .hal 0 (code.zeroExtend 16) := by
  have haccepted : (d.started .ch0).hall.accepted = some code := hcode
  have hwords : (d.started .ch0).words = d.words := rfl
  have hextra : BitVec.ofNat 16 code.toNat = code.zeroExtend 16 := BitVec.ofNat_toNat ..
  simp [Device.halAtStart, haccepted, Device.evaluateHal, Device.chan_started, hwords, hsector, Device.hal_started,
    Condition.cleared, hextra]

/-- An accepted START. -/
theorem Device.startChannel_eq {d : Device} {c : ChannelId} (hlegs : (d.chan c).legs = allLegs .idle)
    (hw : d.statusWrite = none) : d.startChannel c = ((d.started c).halAtStart c).arbitrate := by
  rw [← Device.started_eq hlegs hw]
  rfl

/-- An open port is no part's that writes its reset values. -/
theorem Device.statusWrite_of_takesCommands {d : Device} (h : d.takesCommands = true) : d.statusWrite = none := by
  have htakes : d.inReset = false ∧ d.statusWrite.isNone = true := by simpa [Device.takesCommands] using h
  exact Option.isNone_iff_eq_none.1 htakes.2

/-- The command of an accepted START. -/
theorem exec_start_accepted {s : State} {c : ChannelId} (hinv : s.Inv) (hopen : s.portOpen) (hl : s.setup ≠ none)
    (hen : (s.cfg c).enabled = true) (hoff : (s.chan c).state = .off) (hf : ¬s.floatPresent c) :
    exec (.start c) s = .next { s with
      toDevice := publish s.toDevice { ((s.started c).halAtStart c).arbitrate with
        cmd := { result := .done, command := 2, channel := BitVec.ofNat 2 (channelIndex c) } } } := by
  have hlegs : (s.chan c).legs = allLegs .idle := (hinv.1.channels c).legs_idle (by simp [hoff])
  rw [exec_start hopen, Device.startRefusal_eq_none hl hen hoff hf, Device.carryOut,
    Device.startChannel_eq hlegs (Device.statusWrite_of_takesCommands hopen.1)]
  rfl

/-- Settles O15. -/
theorem startOpensPeriodOne : Obligations.StartOpensPeriodOne := by
  intro s c hinv hopen hl hen hoff hf hcode
  refine ⟨(s.started c).arbitrate, Device.handsOut_arbitrate _, ?_⟩
  rw [exec_start_accepted hinv hopen hl hen hoff hf, Device.halAtStart_started hcode]

/-! ### HAL asserted at START of CH0 -/

section
variable (d : Device) (extra : Word)

theorem Device.action_started (id : ConditionId) (c : ChannelId) : (d.started .ch0).action id c = d.action id c :=
  Device.action_congr rfl id c

/-- HAL's assertion floats the channel that START made exactly with the action FLOAT. -/
theorem Device.floats_started : (d.started .ch0).floats .hal .ch0 = (d.action .hal .ch0 == .float) := by
  simp [Device.floats, Device.inScope, Device.action_started, Device.chan_started]

/-- HAL's assertion raises an override that START did not find at BRAKE. -/
theorem Device.brakes_started : (d.brakedAtStart .ch0 || (d.started .ch0).brakes .hal .ch0) =
    (d.brakedAtStart .ch0 || d.action .hal .ch0 == .brake) := by
  have hover : (d.started .ch0).override .ch0 = .brake ↔ d.brakedAtStart .ch0 = true :=
    Device.override_brake_of_clear rfl rfl rfl rfl rfl rfl fun _ => rfl
  cases hb : d.brakedAtStart .ch0
  · have hno : (d.started .ch0).override .ch0 ≠ .brake := by simp [hover, hb]
    simp [Device.brakes, Device.inScope, Device.action_started, hno]
  · rfl

/-- CH0 after HAL's assertion at its START. -/
theorem Device.chan_started_hal : ((d.started .ch0).assertCondition .hal 0 extra).chan .ch0 =
    { (d.started .ch0).assertedChannel .hal 0 extra ((d.started .ch0).brakes .hal .ch0)
        (d.action .hal .ch0 == .float) .ch0 with
      cur := ((d.started .ch0).chan .ch0).cur, zer := ((d.started .ch0).chan .ch0).zer
      age := ((d.started .ch0).chan .ch0).age } := by
  rw [Device.chan_assertCondition, if_pos (by rfl), Device.assertion_channel, Device.floats_started]
  rfl

/-- The legs after HAL's assertion at START: given to low under a hold, off without one or once floated. -/
theorem Device.legs_started_hal (act : Action) (hact : d.action .hal .ch0 = act) :
    (((d.started .ch0).assertCondition .hal 0 extra).chan .ch0).legs =
      allLegs (if act ≠ .float ∧ (d.brakedAtStart .ch0 || act == .brake) = true then
        .lowPending (d.refCount + BitVec.ofNat 32 (d.cfg .ch0).d) else .idle) := by
  have hstart : ((d.started .ch0).chan .ch0).legs = d.startLegs .ch0 := rfl
  have hbrakes := d.brakes_started
  rw [Device.chan_started_hal, Device.assertedChannel]
  simp only [hstart, hact, Device.chan_started]
  rw [hact] at hbrakes
  by_cases hf : act = .float
  · simp [hf]
  · cases hb : d.brakedAtStart .ch0
    · rw [hb, Bool.false_or, Bool.false_or] at hbrakes
      have hidle : d.startLegs .ch0 = allLegs .idle := by simp [Device.startLegs, hb]
      have hturn : (d.started .ch0).turnOnInstant .ch0 = d.refCount + BitVec.ofNat 32 (d.cfg .ch0).d := rfl
      cases hr : act == .brake <;> simp [hf, hbrakes, hr, hidle, map_toLow_idle, hturn]
    · have hlegs := startLegs_toLow hb ((d.started .ch0).turnOnInstant .ch0)
      have hpending : d.startLegs .ch0 = allLegs (.lowPending (d.refCount + BitVec.ofNat 32 (d.cfg .ch0).d)) := by
        simp [Device.startLegs, hb]
      rw [hpending] at hlegs ⊢
      simp [hf, hlegs]
end

/-- Settles O16. -/
theorem startEvaluatesHal : Obligations.StartEvaluatesHal := by
  intro s code hinv hopen hl hen hoff hf hcode hsector act state record braked
  have hexec := exec_start_accepted hinv hopen hl hen hoff hf
  rw [Device.halAtStart_invalid hcode hsector] at hexec
  have hrest := (s.started .ch0).assertCondition_rest .hal 0 (code.zeroExtend 16)
  have hchan := s.chan_started_hal (code.zeroExtend 16)
  have hlegs := s.legs_started_hal (code.zeroExtend 16) act rfl
  have hnotice {k : Nat} (hk : k < 13) := (s.started .ch0).notice_assertCondition .hal 0 (code.zeroExtend 16) hk
  generalize (s.started .ch0).assertCondition .hal 0 (code.zeroExtend 16) = a at hexec hrest hchan hlegs hnotice ⊢
  have hout := a.handsOut_arbitrate
  generalize a.arbitrate = d at hexec hout
  have hkept := hout.channels .ch0
  have hsame : d.notice = a.notice := by rw [hout.rest]
  refine ⟨_, d, hexec, hout, rfl, rfl, ?_, ?_, ?_, ?_, ?_, ?_, ?_, ?_, ?_⟩
  · show d.hal = _
    rw [hout.rest, hrest]
    rfl
  · show d.notice.getLsbD 10 = true
    rw [hsame, hnotice (by decide)]
    simp
  · show d.notice.getLsbD 3 = _
    rw [hsame, hnotice (by decide)]
    simp [Device.inScope, Device.action_started, channelIndex, act]
    rfl
  · show (d.chan .ch0).periodCount = 1
    rw [hkept, hchan]
    rfl
  · show (d.chan .ch0).state = state
    rw [hkept, hchan]
    simp [Device.assertedChannel, Device.chan_started, state, act]
  · show (d.chan .ch0).floatedLatch = true ↔ _
    rw [hkept, hchan]
    have hlatch : ((s.started .ch0).chan .ch0).floatedLatch = false := rfl
    simp [Device.assertedChannel, hlatch, act]
  · show (d.chan .ch0).brakeHold = braked
    rw [hkept, hchan]
    exact s.brakes_started
  · show (d.chan .ch0).legs = _
    rw [hkept]
    exact hlegs
  · show (d.chan .ch0).log.waiting = _
    rw [hkept, hchan]
    have hwaiting : ((s.started .ch0).chan .ch0).log.waiting = (s.chan .ch0).log.waiting ++ [.event record] := rfl
    have hcount : ((s.started .ch0).chan .ch0).periodCount = 1 := rfl
    have hid : ConditionId.hal.code = 4 := rfl
    have hact : s.action .hal .ch0 = act := rfl
    by_cases hfloat : act = .float <;>
      simp [Device.assertedChannel, hwaiting, hcount, hid, Device.action_started, hact, Device.chan_started, record, state,
        hfloat, Action.code]

end Sys2Proof.Machine
end

