-- ==== Sys2Proof/Proofs/LoadEvents.lean ====
section
/-! The load event (R8): what each of its steps may change, and the event as a whole. -/

namespace Sys2Proof.Machine

open Sys2Proof

/-! ### Evaluations with a filter count -/

theorem Device.setCondition_condition (d : Device) (id : ConditionId) : d.setCondition id (d.condition id) = d := by
  cases id with
  | cur c | zer c | age c => exact d.setChan_chan c
  | hal | lov | lun | fl0 | fl1 => rfl

/-- The model's evaluation is the judgement by the condition's table (R123, R127, R128). -/
theorem Device.evaluateFiltered_eq_judge (id : ConditionId) (outside back : Bool) (f : Nat) (value : Int) (d : Device) :
    d.evaluateFiltered id outside back f value = d.judge id outside back f value := by
  unfold Device.evaluateFiltered Device.judge Condition.evaluated
  cases ha : (d.condition id).asserted
  · cases outside
    · simp [ha]
    · by_cases hf : f ≤ (d.condition id).count <;> simp [ha, hf]
  · cases back <;> simp [ha, Device.setCondition_condition]

/-- What a judgement does. -/
theorem Device.judge_cases (id : ConditionId) (outside back : Bool) (f : Nat) (value : Int) (d : Device) :
    (∃ k, d.judge id outside back f value = d.setCondition id k) ∨
      d.judge id outside back f value = d.assertCondition id value 0 ∨
      d.judge id outside back f value = d.releaseCondition id value 0 := by
  unfold Device.judge
  simp only
  split_ifs
  · exact .inl ⟨_, rfl⟩
  · exact .inr (.inl rfl)
  · exact .inr (.inr rfl)

/-! ### What the steps of a load event may change -/

/-- What the conditions, the legs and the arbiter may change of a channel at its load event. -/
structure Channel.ActedOn (x y : Channel) : Prop where
  fields : y = { x with
    state := y.state, floatedLatch := y.floatedLatch, legs := y.legs, brakeHold := y.brakeHold, va := y.va
    computation := y.computation, cur := y.cur, age := y.age
    buffer := { x.buffer with reports := y.buffer.reports }, log := { x.log with waiting := y.log.waiting } }
  on : x.state ≠ .off → y.state ≠ .off

theorem Channel.ActedOn.refl (x : Channel) : x.ActedOn x := ⟨rfl, id⟩

theorem Channel.ActedOn.trans {x y z : Channel} (h : x.ActedOn y) (h' : y.ActedOn z) : x.ActedOn z where
  fields := by
    calc z = _ := h'.fields
      _ = _ := by rw [h.fields]
  on := h'.on ∘ h.on

/-- What such a step may change of the part. -/
structure Device.Acts (c : ChannelId) (d e : Device) : Prop where
  rest : e = { d with
    channels := e.channels, requests := e.requests, notice := e.notice, ram := e.ram, cva := e.cva, cvb := e.cvb
    capture := e.capture }
  chan : (d.chan c).ActedOn (e.chan c)

theorem Device.Acts.refl (c : ChannelId) (d : Device) : d.Acts c d := ⟨rfl, .refl _⟩

theorem Device.Acts.trans {c : ChannelId} {d e f : Device} (h : d.Acts c e) (h' : e.Acts c f) : d.Acts c f where
  rest := by
    calc f = _ := h'.rest
      _ = _ := by rw [h.rest]
  chan := h.chan.trans h'.chan

theorem Device.Acts.setChan {c : ChannelId} {d : Device} {x : Channel} (h : (d.chan c).ActedOn x) :
    d.Acts c (d.setChan c x) := ⟨rfl, by rwa [Device.chan_setChan_same]⟩

theorem Device.Acts.refCount {c : ChannelId} {d e : Device} (h : d.Acts c e) : e.refCount = d.refCount := by rw [h.rest]

theorem Device.Acts.hall {c : ChannelId} {d e : Device} (h : d.Acts c e) : e.hall = d.hall := by rw [h.rest]

theorem Device.Acts.cfg {c : ChannelId} {d e : Device} (h : d.Acts c e) (c' : ChannelId) : e.cfg c' = d.cfg c' :=
  Device.cfg_congr (by rw [h.rest]) c'

/-! ### The conditions CUR and AGE of the channel -/

section
variable {c : ChannelId} {id : ConditionId} (d : Device) (value : Int) (extra : Word)

/-- An assertion of CUR or AGE. -/
theorem Device.acts_assertCondition (h : id = .cur c ∨ id = .age c) : d.Acts c (d.assertCondition id value extra) where
  rest := by
    rw [Device.assertCondition_rest]
    rcases h with rfl | rfl <;> rfl
  chan := by
    have hin : d.inScope id c = true := by rcases h with rfl | rfl <;> simp [Device.inScope]
    rw [Device.chan_assertCondition, if_pos hin, Device.assertion_channel]
    refine ⟨?_, ?_⟩
    · rcases h with rfl | rfl <;> rfl
    · intro hon
      by_cases hf : d.floats id c = true <;> simp [Device.assertedChannel, hf, hon]

/-- A release of CUR. -/
theorem Device.acts_releaseCondition : d.Acts c (d.releaseCondition (.cur c) value extra) where
  rest := by
    rw [Device.releaseCondition_rest]
    rfl
  chan := by
    have hin : d.inScope (.cur c) c = true := by simp [Device.inScope]
    rw [Device.chan_releaseCondition, if_pos hin, Device.releasing_channel]
    exact ⟨rfl, id⟩

/-- A judgement of CUR. -/
theorem Device.acts_judge (outside back : Bool) (f : Nat) : d.Acts c (d.judge (.cur c) outside back f value) := by
  rcases d.judge_cases (.cur c) outside back f value with ⟨k, h⟩ | h | h
  · exact h ▸ ⟨rfl, by rw [Device.chan_setCondition]; exact ⟨rfl, id⟩⟩
  · exact h ▸ d.acts_assertCondition value 0 (.inl rfl)
  · exact h ▸ d.acts_releaseCondition value 0

/-- A judgement of CUR leaves AGE. -/
theorem Device.age_judge (outside back : Bool) (f : Nat) :
    ((d.judge (.cur c) outside back f value).chan c).age = (d.chan c).age := by
  have hin : d.inScope (.cur c) c = true := by simp [Device.inScope]
  rcases d.judge_cases (.cur c) outside back f value with ⟨k, h⟩ | h | h
  · rw [h, Device.chan_setCondition]
    rfl
  · rw [h, Device.chan_assertCondition, if_pos hin, Device.assertion_channel]
    rfl
  · rw [h, Device.chan_releaseCondition, if_pos hin, Device.releasing_channel]
    rfl
end

/-! ### The close of the period (step 1 of R8) -/

section
variable {c : ChannelId}

theorem Device.acts_hand (d : Device) (item : LogItem) : d.Acts c (d.hand c item) := .setChan ⟨rfl, id⟩

theorem Device.acts_selectPeriod (d : Device) (p : ClosedPeriod) : d.Acts c (d.selectPeriod c p) ∧
    (d.selectPeriod c p).chan c = d.chan c := by
  unfold Device.selectPeriod
  split
  · split_ifs <;> exact ⟨⟨rfl, .refl _⟩, rfl⟩
  · exact ⟨.refl c d, rfl⟩

/-- CUR judged by a period's metric, where it has one (R123). -/
def Device.curJudged (d : Device) (c : ChannelId) (g : ChannelSetup) : Option Nat → Device
  | some m => d.judge (.cur c) (decide (g.curLimit < m)) (decide (m + g.curH ≤ g.curLimit)) g.curF m
  | none => d

theorem Device.evaluateCur_eq (d : Device) (m : Option Nat) : d.evaluateCur c m = d.curJudged c (d.cfg c) m := by
  cases m with
  | none => rfl
  | some m => exact Device.evaluateFiltered_eq_judge ..

theorem Device.acts_curJudged (d : Device) (g : ChannelSetup) (m : Option Nat) : d.Acts c (d.curJudged c g m) ∧
    ((d.curJudged c g m).chan c).age = (d.chan c).age := by
  cases m with
  | none => exact ⟨.refl c d, rfl⟩
  | some m => exact ⟨d.acts_judge .., d.age_judge ..⟩

theorem Device.acts_record (d : Device) (p : ClosedPeriod) :
    d.Acts c (if p.number.toNat % p.plan.interval = 0 then d.hand c (.period p) else d) ∧
      ((if p.number.toNat % p.plan.interval = 0 then d.hand c (.period p) else d).chan c).age = (d.chan c).age := by
  split_ifs
  · exact ⟨d.acts_hand _, by rw [Device.hand, Device.chan_modChan_same]⟩
  · exact ⟨.refl c d, rfl⟩

/-- The part after the close of a period that it has counted: CUR judged, the record handed, the capture unit's test. -/
def Device.closing (counted : Device) (c : ChannelId) (g : ChannelSetup) (p : ClosedPeriod) : Device :=
  let judged := counted.curJudged c g p.metric
  (if p.number.toNat % p.plan.interval = 0 then judged.hand c (.period p) else judged).selectPeriod c p

theorem Device.closePeriod_eq {d : Device} {e : EdgeSet} (h : (d.chan c).inForce = some e) : d.closePeriod c =
    (d.setChan c (Channel.countClose (closedPeriod (d.chan c) e) (d.chan c))).closing c (d.cfg c)
      (closedPeriod (d.chan c) e) := by
  simp only [Device.closePeriod, h, Device.modChan_eq_setChan, Device.evaluateCur_eq, Device.closing, Device.cfg_setChan]

theorem Device.acts_closing (d : Device) (g : ChannelSetup) (p : ClosedPeriod) :
    d.Acts c (d.closing c g p) ∧ ((d.closing c g p).chan c).age = (d.chan c).age := by
  obtain ⟨hjudged, hjudgedAge⟩ := d.acts_curJudged (c := c) g p.metric
  unfold Device.closing
  generalize d.curJudged c g p.metric = judged at hjudged hjudgedAge
  obtain ⟨hhanded, hhandedAge⟩ := judged.acts_record (c := c) p
  obtain ⟨hselect, hsame⟩ := Device.acts_selectPeriod (c := c)
    (if p.number.toNat % p.plan.interval = 0 then judged.hand c (.period p) else judged) p
  exact ⟨hjudged.trans (hhanded.trans hselect), (congrArg Channel.age hsame).trans (hhandedAge.trans hjudgedAge)⟩

/-! ### The opening of the next period (steps 2 to 6 of R8) -/

theorem Device.acts_commandLeg (d : Device) (l : Leg) (cmd : LegCommand) : d.Acts c (d.commandLeg c l cmd) :=
  .setChan ⟨rfl, id⟩

theorem Device.acts_loadLegs (d : Device) : d.Acts c (d.loadLegs c) ∧
    (d.loadLegs c).chan c = { d.chan c with legs := ((d.loadLegs c).chan c).legs } := by
  unfold Device.loadLegs
  split_ifs
  · exact ⟨.setChan ⟨rfl, id⟩, by rw [Device.commandLegs, Device.chan_modChan_same]⟩
  · cases (d.chan c).inForce with
    | none => exact ⟨.refl c d, rfl⟩
    | some e =>
      refine ⟨(d.acts_commandLeg ..).trans ((Device.acts_commandLeg ..).trans (Device.acts_commandLeg ..)), ?_⟩
      simp only [Device.commandLeg, Device.chan_modChan_same]
  · exact ⟨.refl c d, rfl⟩

theorem Device.acts_enterRequests (d : Device) : d.Acts c (d.enterRequests c) ∧
    (d.enterRequests c).chan c = d.chan c := by
  unfold Device.enterRequests
  split <;> exact ⟨⟨rfl, .refl _⟩, rfl⟩

theorem Device.acts_clearHold (d : Device) : d.Acts c (d.clearHold c) ∧
    (d.clearHold c).chan c = { d.chan c with brakeHold := ((d.clearHold c).chan c).brakeHold } := by
  rw [Device.clearHold_eq]
  exact ⟨.setChan ⟨rfl, id⟩, by simp only [Device.chan_setChan_same]⟩

/-- Taking up the set changes the BRAKE hold and the legs of the channel. -/
theorem Device.acts_followSet (d : Device) : d.Acts c (d.followSet c) ∧
    ∃ hold legs, (d.followSet c).chan c = { d.chan c with brakeHold := hold, legs := legs } := by
  obtain ⟨hold, hholds⟩ := d.acts_clearHold (c := c)
  obtain ⟨hlegs, hcommands⟩ := (d.clearHold c).acts_loadLegs (c := c)
  obtain ⟨hlist, hsame⟩ := ((d.clearHold c).loadLegs c).acts_enterRequests (c := c)
  have hboth := congrArg (fun z : Channel => { z with legs := (((d.clearHold c).loadLegs c).chan c).legs }) hholds
  exact ⟨hold.trans (hlegs.trans hlist), _, _, hsame.trans (hcommands.trans hboth)⟩

theorem Device.HandsOut.acts {d e : Device} (h : d.HandsOut e) : d.Acts c e where
  rest := by
    rw [h.rest]
  chan := by
    rw [h.channels c]
    exact ⟨rfl, id⟩
/-- Steps 2 to 4 of R8 on the channel, with θ advanced. -/
def Channel.nextPeriod (g : ChannelSetup) (now : RefCount) (ch : Channel) : Channel :=
  Channel.openPeriod g now (Channel.advanceTheta ch)

/-- What has acted on a channel before its next period opens has acted on it after. -/
theorem Channel.ActedOn.nextPeriod {x y : Channel} (h : x.ActedOn y) (g : ChannelSetup) (now : RefCount) :
    (x.nextPeriod g now).ActedOn (y.nextPeriod g now) where
  fields := by
    calc y.nextPeriod g now = _ := congrArg (Channel.nextPeriod g now) h.fields
      _ = _ := rfl
  on := h.on

theorem Channel.ActedOn.fetch {x y : Channel} (h : x.ActedOn y) (k : Option Fetch) :
    Channel.ActedOn { x with fetch := k } { y with fetch := k } where
  fields := by
    calc { y with fetch := k } = _ := congrArg (fun z : Channel => { z with fetch := k }) h.fields
      _ = _ := rfl
  on := h.on

/-- The part at the opening of the next period, before the conditions and the legs follow. -/
def Device.nextOpened (d : Device) (c : ChannelId) : Device :=
  (d.setChan c ((d.chan c).nextPeriod (d.cfg c) d.refCount)).withCapture (d.captureFollowing c)

/-- AGE asserted, where it is, and the set taken up, in either order (R125). -/
def Device.taken (d : Device) (c : ChannelId) : Device :=
  if d.ageTrips c then
    if Config.takenFirst d.freeIndex then (d.evaluateAge c).followSet c else (d.followSet c).evaluateAge c
  else d.followSet c

/-- Taking up the set does not change whether AGE is asserted. -/
theorem Device.ageTrips_followSet (d : Device) : (d.followSet c).ageTrips c = d.ageTrips c := by
  obtain ⟨hacts, hold, legs, hchan⟩ := d.acts_followSet (c := c)
  simp only [Device.ageTrips, hchan, hacts.cfg]

/-- The part with AGE asserted at the present plan age. -/
def Device.aged (d : Device) (c : ChannelId) : Device := d.assertCondition (.age c) (d.chan c).planAge 0

/-- The set taken up, and AGE asserted before or after that where it is. -/
theorem Device.taken_cases (d : Device) : d.Acts c (d.taken c) ∧
    (d.ageTrips c = false → d.taken c = d.followSet c) ∧
    (d.ageTrips c = true → d.taken c = (d.aged c).followSet c ∨ d.taken c = (d.followSet c).aged c) := by
  have hage (x : Device) : x.Acts c (x.aged c) := x.acts_assertCondition _ _ (.inr rfl)
  have hevaluated (x : Device) (h : x.ageTrips c = true) : x.evaluateAge c = x.aged c := if_pos h
  cases ht : d.ageTrips c
  · have htaken : d.taken c = d.followSet c := if_neg (by simp [ht])
    exact ⟨htaken ▸ d.acts_followSet.1, fun _ => htaken, fun h => absurd h (by simp)⟩
  · have hafter := hevaluated (d.followSet c) (d.ageTrips_followSet.trans ht)
    have htaken : d.taken c = if Config.takenFirst d.freeIndex then (d.aged c).followSet c else (d.followSet c).aged c := by
      rw [Device.taken, if_pos ht, hevaluated d ht, hafter]
    refine ⟨?_, fun h => absurd h (by simp), fun _ => ?_⟩ <;> rw [htaken] <;> split_ifs
    · exact (hage d).trans (Device.acts_followSet _).1
    · exact d.acts_followSet.1.trans (hage _)
    · exact .inl rfl
    · exact .inr rfl

/-- The part after step 1 of R8, at the instant of the event. -/
def Device.loadClosed (d : Device) (c : ChannelId) (e : EdgeSet) : Device :=
  let p := closedPeriod (d.chan c) e
  ((d.advanceTo ((d.chan c).loadTime + BitVec.ofNat 32 (4 * e.modulus))).setChan c
    (Channel.countClose p (d.chan c))).closing c (d.cfg c) p

/-- The load event: the close, the opening, the taking up, the fetch, the hand-out. -/
theorem Device.load_eq {d : Device} {e : EdgeSet} (hon : (d.chan c).state ≠ .off) (he : (d.chan c).inForce = some e) :
    d.load c = ((((d.loadClosed c e).nextOpened c).taken c).startFetch c).arbitrate := by
  have hclose : (d.advanceTo ((d.chan c).loadTime + BitVec.ofNat 32 (4 * e.modulus))).closePeriod c =
      d.loadClosed c e := by
    rw [Device.closePeriod_eq (e := e) (by rw [Device.chan_advanceTo]; exact he), Device.chan_advanceTo,
      Device.cfg_congr (Device.advanceTo_setup ..)]
    rfl
  have hopen (x : Device) : ((x.modChan c Channel.advanceTheta).modChan c
      (Channel.openPeriod (x.cfg c) x.refCount)).followPeriod c = x.nextOpened c := by
    rw [Device.modChan_eq_setChan x, Device.modChan_setChan, Device.followPeriod_eq]
    rfl
  have hload : d.load c =
      ((((d.advanceTo ((d.chan c).loadTime + BitVec.ofNat 32 (4 * e.modulus))).closePeriod c).modChan c
        Channel.advanceTheta).openPeriod c).arbitrate := by
    simp only [Device.load, he, Channel.runs, bne_iff_ne, ne_eq, hon, not_false_eq_true, if_true]
    rfl
  rw [hload, hclose, ← hopen]
  rfl
end

/-! ### The event as a whole -/

/-- What a load event leaves of the part. -/
def Device.LoadKeeps (d e : Device) : Prop := e = { d with
  refCount := e.refCount, hall := e.hall, freeIndex := e.freeIndex, notice := e.notice, ram := e.ram
  statusWrite := e.statusWrite, channels := e.channels, requests := e.requests, cva := e.cva, cvb := e.cvb
  capture := e.capture }

theorem Device.LoadKeeps.trans {d e f : Device} (h : d.LoadKeeps e) (h' : e.LoadKeeps f) : d.LoadKeeps f := by
  calc f = _ := h'
    _ = _ := by rw [h]

theorem Device.LoadKeeps.setChan (d : Device) (c : ChannelId) (x : Channel) : d.LoadKeeps (d.setChan c x) := rfl

theorem Device.Acts.keeps {c : ChannelId} {d e : Device} (h : d.Acts c e) : d.LoadKeeps e := by
  calc e = _ := h.rest
    _ = _ := by rw [h.rest]

theorem Device.LoadKeeps.advanceTo (d : Device) (t : RefCount) : d.LoadKeeps (d.advanceTo t) := by
  calc d.advanceTo t = _ := Device.advanceTo_eq t d
    _ = _ := by rw [Device.advanceTo_eq]

theorem Device.LoadKeeps.publish (d e : Device) : e.LoadKeeps (publish d e) := rfl

theorem advancedTheta_eq (plan : Plan) (theta : Angle) (q : BitVec 16) (pending : Option Angle) :
    advancedTheta plan theta q pending = match pending with
      | some angle => angle
      | none => if plan.mode = .align then theta + q else theta + BitVec.ofInt 16 plan.rate + q := by
  cases pending with
  | some angle => rfl
  | none => cases h : plan.mode <;> simp [advancedTheta, h]

section
variable {d : Device} {c : ChannelId} {e : EdgeSet}

/-- The counted channel, and what the rest of the close may change of it. -/
theorem Device.loadClosed_chan (d : Device) (c : ChannelId) (e : EdgeSet) :
    (Channel.countClose (closedPeriod (d.chan c) e) (d.chan c)).ActedOn ((d.loadClosed c e).chan c) ∧
      ((d.loadClosed c e).chan c).age = (d.chan c).age := by
  obtain ⟨hacts, hage⟩ := ((d.advanceTo ((d.chan c).loadTime + BitVec.ofNat 32 (4 * e.modulus))).setChan c
    (Channel.countClose (closedPeriod (d.chan c) e) (d.chan c))).acts_closing (c := c) (d.cfg c) (closedPeriod (d.chan c) e)
  have hchan := hacts.chan
  rw [Device.chan_setChan_same] at hchan hage
  exact ⟨hchan, hage⟩

theorem Device.loadClosed_keeps (d : Device) (c : ChannelId) (e : EdgeSet) : d.LoadKeeps (d.loadClosed c e) :=
  (Device.LoadKeeps.advanceTo ..).trans ((Device.LoadKeeps.setChan ..).trans (Device.acts_closing ..).1.keeps)

theorem Device.loadClosed_time (d : Device) (c : ChannelId) (e : EdgeSet) :
    let at_ := d.advanceTo ((d.chan c).loadTime + BitVec.ofNat 32 (4 * e.modulus))
    (d.loadClosed c e).refCount = at_.refCount ∧ (d.loadClosed c e).hall = at_.hall :=
  ⟨(Device.acts_closing ..).1.refCount, (Device.acts_closing ..).1.hall⟩

theorem Device.LoadKeeps.cfg {x : Device} (h : d.LoadKeeps x) (c : ChannelId) : x.cfg c = d.cfg c :=
  Device.cfg_congr (by rw [h]) c
end

/-- The fetch that a load event begins. -/
def Device.loadFetch (d : Device) (c : ChannelId) (e : EdgeSet) : Fetch :=
  { period := (d.chan c).periodCount + 1
    reader := { since := (d.loadClosed c e).refCount, todo := fetchOrder c, got := [] } }

section
variable {d : Device} {c : ChannelId} {e : EdgeSet}

theorem Device.chan_nextOpened : ((d.loadClosed c e).nextOpened c).chan c =
    ((d.loadClosed c e).chan c).nextPeriod (d.cfg c) (d.loadClosed c e).refCount := by
  rw [Device.nextOpened, Device.chan_withCapture, Device.chan_setChan_same, (d.loadClosed_keeps c e).cfg]

theorem Device.periodCount_loadClosed : ((d.loadClosed c e).chan c).periodCount = (d.chan c).periodCount := by
  rw [(d.loadClosed_chan c e).1.fields]
  rfl

theorem Device.planAge_loadClosed : ((d.loadClosed c e).chan c).planAge = (d.chan c).planAge := by
  rw [(d.loadClosed_chan c e).1.fields]
  rfl

/-- The fetch begins for the period that the event has opened. -/
theorem Device.startFetch_taken : (((d.loadClosed c e).nextOpened c).taken c).startFetch c =
    (((d.loadClosed c e).nextOpened c).taken c).setChan c
      { (((d.loadClosed c e).nextOpened c).taken c).chan c with fetch := some (d.loadFetch c e) } := by
  have hacts := (Device.taken_cases (c := c) ((d.loadClosed c e).nextOpened c)).1
  have hcount : ((((d.loadClosed c e).nextOpened c).taken c).chan c).periodCount = (d.chan c).periodCount + 1 := by
    rw [hacts.chan.fields, Device.chan_nextOpened, ← Device.periodCount_loadClosed]
    rfl
  have hnow : (((d.loadClosed c e).nextOpened c).taken c).refCount = (d.loadClosed c e).refCount := hacts.refCount
  rw [Device.startFetch_eq, hcount, hnow]
  rfl

/-- What follows the opening in the channel: its fetch, and what has acted on it. -/
theorem Device.nextOpened_load (hon : (d.chan c).state ≠ .off) (he : (d.chan c).inForce = some e) :
    Channel.ActedOn { ((d.loadClosed c e).chan c).nextPeriod (d.cfg c) (d.loadClosed c e).refCount with
      fetch := some (d.loadFetch c e) } ((d.load c).chan c) := by
  have htaken := (Device.taken_cases (c := c) ((d.loadClosed c e).nextOpened c)).1.chan
  rw [Device.chan_nextOpened] at htaken
  have hout := (Device.handsOut_arbitrate ((((d.loadClosed c e).nextOpened c).taken c).startFetch c)).acts (c := c)
  have hfetched := hout.chan
  rw [← Device.load_eq hon he, Device.startFetch_taken, Device.chan_setChan_same] at hfetched
  exact (htaken.fetch _).trans hfetched

/-- The opening, by the set in force and the angle that the event leaves. -/
theorem Device.nextOpened_eq (hon : (d.chan c).state ≠ .off) (he : (d.chan c).inForce = some e) :
    (d.loadClosed c e).nextOpened c = { (d.loadClosed c e).setChan c { (d.loadClosed c e).chan c with
        periodCount := (d.chan c).periodCount + 1, loadTime := (d.loadClosed c e).refCount, falling := false
        resumeHold := false, inForce := ((d.load c).chan c).inForce, theta := ((d.load c).chan c).theta, q := 0
        pendingAngle := none, planAge := min ((d.chan c).planAge + 1) 65535, buffer := .empty } with
      capture := (d.loadClosed c e).captureFollowing c } := by
  have hfollow := Device.nextOpened_load hon he
  have hforce := congrArg Channel.inForce hfollow.fields
  have htheta := congrArg Channel.theta hfollow.fields
  rw [hforce, htheta, ← d.periodCount_loadClosed (e := e), ← d.planAge_loadClosed (e := e), Device.nextOpened,
    (d.loadClosed_keeps c e).cfg]
  rfl

theorem Device.ageTrips_nextOpened : ((d.loadClosed c e).nextOpened c).ageTrips c = true ↔
    ((d.loadClosed c e).chan c).state = .running ∧
      ((d.chan c).plan.mode = .align ∨ (d.chan c).plan.mode = .rotate) ∧ (d.cfg c).amax ≠ 0 ∧
      (d.chan c).age.asserted = false ∧ (d.cfg c).amax < min ((d.chan c).planAge + 1) 65535 := by
  have hplan : ((d.loadClosed c e).chan c).plan = (d.chan c).plan := by
    rw [(d.loadClosed_chan c e).1.fields]
    rfl
  have hcfg : ((d.loadClosed c e).nextOpened c).cfg c = d.cfg c := (d.loadClosed_keeps c e).cfg c
  rw [Device.ageTrips, Device.chan_nextOpened, hcfg, ← hplan, ← d.planAge_loadClosed (e := e),
    ← (d.loadClosed_chan c e).2]
  simp [Channel.nextPeriod, Channel.openPeriod, Channel.advanceTheta, and_assoc]

/-- AGE is asserted at the plan age that the opening has made, before or after the set is taken up. -/
theorem Device.planAge_opened : (((d.loadClosed c e).nextOpened c).chan c).planAge = min ((d.chan c).planAge + 1) 65535 ∧
    ((((d.loadClosed c e).nextOpened c).followSet c).chan c).planAge = min ((d.chan c).planAge + 1) 65535 := by
  have hopened : (((d.loadClosed c e).nextOpened c).chan c).planAge = min ((d.chan c).planAge + 1) 65535 := by
    rw [Device.chan_nextOpened, ← d.planAge_loadClosed (e := e)]
    rfl
  refine ⟨hopened, ?_⟩
  rw [← hopened, (Device.acts_followSet _).1.chan.fields]

/-- The channel after its load event. -/
theorem Device.load_chan (hon : (d.chan c).state ≠ .off) (he : (d.chan c).inForce = some e) :
    Channel.ActedOn { (Channel.countClose (closedPeriod (d.chan c) e) (d.chan c)).nextPeriod (d.cfg c)
      (d.loadClosed c e).refCount with fetch := some (d.loadFetch c e) } ((d.load c).chan c) :=
  (((d.loadClosed_chan c e).1.nextPeriod _ _).fetch _).trans (Device.nextOpened_load hon he)

/-- The part after a load event. -/
theorem Device.load_rest (hon : (d.chan c).state ≠ .off) (he : (d.chan c).inForce = some e) :
    d.LoadKeeps (d.load c) ∧ (d.load c).refCount = (d.loadClosed c e).refCount ∧
      (d.load c).hall = (d.loadClosed c e).hall := by
  have htaken := (Device.taken_cases (c := c) ((d.loadClosed c e).nextOpened c)).1
  have hout := (Device.handsOut_arbitrate ((((d.loadClosed c e).nextOpened c).taken c).startFetch c)).acts (c := c)
  have hopened : (d.loadClosed c e).LoadKeeps ((d.loadClosed c e).nextOpened c) := rfl
  have hfetched : (((d.loadClosed c e).nextOpened c).taken c).LoadKeeps
    ((((d.loadClosed c e).nextOpened c).taken c).startFetch c) := rfl
  rw [Device.load_eq hon he]
  exact ⟨(d.loadClosed_keeps c e).trans (hopened.trans (htaken.keeps.trans (hfetched.trans hout.keeps))),
    hout.refCount.trans htaken.refCount, hout.hall.trans htaken.hall⟩
end

/-- The counters of a channel whose period has been counted (R162). -/
theorem Channel.counters_countClose (p : ClosedPeriod) (ch : Channel) : (ch.countClose p).counters = { ch.counters with
    periods := ch.counters.periods + 1
    shiftedPeriods := ch.counters.shiftedPeriods + oneIf (decide (0 < p.set.s1 ∨ 0 < p.set.s2))
    failedWindows := ch.counters.failedWindows + oneIf p.set.first.failed + oneIf p.set.second.failed } := by
  have hshifted : p.set.shifted = decide (0 < p.set.s1 ∨ 0 < p.set.s2) := (Bool.decide_or ..).symm
  rw [← hshifted]
  rfl

/-- The channel after its load event at `now`, with what has acted on it as in `y`. -/
def Channel.loaded (ch y : Channel) (p : ClosedPeriod) (now : RefCount) (k : Fetch) (inForce : Option EdgeSet)
    (theta : Angle) : Channel :=
  { ch with
    periodCount := ch.periodCount + 1, loadTime := now, falling := false, resumeHold := false
    inForce := inForce, theta := theta, q := 0, pendingAngle := none, planAge := min (ch.planAge + 1) 65535
    lastMetric := p.metric, fetch := some k, counters := (ch.countClose p).counters
    buffer := { PeriodBuffer.empty with reports := y.buffer.reports }
    log := { ch.log with
      groupNotOk := y.log.groupNotOk, groupMissed := y.log.groupMissed, waiting := y.log.waiting }
    state := y.state, floatedLatch := y.floatedLatch, legs := y.legs, brakeHold := y.brakeHold, va := y.va
    computation := y.computation, cur := y.cur, age := y.age }

theorem Channel.ActedOn.loaded {ch y : Channel} {p : ClosedPeriod} {g : ChannelSetup} {now : RefCount} {k : Fetch}
    (h : Channel.ActedOn { (ch.countClose p).nextPeriod g now with fetch := some k } y) :
    y = ch.loaded y p now k (ch.staged.map (EdgeSet.intoForce g (ch.periodCount + 1)))
      (advancedTheta ch.plan ch.theta ch.q ch.pendingAngle) := by
  have hnotOk := congrArg (fun z : Channel => z.log.groupNotOk) h.fields
  have hmissed := congrArg (fun z : Channel => z.log.groupMissed) h.fields
  refine h.fields.trans ?_
  rw [Channel.loaded, hnotOk, hmissed]
  rfl

/-- Settles O26. -/
theorem loadEventOpensTheNextPeriod : Obligations.LoadEventOpensTheNextPeriod := by
  intro s c e next hinv hon he hnext ch at_ p number one
  have hexec : exec (.loadEvent c) s = .next { s with toDevice := publish s.toDevice (s.toDevice.load c) } := rfl
  obtain ⟨hkeeps, hnow, hhall⟩ := Device.load_rest hon he
  obtain ⟨hclosedNow, hclosedHall⟩ := s.toDevice.loadClosed_time c e
  have hchan := Device.load_chan hon he
  refine ⟨_, hexec, hnow.trans hclosedNow, hhall.trans hclosedHall, ?_, hchan.on hon, Device.spares_load c s.toDevice,
    hkeeps.trans (.publish ..), rfl, ?_⟩
  · have hforce : (s.chan c).staged.map (EdgeSet.intoForce (s.cfg c) ((s.chan c).periodCount + 1)) =
        some (if next.drives = floatDrives then
          { next with requests := floatRequests (s.cfg c) next.modulus ((s.chan c).periodCount + 1) } else next) := by
      rw [hnext]
      rfl
    have hloaded := hchan.loaded
    rw [Device.loadFetch, hclosedNow, hforce, advancedTheta_eq, Channel.loaded, Channel.counters_countClose] at hloaded
    exact hloaded
  · intro g counted judged handed selected closed opened followed aged trips
    have hselected : selected = s.loadClosed c e := rfl
    have hopened : opened = (s.loadClosed c e).nextOpened c := by
      rw [Device.nextOpened_eq hon he, hclosedNow]
      rfl
    have htrips : ((s.loadClosed c e).nextOpened c).ageTrips c = true ↔ trips := Device.ageTrips_nextOpened
    have hfollowed (x : Device) : followed x = x.followSet c := rfl
    have haged (x : Device) (hx : (x.chan c).planAge = min (ch.planAge + 1) 65535) : aged x = x.aged c := by
      rw [Device.aged, hx]
    have hfetch : ((s.load c).chan c).fetch = some (s.loadFetch c e) := by
      rw [hchan.fields]
    have hout := Device.handsOut_arbitrate ((((s.loadClosed c e).nextOpened c).taken c).startFetch c)
    rw [← Device.load_eq hon he, Device.startFetch_taken, ← hfetch] at hout
    obtain ⟨-, hcoasts, hasserts⟩ := Device.taken_cases (c := c) ((s.loadClosed c e).nextOpened c)
    obtain ⟨hbefore, hafter⟩ := s.planAge_opened (c := c) (e := e)
    refine ⟨((s.loadClosed c e).nextOpened c).taken c, s.load c, fun hno => ?_, fun hyes => ?_, hout, rfl⟩
    · rw [hopened, hfollowed]
      exact hcoasts (Bool.eq_false_iff.2 (mt htrips.1 hno))
    · rw [hopened, hfollowed, hfollowed, haged _ hbefore, haged _ hafter]
      exact hasserts (htrips.2 hyes)

end Sys2Proof.Machine
end

