-- ==== Sys2Proof/Proofs/PlanFetches.lean ====
section
/-! The plan fetch (R19 to R29): which plans are refused, how an accepted one is clamped, and what each outcome of a fetch
makes of the part. -/

namespace Sys2Proof.Machine

open Sys2Proof

/-! ### The checks of a slot (R23) -/

/-- The modes are those of the codes 0 to 3. -/
theorem Mode.ofCode_of_le {n : Nat} (h : n ≤ 3) : ∃ m : Mode, m.code = n ∧ Mode.ofCode n = some m := by
  obtain rfl | rfl | rfl | rfl : n = 0 ∨ n = 1 ∨ n = 2 ∨ n = 3 := by omega
  · exact ⟨.coast, rfl, rfl⟩
  · exact ⟨.brake, rfl, rfl⟩
  · exact ⟨.align, rfl, rfl⟩
  · exact ⟨.rotate, rfl, rfl⟩

theorem Mode.ofCode_of_lt {n : Nat} (h : 3 < n) : Mode.ofCode n = none := by
  obtain ⟨k, rfl⟩ : ∃ k, n = k + 4 := ⟨n - 4, by omega⟩
  rfl

theorem planCheck_of_none {g : ChannelSetup} {slot : List Word} (h : Mode.ofCode (slot.getD 1 0).toNat = none) :
    planCheck g slot = .error 1 := by
  simp only [planCheck, wordNat, h]

theorem planCheck_of_some {g : ChannelSetup} {slot : List Word} {m : Mode}
    (h : Mode.ofCode (slot.getD 1 0).toNat = some m) : planCheck g slot =
      if (slot.getD 3 0).toNat < 250 ∨ 16000 < (slot.getD 3 0).toNat then .error 2
      else if 4 * (slot.getD 3 0).toNat / 2 < 2 * g.wwin + 2 * g.d then .error 3 else .ok m := by
  simp only [planCheck, wordNat, h]
  exact if_congr (by simp) rfl rfl

/-- Settles O31. -/
theorem aPlanIsRefusedInOrder : Obligations.APlanIsRefusedInOrder := by
  intro g slot mode modulus
  refine ⟨fun hmode => planCheck_of_none (Mode.ofCode_of_lt hmode), fun hmode hmod => ?_, fun hmode hmod hfit => ?_,
    fun hmode hmod hfit => ?_⟩ <;> obtain ⟨m, hcode, hm⟩ := Mode.ofCode_of_le hmode
  · rw [planCheck_of_some hm, if_pos (by omega)]
  · rw [planCheck_of_some hm, if_neg (by omega), if_pos hfit]
  · exact ⟨m, hcode, by rw [planCheck_of_some hm, if_neg (by omega), if_neg (by omega)]⟩

/-! ### The clamps of a slot (R26) -/

theorem bitSet_toNat {n : Nat} (x : BitVec n) (k : Nat) : bitSet x.toNat k = x.getLsbD k := by
  rw [BitVec.getLsbD, Nat.testBit_eq_decide_div_mod_eq, bitSet, bitField, pow_one, beq_eq_decide]

theorem clampInt_of_lt {lo hi x : Int} (h : x < lo) : clampInt lo hi x = lo := if_pos h

theorem clampInt_of_gt {lo hi x : Int} (hb : lo ≤ hi) (h : hi < x) : clampInt lo hi x = hi := by
  rw [clampInt, if_neg (not_lt.2 (hb.trans h.le)), if_pos h]

theorem clampInt_of_mem {lo hi x : Int} (hl : lo ≤ x) (hh : x ≤ hi) : clampInt lo hi x = x := by
  rw [clampInt, if_neg (by omega), if_neg (by omega)]

theorem clampInt_ne_iff {lo hi x : Int} : clampInt lo hi x ≠ x ↔ x < lo ∨ hi < x := by
  unfold clampInt
  split_ifs <;> omega

theorem clampInterval_ne_iff {r : Nat} : clampInterval r ≠ r ↔ r = 0 ∨ 64 < r := by
  unfold clampInterval
  split_ifs <;> omega

theorem needsClamp_iff {slot : List Word} {plan : Plan} : needsClamp slot plan = true ↔
    plan.target ≠ (slot.getD 4 0).toNat ∨ plan.slew ≠ (slot.getD 5 0).toNat ∨ plan.rate ≠ (slot.getD 6 0).toInt ∨
      plan.guardHigh ≠ (slot.getD 9 0).toNat ∨ plan.guardLow ≠ (slot.getD 10 0).toNat ∨
      plan.interval ≠ (slot.getD 11 0).toNat ∨ plan.injectFirst ≠ (slot.getD 12 0).toInt ∨
      plan.injectSecond ≠ (slot.getD 13 0).toInt := by
  simp only [needsClamp, wordNat, wordInt, Bool.or_eq_true, bne_iff_ne, or_assoc]

/-- A slot is clamped where one of its fields lies outside its working range. -/
theorem needsClamp_clampedPlan (slot : List Word) (mode : Mode) : needsClamp slot (clampedPlan slot mode) = true ↔
    32767 < (slot.getD 4 0).toNat ∨ 32767 < (slot.getD 5 0).toNat ∨
      ((slot.getD 6 0).toInt < -8191 ∨ 8191 < (slot.getD 6 0).toInt) ∨
      ((slot.getD 11 0).toNat = 0 ∨ 64 < (slot.getD 11 0).toNat) ∨
      (4095 < (slot.getD 9 0).toNat ∨ 4095 < (slot.getD 10 0).toNat ∨
        min (slot.getD 9 0).toNat 4095 < min (slot.getD 10 0).toNat 4095) ∨
      ((slot.getD 12 0).toInt < -4095 ∨ 4095 < (slot.getD 12 0).toInt) ∨
      ((slot.getD 13 0).toInt < -4095 ∨ 4095 < (slot.getD 13 0).toInt) := by
  have hmin {n : Nat} : min n 32767 ≠ n ↔ 32767 < n := by omega
  have hguards {h l : Nat} : (min h 4095 ≠ h ∨ min (min l 4095) (min h 4095) ≠ l) ↔
      (4095 < h ∨ 4095 < l ∨ min h 4095 < min l 4095) := by omega
  rw [needsClamp_iff]
  simp only [clampedPlan, clampGuards, wordNat, wordInt, hmin, clampInt_ne_iff, clampInterval_ne_iff, ← hguards]
  tauto

/-- Settles O33. -/
theorem acceptanceClampsEachField : Obligations.AcceptanceClampsEachField := by
  intro slot mode plan word w i
  have hhigh : plan.guardHigh = min (w 9) 4095 := rfl
  have hlow : plan.guardLow = min (min (w 10) 4095) plan.guardHigh := rfl
  have hbit (k : Nat) : bitSet (w 2) k = (word 2).getLsbD k := bitSet_toNat _ k
  refine ⟨?_, ?_, ?_, ?_, ?_, ?_, ?_, ?_, ?_, ?_, ?_, ?_, ?_, ?_, ?_, ?_, ?_, ?_, ?_, ?_,
    rfl, rfl, hbit 0, hbit 1, hbit 2, rfl, rfl, rfl, ?_⟩
  · exact fun h => min_eq_right h.le
  · exact fun h => min_eq_left h
  · exact fun h => min_eq_right h.le
  · exact fun h => min_eq_left h
  · exact fun h => clampInt_of_lt h
  · exact fun h => clampInt_of_gt (by decide) h
  · exact fun hl hh => clampInt_of_mem hl hh
  · exact fun h => if_pos h
  · exact fun h => by
      show (if w 11 = 0 then 1 else min (w 11) 64) = 64
      rw [if_neg (by omega), min_eq_right h.le]
  · exact fun hl hh => by
      show (if w 11 = 0 then 1 else min (w 11) 64) = w 11
      rw [if_neg (by omega), min_eq_left hh]
  · omega
  · omega
  · omega
  · omega
  · exact fun h => clampInt_of_lt h
  · exact fun h => clampInt_of_gt (by decide) h
  · exact fun hl hh => clampInt_of_mem hl hh
  · exact fun h => clampInt_of_lt h
  · exact fun h => clampInt_of_gt (by decide) h
  · exact fun hl hh => clampInt_of_mem hl hh
  · simpa only [or_assoc] using needsClamp_clampedPlan slot mode

/-! ### The words a fetch reads (R19) -/

/-- The words of a slot, whole, from a fetch that has read them all from one RAM. -/
theorem slotWords_fetchOrder (c : ChannelId) (m : Memory) :
    slotWords ((fetchOrder c).map (Memory.read m)) = (List.range 32).map fun k => Memory.read m (slotBase c + k) := by
  cases c <;> rfl

/-- The slot that a fetch has read once it has read the rest from the exchange RAM. -/
def Device.fetchedSlot (d : Device) (f : Fetch) : List Word :=
  slotWords (f.reader.got ++ f.reader.todo.map (Memory.read d.ram))

/-! ### The outcomes of a fetch (R20 to R25) -/

section
variable {g : ChannelSetup} {last : Word} {slot : List Word}

theorem fetchOutcome_torn (h : slot.getD 0 0 ≠ slot.getD 31 0) : fetchOutcome g last slot = .torn := by
  simp only [fetchOutcome, if_pos h]

theorem fetchOutcome_empty (h : slot.getD 0 0 = slot.getD 31 0) (h0 : slot.getD 0 0 = 0) :
    fetchOutcome g last slot = .empty := by
  simp only [fetchOutcome, if_neg (not_not.2 h), if_pos h0]

theorem fetchOutcome_duplicate (h : slot.getD 0 0 = slot.getD 31 0) (h0 : slot.getD 0 0 ≠ 0)
    (hl : slot.getD 0 0 = last) : fetchOutcome g last slot = .duplicate := by
  simp only [fetchOutcome, if_neg (not_not.2 h), if_neg h0, if_pos hl]

theorem fetchOutcome_refused (h : slot.getD 0 0 = slot.getD 31 0) (h0 : slot.getD 0 0 ≠ 0) (hl : slot.getD 0 0 ≠ last)
    {reason : Nat} (hr : planCheck g slot = .error reason) : fetchOutcome g last slot = .refused reason := by
  simp only [fetchOutcome, if_neg (not_not.2 h), if_neg h0, if_neg hl, hr]

theorem fetchOutcome_of_ok (h : slot.getD 0 0 = slot.getD 31 0) (h0 : slot.getD 0 0 ≠ 0) (hl : slot.getD 0 0 ≠ last)
    {mode : Mode} (hm : planCheck g slot = .ok mode) : fetchOutcome g last slot =
      .accepted (clampedPlan slot mode) (needsClamp slot (clampedPlan slot mode)) := by
  simp only [fetchOutcome, if_neg (not_not.2 h), if_neg h0, if_neg hl, hm]
end

section
variable {d : Device} {c : ChannelId} {f : Fetch}

/-- The outcome of a fetch takes effect on the part without the fetch. -/
theorem Device.endFetch_eq (hf : (d.chan c).fetch = some f) : d.endFetch c =
    let idle := d.setChan c { d.chan c with fetch := none }
    match fetchOutcome (d.cfg c) (d.chan c).lastSeen (d.fetchedSlot f) with
    | .torn => idle.tornFetch c
    | .empty => idle
    | .duplicate => idle
    | .refused reason => idle.refusePlan c f.period ((d.fetchedSlot f).getD 0 0) reason
    | .accepted plan clamped => (idle.modChan c (Channel.acceptPlan plan clamped)).releaseAge c plan.generation := by
  simp only [Device.endFetch, hf, Device.decideFetch, Device.modChan_eq_setChan, Device.cfg_setChan,
    Device.chan_setChan_same]
  rfl

theorem Device.endFetch_torn (hf : (d.chan c).fetch = some f)
    (h : (d.fetchedSlot f).getD 0 0 ≠ (d.fetchedSlot f).getD 31 0) : d.endFetch c = d.setChan c { d.chan c with
      fetch := none
      counters := { (d.chan c).counters with tornReads := (d.chan c).counters.tornReads + 1 } } := by
  simp [Device.endFetch_eq hf, fetchOutcome_torn h, Device.tornFetch, Device.modChan_eq_setChan]

theorem Device.endFetch_empty_or_duplicate (hf : (d.chan c).fetch = some f)
    (h : (d.fetchedSlot f).getD 0 0 = (d.fetchedSlot f).getD 31 0)
    (hno : (d.fetchedSlot f).getD 0 0 = 0 ∨ (d.fetchedSlot f).getD 0 0 = (d.chan c).lastSeen) :
    d.endFetch c = d.setChan c { d.chan c with fetch := none } := by
  by_cases h0 : (d.fetchedSlot f).getD 0 0 = 0
  · rw [Device.endFetch_eq hf, fetchOutcome_empty h h0]
  · rw [Device.endFetch_eq hf, fetchOutcome_duplicate h h0 (hno.resolve_left h0)]

theorem Device.endFetch_refused (hf : (d.chan c).fetch = some f)
    (h : (d.fetchedSlot f).getD 0 0 = (d.fetchedSlot f).getD 31 0) (h0 : (d.fetchedSlot f).getD 0 0 ≠ 0)
    (hl : (d.fetchedSlot f).getD 0 0 ≠ (d.chan c).lastSeen) {reason : Nat}
    (hr : planCheck (d.cfg c) (d.fetchedSlot f) = .error reason) : d.endFetch c = d.setChan c { d.chan c with
      fetch := none, lastSeen := (d.fetchedSlot f).getD 0 0
      counters := { (d.chan c).counters with refusedPlans := (d.chan c).counters.refusedPlans + 1 }
      log := { (d.chan c).log with waiting := (d.chan c).log.waiting ++ [.event {
        code := .planRefused, periodCount := f.period, condition := 0, value := reason, action := 0
        extra := (d.fetchedSlot f).getD 0 0, state := (d.chan c).state }] } } := by
  rw [Device.endFetch_eq hf, fetchOutcome_refused h h0 hl hr]
  simp [Device.refusePlan, Device.modChan_eq_setChan, Device.hand_setChan]

theorem Device.endFetch_accepted (hf : (d.chan c).fetch = some f)
    (h : (d.fetchedSlot f).getD 0 0 = (d.fetchedSlot f).getD 31 0) (h0 : (d.fetchedSlot f).getD 0 0 ≠ 0)
    (hl : (d.fetchedSlot f).getD 0 0 ≠ (d.chan c).lastSeen) {mode : Mode}
    (hm : planCheck (d.cfg c) (d.fetchedSlot f) = .ok mode) : d.endFetch c =
      (d.setChan c (Channel.acceptPlan (clampedPlan (d.fetchedSlot f) mode)
        (needsClamp (d.fetchedSlot f) (clampedPlan (d.fetchedSlot f) mode))
        { d.chan c with fetch := none })).releaseAge c ((d.fetchedSlot f).getD 0 0) := by
  rw [Device.endFetch_eq hf, fetchOutcome_of_ok h h0 hl hm]
  simp only [Device.modChan_setChan]
  rfl
end

theorem exec_planFetchEnd (s : State) (c : ChannelId) :
    exec (.planFetchEnd c) s = .next { s with toDevice := publish s.toDevice (s.endFetch c) } := rfl

/-- Settles O30. -/
theorem fetchesThatApplyNoPlan : Obligations.FetchesThatApplyNoPlan := by
  refine ⟨fun c m => ⟨rfl, slotWords_fetchOrder c m⟩, ?_⟩
  intro s c f hf ch slot head tail
  refine ⟨fun htorn => ?_, fun hwhole hno => ?_, fun reason hwhole h0 hl hr => ?_⟩
  · rw [exec_planFetchEnd, Device.endFetch_torn hf htorn]
  · have hshows : ({ ch with fetch := none } : Channel).ShowsAs ch := ⟨rfl, rfl, rfl, rfl, rfl, rfl, rfl, rfl, rfl⟩
    rw [exec_planFetchEnd, Device.endFetch_empty_or_duplicate hf hwhole hno,
      publish_of_statusWord_eq (statusWord_setChan hshows)]
  · rw [exec_planFetchEnd, Device.endFetch_refused hf hwhole h0 hl hr]
    rfl

/-! ### The release of AGE by an accepted plan (R125) -/

/-- The release of a condition of one channel alone. -/
theorem Device.releaseCondition_own {id : ConditionId} {c : ChannelId} (h : id.ofChannel = some c) (d : Device)
    (value : Int) (extra : Word) : d.releaseCondition id value extra =
      ((d.withReleased id).setChan c ((d.withReleased id).releasedChannel id value extra
        (decide (((d.withReleased id).override c).code < (d.override c).code)) (d.override c == .brake) c)).withCapture
          ((d.withReleased id).captureAfter id false value c) := by
  rw [← Device.releaseFor_eq (before := d.override c) decide_eq_true_iff beq_iff_eq]
  simp only [Device.releaseCondition, d.scope_own h, List.foldl_cons, List.foldl_nil]
  rfl

/-- A channel's change that leaves its conditions leaves the overrides. -/
theorem Device.override_setChan {d : Device} {c : ChannelId} {x : Channel} (hcur : x.cur = (d.chan c).cur)
    (hzer : x.zer = (d.chan c).zer) (hage : x.age = (d.chan c).age) (c' : ChannelId) :
    (d.setChan c x).override c' = d.override c' :=
  Device.override_of_conditions (Device.setChan_setup d c x) (Device.condition_setChan hcur hzer hage) c'

theorem Device.withReleased_age (d : Device) (c : ChannelId) : d.withReleased (.age c) =
    d.setChan c { d.chan c with age := (d.chan c).age.cleared } := rfl

/-- The change that AGE's release shows to a capture unit. -/
def Device.ageChange (d : Device) (c : ChannelId) : ConditionChange :=
  { identifier := 3, assertion := false, value := 0, action := (d.action (.age c) c).code }

/-- The release of AGE, over a channel that is already written out. -/
theorem Device.releaseAge_setChan {d : Device} {c : ChannelId} {x : Channel} (hcur : x.cur = (d.chan c).cur)
    (hzer : x.zer = (d.chan c).zer) (hage : x.age = (d.chan c).age) (ha : x.age.asserted = true) (generation : Word) :
    (d.setChan c x).releaseAge c generation =
      let aged : Channel := { x with age := x.age.cleared }
      let falls := decide (((d.setChan c aged).override c).code < (d.override c).code)
      (d.setChan c { aged with
        va := if falls then 0 else x.va
        computation := if falls then x.computation.map (fun k => { k with zeroed := true }) else x.computation
        brakeHold := if falls && d.override c == .brake && x.state != .running then false else x.brakeHold
        log := { x.log with waiting := x.log.waiting ++ [.event {
          code := .conditionReleased, periodCount := x.periodCount, condition := 3, value := 0
          action := (d.action (.age c) c).code, extra := generation, state := x.state }] } }).withCapture
        (if d.capture.mode = .armed ∧ d.capture.channel = c then
          { d.capture with following := d.capture.following.map (CaptureBuffer.addChange (d.ageChange c)) }
        else d.capture) := by
  have hreleased : (d.setChan c x).withReleased (.age c) = d.setChan c { x with age := x.age.cleared } := by
    simp [Device.withReleased_age]
  have hasserted : ((d.setChan c x).chan c).age.asserted = true := by simpa using ha
  have hcapture (y : Channel) : (d.setChan c y).captureAfter (.age c) false 0 c =
      if d.capture.mode = .armed ∧ d.capture.channel = c then
        { d.capture with following := d.capture.following.map (CaptureBuffer.addChange (d.ageChange c)) }
      else d.capture := by
    simp [Device.captureAfter, CaptureUnit.armedFor, Device.ageChange, ConditionId.code]
  rw [Device.releaseAge, if_pos hasserted, Device.releaseCondition_own rfl, hreleased,
    Device.override_setChan hcur hzer hage, hcapture]
  simp only [Device.releasedChannel, Device.setChan_setChan, Device.chan_setChan_same, Device.action_setChan]
  rfl

/-- What an accepted plan makes of the channel, by the words of its slot. -/
theorem Channel.acceptPlan_clampedPlan (slot : List Word) (mode : Mode) (ch : Channel) :
    Channel.acceptPlan (clampedPlan slot mode) (needsClamp slot (clampedPlan slot mode)) ch = { ch with
      lastSeen := slot.getD 0 0, plan := clampedPlan slot mode, planAge := 0
      counters := { ch.counters with acceptedPlans := ch.counters.acceptedPlans + 1 }
      clampedMark := ch.clampedMark || needsClamp slot (clampedPlan slot mode)
      q := ch.q + slot.getD 8 0
      pendingAngle := if (slot.getD 2 0).getLsbD 0 then some (slot.getD 7 0) else ch.pendingAngle } := by
  have hadjust : BitVec.ofInt 16 (clampedPlan slot mode).adjust = slot.getD 8 0 := BitVec.ofInt_toInt
  have hset : (clampedPlan slot mode).setAngle = (slot.getD 2 0).getLsbD 0 := bitSet_toNat _ 0
  rw [Channel.acceptPlan, hadjust, hset]
  rfl

/-- Settles O32. -/
theorem anAcceptedPlanComesIntoForce : Obligations.AnAcceptedPlanComesIntoForce := by
  intro s c f mode hf ch slot head plan hwhole h0 hl hm accepted
  have hend : s.endFetch c = (s.setChan c accepted).releaseAge c head := by
    rw [Device.endFetch_accepted hf hwhole h0 hl hm, Channel.acceptPlan_clampedPlan]
    rfl
  refine ⟨fun ha => ?_, fun ha => ?_⟩
  · have hkept : ((s.setChan c accepted).chan c).age.asserted = false := by
      rw [Device.chan_setChan_same]
      exact ha
    rw [exec_planFetchEnd, hend, Device.releaseAge, hkept, if_neg (by simp)]
  · intro aged after falls record change
    rw [exec_planFetchEnd, hend, Device.releaseAge_setChan (x := accepted) rfl rfl rfl ha]
    rfl

end Sys2Proof.Machine
end

