-- ==== Sys2Proof/Proofs/Records.lean ====
section
/-! The log writer (R145 to R152): the taking of a record by the room rule, the words of the records, and the end of a
record's writing. -/

namespace Sys2Proof.Machine

open Sys2Proof

/-! ### Release and room (R147, R148) -/

/-- A log once its release word is judged: a valid one is taken, an invalid one sets the flag. -/
def Log.judged (release : Word) (l : Log) : Log :=
  { l with
    releaseValid := if l.releaseOk release then release else l.releaseValid
    badRelease := l.badRelease || !l.releaseOk release }

/-- NOTICE once the release word of a channel is judged. -/
def Device.releaseNotice (d : Device) (l : Log) (c : ChannelId) : BitVec 13 :=
  if l.releaseOk (Memory.read d.ram (releaseAddress c)) then d.notice else d.notice ||| 0x1000

/-- The judgement of the release word of a channel that is already written out. -/
theorem Device.judgeRelease_setChan (d : Device) (c : ChannelId) (x : Channel) : (d.setChan c x).judgeRelease c =
    (d.setChan c { x with log := x.log.judged (Memory.read d.ram (releaseAddress c)) }).withNotice
      (d.releaseNotice x.log c) := by
  unfold Device.judgeRelease Log.judged Device.releaseNotice
  cases h : x.log.releaseOk (Memory.read d.ram (releaseAddress c)) <;>
    simp [h, Device.modChan_setChan] <;> rfl

/-! ### The words of a period record -/

theorem EdgeSet.shifted_eq (e : EdgeSet) : e.shifted = decide (0 < e.s1 ∨ 0 < e.s2) := by
  simp [EdgeSet.shifted]

/-- The words of a period record do not depend on the records that wait, on what is being written, or on the release. -/
theorem Device.periodRecord_setChan {d : Device} {c : ChannelId} {l : Log} (n : BitVec 13)
    (hw : l.written = (d.chan c).log.written) (hno : l.groupNotOk = (d.chan c).log.groupNotOk)
    (hm : l.groupMissed = (d.chan c).log.groupMissed) (p : ClosedPeriod) :
    ((d.setChan c { d.chan c with log := l }).withNotice n).periodRecord c p = d.periodRecord c p := by
  have hover : ((d.setChan c { d.chan c with log := l }).withNotice n).override c = d.override c := by
    rw [← Device.override_setChan (d := d) (c := c) (x := { d.chan c with log := l }) rfl rfl rfl c]
    rfl
  have hchan : ((d.setChan c { d.chan c with log := l }).withNotice n).chan c = { d.chan c with log := l } := by simp
  simp only [Device.periodRecord, hover, hchan, hw, hno, hm]
  cases c <;> rfl

/-! ### The taking of a record (R146, R148) -/

section
variable {d : Device} {c : ChannelId} {item : LogItem} {rest : List LogItem}

/-- The log of a record that is being taken, once it has left the queue and the release word is judged. -/
def Device.takingLog (d : Device) (c : ChannelId) (rest : List LogItem) : Log :=
  { (d.chan c).log with waiting := rest }.judged (Memory.read d.ram (releaseAddress c))

/-- The part while a record is taken, before the room rule. -/
def Device.taking (d : Device) (c : ChannelId) (rest : List LogItem) : Device :=
  (d.setChan c { d.chan c with log := d.takingLog c rest }).withNotice (d.releaseNotice (d.chan c).log c)

theorem Device.takeRecord_eq (hw : (d.chan c).log.writing = none) (hq : (d.chan c).log.waiting = item :: rest) :
    d.takeRecord c = (d.taking c rest).placeRecord c item := by
  unfold Device.takeRecord
  rw [hw, hq]
  simp only [Device.modChan_eq_setChan, Device.judgeRelease_setChan]
  rfl

@[simp] theorem Device.chan_taking : (d.taking c rest).chan c = { d.chan c with log := d.takingLog c rest } := by
  simp [Device.taking]

theorem Device.setChan_taking (x : Channel) : (d.taking c rest).setChan c x =
    (d.setChan c x).withNotice (d.releaseNotice (d.chan c).log c) := by
  simp [Device.taking]

theorem Device.beginRecord_eq (words : List Word) (event : Option EventCode) (d : Device) : d.beginRecord c words event =
    d.setChan c { d.chan c with log := { (d.chan c).log with writing := some {
      since := d.refCount, place := recordPlace c (d.chan c).log.written, words := words, event := event } } } := rfl

/-- What is being written once the next record of a channel's log is begun. -/
def Device.nextWrite (d : Device) (c : ChannelId) (words : List Word) (event : Option EventCode) : LogWrite :=
  { since := d.refCount, place := recordPlace c (d.chan c).log.written, words := words, event := event }

/-- A period record with room is written, and takes the clamped mark and the group counts with it. -/
theorem Device.placeRecord_period {p : ClosedPeriod} (hfree : 2 ≤ (d.takingLog c rest).free c) :
    (d.taking c rest).placeRecord c (.period p) = (d.setChan c { d.chan c with
      clampedMark := false
      log := { d.takingLog c rest with
        groupNotOk := 0, groupMissed := 0
        writing := some (d.nextWrite c (d.periodRecord c p) none) } }).withNotice (d.releaseNotice (d.chan c).log c) := by
  have hwords : (d.taking c rest).periodRecord c p = d.periodRecord c p :=
    Device.periodRecord_setChan (l := d.takingLog c rest) _ rfl rfl rfl p
  have hwrite : (d.taking c rest).placeRecord c (.period p) = (d.taking c rest).writePeriod c p :=
    if_pos (by simpa using hfree)
  simp only [hwrite, Device.writePeriod, hwords, Device.beginRecord_eq, Device.modChan_eq_setChan, Device.chan_taking,
    Device.setChan_taking, Device.chan_withNotice, Device.setChan_withNotice, Device.chan_setChan_same,
    Device.setChan_setChan]
  rfl

/-- A period record without room is dropped. -/
theorem Device.placeRecord_dropped {p : ClosedPeriod} (hfree : (d.takingLog c rest).free c < 2) :
    (d.taking c rest).placeRecord c (.period p) = (d.setChan c { d.chan c with
      log := d.takingLog c rest
      counters := { (d.chan c).counters with
        droppedRecords := (d.chan c).counters.droppedRecords + 1 } }).withNotice (d.releaseNotice (d.chan c).log c) := by
  have hdrop : (d.taking c rest).placeRecord c (.period p) = (d.taking c rest).dropPeriod c :=
    if_neg (by simpa using hfree)
  simp only [hdrop, Device.dropPeriod, Device.modChan_eq_setChan, Device.chan_taking, Device.setChan_taking]

/-- An event record with room is written. -/
theorem Device.placeRecord_event {r : EventRecord} (hfree : 1 ≤ (d.takingLog c rest).free c) :
    (d.taking c rest).placeRecord c (.event r) = (d.setChan c { d.chan c with
      log := { d.takingLog c rest with
        writing := some (d.nextWrite c (eventRecord (d.chan c).log.written c r) (some r.code)) } }).withNotice
          (d.releaseNotice (d.chan c).log c) := by
  have hwrite : (d.taking c rest).placeRecord c (.event r) = (d.taking c rest).beginRecord c
      (eventRecord ((d.taking c rest).chan c).log.written c r) (some r.code) := if_pos (by simpa using hfree)
  simp only [hwrite, Device.beginRecord_eq, Device.chan_taking, Device.setChan_taking]
  rfl

/-- An event record without room is lost; PLANXn follows the record of a refused plan. -/
theorem Device.placeRecord_lost {r : EventRecord} (hfree : (d.takingLog c rest).free c = 0) :
    (d.taking c rest).placeRecord c (.event r) = (d.setChan c { d.chan c with
      log := { d.takingLog c rest with eventLost := true } }).withNotice
        (if r.code = .planRefused then
          d.releaseNotice (d.chan c).log c ||| 0x1000 ||| BitVec.ofNat 13 (2 ^ (6 + channelIndex c))
        else d.releaseNotice (d.chan c).log c ||| 0x1000) := by
  have hlose : (d.taking c rest).placeRecord c (.event r) = (d.taking c rest).loseEvent c r.code :=
    if_neg (by simp [hfree])
  simp only [hlose, Device.loseEvent, Device.modChan_eq_setChan, Device.chan_taking, Device.setChan_taking,
    Device.noticeRefusal, Option.some.injEq]
  split_ifs <;> rfl
end

theorem exec_recordTake (s : State) (c : ChannelId) :
    exec (.recordTake c) s = .next { s with toDevice := publish s.toDevice (s.takeRecord c) } := rfl

/-- Word 1 of an event record holds its kind, channel, state and event code apart. -/
theorem eventHead_toNat (c : ChannelId) (r : EventRecord) :
    (BitVec.ofNat 16 (2 + channelIndex c * 4 + r.state.code * 16 + r.code.code * 256)).toNat =
      2 + channelIndex c * 4 + r.state.code * 16 + r.code.code * 256 := by
  have hc : channelIndex c ≤ 2 := by cases c <;> decide
  have hs : r.state.code ≤ 2 := by cases r.state <;> decide
  have he : r.code.code ≤ 8 := by cases r.code <;> decide
  rw [BitVec.toNat_ofNat, Nat.mod_eq_of_lt (by omega)]

/-- Settles O57. -/
theorem recordsAreTakenByTheRoomRule : Obligations.RecordsAreTakenByTheRoomRule := by
  refine ⟨?_, fun c => ⟨rfl, rfl, rfl, rfl, rfl, rfl, rfl, rfl, rfl⟩⟩
  intro s c item rest hw hq ch l release ok read free noticed writing leaves
  have hread : s.takingLog c rest = read := rfl
  have htake : s.takeRecord c = (s.taking c rest).placeRecord c item := Device.takeRecord_eq hw hq
  refine ⟨?_, ?_, ?_, ?_, ?_⟩
  · rintro p rfl hfree
    show exec _ s = _
    rw [exec_recordTake, htake, Device.placeRecord_period (rest := rest) hfree]
    rfl
  · intro p value bit drum sector
    have hvalue (x : Option Current) : currentWord x = value x := by cases x <;> rfl
    have hsector : s.recordSector c = drum 0 sector := by
      cases c
      case ch0 => cases ha : s.hall.accepted <;> simp only [Device.recordSector, sector, drum, ha] <;> rfl
      case ch1 => rfl
      case ch2 => rfl
    have hdirection : s.recordDirection c = drum 0 s.hall.direction.code := by cases c <;> rfl
    have hinterval : s.recordInterval c = drum 0 s.hall.interval := by cases c <;> rfl
    simp only [Device.periodRecord, flagsWord, p.set.shifted_eq, hvalue, hsector, hdirection, hinterval]
    rfl
  · rintro p rfl hfree
    show exec _ s = _
    rw [exec_recordTake, htake, Device.placeRecord_dropped (rest := rest) hfree]
    rfl
  · rintro r rfl hfree
    refine ⟨_, ?_, eventHead_toNat c r⟩
    show exec _ s = _
    rw [exec_recordTake, htake, Device.placeRecord_event (rest := rest) hfree]
    rfl
  · rintro r rfl hfree
    show exec _ s = _
    rw [exec_recordTake, htake, Device.placeRecord_lost (rest := rest) hfree]
    rfl

/-! ### The end of a record's writing (R146, R152) -/

/-- A channel's log once its record is written. -/
def Log.wrote (l : Log) : Log := { l with written := l.written + 1, writing := none }

/-- The exchange RAM once a record is written, but for the words that the host has written since. -/
def Device.recordRam (d : Device) (w : LogWrite) : Memory :=
  Memory.writeSome (fun a => !w.kept.contains a) d.ram w.place w.words

/-- The record just written is noticed in LOGn. -/
def Device.logNoticed (d : Device) (c : ChannelId) (w : LogWrite) : Bool :=
  w.event.isSome || decide ((d.cfg c).level ≤ (d.chan c).log.wrote.unreleased)

/-- A notice bit, where it is set. -/
def noticeIf (b : Bool) (k : Nat) : BitVec 13 := if b then BitVec.ofNat 13 (2 ^ k) else 0

theorem Device.noticed_eq (d : Device) (b : Bool) (k : Nat) :
    (if b then d.setNotice k else d) = d.withNotice (d.notice ||| noticeIf b k) := by
  cases b
  · simp [noticeIf]
  · rfl

theorem Device.noticeRefusal_eq (d : Device) (c : ChannelId) (event : Option EventCode) : d.noticeRefusal c event =
    d.withNotice (d.notice ||| noticeIf (decide (event = some .planRefused)) (noticePlanx c)) := by
  rw [← Device.noticed_eq]
  simp only [Device.noticeRefusal, decide_eq_true_eq]

/-- The part at the end of a record's writing. -/
theorem Device.endRecord_eq {d : Device} {c : ChannelId} {w : LogWrite} (hw : (d.chan c).log.writing = some w) :
    d.endRecord c = { d.setChan c { d.chan c with log := (d.chan c).log.wrote } with
      ram := d.recordRam w
      notice := d.notice ||| noticeIf (d.logNoticed c w) (noticeLog c) |||
        noticeIf (decide (w.event = some .planRefused)) (noticePlanx c) } := by
  simp only [Device.endRecord, hw, Device.noticeRefusal_eq, Device.noticed_eq]
  have hlogged : (({ d with ram := d.recordRam w } : Device).setChan c
      { d.chan c with log := (d.chan c).log.wrote }).noticesLog c w.event.isSome = d.logNoticed c w := by
    simp only [Device.noticesLog, Device.chan_setChan_same]
    rfl
  rw [← hlogged]
  rfl

/-- Settles O58. -/
theorem aWrittenRecordStandsInItsPlace : Obligations.AWrittenRecordStandsInItsPlace := by
  intro s c w hwf hw ch l logged refused bit
  refine ⟨s.recordRam w, Memory.wf_writeSome hwf _ _ _, fun a => ?_, ?_⟩
  · simp only [Device.recordRam, Memory.read_writeSome hwf, Bool.not_eq_true', List.contains_eq_mem, decide_eq_false_iff_not]
  · show s.apply (Device.endRecord c) = _
    rw [State.apply_eq, Device.endRecord_eq hw]
    rfl

end Sys2Proof.Machine
end

