-- ==== Sys2Proof/Proofs/StatusWords.lean ====
section
/-! The status block (R171): what each word shows, and that every command that takes effect rewrites the words that it
changes. -/

namespace Sys2Proof.Machine

open Sys2Proof

/-! ### The layout (section 12.5) -/

theorem statusWord_channel (d : Device) (c : ChannelId) {k : Nat} (hk : k < 64) :
    statusWord d (statusBase c + k) = channelStatus d c k := by
  cases c with
  | ch0 => rw [statusWord, statusBase, if_pos (by omega), Nat.add_sub_cancel_left]
  | ch1 => rw [statusWord, statusBase, if_neg (by omega), if_pos (by omega), Nat.add_sub_cancel_left]
  | ch2 => rw [statusWord, statusBase, if_neg (by omega), if_neg (by omega), if_pos (by omega), Nat.add_sub_cancel_left]

theorem statusWord_global (d : Device) (k : Nat) : statusWord d (0x1C0 + k) = globalStatus d k := by
  rw [statusWord, if_neg (by omega), if_neg (by omega), if_neg (by omega), Nat.add_sub_cancel_left]

/-- HAL as a channel's part of the status block shows it: on CH0 alone. -/
def Device.shownHal (d : Device) (c : ChannelId) : Condition := if c = .ch0 then d.hal else .clear

/-- A Hall word of a channel's part of the status block: on CH0 alone. -/
def Device.shownHall (d : Device) (c : ChannelId) (k : Nat) : Word :=
  if c = .ch0 then hallStatus d.words d.hall k else 0

/-- The 28 words of a channel. -/
theorem channelStatus_words (d : Device) (c : ChannelId) :
    let ch := d.chan c
    (List.range 28).map (channelStatus d c) = [
      ch.log.written, ch.log.releaseValid, BitVec.ofNat 16 (flagBit ch.log.badRelease 0 + flagBit ch.log.eventLost 1),
      ch.plan.generation, ch.lastSeen, BitVec.ofNat 16 ch.planAge,
      BitVec.ofNat 16 (flagBit ch.cur.asserted 0 + flagBit ch.zer.asserted 1 + flagBit ch.age.asserted 2 +
        flagBit (d.shownHal c).asserted 3 + (d.override c).code * 256),
      BitVec.ofNat 16 ((ch.z8 + 4) / 8),
      ch.counters.periods, ch.counters.acceptedPlans, ch.counters.refusedPlans, ch.counters.tornReads,
      ch.counters.shiftedPeriods, ch.counters.failedWindows, ch.counters.missedConversions, ch.counters.droppedRecords,
      ch.counters.hallSkips, ch.counters.hallSnaps,
      ch.cur.assertions, ch.zer.assertions, ch.age.assertions, (d.shownHal c).assertions,
      d.shownHall c 22, d.shownHall c 23, d.shownHall c 24, d.shownHall c 25, d.shownHall c 26, d.shownHall c 27] := rfl

/-- The words of a channel's part that have no content. -/
theorem channelStatus_unused (d : Device) (c : ChannelId) (j : Nat) : channelStatus d c (j + 28) = 0 := by
  have hlast : channelStatus d c (j + 28) = if j + 28 < 18 then counterStatus (d.chan c).counters (j + 28)
      else if c = .ch0 then 0 else 0 := rfl
  rw [hlast, if_neg (by omega), ite_self]

theorem globalStatus_unused (d : Device) (j : Nat) : globalStatus d (j + 5) = 0 := rfl

theorem mem_statusAddresses_channel (c : ChannelId) {k : Nat} (hk : k < 28) : statusBase c + k ∈ statusAddresses := by
  refine List.mem_append_left _ (List.mem_flatMap.2 ⟨c, by cases c <;> simp [allChannels], ?_⟩)
  exact List.mem_map.2 ⟨k, List.mem_range.2 hk, rfl⟩

theorem mem_statusAddresses_global {k : Nat} (hk : k < 5) : 0x1C0 + k ∈ statusAddresses :=
  List.mem_append_right _ (List.mem_map.2 ⟨k, List.mem_range.2 hk, rfl⟩)

/-! ### Commands that publish -/

/-- `e` is a good part as `d` publishes it. -/
def Device.Publishes (d e : Device) : Prop := ∃ x : Device, x.Good ∧ e = publish d x

/-- A status word whose shown value changes shows the new value. -/
theorem Device.Publishes.read {d e : Device} (h : d.Publishes e) {a : Nat} (ha : a ∈ statusAddresses)
    (hne : statusWord d a ≠ statusWord e a) : e.ram.read a = statusWord e a := by
  obtain ⟨x, hx, rfl⟩ := h
  rw [statusWord_publish] at hne ⊢
  rw [read_publish hx.1.ram, if_pos ⟨ha, hne⟩]

theorem Device.Good.publishes_self {d : Device} (h : d.Good) : d.Publishes d :=
  ⟨d, h, (publish_of_statusWord_eq rfl).symm⟩

theorem Device.publishes_carryOut {d : Device} (h : d.Good) {code : BitVec 4} {field : BitVec 2}
    {refusal : Option CmdResult} {f : Device → Device} (hf : refusal = none → (f d).Good) :
    d.Publishes (d.carryOut code field refusal f) := by
  cases hr : refusal with
  | none => exact ⟨_, (hf hr).leads (Device.leads_answer _ code field .done), rfl⟩
  | some r =>
    have hsame : publish d (d.answer code field r) = d.answer code field r :=
      publish_of_statusWord_eq (statusWord_congr rfl rfl rfl rfl rfl rfl rfl rfl rfl rfl rfl)
    exact ⟨_, h.leads (Device.leads_answer d code field r), hsame.symm⟩

/-- A write of CMD that the port does not take does nothing. -/
theorem Device.writeCmd_closed {d : Device} (h : ¬d.portOpen) (code : BitVec 4) (field : BitVec 2) :
    d.writeCmd code field = d := by
  refine if_pos ?_
  cases ht : d.takesCommands <;> cases hl : d.lockRun <;> simp_all [Device.portOpen]

section
variable {d : Device} (h : d.Good) (c : ChannelId)
include h

theorem Device.publishes_start : d.Publishes (d.writeCmd 2 (channelField c)) := by
  by_cases ho : d.portOpen
  · rw [Device.writeCmd_start ho]
    refine Device.publishes_carryOut h fun hn => ?_
    obtain ⟨hl, -, hoff, -⟩ := Device.startRefusal_none hn
    exact h.leads (Device.leads_startChannel hl hoff)
  · rw [Device.writeCmd_closed ho]
    exact h.publishes_self

theorem Device.publishes_stop : d.Publishes (d.writeCmd 3 (channelField c)) := by
  by_cases ho : d.portOpen
  · rw [Device.writeCmd_stop ho]
    exact Device.publishes_carryOut h fun _ => Device.sound_stopChannel h.1 h.2 c
  · rw [Device.writeCmd_closed ho]
    exact h.publishes_self

theorem Device.publishes_resume : d.Publishes (d.writeCmd 4 (channelField c)) := by
  by_cases ho : d.portOpen
  · rw [Device.writeCmd_resume ho]
    exact Device.publishes_carryOut h fun hn => h.leads (Device.leads_resumeChannel (Device.resumeRefusal_none hn).2.1)
  · rw [Device.writeCmd_closed ho]
    exact h.publishes_self
end

theorem State.publishes_of_apply {f : Device → Device} {s t : State} (hf : (f s.toDevice).Good)
    (ht : s.apply f = .next t) : s.toDevice.Publishes t.toDevice := by
  cases ht
  exact ⟨_, hf, rfl⟩

/-- The commands and events that rewrite the status words that they change: all but the resets, SOFT_RESET, the writes of
the port and those of CMD that start no work of a channel. -/
def showsChanges : Instr → Prop
  | .lock _ | .softReset _ | .unknownCommand _ _ | .commandDuringLock _ _ | .registerWrite _ _ | .powerOnReset
  | .powerOnResetEnd | .pinReset | .pinResetEnd | .statusResetWriteEnd => False
  | _ => True

theorem exec_publishes {s t : State} (h : s.Inv) {i : Instr} (hi : showsChanges i) (ht : exec i s = .next t) :
    s.toDevice.Publishes t.toDevice := by
  have h : s.toDevice.Good := h
  have carried {x : Device} (hx : s.toDevice.Publishes x) (hs : (.next { s with toDevice := x } :
      Host.Outcome State Fault Refusal) = .next t) : s.toDevice.Publishes t.toDevice := by
    cases hs
    exact hx
  have applied {f : Device → Device} (hf : s.toDevice.Leads (f s.toDevice)) (ht : s.apply f = .next t) :
      s.toDevice.Publishes t.toDevice := State.publishes_of_apply (h.leads hf) ht
  cases i with
  | lock | softReset | unknownCommand | commandDuringLock | registerWrite | powerOnReset | powerOnResetEnd | pinReset
  | pinResetEnd | statusResetWriteEnd => exact hi.elim
  | start c => exact carried (Device.publishes_start h c) ht
  | stop c => exact carried (Device.publishes_stop h c) ht
  | resume c => exact carried (Device.publishes_resume h c) ht
  | lockEnd => exact State.publishes_of_apply (Device.good_endLock h) ht
  | faultLineChange => exact State.publishes_of_apply (Device.good_changeFault h _ _) ht
  | faultFilterExpiry => exact State.publishes_of_apply (Device.good_expireFault h _) ht
  | noticeWrite v => exact applied (Device.leads_writeNotice v _) ht
  | noticeEnWrite v => exact applied (Device.leads_writeNoticeEn v _) ht
  | loadEvent c => exact applied (Device.leads_load c _) ht
  | planFetchEnd c => exact applied (Device.leads_endFetch c _) ht
  | peakEvent c => exact applied (Device.leads_peak c _) ht
  | vectorComputationEnd c => exact applied (Device.leads_endComputation c _) ht
  | placementRunEnd c => exact applied (Device.leads_endPlacement c _) ht
  | legEdge c leg edge => exact applied (Device.leads_pulseEdge c leg edge _) ht
  | pendingTurnOn c leg => exact applied (Device.leads_takeTurnOn c leg _) ht
  | entryDue c k => exact applied (Device.leads_entryFallsDue c k _) ht
  | conversionComplete cv raw => exact applied (Device.leads_completeConversion cv raw _) ht
  | entryMissed c k => exact applied (Device.leads_entryPassesDeadline c k _) ht
  | hallLineChange code => exact applied (Device.leads_changeHall code _) ht
  | hallFilterExpiry => exact applied (Device.leads_expireHall _) ht
  | poll => exact applied (Device.leads_pollRequest _) ht
  | captureCopyEnd => exact applied (Device.leads_endCopy _) ht
  | recordTake c => exact applied (Device.leads_takeRecord c _) ht
  | recordWriteEnd c => exact applied (Device.leads_endRecord c _) ht

/-- Settles O9. -/
theorem statusWordsAreRewrittenOnChange : Obligations.StatusWordsAreRewrittenOnChange := by
  refine ⟨fun d e a hwf => read_publish hwf a, ?_, ?_, ?_⟩
  · intro i s t a hinv hcmd hport hwrite hon honEnd hpin hpinEnd hstatus ht ha hne
    have hshows : showsChanges i := by
      cases i with
      | lock field => exact (hcmd field).1 rfl
      | softReset field => exact (hcmd field).2 rfl
      | unknownCommand code field => exact (hport code field).1 rfl
      | commandDuringLock code field => exact (hport code field).2 rfl
      | registerWrite address value => exact hwrite address value rfl
      | powerOnReset => exact hon rfl
      | powerOnResetEnd => exact honEnd rfl
      | pinReset => exact hpin rfl
      | pinResetEnd => exact hpinEnd rfl
      | statusResetWriteEnd => exact hstatus rfl
      | _ => trivial
    exact (exec_publishes hinv hshows ht).read ha hne
  · exact fun d l => ⟨(d.showStatus l).ram, rfl, fun hwf a => Device.read_showStatus hwf l a⟩
  · intro d c ch base bit drum override direction code sector
    have hbase : base = statusBase c := by cases c <;> rfl
    rw [hbase]
    refine ⟨?_, fun k hk hlt => ?_, ?_, fun k hk hlt => ?_, fun k hk => mem_statusAddresses_channel c hk,
      fun k hk => mem_statusAddresses_global hk⟩
    · have hwords : (List.range 28).map (fun k => statusWord d (statusBase c + k)) =
          (List.range 28).map (channelStatus d c) :=
        List.map_congr_left fun k hk => statusWord_channel d c (by have := List.mem_range.1 hk; omega)
      have hhal : (d.shownHal c).asserted = (c = .ch0 && d.hal.asserted) := by cases c <;> rfl
      have hassertions : (d.shownHal c).assertions = drum 0 d.hal.assertions := by cases c <;> rfl
      have hoverride : (d.override c).code = override := by
        simp only [override]
        cases d.override c <;> rfl
      have hcode : hallStatus d.words d.hall 22 = code := by
        simp only [code, hallStatus]
        cases d.hall.accepted with
        | none => rfl
        | some x => exact BitVec.ofNat_toNat ..
      have hsector : hallStatus d.words d.hall 23 = sector := by
        simp only [sector, hallStatus]
        cases d.hall.accepted with
        | none => rfl
        | some x =>
          dsimp only
          cases hallSector d.words x <;> rfl
      have hdirection : hallStatus d.words d.hall 24 = direction := by
        simp only [direction, hallStatus]
        cases d.hall.direction <;> rfl
      rw [hwords, channelStatus_words]
      simp only [hhal, hassertions, hoverride, Device.shownHall, hcode, hsector, hdirection]
      rfl
    · obtain ⟨j, rfl⟩ : ∃ j, k = j + 28 := ⟨k - 28, by omega⟩
      rw [statusWord_channel d c hlt, channelStatus_unused]
    · simp only [statusWord_global]
      rfl
    · obtain ⟨j, rfl⟩ : ∃ j, k = j + 5 := ⟨k - 5, by omega⟩
      rw [statusWord_global, globalStatus_unused]

end Sys2Proof.Machine
end

