-- ==== Sys2Proof/Proofs/Locking.lean ====
section
/-! A LOCK whose copy passes every check (R165): the six steps, each over the part before it. -/

namespace Sys2Proof.Machine

open Sys2Proof

/-! ### Showing status words -/

/-- `e` is `d` after some status words have been shown. -/
structure Device.Shown (d e : Device) : Prop where
  rest : e = { d with ram := e.ram, statusWrite := e.statusWrite }
  wf : d.ram.wf = true → e.ram.wf = true
  read : d.ram.wf = true → ∀ a, a ∉ statusAddresses → e.ram.read a = d.ram.read a
  statusWrite : d.statusWrite = none → e.statusWrite = none

theorem Device.Shown.refl (d : Device) : d.Shown d := ⟨rfl, id, fun _ _ _ => rfl, id⟩

theorem Device.shown_showStatus (d : Device) {l : List Nat} (hl : ∀ a ∈ l, a ∈ statusAddresses) :
    d.Shown (d.showStatus l) where
  rest := rfl
  wf := fun h => Device.wf_showStatus h l
  read := fun h a ha => by rw [Device.read_showStatus h, if_neg fun hm => ha (hl a hm)]
  statusWrite := fun h => by simp [Device.showStatus, h]

theorem shown_publish (old new : Device) : new.Shown (publish old new) :=
  new.shown_showStatus fun _ ha => (mem_changedStatus.1 ha).1

theorem mem_statusAddresses_hallWords : ∀ a ∈ hallWords, a ∈ statusAddresses := by
  have hword (k : Nat) (hk : k < 28) : 0x100 + k ∈ statusAddresses := mem_statusAddresses_channel .ch0 hk
  simpa [hallWords] using ⟨hword 22 (by decide), hword 23 (by decide), hword 24 (by decide), hword 25 (by decide)⟩

/-! ### The Hall timer at LOCK (R136) -/

/-- The Hall timer as LOCK leaves it: its acquisition made at once with Th = 0, else begun. -/
def Device.hallAtLock (d : Device) (words : List Word) : HallTimer :=
  if hallTh words = 0 then { d.hall with
      accepted := some d.hall.raw, acquiring := none, refSector := hallSector words d.hall.raw, direction := .none }
  else { d.hall with acquiring := some d.refCount }

theorem hallHold_eq_zero_iff (words : List Word) : hallHold words = 0 ↔ hallTh words = 0 := by
  simp [hallHold]

theorem Device.evaluateHal_of_off {d : Device} (hoff : (d.chan .ch0).state = .off) (code : BitVec 3) :
    d.evaluateHal code = d := if_pos hoff

/-- The acquisition while CH0 is OFF: no code evaluates HAL (R126). -/
theorem Device.acceptHall_of_off {d : Device} (ha : d.hall.accepted = none) (hoff : (d.chan .ch0).state = .off) :
    d.acceptHall =
      ({ d with hall := d.hall.acquisition (hallSector d.words d.hall.raw) } : Device).showStatus hallWords := by
  have hacquire : d.acceptHall = d.acquire := by simp only [Device.acceptHall, ha]
  rw [hacquire]
  refine Device.evaluateHal_of_off ?_ _
  exact hoff

/-- The part whose Hall timer measures its first code from now on. -/
def Device.measuring (d : Device) : Device := { d with hall := { d.hall with acquiring := some d.refCount } }

theorem Device.shown_beginAcquisition {d : Device} (ha : d.hall.accepted = none) (hoff : (d.chan .ch0).state = .off) :
    Device.Shown { d with hall := d.hallAtLock d.words } d.beginAcquisition := by
  have hbegin : d.beginAcquisition = if hallHold d.words = 0 then d.measuring.acceptHall else d.measuring := rfl
  rw [hbegin, Device.acceptHall_of_off (d := d.measuring) ha hoff, Device.hallAtLock]
  simp only [hallHold_eq_zero_iff]
  by_cases hth : hallTh d.words = 0
  · rw [if_pos hth, if_pos hth]
    exact Device.shown_showStatus _ mem_statusAddresses_hallWords
  · rw [if_neg hth, if_neg hth]
    exact .refl _

/-! ### The fault conditions at LOCK (R129) -/

/-- LOCK takes up a line's filtered fault for a channel. -/
def Device.takesUp (d : Device) (line : FaultLine) (c : ChannelId) : Bool :=
  (d.fault line).filtered && faultMapped d.words line c

/-- The record of a fault condition that LOCK takes up for a channel. -/
def Device.takeUpRecord (d : Device) (line : FaultLine) (c : ChannelId) : LogItem :=
  .event { code := .conditionAsserted, periodCount := (d.chan c).periodCount, condition := (faultCondition line).code
           value := 0, action := 3, extra := 0, state := .off }

/-- A line's condition once it takes up the filtered level. -/
def FaultFilter.followed (f : FaultFilter) (k : Condition) : Condition := if f.filtered then k.set else k

/-- `e` is `d`, all of whose channels are OFF, after a line's fault condition is taken up. -/
structure Device.TookUp (line : FaultLine) (d e : Device) : Prop where
  rest : e = { d with
    channels := e.channels, notice := e.notice
    fl0 := if line = .flt0 then d.flt0.followed d.fl0 else d.fl0
    fl1 := if line = .flt1 then d.flt1.followed d.fl1 else d.fl1 }
  chan : ∀ c, e.chan c = { d.chan c with log := { (d.chan c).log with
    waiting := (d.chan c).log.waiting ++ if d.takesUp line c then [d.takeUpRecord line c] else [] } }
  notice : ∀ k, k < 13 → e.notice.getLsbD k = (d.notice.getLsbD k ||
    [ChannelId.ch0, .ch1, .ch2].any fun c => k == 3 + channelIndex c && d.takesUp line c)

section
variable {d : Device} {line : FaultLine}

theorem Device.tookUp_of_not_filtered (hf : (d.fault line).filtered = false) : d.TookUp line d where
  rest := by cases line <;> simp_all [Device.fault, FaultFilter.followed]
  chan := fun c => by simp [Device.takesUp, hf]
  notice := fun k _ => by simp [Device.takesUp, hf]

/-- A fault condition asserted while every channel is OFF: it floats none, and the capture unit of an unlocked part follows
none. -/
theorem Device.tookUp_assertCondition (hf : (d.fault line).filtered = true) (hoff : ∀ c, (d.chan c).state = .off)
    (hrequests : d.requests = []) (hcapture : d.capture.mode ≠ .armed) :
    d.TookUp line (d.assertCondition (faultCondition line) 0 0) where
  rest := by
    have hr : (d.assertCondition (faultCondition line) 0 0).requests = d.requests := by
      rw [Device.requests_assertCondition, hrequests, List.filter_nil]
    have hc : (d.assertCondition (faultCondition line) 0 0).capture = d.capture := by
      rw [Device.capture_assertCondition, if_neg fun h => hcapture h.1]
    have hrest := d.assertCondition_rest (faultCondition line) 0 0
    rw [hr, hc] at hrest
    cases line with
    | flt0 =>
      have hset : d.flt0.followed d.fl0 = d.fl0.set := if_pos hf
      rw [if_pos rfl, if_neg (by decide), hset]
      exact hrest
    | flt1 =>
      have hset : d.flt1.followed d.fl1 = d.fl1.set := if_pos hf
      rw [if_neg (by decide), if_pos rfl, hset]
      exact hrest
  chan := fun c => by
    have hfloats : d.floats (faultCondition line) c = false := by simp [Device.floats, hoff]
    have hbrakes : d.brakes (faultCondition line) c = false := by simp [Device.brakes, Device.action_faultCondition]
    rw [Device.chan_assertCondition, Device.inScope_faultCondition, Device.takesUp, hf, Bool.true_and]
    by_cases hm : faultMapped d.words line c = true
    · rw [if_pos hm, if_pos hm, Device.assertion_channel, hfloats, hbrakes, Device.assertedChannel]
      simp only [Device.action_faultCondition, Bool.or_false, Bool.false_eq_true, if_false, Bool.false_and,
        Device.bufferAfter_false, List.append_nil, hoff]
      cases line <;> rfl
    · rw [if_neg hm, if_neg hm, List.append_nil]
  notice := fun k hk => by
    rw [Device.notice_assertCondition _ _ _ _ hk]
    have hhal : faultCondition line ≠ .hal := by cases line <;> decide
    have hnote : (Action.float != .note) = true := rfl
    simp only [hhal, hnote, decide_false, Bool.and_true, Bool.and_false, Bool.or_false, Device.inScope_faultCondition,
      Device.action_faultCondition, Device.takesUp, hf, Bool.true_and]
    simp [Bool.and_comm]

theorem Device.tookUp_takeUpFault (hoff : ∀ c, (d.chan c).state = .off) (hrequests : d.requests = [])
    (hcapture : d.capture.mode ≠ .armed) : d.TookUp line (d.takeUpFault line) := by
  cases hf : (d.fault line).filtered
  · rw [Device.takeUpFault, hf, if_neg (by decide)]
    exact Device.tookUp_of_not_filtered hf
  · rw [Device.takeUpFault, hf, if_pos rfl]
    exact Device.tookUp_assertCondition hf hoff hrequests hcapture
end

/-! ### The steps of LOCK (R165) -/

/-- The part that a copy which passes every check locks, before the fault conditions are taken up. -/
def Device.lockedBy (d : Device) (words : List Word) : Device :=
  { d with
    lockRun := none, setup := some words, setupErrorCode := 0, setupErrorChannel := 0, outputsDriven := true
    hall := d.hallAtLock words
    capture := { d.capture with nextPoll := some (d.refCount + 32768) } }

/-- The part locked, with the Hall words that its acquisition shows. -/
def Device.locking (d : Device) (words : List Word) : Device :=
  let x := { d with
    lockRun := none, setup := some words, setupErrorCode := 0, setupErrorChannel := 0
    outputsDriven := true }.beginAcquisition
  { x with capture := { x.capture with nextPoll := some (x.refCount + BitVec.ofNat 32 Config.pollInterval) } }

/-- Every channel's null plan takes its M0. -/
def Device.takeM0s (d : Device) : Device := ((d.takeM0 .ch0).takeM0 .ch1).takeM0 .ch2

theorem Device.completeLock_eq (d : Device) (words : List Word) : d.completeLock words =
    let e := (((d.locking words).takeUpFault .flt0).takeUpFault .flt1).takeM0s
    { e.setNotice noticeLock with cmd := { e.cmd with result := .done } } := rfl

theorem Device.chan_takeM0s (d : Device) (c : ChannelId) :
    d.takeM0s.chan c = { d.chan c with plan := Plan.null (d.cfg c).m0 } := by
  cases c <;> rfl

theorem Device.takeM0s_rest (d : Device) : d.takeM0s = { d with channels := d.takeM0s.channels } := rfl

theorem getLsbD_noticeLock {k : Nat} (hk : k < 13) : (BitVec.ofNat 13 (2 ^ noticeLock)).getLsbD k = (k == 11) := by
  rw [BitVec.getLsbD_ofNat, Nat.testBit_two_pow]
  simp only [hk, decide_true, Bool.true_and, noticeLock, beq_eq_decide, eq_comm]

section
variable {d : Device} {words : List Word}

theorem Device.shown_locking (ha : d.hall.accepted = none) (hoff : (d.chan .ch0).state = .off) :
    (d.lockedBy words).Shown (d.locking words) := by
  obtain ⟨hrest, hwf, hread, hwrite⟩ := Device.shown_beginAcquisition (d := { d with
    lockRun := none, setup := some words, setupErrorCode := 0, setupErrorChannel := 0, outputsDriven := true }) ha hoff
  refine ⟨?_, hwf, hread, hwrite⟩
  rw [Device.locking, hrest]
  rfl

/-- What the take-up of both fault conditions reads is as before the LOCK, but for the setup copy. -/
theorem Device.Shown.takesUp {d e : Device} (h : d.Shown e) (line : FaultLine) (c : ChannelId) :
    e.takesUp line c = d.takesUp line c := by
  rw [h.rest]
  cases line <;> rfl
end

/-- What a LOCK whose copy passes every check makes of the part. -/
structure Device.Locks (d : Device) (words : List Word) (e : Device) : Prop where
  rest : e = { d.lockedBy words with
    cmd := { d.cmd with result := .done }
    fl0 := d.flt0.followed d.fl0, fl1 := d.flt1.followed d.fl1
    notice := e.notice, channels := e.channels, ram := e.ram, statusWrite := e.statusWrite }
  chan : ∀ c, e.chan c = { d.chan c with
    plan := Plan.null (channelSetup words c).m0
    log := { (d.chan c).log with waiting := (d.chan c).log.waiting ++
      (if (d.lockedBy words).takesUp .flt0 c then [d.takeUpRecord .flt0 c] else []) ++
      (if (d.lockedBy words).takesUp .flt1 c then [d.takeUpRecord .flt1 c] else []) } }
  notice : ∀ k, k < 13 → e.notice.getLsbD k = (d.notice.getLsbD k || k == 11 ||
    [ChannelId.ch0, .ch1, .ch2].any fun c =>
      k == 3 + channelIndex c && ((d.lockedBy words).takesUp .flt0 c || (d.lockedBy words).takesUp .flt1 c))
  wf : d.ram.wf = true → e.ram.wf = true
  read : d.ram.wf = true → ∀ a, a ∉ statusAddresses → e.ram.read a = d.ram.read a
  statusWrite : d.statusWrite = none → e.statusWrite = none

theorem Device.TookUp.takesUp {line : FaultLine} {d e : Device} (h : d.TookUp line e) (l : FaultLine) (c : ChannelId) :
    e.takesUp l c = d.takesUp l c := by
  rw [h.rest]
  cases l <;> rfl

theorem Device.TookUp.takeUpRecord {line : FaultLine} {d e : Device} (h : d.TookUp line e) (l : FaultLine)
    (c : ChannelId) : e.takeUpRecord l c = d.takeUpRecord l c := by
  simp only [Device.takeUpRecord, h.chan]

/-- What the steps of LOCK leave of the part. -/
theorem Device.rest_of_tookUp {d x y z : Device} {words : List Word} (hx : (d.lockedBy words).Shown x)
    (hy : x.TookUp .flt0 y) (hz : y.TookUp .flt1 z) : z = { d.lockedBy words with
      fl0 := d.flt0.followed d.fl0, fl1 := d.flt1.followed d.fl1
      notice := z.notice, channels := z.channels, ram := z.ram, statusWrite := z.statusWrite } := by
  obtain ⟨ram, writing, rfl⟩ : ∃ ram writing, x = { d.lockedBy words with ram := ram, statusWrite := writing } :=
    ⟨_, _, hx.rest⟩
  obtain ⟨channels, notice, rfl⟩ : ∃ channels notice, y = { d.lockedBy words with
      ram := ram, statusWrite := writing, channels := channels, notice := notice
      fl0 := d.flt0.followed d.fl0 } := ⟨_, _, hy.rest⟩
  obtain ⟨channels', notice', rfl⟩ : ∃ channels notice, z = { d.lockedBy words with
      ram := ram, statusWrite := writing, channels := channels, notice := notice
      fl0 := d.flt0.followed d.fl0, fl1 := d.flt1.followed d.fl1 } := ⟨_, _, hz.rest⟩
  rfl

/-- The steps of LOCK, one after another. -/
theorem Device.locks_of_tookUp {d x y z : Device} {words : List Word} (hx : (d.lockedBy words).Shown x)
    (hy : x.TookUp .flt0 y) (hz : y.TookUp .flt1 z) :
    d.Locks words { z.takeM0s.setNotice noticeLock with cmd := { z.takeM0s.cmd with result := .done } } := by
  have hrest := Device.rest_of_tookUp hx hy hz
  have hchan (c : ChannelId) : x.chan c = d.chan c := by rw [hx.rest]; rfl
  have hrecord (line : FaultLine) (c : ChannelId) : x.takeUpRecord line c = d.takeUpRecord line c := by
    simp only [Device.takeUpRecord, hchan]
  have hcfg (c : ChannelId) : z.cfg c = channelSetup words c := by rw [hrest]; rfl
  have hnotice : x.notice = d.notice := by rw [hx.rest]; rfl
  have hram : z.ram = x.ram := by rw [hz.rest, hy.rest]
  have hwriting : z.statusWrite = x.statusWrite := by rw [hz.rest, hy.rest]
  have hplans := z.takeM0s_rest
  have hplan := z.chan_takeM0s
  generalize z.takeM0s = w at hplans hplan
  have hw : w.notice = z.notice ∧ w.ram = z.ram ∧ w.statusWrite = z.statusWrite := by
    rw [hplans]
    exact ⟨rfl, rfl, rfl⟩
  obtain ⟨hwnotice, hwram, hwwriting⟩ := hw
  refine ⟨?_, fun c => ?_, fun k hk => ?_, fun hwf => ?_, fun hwf a ha => ?_, fun hs => ?_⟩
  · obtain ⟨channels, rfl⟩ : ∃ channels, w = { z with channels := channels } := ⟨_, hplans⟩
    obtain ⟨notice, channels', ram, writing, rfl⟩ : ∃ notice channels ram writing, z = { d.lockedBy words with
        fl0 := d.flt0.followed d.fl0, fl1 := d.flt1.followed d.fl1
        notice := notice, channels := channels, ram := ram, statusWrite := writing } := ⟨_, _, _, _, hrest⟩
    rfl
  · show w.chan c = _
    rw [hplan, hz.chan, hy.chan, hchan, hcfg, hy.takesUp, hy.takeUpRecord, hx.takesUp, hx.takesUp, hrecord, hrecord]
  · show (w.notice ||| BitVec.ofNat 13 (2 ^ noticeLock)).getLsbD k = _
    rw [BitVec.getLsbD_or, getLsbD_noticeLock hk, hwnotice, hz.notice k hk, hy.notice k hk, hnotice]
    simp only [hy.takesUp, hx.takesUp, List.any_cons, List.any_nil, Bool.or_false, Bool.and_or_distrib_left]
    ac_rfl
  · show w.ram.wf = true
    rw [hwram, hram]
    exact hx.wf hwf
  · show w.ram.read a = _
    rw [hwram, hram]
    exact hx.read hwf a ha
  · show w.statusWrite = none
    rw [hwwriting, hwriting]
    exact hx.statusWrite hs

theorem Device.locks_completeLock {d : Device} (hoff : ∀ c, (d.chan c).state = .off) (hq : d.Quiet) (words : List Word) :
    d.Locks words (d.completeLock words) := by
  have ha : d.hall.accepted = none := by rw [hq.hall]; rfl
  have hshown := Device.shown_locking (words := words) ha (hoff .ch0)
  rw [Device.completeLock_eq]
  generalize d.locking words = x at hshown
  have hrest := hshown.rest
  have hxchan (c : ChannelId) : x.chan c = d.chan c := by rw [hrest]; rfl
  have hxmode : x.capture.mode = d.capture.mode := by rw [hrest]; rfl
  have hxcap : x.capture.mode ≠ .armed := by rw [hxmode, hq.mode]; decide
  have hxreq : x.requests = [] := by rw [hrest]; exact hq.requests
  have h0 := Device.tookUp_takeUpFault (line := .flt0) (fun c => by rw [hxchan, hoff]) hxreq hxcap
  generalize x.takeUpFault .flt0 = y at h0
  have hy := h0.rest
  have h1 := Device.tookUp_takeUpFault (d := y) (line := .flt1) (fun c => by rw [h0.chan, hxchan, hoff])
    (by rw [hy]; exact hxreq) (by rw [hy]; exact hxcap)
  exact Device.locks_of_tookUp hshown h0 h1

/-- LOCK_END of a copy that passes every check. -/
theorem Device.endLock_of_valid {d : Device} {r : WordReader} (hr : d.lockRun = some r)
    (hvalid : setupError (r.finish d.ram) = none) : d.endLock = d.completeLock (r.finish d.ram) := by
  simp only [Device.endLock, hr, hvalid]

/-- Settles O13. -/
theorem lockSucceedsOnAValidSetup : Obligations.LockSucceedsOnAValidSetup := by
  intro s r hinv hr words taken record followed hvalid
  have hunlocked : s.setup = none := hinv.1.lockRun (by simp [hr])
  have hoff (c : ChannelId) : (s.chan c).state = .off := ((hinv.1.channels c).unlocked hunlocked).1
  have hlocks := Device.locks_completeLock hoff (hinv.1.unlocked hunlocked) words
  have hexec : exec .lockEnd s = .next { s with toDevice := publish s.toDevice (s.completeLock words) } := by
    show s.apply Device.endLock = _
    rw [State.apply_eq, Device.endLock_of_valid hr hvalid]
    rfl
  generalize s.completeLock words = e at hlocks hexec
  have hshown := shown_publish s.toDevice e
  have htaken (line : FaultLine) (c : ChannelId) : (s.lockedBy words).takesUp line c = taken line c := by
    cases line <;> rfl
  have hchan (c : ChannelId) : e.chan c = { s.chan c with
      plan := Plan.null (channelSetup words c).m0
      log := { (s.chan c).log with waiting := (s.chan c).log.waiting ++
        (if taken .flt0 c then [record 7 c] else []) ++ (if taken .flt1 c then [record 8 c] else []) } } := by
    rw [hlocks.chan, htaken, htaken]
    rfl
  have hrest := hlocks.rest
  refine ⟨_, hexec, fun c => hchan c, fun c => ?_, ?_, fun k hk => ?_, fun a ha => ?_, fun hs => ?_, rfl⟩
  · show (e.chan c).state = .off
    rw [hchan]
    exact hoff c
  · obtain ⟨notice, channels, ram, writing, rfl⟩ : ∃ notice channels ram writing, e = { s.lockedBy words with
        cmd := { s.cmd with result := .done }
        fl0 := s.flt0.followed s.fl0, fl1 := s.flt1.followed s.fl1
        notice := notice, channels := channels, ram := ram, statusWrite := writing } := ⟨_, _, _, _, hrest⟩
    rfl
  · show e.notice.getLsbD k = _
    rw [hlocks.notice k hk]
    simp only [htaken]
  · show (publish s.toDevice e).ram.read a = _
    rw [hshown.read (hlocks.wf hinv.1.ram) a ha, hlocks.read hinv.1.ram a ha]
  · exact hshown.statusWrite (hlocks.statusWrite hs)

end Sys2Proof.Machine
end

