-- ==== Sys2Proof/Proofs/Vector.lean ====
section
/-! The voltage vector: the amplitude step, the predicted angle, the sine table, the leg voltages, their centering, and
what a peak computation and a placement run end in. -/

namespace Sys2Proof.Machine

open Sys2Proof

/-! ### The amplitude step (R39, R40) -/

@[simp] theorem slewToward_zero (va target : Nat) : slewToward va target 0 = target := by simp [slewToward]

theorem slewToward_of_ne_zero {slew : Nat} (h : slew ≠ 0) (va target : Nat) : slewToward va target slew =
    if va < target then min (va + slew) target else max (va - slew) target := by simp [slewToward, h]

theorem alignSlew_ne_zero (slew : Nat) : alignSlew slew ≠ 0 := by
  unfold alignSlew
  split
  · decide
  · assumption

@[simp] theorem alignStep_none (plan : Plan) (va : Nat) : alignStep plan va none = va := rfl

@[simp] theorem alignStep_some (plan : Plan) (va m : Nat) : alignStep plan va (some m) =
    if plan.guardHigh ≤ m then va - alignSlew plan.slew
    else if m ≤ plan.guardLow then slewToward va plan.target (alignSlew plan.slew)
    else va := rfl

@[simp] theorem amplitudeStep_held (plan : Plan) (va : Nat) (metric : Option Nat) :
    amplitudeStep plan true va metric = va := by simp [amplitudeStep]

section
variable {plan : Plan} (va : Nat) (metric : Option Nat)

theorem amplitudeStep_coast (h : plan.mode = .coast) : amplitudeStep plan false va metric = 0 := by
  simp [amplitudeStep, h]

theorem amplitudeStep_brake (h : plan.mode = .brake) : amplitudeStep plan false va metric = 0 := by
  simp [amplitudeStep, h]

theorem amplitudeStep_rotate (h : plan.mode = .rotate) :
    amplitudeStep plan false va metric = slewToward va plan.target plan.slew := by
  simp [amplitudeStep, h]

theorem amplitudeStep_align (h : plan.mode = .align) :
    amplitudeStep plan false va metric = alignStep plan va metric := by
  simp [amplitudeStep, h]

end

theorem alignStep_le {plan : Plan} {va : Nat} (hv : va ≤ 32767) (ht : plan.target ≤ 32767) (metric : Option Nat) :
    alignStep plan va metric ≤ 32767 := by
  cases metric with
  | none => exact hv
  | some m =>
    rw [alignStep_some]
    split_ifs
    · omega
    · exact slewToward_le hv ht
    · exact hv

/-- Of a plan's ranges the amplitude step needs that of the target alone. -/
theorem amplitudeStep_le_of_target {plan : Plan} {va : Nat} (hv : va ≤ 32767) (ht : plan.target ≤ 32767) (hold : Bool)
    (metric : Option Nat) : amplitudeStep plan hold va metric ≤ 32767 := by
  cases hold
  case true => simpa using hv
  case false =>
    cases hm : plan.mode with
    | coast => simp [amplitudeStep_coast va metric hm]
    | brake => simp [amplitudeStep_brake va metric hm]
    | rotate => simpa [amplitudeStep_rotate va metric hm] using slewToward_le hv ht
    | align => simpa [amplitudeStep_align va metric hm] using alignStep_le hv ht metric

/-- Settles O36, mode by mode. -/
theorem theAmplitudeStep : Obligations.TheAmplitudeStep := by
  intro plan va metric toward σ
  refine ⟨amplitudeStep_held plan va metric, ?_, fun hrotate => ?_, fun halign => ⟨?_, ?_⟩, fun hv ht hold =>
    amplitudeStep_le_of_target hv ht hold metric⟩
  · rintro (hcoast | hbrake)
    · exact amplitudeStep_coast va metric hcoast
    · exact amplitudeStep_brake va metric hbrake
  · rw [amplitudeStep_rotate va metric hrotate]
    rfl
  · rintro rfl
    exact amplitudeStep_align va none halign
  · rintro m rfl
    rw [amplitudeStep_align va (some m) halign, alignStep_some]
    refine ⟨fun hhigh => by rw [if_pos hhigh]; rfl, fun hlt hlow => ?_, fun hlt hlow => ?_⟩
    · rw [if_neg (by omega), if_pos hlow, slewToward_of_ne_zero (alignSlew_ne_zero _)]
      rfl
    · rw [if_neg (by omega), if_neg (by omega)]

/-! ### The predicted angle (R42) -/

/-- An angle or an angle step is the residue of the whole number it stands for. -/
theorem toNat_ofInt_word (x : Int) : ((BitVec.ofInt 16 x).toNat : Int) = x % 65536 := by
  rw [BitVec.toNat_ofInt, Int.toNat_of_nonneg (Int.emod_nonneg x (by decide))]
  rfl

theorem ofInt_toNat_word (x : BitVec 16) : BitVec.ofInt 16 x.toNat = x := by
  rw [BitVec.ofInt_natCast, BitVec.ofNat_toNat, BitVec.setWidth_eq]

section
variable {plan : Plan} (θ q p : BitVec 16)

theorem thetaMid_align (h : plan.mode = .align) : thetaMid plan θ q none = BitVec.ofInt 16 (θ.toNat + q.toInt) := by
  rw [BitVec.ofInt_add, ofInt_toNat_word, BitVec.ofInt_toInt]
  simp [thetaMid, h]

theorem thetaMid_turning (h : plan.mode ≠ .align) :
    thetaMid plan θ q none = BitVec.ofInt 16 (θ.toNat + plan.rate + q.toInt + plan.rate / 2) := by
  rw [BitVec.ofInt_add, BitVec.ofInt_add, BitVec.ofInt_add, ofInt_toNat_word, BitVec.ofInt_toInt]
  simp [thetaMid]

theorem thetaMid_align_pending (h : plan.mode = .align) : thetaMid plan θ q (some p) = p := by
  simp [thetaMid, h]

theorem thetaMid_turning_pending (h : plan.mode ≠ .align) :
    thetaMid plan θ q (some p) = BitVec.ofInt 16 (p.toNat + plan.rate / 2) := by
  rw [BitVec.ofInt_add, ofInt_toNat_word]
  simp [thetaMid]

end

/-- Settles O37: each angle is the residue of a sum of whole numbers. -/
theorem thePredictedAngle : Obligations.ThePredictedAngle := by
  intro plan θ q p mid
  refine ⟨fun h => ?_, fun h => ?_, fun h => ?_, fun h => ?_⟩ <;> simp only [mid]
  · rw [thetaMid_turning θ q h, toNat_ofInt_word]
  · rw [thetaMid_align θ q h, toNat_ofInt_word]
  · rw [thetaMid_turning_pending θ q p h, toNat_ofInt_word]
  · rw [thetaMid_align_pending θ q p h]

/-! ### The sine table (R44)

Its quarters: each equation holds at both ends, where it agrees with its neighbour's. -/

section
variable {i : Nat}

theorem sine_first (h : i ≤ 256) : sine i = (sineQuarter.getD i 0 : Nat) := by
  rw [sine, if_pos h]

theorem sine_second (h : 256 ≤ i) (h' : i ≤ 512) : sine i = (sineQuarter.getD (512 - i) 0 : Nat) := by
  rcases h.eq_or_lt with rfl | h
  · rfl
  · rw [sine, if_neg h.not_ge, if_pos h']

theorem sine_third (h : 512 ≤ i) (h' : i ≤ 768) : sine i = -((sineQuarter.getD (i - 512) 0 : Nat) : Int) := by
  rcases h.eq_or_lt with rfl | h
  · rfl
  · rw [sine, if_neg (by omega), if_neg h.not_ge, if_pos h']

theorem sine_fourth (h : 768 ≤ i) (h' : i ≤ 1024) : sine i = -((sineQuarter.getD (1024 - i) 0 : Nat) : Int) := by
  rcases h.eq_or_lt with rfl | h
  · rfl
  · rw [sine, if_neg (by omega), if_neg (by omega), if_neg h.not_ge]

/-- The first half is symmetric about its middle. -/
theorem sine_sub_512 (h : i ≤ 512) : sine (512 - i) = sine i := by
  rcases Nat.le_total i 256 with hi | hi
  · rw [sine_second (by omega) (by omega), sine_first hi, Nat.sub_sub_self h]
  · rw [sine_first (by omega), sine_second hi h]

/-- The second half is the first one turned over. -/
theorem sine_add_512 (h : i ≤ 512) : sine (512 + i) = -sine i := by
  rcases Nat.le_total i 256 with hi | hi
  · rw [sine_third (by omega) (by omega), sine_first hi, Nat.add_sub_cancel_left]
  · rw [sine_fourth (by omega) (by omega), sine_second hi h, show 1024 - (512 + i) = 512 - i by omega]

theorem sine_sub_1024 (h : i ≤ 1024) : sine (1024 - i) = -sine i := by
  rcases Nat.le_total i 512 with hi | hi
  · rw [show 1024 - i = 512 + (512 - i) by omega, sine_add_512 (by omega), sine_sub_512 hi]
  · obtain ⟨j, rfl⟩ := Nat.exists_eq_add_of_le hi
    rw [sine_add_512 (by omega), neg_neg, show 1024 - (512 + j) = 512 - j by omega, sine_sub_512 (by omega)]

/-- Entries of the first half, by the symmetry of the sine about a right angle. -/
theorem sine_close_half (h : i ≤ 512) : |(sine i : ℝ) - 32767 * Real.sin (2 * Real.pi * i / 1024)| < 1 / 2 := by
  rcases Nat.le_total i 256 with hi | hi
  · rw [sine_first hi, Int.cast_natCast]
    exact sineQuarter_close hi
  · have hangle : 2 * Real.pi * (512 - i : Nat) / 1024 = Real.pi - 2 * Real.pi * i / 1024 := by
      rw [Nat.cast_sub h]
      push_cast
      ring
    have hclose := sineQuarter_close (i := 512 - i) (by omega)
    rw [hangle, Real.sin_pi_sub] at hclose
    rwa [sine_second hi h, Int.cast_natCast]

/-- Every entry is 32767·sin(2πi/1024) to within a half. -/
theorem sine_close (h : i ≤ 1024) : |(sine i : ℝ) - 32767 * Real.sin (2 * Real.pi * i / 1024)| < 1 / 2 := by
  rcases Nat.le_total i 512 with hi | hi
  · exact sine_close_half hi
  · obtain ⟨j, rfl⟩ := Nat.exists_eq_add_of_le hi
    have hangle : 2 * Real.pi * (512 + j : Nat) / 1024 = 2 * Real.pi * j / 1024 + Real.pi := by
      push_cast
      ring
    have hclose := sine_close_half (i := j) (by omega)
    rw [sine_add_512 (by omega), hangle, Real.sin_add_pi, Int.cast_neg, mul_neg, neg_sub_neg, abs_sub_comm]
    exact hclose

end

theorem round_eq_of_close {z : Int} {x : ℝ} (h : |(z : ℝ) - x| < 1 / 2) : round x = z := by
  obtain ⟨hlow, hhigh⟩ := abs_lt.1 h
  exact round_eq_iff.2 ⟨by linarith, by linarith⟩

theorem abs_sine_le {i : Nat} (h : i ≤ 1024) : |sine i| ≤ 32767 := by
  have hclose := abs_lt.1 (sine_close h)
  have hsin := abs_le.1 (Real.abs_sin_le_one (2 * Real.pi * i / 1024))
  have hlow : (-32768 : ℝ) < sine i := by linarith
  have hhigh : (sine i : ℝ) < 32768 := by linarith
  rw [abs_le]
  exact ⟨Int.lt_iff_add_one_le.1 (by exact_mod_cast hlow), Int.lt_add_one_iff.1 (by exact_mod_cast hhigh)⟩

/-! ### The leg voltages (R45) -/

theorem angle_index_le (angle : BitVec 16) : angle.toNat / 64 ≤ 1024 := by
  omega

theorem legVoltage_bounds {va : Nat} (h : va ≤ 32767) (angle : BitVec 16) :
    -32767 ≤ legVoltage va angle ∧ legVoltage va angle ≤ 32766 := by
  have hproduct : |(va : Int) * sine (angle.toNat / 64)| ≤ 32767 * 32767 := by
    rw [abs_mul, Nat.abs_cast]
    exact mul_le_mul (by exact_mod_cast h) (abs_sine_le (angle_index_le angle)) (abs_nonneg _) (by decide)
  obtain ⟨hlow, hhigh⟩ := abs_le.1 hproduct
  unfold legVoltage
  omega

@[simp] theorem legVoltage_zero (angle : BitVec 16) : legVoltage 0 angle = 0 := by
  simp [legVoltage]

/-! ### Centering (R46) -/

/-- The middle of the largest and the smallest of three voltages, rounded down. -/
def middle (u : PerLeg Int) : Int := (max u.a (max u.b u.c) + min u.a (min u.b u.c)) / 2

theorem centred_eq (u : PerLeg Int) : centred u = u.map (· + -middle u) := rfl

@[simp] theorem centred_get (u : PerLeg Int) (l : Leg) : (centred u).get l = u.get l + -middle u := by
  rw [centred_eq, PerLeg.get_map]

theorem centred_max (u : PerLeg Int) : max (centred u).a (max (centred u).b (centred u).c) =
    max u.a (max u.b u.c) + -middle u := by
  rw [max_add, max_add]
  rfl

theorem centred_min (u : PerLeg Int) : min (centred u).a (min (centred u).b (centred u).c) =
    min u.a (min u.b u.c) + -middle u := by
  rw [min_add, min_add]
  rfl

/-- The largest centred voltage is the negative of the smallest, or 1 more. -/
theorem centred_balanced (u : PerLeg Int) :
    let v := centred u
    max v.a (max v.b v.c) = -min v.a (min v.b v.c) ∨ max v.a (max v.b v.c) = -min v.a (min v.b v.c) + 1 := by
  simp only [centred_max, centred_min, middle]
  omega

theorem centred_bounds {u : PerLeg Int} (h : ∀ l, -32767 ≤ u.get l ∧ u.get l ≤ 32766) :
    let v := centred u
    max v.a (max v.b v.c) ≤ 32767 ∧ -32768 ≤ min v.a (min v.b v.c) := by
  have htop : max u.a (max u.b u.c) ≤ 32766 := max_le (h .a).2 (max_le (h .b).2 (h .c).2)
  have hbottom : -32767 ≤ min u.a (min u.b u.c) := le_min (h .a).1 (le_min (h .b).1 (h .c).1)
  simp only [centred_max, centred_min, middle]
  omega

theorem centred_of_equal {u : PerLeg Int} (hab : u.a = u.b) (hbc : u.b = u.c) (l : Leg) : (centred u).get l = 0 := by
  have hmiddle : middle u = u.a := by
    rw [middle, ← hbc, ← hab, max_self, max_self, min_self, min_self]
    omega
  have hleg : u.get l = u.a := by
    cases l
    · rfl
    · exact hab.symm
    · exact (hab.trans hbc).symm
  rw [centred_get, hmiddle, hleg, add_neg_cancel]

/-- Settles O38: the table by its quarters against the sine, the voltages by the table's bound, the centering by its one offset. -/
theorem legVoltagesAndCentering : Obligations.LegVoltagesAndCentering := by
  refine ⟨fun i hi => (round_eq_of_close (sine_close hi.le)).symm, fun i _ hi => sine_sub_1024 (by omega),
    fun i hi => sine_sub_512 (by omega), by decide, fun va angle hva => ?_, fun va mid => rfl, fun u => ?_⟩
  · obtain ⟨hlow, hhigh⟩ := legVoltage_bounds hva angle
    refine ⟨(Int.fdiv_eq_ediv_of_nonneg _ (by decide)).symm, hlow, hhigh, ?_⟩
    rintro rfl
    exact legVoltage_zero angle
  · refine ⟨fun l => ?_, ⟨centred_balanced u, centred_bounds⟩, fun l m => ?_, centred_of_equal⟩
    · rw [Int.fdiv_eq_ediv_of_nonneg _ (by decide)]
      exact centred_get u l
    · rw [centred_get, centred_get, add_sub_add_right_eq_sub]

/-! ### The end of a computation and of a placement run (R38, R41, R49, R53) -/

/-- A channel that shows as before makes no status word be rewritten. -/
theorem State.apply_setChan {s : State} {f : Device → Device} {c : ChannelId} {x : Channel}
    (hf : f s.toDevice = s.setChan c x) (hx : x.ShowsAs (s.chan c)) :
    s.apply f = .next { s with toDevice := s.setChan c x } := by
  rw [State.apply_eq, hf, publish_of_statusWord_eq (statusWord_setChan hx)]

theorem Device.endComputation_of_some {d : Device} {c : ChannelId} {k : Computation}
    (h : (d.chan c).computation = some k) : d.endComputation c = d.setChan c { d.chan c with
      va := if k.zeroed then 0 else k.newVa
      computation := none
      placement := some (k.placement d.refCount (d.cfg c).d) } := by
  simp [Device.endComputation, h, Device.modChan_eq_setChan]

theorem Device.endPlacement_of_some {d : Device} {c : ChannelId} {run : PlacementRun}
    (h : (d.chan c).placement = some run) : d.endPlacement c = d.setChan c { d.chan c with
      placement := none
      staged := some (stagedSet (d.cfg c) (d.chan c).resumeHold run) } := by
  simp [Device.endPlacement, h, Device.modChan_eq_setChan]

/-- Settles O35. A computation's values and drives, and the set of a run, are by definition those of the statement (R49, R50);
what is to be shown is that no status word shows them. -/
theorem computationsEndInAStagedSet : Obligations.ComputationsEndInAStagedSet := by
  refine ⟨fun s c k hk => ?_, fun s c run hrun => ?_⟩
  · exact State.apply_setChan (Device.endComputation_of_some hk) ⟨rfl, rfl, rfl, rfl, rfl, rfl, rfl, rfl, rfl⟩
  · exact State.apply_setChan (Device.endPlacement_of_some hrun) ⟨rfl, rfl, rfl, rfl, rfl, rfl, rfl, rfl, rfl⟩

end Sys2Proof.Machine
end

section
/-! Window placement: the leg order, the windows and the shifts, and the drives of a placed set. -/

namespace Sys2Proof.Machine

open Sys2Proof

/-! ### Leg order (R54) -/

/-- The index of a leg, which ranks legs of equal effective width. -/
def legIndex : Leg → Nat
  | .a => 0
  | .b => 1
  | .c => 2

/-- Leg `l` ranks above leg `m`. -/
def RanksAbove (w : PerLeg Nat) (l m : Leg) : Prop :=
  w.get m < w.get l ∨ (w.get m = w.get l ∧ legIndex l < legIndex m)

theorem legOrder_ranksAbove (w : PerLeg Nat) :
    RanksAbove w (legOrder w).ranks.1 (legOrder w).ranks.2.1 ∧
      RanksAbove w (legOrder w).ranks.2.1 (legOrder w).ranks.2.2 := by
  unfold legOrder
  split_ifs <;> simp only [RanksAbove, LegOrder.ranks, PerLeg.get, legIndex] <;> omega

theorem LegOrder.max_ne_min (o : LegOrder) : o.ranks.1 ≠ o.ranks.2.2 := by cases o <;> decide

theorem LegOrder.mid_ne_max (o : LegOrder) : o.ranks.2.1 ≠ o.ranks.1 := by cases o <;> decide

theorem LegOrder.mid_ne_min (o : LegOrder) : o.ranks.2.1 ≠ o.ranks.2.2 := by cases o <;> decide

theorem LegOrder.leg_ranked (o : LegOrder) (l : Leg) : l = o.ranks.1 ∨ l = o.ranks.2.1 ∨ l = o.ranks.2.2 := by
  cases o <;> cases l <;> decide

/-- Settles O39: the legs by the branches of the order, the widths and the codes as they are defined. -/
theorem legsRankByWidth : Obligations.LegsRankByWidth :=
  ⟨fun _ _ => rfl, fun w => ⟨(legOrder_ranksAbove w).1, (legOrder_ranksAbove w).2, rfl⟩⟩

/-! ### The two windows (R56 to R60) -/

theorem foldl_merge_min (l : List (Option Nat)) (m : Nat) :
    l.foldl (Option.merge min) (some m) = some ((l.filterMap id).foldl min m) := by
  induction l generalizing m with
  | nil => rfl
  | cons x xs ih => cases x <;> exact ih _

theorem earliest_eq_foldl (l : List (Option Nat)) : earliest l = l.foldl (Option.merge min) none := by
  unfold earliest
  congr 1
  funext acc x
  cases acc <;> cases x <;> rfl

/-- The earliest position is the least of those that exist. -/
theorem earliest_eq_min? (l : List (Option Nat)) : earliest l = (l.filterMap id).min? := by
  rw [earliest_eq_foldl]
  induction l with
  | nil => rfl
  | cons x xs ih =>
    cases x with
    | none => exact ih
    | some n => exact foldl_merge_min xs n

theorem Ranked.allHigh_iff (r : Ranked) : r.allHigh = true ↔ r.max = .high ∧ r.mid = .high ∧ r.min = .high := by
  simp [Ranked.allHigh, and_assoc]

/-- The window that begins at `start` and ends at the earliest of `ends`, where not every leg is HIGH. -/
def Ranked.window (r : Ranked) (start : Option Nat) (ends : List (Option Nat)) : Window :=
  if r.allHigh then none else start.bind fun b => (earliest ends).map fun e => (b, e)

theorem firstWindow_eq_window (period : Nat) (r : Ranked) :
    firstWindow period r = r.window r.max.turnOn [r.mid.turnOn, r.max.turnOff period] := by
  unfold firstWindow Ranked.window
  cases r.max.turnOn <;> cases earliest [r.mid.turnOn, r.max.turnOff period] <;> rfl

theorem secondWindow_eq_window (period : Nat) (r : Ranked) : secondWindow period r =
    r.window r.mid.turnOn [r.min.turnOn, r.mid.turnOff period, r.max.turnOff period] := by
  unfold secondWindow Ranked.window
  cases r.mid.turnOn <;> cases earliest [r.min.turnOn, r.mid.turnOff period, r.max.turnOff period] <;> rfl

theorem Ranked.window_eq_none_iff (r : Ranked) (start : Option Nat) (ends : List (Option Nat)) :
    r.window start ends = none ↔
      (r.max = .high ∧ r.mid = .high ∧ r.min = .high) ∨ start = none ∨ ends.filterMap id = [] := by
  rw [← r.allHigh_iff, ← List.min?_eq_none_iff, ← earliest_eq_min?, Ranked.window]
  cases r.allHigh <;> cases start <;> simp

theorem Ranked.window_eq_some {r : Ranked} {start : Option Nat} {ends : List (Option Nat)} {b e : Nat}
    (h : r.window start ends = some (b, e)) :
    start = some b ∧ some e ∈ ends ∧ ∀ x ∈ ends.filterMap id, e ≤ x := by
  rw [Ranked.window] at h
  split_ifs at h
  obtain ⟨b', hb, e', he, heq⟩ : ∃ b', start = some b' ∧ ∃ e', earliest ends = some e' ∧ (b', e') = (b, e) := by
    simpa [Option.bind_eq_some_iff] using h
  cases heq
  rw [earliest_eq_min?, List.min?_eq_some_iff] at he
  exact ⟨hb, by simpa using he.1, he.2⟩

/-- When a window exists, and from where to where it then runs. -/
theorem Ranked.window_spec (r : Ranked) (start : Option Nat) (ends : List (Option Nat)) :
    (r.window start ends = none ↔
      (r.max = .high ∧ r.mid = .high ∧ r.min = .high) ∨ start = none ∨ ends.filterMap id = []) ∧
    ∀ b e, r.window start ends = some (b, e) →
      start = some b ∧ some e ∈ ends ∧ ∀ x ∈ ends.filterMap id, e ≤ x :=
  ⟨r.window_eq_none_iff start ends, fun _ _ => Ranked.window_eq_some⟩

/-! ### The shifts (R61, R62) -/

/-- The shift of a drive that widens its window, within the room a pulse has. -/
def widening (g : ChannelSetup) (room : Nat → Nat → Nat) : Window → Drive → Nat
  | some w, .pulse start stop => if windowWidth w < g.wwin then min (g.wwin - windowWidth w) (room start stop) else 0
  | _, _ => 0

theorem firstShift_eq_widening (g : ChannelSetup) (period : Nat) (r : Ranked) :
    firstShift g period r = widening g (fun start _ => start - g.d / 2) (firstWindow period r) r.max := by
  unfold firstShift
  cases firstWindow period r <;> cases r.max <;> rfl

theorem secondShift_eq_widening (g : ChannelSetup) (period : Nat) (r : Ranked) :
    secondShift g period r = widening g (fun _ stop => period - g.d / 2 - stop) (secondWindow period r) r.min := by
  unfold secondShift
  cases secondWindow period r <;> cases r.min <;> rfl

section
variable {g : ChannelSetup} {room : Nat → Nat → Nat} {w : Window} {x : Drive} {start stop : Nat}

theorem widening_of_short {b e : Nat} (hx : x = .pulse start stop) (hw : w = some (b, e)) (hshort : e - b < g.wwin) :
    widening g room w x = min (g.wwin - (e - b)) (room start stop) := by
  subst hx hw
  exact if_pos hshort

theorem widening_eq_zero (h : w = none ∨ (∃ b e, w = some (b, e) ∧ g.wwin ≤ e - b) ∨
    x = .high ∨ x = .low ∨ x = .float) : widening g room w x = 0 := by
  rcases h with rfl | ⟨b, e, rfl, hwide⟩ | rfl | rfl | rfl
  · rfl
  · cases x with
    | pulse start stop => exact if_neg (Nat.not_lt.2 hwide)
    | _ => rfl
  all_goals cases w <;> rfl

theorem widening_le_room : widening g room w (.pulse start stop) ≤ room start stop := by
  rcases w with _ | w
  · exact Nat.zero_le _
  · simp only [widening]
    split_ifs
    · exact min_le_right _ _
    · exact Nat.zero_le _

end

theorem shift_of_not_pulse {x : Drive} (s : Nat) (h : x = .high ∨ x = .low ∨ x = .float) :
    shiftLeft s x = x ∧ shiftRight s x = x := by
  rcases h with rfl | rfl | rfl <;> exact ⟨rfl, rfl⟩

/-- Settles O40. The drives and shifts of a placed set are by definition those of the statement. -/
theorem shiftsWidenShortWindows : Obligations.ShiftsWidenShortWindows := by
  refine ⟨fun g P r => ⟨?_, ⟨?_, ?_⟩, ⟨?_, ?_⟩, fun _ _ _ => ⟨rfl, rfl⟩, fun s _ => shift_of_not_pulse s⟩,
    fun g run => ⟨rfl, rfl, rfl⟩⟩
  · intro on off allHigh window
    have hon : on = Drive.turnOn := by
      funext x
      cases x <;> rfl
    have hoff : off = Drive.turnOff P := by
      funext x
      cases x <;> rfl
    rw [firstWindow_eq_window, secondWindow_eq_window, hon, hoff]
    exact ⟨r.window_spec _ _, r.window_spec _ _⟩
  · intro start stop b e hmax hw hshort
    rw [firstShift_eq_widening, widening_of_short hmax hw hshort]
    omega
  · rw [firstShift_eq_widening]
    exact widening_eq_zero
  · intro start stop b e hmin hw hshort hroom
    rw [secondShift_eq_widening, widening_of_short hmin hw hshort]
    omega
  · rw [secondShift_eq_widening]
    exact widening_eq_zero

/-! ### The drives of a placed set (R55, R61, R62) -/

section
variable (g : ChannelSetup) (run : PlacementRun)

/-- The drives before the shifts. -/
def PlacementRun.plain : PerLeg Drive := run.demands.map (LegDemand.layOut (4 * run.modulus))

theorem PlacementRun.plain_get (l : Leg) : run.plain.get l = (run.demands.get l).layOut (4 * run.modulus) :=
  PerLeg.get_map _ _ l

/-- The drives with the max leg moved to the left. -/
def maxMoved : PerLeg Drive :=
  run.plain.set (placedSet g run).order.ranks.1
    (shiftLeft (placedSet g run).s1 (run.plain.get (placedSet g run).order.ranks.1))

theorem maxMoved_get (l : Leg) : (maxMoved g run).get l =
    if l = (placedSet g run).order.ranks.1 then shiftLeft (placedSet g run).s1 (run.plain.get l)
    else run.plain.get l := by
  rw [maxMoved, PerLeg.get_set]
  split_ifs with h
  · rw [h]
  · rfl

theorem placedSet_s1 : (placedSet g run).s1 = firstShift g (4 * run.modulus)
    (rankedDrives (placedSet g run).order run.plain) := rfl

theorem placedSet_s2 : (placedSet g run).s2 =
    secondShift g (4 * run.modulus) (rankedDrives (placedSet g run).order (maxMoved g run)) :=
  rfl

theorem placedSet_drives : (placedSet g run).drives = (maxMoved g run).set (placedSet g run).order.ranks.2.2
    (shiftRight (placedSet g run).s2 ((maxMoved g run).get (placedSet g run).order.ranks.2.2)) :=
  rfl

theorem placedSet_max : (placedSet g run).drives.get (placedSet g run).order.ranks.1 =
    shiftLeft (placedSet g run).s1 (run.plain.get (placedSet g run).order.ranks.1) := by
  rw [placedSet_drives, PerLeg.get_set, if_neg (LegOrder.max_ne_min _), maxMoved_get, if_pos rfl]

theorem placedSet_mid : (placedSet g run).drives.get (placedSet g run).order.ranks.2.1 =
    run.plain.get (placedSet g run).order.ranks.2.1 := by
  rw [placedSet_drives, PerLeg.get_set, if_neg (LegOrder.mid_ne_min _), maxMoved_get, if_neg (LegOrder.mid_ne_max _)]

theorem placedSet_min : (placedSet g run).drives.get (placedSet g run).order.ranks.2.2 =
    shiftRight (placedSet g run).s2 (run.plain.get (placedSet g run).order.ranks.2.2) := by
  rw [placedSet_drives, PerLeg.get_set_same, maxMoved_get, if_neg (LegOrder.max_ne_min _).symm]

variable {g run} {start stop : Nat}

/-- The first shift keeps the max pulse after the beginning of the usable span. -/
theorem placedSet_s1_le (h : run.plain.get (placedSet g run).order.ranks.1 = .pulse start stop) :
    (placedSet g run).s1 ≤ start - g.d / 2 := by
  rw [placedSet_s1, firstShift_eq_widening, rankedDrives, h]
  exact widening_le_room

/-- The second shift keeps the min pulse before the end of the usable span. -/
theorem placedSet_s2_le (h : run.plain.get (placedSet g run).order.ranks.2.2 = .pulse start stop) :
    (placedSet g run).s2 ≤ 4 * run.modulus - g.d / 2 - stop := by
  have hmin : (maxMoved g run).get (placedSet g run).order.ranks.2.2 = .pulse start stop := by
    rw [maxMoved_get, if_neg (LegOrder.max_ne_min _).symm, h]
  rw [placedSet_s2, secondShift_eq_widening, rankedDrives, hmin]
  exact widening_le_room

/-- A leg that is no pulse keeps its drive. -/
theorem placedSet_not_pulse {l : Leg} {x : Drive} (hplain : run.plain.get l = x)
    (hx : x = .high ∨ x = .low ∨ x = .float) : (placedSet g run).drives.get l = x := by
  rcases (placedSet g run).order.leg_ranked l with rfl | rfl | rfl
  · rw [placedSet_max, hplain, (shift_of_not_pulse _ hx).1]
  · rw [placedSet_mid, hplain]
  · rw [placedSet_min, hplain, (shift_of_not_pulse _ hx).2]

end

/-- Settles O41: each rank's pulse by its shift and that shift's bound. -/
theorem placedPulsesStayInTheSpan : Obligations.PlacedPulsesStayInTheSpan := by
  intro g run P set heven hrange max mid min
  refine ⟨fun l w hl => ?_, fun l => ⟨fun h => ?_, fun h => ?_, fun h => ?_⟩, rfl, rfl⟩
  · obtain ⟨hlow, hhigh⟩ := hrange l w hl
    have hplain : run.plain.get l = .pulse ((P - w) / 2) ((P - w) / 2 + w) := by
      rw [PlacementRun.plain_get, hl]
      rfl
    have hmaxmin : max ≠ min := set.order.max_ne_min
    have hmidmax : mid ≠ max := set.order.mid_ne_max
    have hmidmin : mid ≠ min := set.order.mid_ne_min
    rcases set.order.leg_ranked l with rfl | rfl | rfl
    · have hs1 : set.s1 ≤ (P - w) / 2 - g.d / 2 := placedSet_s1_le hplain
      refine ⟨(P - w) / 2 - set.s1, ?_, by omega, by omega, fun _ => by omega, fun h => absurd h.symm hmidmax,
        fun h => absurd h hmaxmin⟩
      rw [placedSet_max, hplain, shiftLeft, ← Nat.sub_add_comm (by omega)]
    · refine ⟨(P - w) / 2, ?_, by omega, by omega, fun h => absurd h hmidmax, fun _ => rfl, fun h => absurd h hmidmin⟩
      rw [placedSet_mid, hplain]
    · have hs2 : set.s2 ≤ P - g.d / 2 - ((P - w) / 2 + w) := placedSet_s2_le hplain
      refine ⟨(P - w) / 2 + set.s2, ?_, by omega, by omega, fun h => absurd h.symm hmaxmin,
        fun h => absurd h.symm hmidmin, fun _ => rfl⟩
      rw [placedSet_min, hplain, shiftRight, Nat.add_right_comm]
  · exact placedSet_not_pulse (by rw [PlacementRun.plain_get, h]; rfl) (.inl rfl)
  · exact placedSet_not_pulse (by rw [PlacementRun.plain_get, h]; rfl) (.inr (.inl rfl))
  · exact placedSet_not_pulse (by rw [PlacementRun.plain_get, h]; rfl) (.inr (.inr rfl))

end Sys2Proof.Machine
end

section
/-! Leg outputs (Chapter 5): the three commands to a leg, the legs at a load event and at the edges of a pulse, the pending
turn-ons, the gate outputs, and the changes of a fault line. -/

namespace Sys2Proof.Machine

open Sys2Proof

/-! ### Commands to a leg (R76) -/

theorem LegState.awaits_iff {l : LegState} {side : Side} :
    l.awaits side = true ↔ ∃ i, l.pending = some { side := side, instant := i } := by
  cases hp : l.pending with
  | none => simp [LegState.awaits, hp]
  | some p =>
    obtain ⟨named, instant⟩ := p
    simp [LegState.awaits, hp]

theorem LegState.high_or_awaits_iff {l : LegState} :
    (l.high || l.awaits .high) = true ↔ l.high = true ∨ ∃ i, l.pending = some { side := .high, instant := i } := by
  rw [Bool.or_eq_true, LegState.awaits_iff]

theorem LegState.low_or_awaits_iff {l : LegState} :
    (l.low || l.awaits .low) = true ↔ l.low = true ∨ ∃ i, l.pending = some { side := .low, instant := i } := by
  rw [Bool.or_eq_true, LegState.awaits_iff]

/-- Settles O44: each command by the condition that it tests; R76's table keeps a leg safe. -/
theorem legCommandsFollowTheTable : Obligations.LegCommandsFollowTheTable := by
  intro l t hsafe high low
  exact ⟨fun h => if_pos (LegState.high_or_awaits_iff.2 h), fun h => if_neg (mt LegState.high_or_awaits_iff.1 h),
    fun h => if_pos (LegState.low_or_awaits_iff.2 h), fun h => if_neg (mt LegState.low_or_awaits_iff.1 h), rfl,
    fun cmd => LegState.safe_command hsafe cmd t⟩

/-! ### The legs at a load event (R78, R79, R81) -/

/-- The legs of a channel, each given a command of its own at one instant. -/
def PerLeg.commanded (legs : PerLeg LegState) (cmd : Leg → LegCommand) (t : RefCount) : PerLeg LegState :=
  { a := legs.a.command (cmd .a) t, b := legs.b.command (cmd .b) t, c := legs.c.command (cmd .c) t }

@[simp] theorem PerLeg.get_commanded (legs : PerLeg LegState) (cmd : Leg → LegCommand) (t : RefCount) (leg : Leg) :
    (legs.commanded cmd t).get leg = (legs.get leg).command (cmd leg) t := by
  cases leg <;> rfl

/-- The command to a leg of a RUNNING channel at the load event of a set. -/
def Channel.loadCommand (ch : Channel) (e : EdgeSet) (leg : Leg) : LegCommand :=
  if ch.brakeHold then .toLow else (e.drives.get leg).command

theorem Device.loadLegs_of_not_running {d : Device} {c : ChannelId} (h : (d.chan c).state ≠ .running) :
    d.loadLegs c = d := if_neg h

/-- The legs that follow a set are given the commands of its drives. -/
theorem Device.loadLegs_of_drives {d : Device} {c : ChannelId} {e : EdgeSet} (hr : (d.chan c).state = .running)
    (hb : (d.chan c).brakeHold = false) (he : (d.chan c).inForce = some e) :
    d.loadLegs c = d.setChan c { d.chan c with
      legs := (d.chan c).legs.commanded (fun leg => (e.drives.get leg).command) (d.turnOnInstant c) } := by
  rw [Device.loadLegs, if_pos hr, if_neg (by simp [hb]), he]
  simp [Device.commandLeg, Device.modChan_eq_setChan, PerLeg.commanded, PerLeg.set, PerLeg.get]

/-- The load event of a RUNNING channel changes the legs alone, with or without the BRAKE hold. -/
theorem Device.loadLegs_of_running {d : Device} {c : ChannelId} {e : EdgeSet} (hr : (d.chan c).state = .running)
    (he : (d.chan c).inForce = some e) : d.loadLegs c = d.setChan c { d.chan c with
      legs := (d.chan c).legs.commanded ((d.chan c).loadCommand e) (d.turnOnInstant c) } := by
  cases hb : (d.chan c).brakeHold with
  | true =>
    have hlow : (d.chan c).loadCommand e = fun _ => .toLow := funext fun _ => if_pos hb
    rw [Device.loadLegs_of_hold hr hb, hlow]
    rfl
  | false =>
    have hdrives : (d.chan c).loadCommand e = fun leg => (e.drives.get leg).command :=
      funext fun _ => if_neg (by simp [hb])
    rw [Device.loadLegs_of_drives hr hb he, hdrives]

/-- Settles O28. -/
theorem theLoadEventCommandsTheLegs : Obligations.TheLoadEventCommandsTheLegs := by
  intro d c e he ch at_ command
  have hcommand (x : Drive) : x.command = command x := by cases x <;> rfl
  refine ⟨Device.loadLegs_of_not_running, fun hr leg => ?_, ?_⟩
  · rw [Device.loadLegs_of_running hr he, Device.chan_setChan_same, PerLeg.get_commanded, Channel.loadCommand, hcommand]
    rfl
  · by_cases hr : ch.state = .running
    · rw [Device.loadLegs_of_running hr he, Device.chan_setChan_same]
    · rw [Device.loadLegs_of_not_running hr]
      exact (Device.setChan_chan d c).symm

/-! ### Pulse edges and pending turn-ons (R77, R78, R81) -/

/-- No status word shows a leg. -/
theorem Channel.showsAs_legs (ch : Channel) (legs : PerLeg LegState) : ({ ch with legs := legs } : Channel).ShowsAs ch :=
  ⟨rfl, rfl, rfl, rfl, rfl, rfl, rfl, rfl, rfl⟩

/-- A change of a channel's legs at an instant makes no status word be rewritten. -/
theorem State.apply_legs {s : State} {f : Device → Device} {c : ChannelId} {t : RefCount} {legs : PerLeg LegState}
    (hf : f s.toDevice = (s.advanceTo t).setChan c { s.chan c with legs := legs }) :
    s.apply f = .next { s with toDevice := (s.advanceTo t).setChan c { s.chan c with legs := legs } } := by
  have hshows : ({ s.chan c with legs := legs } : Channel).ShowsAs ((s.advanceTo t).chan c) := by
    rw [Device.chan_advanceTo]
    exact Channel.showsAs_legs ..
  rw [State.apply_eq, hf, publish_of_statusWord_eq ((statusWord_setChan hshows).trans (statusWord_advanceTo ..))]

/-- A change that changes nothing rewrites no status word. -/
theorem State.apply_of_same {s : State} {f : Device → Device} (hf : f s.toDevice = s.toDevice) : s.apply f = .next s := by
  rw [State.apply_eq, hf, publish_of_statusWord_eq rfl]

theorem Channel.followsSet_iff {ch : Channel} : ch.followsSet = true ↔ ch.state = .running ∧ ch.brakeHold = false := by
  simp [Channel.followsSet]

/-- A leg command given at an instant, by the channel as it was before time came to it. -/
theorem Device.commandLeg_advanceTo (d : Device) (t : RefCount) (c : ChannelId) (leg : Leg) (cmd : LegCommand) :
    (d.advanceTo t).commandLeg c leg cmd = (d.advanceTo t).setChan c { d.chan c with
      legs := (d.chan c).legs.set leg (((d.chan c).legs.get leg).command cmd
        ((d.advanceTo t).refCount + BitVec.ofNat 32 (d.cfg c).d)) } := by
  rw [Device.commandLeg, Device.modChan_eq_setChan, Device.chan_advanceTo, Device.turnOnInstant,
    Device.cfg_congr (Device.advanceTo_setup t d)]

section
variable {d : Device} {c : ChannelId} {leg : Leg} {e : EdgeSet} {start stop : Nat}
  (he : (d.chan c).inForce = some e) (hp : e.drives.get leg = .pulse start stop)
include he hp

theorem Channel.drive_of_pulse : (d.chan c).drive leg = some (.pulse start stop) := by
  rw [Channel.drive, he, Option.map_some, hp]

theorem Device.pulseEdge_start (hf : (d.chan c).followsSet = true) :
    d.pulseEdge c leg .start = (d.advanceTo (d.instantOf c start)).commandLeg c leg .toHigh := by
  simp only [Device.pulseEdge, Channel.drive_of_pulse he hp, if_pos hf]

theorem Device.pulseEdge_stop (hf : (d.chan c).followsSet = true) :
    d.pulseEdge c leg .stop = (d.advanceTo (d.instantOf c stop)).commandLeg c leg .toLow := by
  simp only [Device.pulseEdge, Channel.drive_of_pulse he hp, if_pos hf]

theorem Device.pulseEdge_not_following (hf : ¬(d.chan c).followsSet = true) (edge : PulseEdge) :
    d.pulseEdge c leg edge = d := by
  simp only [Device.pulseEdge, Channel.drive_of_pulse he hp, if_neg hf]
end

theorem LegState.turnOn_eq (side : Side) (l : LegState) :
    l.turnOn side = { high := l.high || side == .high, low := l.low || side == .low, pending := none } := by
  cases side <;> simp [LegState.turnOn]

theorem Device.takeTurnOn_of_pending {d : Device} {c : ChannelId} {leg : Leg} {p : PendingTurnOn}
    (hp : ((d.chan c).legs.get leg).pending = some p) : d.takeTurnOn c leg =
      (d.advanceTo p.instant).setChan c { d.chan c with
        legs := (d.chan c).legs.set leg (((d.chan c).legs.get leg).turnOn p.side) } := by
  simp [Device.takeTurnOn, hp, Device.modChan_eq_setChan]

theorem exec_legEdge (s : State) (c : ChannelId) (leg : Leg) (edge : PulseEdge) :
    exec (.legEdge c leg edge) s = s.apply (Device.pulseEdge c leg edge) := rfl

theorem exec_pendingTurnOn (s : State) (c : ChannelId) (leg : Leg) :
    exec (.pendingTurnOn c leg) s = s.apply (Device.takeTurnOn c leg) := rfl

/-- Settles O45: what each event does to the legs, which no status word shows. -/
theorem pulseEdgesAndPendingTurnOns : Obligations.PulseEdgesAndPendingTurnOns := by
  refine ⟨fun s c leg e start stop he hp => ?_, fun s c leg p hp => ?_⟩
  · refine ⟨fun hr hb => ?_, fun hno edge => ?_⟩
    · have hf : (s.chan c).followsSet = true := Channel.followsSet_iff.2 ⟨hr, hb⟩
      have hstart := (Device.pulseEdge_start he hp hf).trans (Device.commandLeg_advanceTo ..)
      have hstop := (Device.pulseEdge_stop he hp hf).trans (Device.commandLeg_advanceTo ..)
      exact ⟨State.apply_legs hstart, State.apply_legs hstop⟩
    · have hf : ¬(s.chan c).followsSet = true := fun h => by
        obtain ⟨hr, hb⟩ := Channel.followsSet_iff.1 h
        rcases hno with hno | hhold
        · exact hno hr
        · exact absurd (hhold.symm.trans hb) (by decide)
      rw [exec_legEdge, State.apply_of_same (Device.pulseEdge_not_following he hp hf edge)]
  · rw [exec_pendingTurnOn, State.apply_legs (Device.takeTurnOn_of_pending hp), LegState.turnOn_eq]

/-! ### The gate outputs (R74, R75, R81) -/

theorem Device.gatePin_of_not_driven {d : Device} (h : d.outputsDriven = false) (c : ChannelId) (leg : Leg) (side : Side) :
    d.gatePin c leg side = none := if_neg (by simp [h])

/-- A gate that is on shows the level of its polarity, and one that is off the other level. -/
theorem Device.gatePin_of_driven {d : Device} (h : d.outputsDriven = true) (c : ChannelId) (leg : Leg) :
    let l := (d.chan c).legs.get leg
    d.gatePin c leg .high = some (if (d.cfg c).highActiveLow then !l.high else l.high) ∧
      d.gatePin c leg .low = some (if (d.cfg c).lowActiveLow then !l.low else l.low) := by
  have hlevel (on activeLow : Bool) : (on != activeLow) = if activeLow then !on else on := by
    cases activeLow <;> simp
  simp only [Device.gatePin, if_pos h, hlevel, and_self]

theorem Device.Sound.outputsDriven_of_unlocked {d : Device} (h : d.Sound) (hs : d.setup = none) :
    d.outputsDriven = false := by
  rw [h.outputs, Device.locked, hs]
  rfl

theorem Device.Sound.outputsDriven_of_locked {d : Device} (h : d.Sound) (hs : d.setup ≠ none) :
    d.outputsDriven = true := by
  rw [h.outputs, Device.locked]
  exact Option.isSome_iff_ne_none.2 hs

/-- Settles O7, from the clauses of the invariant about the outputs and the legs. -/
theorem gateOutputsFollowTheLegs : Obligations.GateOutputsFollowTheLegs := by
  intro s c leg hinv l
  obtain ⟨hsound, -⟩ := hinv
  obtain ⟨⟨hshort, -⟩, hidle, -⟩ := (hsound.channels c).legs leg
  refine ⟨fun hs => Device.gatePin_of_not_driven (hsound.outputsDriven_of_unlocked hs) c leg,
    fun hs => Device.gatePin_of_driven (hsound.outputsDriven_of_locked hs) c leg, hshort, fun hstate => ?_⟩
  have hl : l = LegState.idle := hidle hstate
  rw [hl]
  exact ⟨rfl, rfl⟩

/-! ### Fault line changes (R86) -/

theorem FaultFilter.change_same {f : FaultFilter} {level : Bool} (h : level = f.level) (now : RefCount) :
    f.change level now = f := if_pos h

theorem FaultFilter.change_begins {f : FaultFilter} {level : Bool} (hl : level ≠ f.level) (hf : f.filtered = level)
    (now : RefCount) : f.change level now = { f with level := level, since := some now } := by
  rw [FaultFilter.change, if_neg hl, if_pos hf]

theorem FaultFilter.change_ends {f : FaultFilter} {level : Bool} (hl : level ≠ f.level) (hf : f.filtered ≠ level)
    (now : RefCount) : f.change level now = { f with level := level, since := none } := by
  rw [FaultFilter.change, if_neg hl, if_neg hf]

theorem Device.setFault_eq (d : Device) (line : FaultLine) (x : FaultFilter) :
    d.setFault line x = { d with
      flt0 := if line = .flt0 then x else d.flt0
      flt1 := if line = .flt1 then x else d.flt1 } := by
  cases line <;> rfl

/-- No status word shows a fault line's filter. -/
theorem statusWord_setFault (d : Device) (line : FaultLine) (x : FaultFilter) :
    statusWord (d.setFault line x) = statusWord d := by
  rw [Device.setFault_eq]
  exact statusWord_congr rfl rfl rfl rfl rfl rfl rfl rfl rfl rfl rfl

/-- What a change of a fault line leaves, by the filter it leaves. -/
theorem exec_faultLineChange_of {s : State} {line : FaultLine} {level : Bool} {x : FaultFilter}
    (h : s.toDevice.changeFault line level = s.toDevice.setFault line x) :
    exec (.faultLineChange line level) s = .next { s with
      flt0 := if line = .flt0 then x else s.flt0
      flt1 := if line = .flt1 then x else s.flt1 } := by
  show s.apply (Device.changeFault line level) = _
  rw [State.apply_eq, h, publish_of_statusWord_eq (statusWord_setFault ..), Device.setFault_eq]

theorem Device.changeFault_inReset {d : Device} (h : d.inReset = true) (line : FaultLine) (level : Bool) :
    d.changeFault line level = d.setFault line { d.fault line with level := level } := if_pos h

theorem Device.changeFault_of_change {d : Device} {line : FaultLine} {level : Bool} {x : FaultFilter}
    (h : d.inReset = false) (hx : (d.fault line).change level d.refCount = x) :
    d.changeFault line level = d.setFault line x := by
  rw [Device.changeFault, if_neg (by simp [h]), hx]

/-- Settles O51: the filter that each case leaves. -/
theorem aFaultLineChangeBeginsItsMeasure : Obligations.AFaultLineChangeBeginsItsMeasure := by
  intro s line level f leaves
  refine ⟨fun h => ?_, fun h hsame => ?_, fun h hl hf => ?_, fun h hl hf => ?_⟩
  · exact exec_faultLineChange_of (Device.changeFault_inReset h line level)
  · exact exec_faultLineChange_of (Device.changeFault_of_change h (FaultFilter.change_same hsame _))
  · exact exec_faultLineChange_of (Device.changeFault_of_change h (FaultFilter.change_begins hl hf _))
  · exact exec_faultLineChange_of (Device.changeFault_of_change h (FaultFilter.change_ends hl hf _))

end Sys2Proof.Machine
end

