-- ==== Sys2Proof/Proofs/Conversions.lean ====
section
/-! The ends of an entry: an entry past its deadline is missed, and a conversion's result is conditioned by its kind. -/

namespace Sys2Proof.Machine

open Sys2Proof

/-! ### Misses (R96, R100) -/

theorem Device.entryOf_spec {d : Device} {c : ChannelId} {k : RequestKind} {x : Entry} (h : d.entryOf c k = some x) :
    x.channel = c ∧ x.kind = k := by
  simpa [Entry.isOf] using List.find?_some h

/-- A window's outcome is MISSED where the missed entry is the window's and the outcome was OK. -/
theorem EdgeSet.miss_eq (k : RequestKind) (e : EdgeSet) : e.miss k = { e with
    first := if k = .first ∧ e.first = .ok then .missed else e.first
    second := if k = .second ∧ e.second = .ok then .missed else e.second } := by
  cases k with
  | first => by_cases h : e.first = .ok <;> simp [EdgeSet.miss, h]
  | second => by_cases h : e.second = .ok <;> simp [EdgeSet.miss, h]
  | zero => simp [EdgeSet.miss]
  | link => simp [EdgeSet.miss]

theorem Device.missEntry_eq (x : Entry) (d : Device) :
    let ch := d.chan x.channel
    d.missEntry x = { d.setChan x.channel { ch with
        inForce := ch.inForce.map (EdgeSet.miss x.kind)
        counters := { ch.counters with missedConversions := ch.counters.missedConversions + 1 }
        buffer := { ch.buffer with reports := ch.buffer.reports.set x.kind (some .missed) } } with
      requests := d.requests.erase x } := by
  simp only [Device.missEntry, Device.setReport, Device.modChan_eq_setChan, Device.setChan_setChan,
    Device.chan_setChan_same]
  rfl

theorem Device.entryPassesDeadline_of_entry {d : Device} {c : ChannelId} {k : RequestKind} {x : Entry}
    (h : d.entryOf c k = some x) :
    d.entryPassesDeadline c k = ((d.advanceTo (x.deadline + 1)).missEntry x).arbitrate := by
  simp only [Device.entryPassesDeadline, h]

theorem exec_entryMissed (s : State) (c : ChannelId) (k : RequestKind) :
    exec (.entryMissed c k) s = s.apply (Device.entryPassesDeadline c k) := rfl

/-- Settles O47: the miss written out, and the hand-out after it. -/
theorem missedEntriesAreReported : Obligations.MissedEntriesAreReported := by
  intro s c k x hx at_ ch missed gone
  obtain ⟨rfl, rfl⟩ := Device.entryOf_spec (d := s.toDevice) hx
  have hmiss : at_.missEntry x = { gone with requests := s.requests.erase x } := by
    simp only [Device.missEntry_eq, at_, Device.chan_advanceTo, Device.advanceTo_requests, funext (EdgeSet.miss_eq x.kind)]
    rfl
  refine ⟨_, Device.handsOut_arbitrate _, ?_⟩
  rw [exec_entryMissed, State.apply_eq, Device.entryPassesDeadline_of_entry hx, hmiss]

/-! ### What a hand-out leaves to the conditioner -/

theorem Device.HandsOut.hands {d e : Device} (h : d.HandsOut e) : d.Hands e := { h with }

theorem Device.Hands.setup {d e : Device} (h : d.Hands e) : e.setup = d.setup := by rw [h.rest]

theorem Device.Hands.freeIndex {d e : Device} (h : d.Hands e) : e.freeIndex = d.freeIndex := by rw [h.rest]

theorem Device.Hands.z8 {d e : Device} (h : d.Hands e) (c : ChannelId) : (e.chan c).z8 = (d.chan c).z8 := by
  rw [h.channels]

@[simp] theorem Device.setConverter_setup (cv : Converter) (x : Option Conversion) (d : Device) :
    (d.setConverter cv x).setup = d.setup := by cases cv <;> rfl

@[simp] theorem Device.chan_setConverter (cv : Converter) (x : Option Conversion) (d : Device) (c : ChannelId) :
    (d.setConverter cv x).chan c = d.chan c := by cases cv <;> rfl

/-! ### A result by its kind (R100, R103 to R109)

Each of the four is written out on the part that the completion leaves: the report and the sample in the open-period buffer,
then the judgement. -/

/-- The corrected code of a conversion's raw code (R104). -/
def Device.resultCode (d : Device) (k : Conversion) (raw : Nat) : Nat :=
  correctedCode (gainTrim d.words (inputOf k.entry.channel k.entry.kind)) raw

/-- The open-period buffer of a conversion's channel once the result is reported with its codes (R100). -/
def Device.reported (d : Device) (cv : Converter) (k : Conversion) (raw code : Nat) : PeriodBuffer :=
  let buffer := (d.chan k.entry.channel).buffer
  let report := Report.started cv k.start (k.start - k.entry.due).toNat (some (raw, code))
  { buffer with reports := buffer.reports.set k.entry.kind (some report) }

/-- LOV judged by a link code, with the status words (R127). -/
def Device.lovJudged (g : GlobalSetup) (code : Nat) (d : Device) : Device :=
  publish d (d.judge .lov (decide (g.lovLimit < code)) (decide ((code : Int) ≤ (g.lovLimit : Int) - g.lovH)) g.lovF code)

/-- LUN judged by a link code, with the status words (R128). -/
def Device.lunJudged (g : GlobalSetup) (code : Nat) (d : Device) : Device :=
  publish d (d.judge .lun (decide (code < g.lunLimit)) (decide (g.lunLimit + g.lunH ≤ code)) g.lunF code)

@[simp] theorem Device.judge_setup (id : ConditionId) (outside back : Bool) (f : Nat) (value : Int) (d : Device) :
    (d.judge id outside back f value).setup = d.setup := by
  rcases d.judge_cases id outside back f value with ⟨x, h⟩ | h | h
  · rw [h, Device.setCondition_setup]
  · rw [h, Device.assertCondition_rest]
  · rw [h, Device.releaseCondition_rest]

@[simp] theorem Device.lovJudged_setup (g : GlobalSetup) (code : Nat) (d : Device) :
    (d.lovJudged g code).setup = d.setup := Device.judge_setup ..

@[simp] theorem Device.lunJudged_setup (g : GlobalSetup) (code : Nat) (d : Device) :
    (d.lunJudged g code).setup = d.setup := Device.judge_setup ..

theorem Device.showing_evaluateLov (d : Device) (code : Nat) :
    Device.showing (Device.evaluateLov code) d = d.lovJudged (globalSetup d.words) code := by
  have hback (g : GlobalSetup) :
      decide (code + g.lovH ≤ g.lovLimit) = decide ((code : Int) ≤ (g.lovLimit : Int) - g.lovH) :=
    decide_eq_decide.2 (by omega)
  simp only [Device.showing, Device.evaluateLov, Device.lovJudged, Device.evaluateFiltered_eq_judge, hback]

theorem Device.showing_evaluateLun (d : Device) (code : Nat) :
    Device.showing (Device.evaluateLun code) d = d.lunJudged (globalSetup d.words) code := by
  simp only [Device.showing, Device.evaluateLun, Device.lunJudged, Device.evaluateFiltered_eq_judge]

/-- The second judgement is by the same settings, as the first leaves the setup copy. -/
theorem Device.showing_lov_lun (d : Device) (code : Nat) :
    let g := globalSetup d.words
    Device.showing (Device.evaluateLun code) (Device.showing (Device.evaluateLov code) d) =
      (d.lovJudged g code).lunJudged g code := by
  intro g
  rw [Device.showing_evaluateLov, Device.showing_evaluateLun, Device.words_congr (Device.lovJudged_setup ..)]

theorem Device.showing_lun_lov (d : Device) (code : Nat) :
    let g := globalSetup d.words
    Device.showing (Device.evaluateLov code) (Device.showing (Device.evaluateLun code) d) =
      (d.lunJudged g code).lovJudged g code := by
  intro g
  rw [Device.showing_evaluateLun, Device.showing_evaluateLov, Device.words_congr (Device.lunJudged_setup ..)]

theorem Device.takeLink_eq (c : ChannelId) (code : Nat) (d : Device) :
    let g := globalSetup d.words
    let buffered := d.setChan c { d.chan c with buffer := { (d.chan c).buffer with link := some code } }
    d.takeLink c code = if Config.lovFirst d.freeIndex then (buffered.lovJudged g code).lunJudged g code
      else (buffered.lunJudged g code).lovJudged g code := by
  simp only [Device.takeLink, Device.showing_lov_lun, Device.showing_lun_lov]
  rfl

section
variable {d : Device} {k : Conversion} {raw code : Nat} (cv : Converter) (hcode : d.resultCode k raw = code)
include hcode

theorem Device.deliver_first (h : k.entry.kind = .first) : d.deliver cv k raw =
    d.setChan k.entry.channel { d.chan k.entry.channel with buffer := { d.reported cv k raw code with
      first := some ((d.chan k.entry.channel).sample code) } } := by
  subst hcode
  simp only [Device.deliver, h, Device.takeFirst, Device.setReport, Device.modChan_eq_setChan, Device.setChan_setChan,
    Device.chan_setChan_same, Device.reported, Device.resultCode]
  rfl

theorem Device.deliver_second (h : k.entry.kind = .second) : d.deliver cv k raw =
    d.setChan k.entry.channel { d.chan k.entry.channel with buffer := { d.reported cv k raw code with
      second := some ((d.chan k.entry.channel).sample code) } } := by
  subst hcode
  simp only [Device.deliver, h, Device.takeSecond, Device.setReport, Device.modChan_eq_setChan, Device.setChan_setChan,
    Device.chan_setChan_same, Device.reported, Device.resultCode]
  rfl

theorem Device.deliver_zero (h : k.entry.kind = .zero) :
    let c := k.entry.channel
    let ok := decide ((d.cfg c).zlo ≤ code) && decide (code ≤ (d.cfg c).zhi)
    d.deliver cv k raw = (d.setChan c { d.chan c with
      z8 := if ok then trackedZero (d.chan c).z8 code else (d.chan c).z8
      buffer := { d.reported cv k raw code with zero := some { accepted := ok, code := code } } }).judge
        (.zer c) (!ok) ok (d.cfg c).zerF code := by
  subst hcode
  simp only [Device.deliver, h, Device.takeZero, Device.evaluateZer, Device.evaluateFiltered_eq_judge, Device.setReport,
    Device.modChan_eq_setChan, Device.setChan_setChan, Device.chan_setChan_same, Device.cfg_setChan, Device.reported,
    Device.resultCode]

theorem Device.deliver_link (h : k.entry.kind = .link) :
    let c := k.entry.channel
    let g := globalSetup d.words
    let buffered := d.setChan c { d.chan c with buffer := { d.reported cv k raw code with link := some code } }
    d.deliver cv k raw = if Config.lovFirst d.freeIndex then (buffered.lovJudged g code).lunJudged g code
      else (buffered.lunJudged g code).lovJudged g code := by
  subst hcode
  simp only [Device.deliver, h, Device.takeLink_eq, Device.setReport, Device.modChan_eq_setChan, Device.setChan_setChan,
    Device.chan_setChan_same, Device.reported, Device.resultCode, Device.setChan_freeIndex,
    Device.words_congr (Device.setChan_setup ..)]
end

/-! ### The completion and its hand-out (R89, R97) -/

/-- The part at the completion of a conversion, its converter free. -/
def Device.freedBy (d : Device) (cv : Converter) (k : Conversion) : Device :=
  (d.advanceTo k.completes).setConverter cv none

@[simp] theorem Device.chan_freedBy (d : Device) (cv : Converter) (k : Conversion) (c : ChannelId) :
    (d.freedBy cv k).chan c = d.chan c := by simp [Device.freedBy]

@[simp] theorem Device.freedBy_setup (d : Device) (cv : Converter) (k : Conversion) :
    (d.freedBy cv k).setup = d.setup := by simp [Device.freedBy]

section
variable {d x : Device} {cv : Converter} {k : Conversion} (h : (d.freedBy cv k).Hands x)
include h

theorem Device.Hands.words_of_freedBy : x.words = d.words :=
  Device.words_congr (h.setup.trans (d.freedBy_setup cv k))

theorem Device.Hands.resultCode_of_freedBy (raw : Nat) : x.resultCode k raw = d.resultCode k raw := by
  rw [Device.resultCode, Device.resultCode, h.words_of_freedBy]

theorem Device.Hands.cfg_of_freedBy (c : ChannelId) : x.cfg c = d.cfg c := by
  rw [Device.cfg, Device.cfg, h.words_of_freedBy]

theorem Device.Hands.z8_of_freedBy (c : ChannelId) : (x.chan c).z8 = (d.chan c).z8 := by
  rw [h.z8, Device.chan_freedBy]
end

theorem Device.completeConversion_of_discard {d : Device} {cv : Converter} {k : Conversion} (hk : d.converter cv = some k)
    (hd : k.discard = true) (raw : BitVec 12) : d.completeConversion cv raw = (d.freedBy cv k).arbitrate := by
  simp only [Device.completeConversion, hk, hd, if_true, Device.freedBy]

/-- A result that is not discarded: the hand-out comes after the result is delivered, and where the result takes entries out
of the list, in a free order also before. -/
theorem Device.completeConversion_of_deliver {d : Device} {cv : Converter} {k : Conversion} (hk : d.converter cv = some k)
    (hd : k.discard = false) (raw : BitVec 12) :
    let freed := d.freedBy cv k
    let delivered := freed.deliver cv k raw.toNat
    d.completeConversion cv raw = delivered.arbitrate ∨ (delivered.requests ≠ freed.requests ∧
      d.completeConversion cv raw = (freed.arbitrate.deliver cv k raw.toNat).arbitrate) := by
  simp only [Device.completeConversion, hk, hd, Bool.false_eq_true, if_false, Device.freedBy]
  split
  · exact .inl rfl
  · split
    · exact .inr ⟨‹_›, rfl⟩
    · exact .inl rfl

/-- CONVERSION_COMPLETE leaves the part as a hand-out from `d` does. -/
def State.CompletesFrom (s : State) (cv : Converter) (raw : BitVec 12) (d : Device) : Prop :=
  ∃ e, d.HandsOut e ∧ exec (.conversionComplete cv raw) s = .next { s with toDevice := publish s.toDevice e }

/-- CONVERSION_COMPLETE treats the result by `f`, a hand-out after it; where `f` takes entries out of the list, one may come
before it too. -/
def State.CompletesBy (s : State) (cv : Converter) (raw : BitVec 12) (freed : Device) (f : Device → Device) : Prop :=
  s.CompletesFrom cv raw (f freed) ∨
    ((f freed).requests ≠ freed.requests ∧ ∃ d, freed.HandsOut d ∧ s.CompletesFrom cv raw (f d))

theorem State.completesFrom_of_arbitrate {s : State} {cv : Converter} {raw : BitVec 12} {d : Device}
    (h : s.completeConversion cv raw = d.arbitrate) : s.CompletesFrom cv raw d := by
  refine ⟨_, d.handsOut_arbitrate, ?_⟩
  show s.apply (Device.completeConversion cv raw) = _
  rw [State.apply_eq, h]

section
variable {s : State} {cv : Converter} {raw : BitVec 12} {k : Conversion} {f : Device → Device}
  (hk : s.converter cv = some k) (hd : k.discard = false)
  (hf : ∀ x, (s.freedBy cv k).Hands x → x.deliver cv k raw.toNat = f x)
include hk hd hf

/-- What the delivery does to every part that a hand-out may leave is what the completion does. -/
theorem State.completesBy_of_deliver : s.CompletesBy cv raw (s.freedBy cv k) f := by
  have hfreed := hf _ (.refl _)
  have hout := (s.freedBy cv k).handsOut_arbitrate
  rcases Device.completeConversion_of_deliver hk hd raw with h | ⟨hne, h⟩
  · exact .inl (State.completesFrom_of_arbitrate (h.trans (congrArg _ hfreed)))
  · exact .inr ⟨hfreed ▸ hne, _, hout,
      State.completesFrom_of_arbitrate (h.trans (congrArg _ (hf _ hout.hands)))⟩

/-- A delivery that leaves the list has the one hand-out after it. -/
theorem State.completesFrom_of_deliver (hr : (f (s.freedBy cv k)).requests = (s.freedBy cv k).requests) :
    s.CompletesFrom cv raw (f (s.freedBy cv k)) :=
  (State.completesBy_of_deliver hk hd hf).resolve_right fun h => h.1 hr
end

/-- Settles O48: the delivery by the kind of the entry, on the part that the completion leaves. -/
theorem resultsAreConditioned : Obligations.ResultsAreConditioned := by
  intro s cv raw k hk freed c code report told sample leaves handsOut conditioned
  have hcode {x : Device} (hx : freed.Hands x) : x.resultCode k raw.toNat = code := hx.resultCode_of_freedBy raw.toNat
  have hchan : freed.chan k.entry.channel = s.chan c := s.chan_freedBy cv k c
  have hconditioned (hd : k.discard = false) (f : Device → Device)
      (hf : ∀ x, freed.Hands x → x.deliver cv k raw.toNat = f x) : conditioned f :=
    State.completesBy_of_deliver hk hd hf
  have hbuffered (hd : k.discard = false) (f : Device → Device)
      (hf : ∀ x, freed.Hands x → x.deliver cv k raw.toNat = f x) (hr : (f freed).requests = freed.requests) :
      handsOut (f freed) := State.completesFrom_of_deliver hk hd hf hr
  refine ⟨fun hd => ?discarded, fun hd hkind => ?first, fun hd hkind => ?second, fun hd hkind => ?zero,
    fun hd hkind => ?link⟩
  case discarded => exact State.completesFrom_of_arbitrate (Device.completeConversion_of_discard hk hd raw)
  case first =>
    have h := hbuffered hd _ (fun x hx => Device.deliver_first cv (hcode hx) hkind) rfl
    rwa [hchan] at h
  case second =>
    have h := hbuffered hd _ (fun x hx => Device.deliver_second cv (hcode hx) hkind) rfl
    rwa [hchan] at h
  case zero =>
    intro ok
    -- `hconditioned` is all that is needed of it, and `refine` finds the delivery only where it cannot unfold it
    clear_value conditioned
    refine hconditioned hd _ fun x hx => ?_
    rw [Device.deliver_zero cv (hcode hx) hkind, hx.cfg_of_freedBy, hx.z8_of_freedBy]
    rfl
  case link =>
    intro g lov lun buffered
    have hdeliver (x : Device) (hx : freed.Hands x) : x.deliver cv k raw.toNat =
        if Config.lovFirst freed.freeIndex then lun (lov (buffered x)) else lov (lun (buffered x)) := by
      rw [Device.deliver_link cv (hcode hx) hkind, hx.freeIndex, hx.words_of_freedBy]
      rfl
    by_cases horder : Config.lovFirst freed.freeIndex = true
    · exact .inl (hconditioned hd (fun d => lun (lov (buffered d))) fun x hx => (hdeliver x hx).trans (if_pos horder))
    · exact .inr (hconditioned hd (fun d => lov (lun (buffered d))) fun x hx => (hdeliver x hx).trans (if_neg horder))

end Sys2Proof.Machine
end

