-- ==== Sys2Proof/Proofs/PeriodClose.lean ====
section
/-! The closed period (R110 to R115): its currents, its metric, and what its close at a load event hands to the log. -/

namespace Sys2Proof.Machine

open Sys2Proof

/-! ### The currents (R110 to R113) -/

theorem closingSample_eq (outcome : WindowOutcome) (sample : Option Sample) (inject : Bool) (value : Int) :
    closingSample outcome sample inject value =
      if outcome = .ok then sample.map fun x => if inject then value else x.value else none := by
  cases outcome <;> cases sample <;> rfl

theorem clampInt_eq_max_min {lo hi : Int} (h : lo ≤ hi) (x : Int) : clampInt lo hi x = max lo (min hi x) := by
  unfold clampInt
  split_ifs <;> omega

theorem clampedCurrent_eq (x : Int) : clampedCurrent x =
    { value := max (-4095) (min 4095 x), saturated := decide (max (-4095) (min 4095 x) ≠ x) } := by
  simp only [clampedCurrent, clampInt_eq_max_min (show (-4095 : Int) ≤ 4095 by decide), bne, beq_eq_decide, decide_not, ne_eq]

section
variable (o : LegOrder) (r : Option Current × Option Current × Option Current)

theorem namedCurrents_max : (namedCurrents o r).get o.ranks.1 = r.1 := by cases o <;> rfl

theorem namedCurrents_mid : (namedCurrents o r).get o.ranks.2.1 = r.2.1 := by cases o <;> rfl

theorem namedCurrents_min : (namedCurrents o r).get o.ranks.2.2 = r.2.2 := by cases o <;> rfl
end

theorem rankedCurrents_mid (x y : Option Int) :
    (rankedCurrents x y).2.1 = x.bind fun v => y.map fun w => clampedCurrent (w - v) := by
  cases x <;> cases y <;> rfl

/-! ### The metric and the saturation mark (R112, R114) -/

section
variable {i : PerLeg (Option Current)}

theorem mem_validCurrents {x : Current} : x ∈ validCurrents i ↔ ∃ l, i.get l = some x := by
  have hlegs : (∃ l, i.get l = some x) ↔ i.a = some x ∨ i.b = some x ∨ i.c = some x := by
    refine ⟨fun ⟨l, h⟩ => ?_, fun h => ?_⟩
    · cases l
      · exact .inl h
      · exact .inr (.inl h)
      · exact .inr (.inr h)
    · exact h.elim (⟨.a, ·⟩) (·.elim (⟨.b, ·⟩) (⟨.c, ·⟩))
  rw [hlegs]
  simp [validCurrents, eq_comm]

theorem periodMetric_eq_max? : periodMetric i = ((validCurrents i).map fun x => x.value.natAbs).max? := by
  unfold periodMetric
  cases validCurrents i with
  | nil => rfl
  | cons x rest => rw [List.map_cons, List.max?_cons', List.foldl_map]

/-- There is no metric where no current is valid. -/
theorem periodMetric_eq_none_iff : periodMetric i = none ↔ ∀ l, i.get l = none := by
  rw [periodMetric_eq_max?, List.max?_eq_none_iff, List.map_eq_nil_iff, List.eq_nil_iff_forall_not_mem]
  simp only [mem_validCurrents, not_exists, Option.eq_none_iff_forall_ne_some]
  exact forall_comm

/-- The metric is a valid current's magnitude, and the largest. -/
theorem periodMetric_eq_some_iff {m : Nat} : periodMetric i = some m ↔
    (∃ l x, i.get l = some x ∧ x.value.natAbs = m) ∧ ∀ l x, i.get l = some x → x.value.natAbs ≤ m := by
  rw [periodMetric_eq_max?, List.max?_eq_some_iff]
  simp only [List.mem_map, mem_validCurrents]
  refine and_congr ⟨?_, ?_⟩ ⟨fun h l x hx => h _ ⟨x, ⟨l, hx⟩, rfl⟩, ?_⟩
  · rintro ⟨x, ⟨l, hx⟩, hm⟩
    exact ⟨l, x, hx, hm⟩
  · rintro ⟨l, x, hx, hm⟩
    exact ⟨x, ⟨l, hx⟩, hm⟩
  · rintro h _ ⟨x, ⟨l, hx⟩, rfl⟩
    exact h l x hx

theorem validCurrents_any_saturated :
    (validCurrents i).any Current.saturated = true ↔ ∃ l x, i.get l = some x ∧ x.saturated = true := by
  simp only [List.any_eq_true, mem_validCurrents]
  exact ⟨fun ⟨x, ⟨l, hx⟩, hs⟩ => ⟨l, x, hx, hs⟩, fun ⟨l, x, hx, hs⟩ => ⟨x, ⟨l, hx⟩, hs⟩⟩
end

/-- Settles O49: the three ranks by the model's currents, the metric by the valid ones, and the rest as it is handed on. -/
theorem currentsAreReconstructed : Obligations.CurrentsAreReconstructed := by
  intro ch e p taken x y cut current
  have hcurrent : clampedCurrent = current := funext clampedCurrent_eq
  have hx : closingSample e.first ch.buffer.first ch.plan.inject ch.plan.injectFirst = x := closingSample_eq ..
  have hy : closingSample e.second ch.buffer.second ch.plan.inject ch.plan.injectSecond = y := closingSample_eq ..
  have hcurrents : p.currents = namedCurrents e.order (rankedCurrents x y) := by rw [← hx, ← hy]; rfl
  refine ⟨?max, ?min, ?mid, periodMetric_eq_none_iff, fun m => periodMetric_eq_some_iff.1,
    validCurrents_any_saturated, rfl, rfl, rfl, rfl, rfl, rfl, rfl, rfl, rfl⟩
  case max => rw [hcurrents, namedCurrents_max, ← hcurrent]; rfl
  case min => rw [hcurrents, namedCurrents_min, ← hcurrent]; rfl
  case mid => rw [hcurrents, namedCurrents_mid, rankedCurrents_mid, hcurrent]

/-! ### CUR after a judgement (R117, R123) -/

/-- An evaluation keeps whether the condition is asserted, or asserts it, or releases it. -/
theorem Condition.evaluated_cases (outside back : Bool) (f : Nat) (k : Condition) :
    (k.evaluated outside back f).asserted = k.asserted ∨
      (k.asserted = false ∧ k.evaluated outside back f = k.set) ∨
      (k.asserted = true ∧ k.evaluated outside back f = k.cleared) := by
  unfold Condition.evaluated
  split_ifs with hk hback hinside hfull
  · exact .inr (.inr ⟨hk, rfl⟩)
  · exact .inl rfl
  · exact .inl rfl
  · exact .inr (.inl ⟨Bool.eq_false_iff.2 hk, rfl⟩)
  · exact .inl rfl

theorem Device.inScope_cur (d : Device) (c : ChannelId) : d.inScope (.cur c) c = true := by simp [Device.inScope]

theorem Device.inScope_age (d : Device) (c : ChannelId) : d.inScope (.age c) c = true := by simp [Device.inScope]

section
variable {c : ChannelId} (d : Device)

/-- CUR after its judgement is as its table says. -/
theorem Device.cur_judge (outside back : Bool) (f : Nat) (value : Int) :
    ((d.judge (.cur c) outside back f value).chan c).cur = (d.chan c).cur.evaluated outside back f := by
  have hcur : d.condition (.cur c) = (d.chan c).cur := rfl
  rw [Device.judge, hcur]
  rcases Condition.evaluated_cases outside back f (d.chan c).cur with h | ⟨hk, h⟩ | ⟨hk, h⟩
  · rw [if_pos h, Device.chan_setCondition]
    exact if_pos rfl
  · have hset : (d.chan c).cur.set.asserted = true := rfl
    rw [h, if_neg (by simp [hk, hset]), if_pos hset, Device.chan_assertCondition, if_pos (d.inScope_cur c),
      Device.assertion_channel]
    exact if_pos rfl
  · rw [h, if_neg (by simp [hk, Condition.cleared]), if_neg (by simp [Condition.cleared]),
      Device.chan_releaseCondition, if_pos (d.inScope_cur c), Device.releasing_channel]
    exact if_pos rfl

/-- An assertion of AGE leaves CUR. -/
theorem Device.cur_aged : ((d.aged c).chan c).cur = (d.chan c).cur := by
  rw [Device.aged, Device.chan_assertCondition, if_pos (d.inScope_age c), Device.assertion_channel]
  rfl
end

/-! ### The records that a condition's change hands (R121, R122) -/

/-- From `x` to `y`, event records of the condition with code `n` alone are handed to the channel's log. -/
def Channel.HandsEvents (n : Nat) (x y : Channel) : Prop :=
  ∃ l : List EventRecord, y.log.waiting = x.log.waiting ++ l.map .event ∧ ∀ r ∈ l, r.condition = n

theorem Channel.handsEvents_of_log {x y : Channel} (n : Nat) (h : y.log = x.log) : x.HandsEvents n y :=
  ⟨[], by simp [h], by simp⟩

section
variable {id : ConditionId} {c : ChannelId} (d : Device) (value : Int) (extra : Word)

theorem Device.handsEvents_assertCondition (hin : d.inScope id c = true) :
    (d.chan c).HandsEvents id.code ((d.assertCondition id value extra).chan c) := by
  rw [Device.chan_assertCondition, if_pos hin, Device.assertion_channel]
  cases d.floats id c
  · exact ⟨[_], List.append_nil _, by simp⟩
  · exact ⟨[_, _], List.append_assoc .., by simp⟩

theorem Device.handsEvents_releaseCondition (hin : d.inScope id c = true) :
    (d.chan c).HandsEvents id.code ((d.releaseCondition id value extra).chan c) := by
  rw [Device.chan_releaseCondition, if_pos hin, Device.releasing_channel]
  exact ⟨[_], rfl, by simp⟩

theorem Device.handsEvents_judge (hin : d.inScope id c = true) (outside back : Bool) (f : Nat) :
    (d.chan c).HandsEvents id.code ((d.judge id outside back f value).chan c) := by
  rcases d.judge_cases id outside back f value with ⟨k, h⟩ | h | h <;> rw [h]
  · exact Channel.handsEvents_of_log _ (by rw [Device.chan_setCondition])
  · exact d.handsEvents_assertCondition value 0 hin
  · exact d.handsEvents_releaseCondition value 0 hin
end

/-! ### The log and CUR through a load event (R115, R123, R146, R149) -/

/-- From `x` to `y`, CUR has stayed, and event records of AGE alone are handed. -/
def Channel.OnlyAged (x y : Channel) : Prop := y.cur = x.cur ∧ x.HandsEvents 3 y

section
variable {c : ChannelId}

theorem Device.cur_curJudged (d : Device) (g : ChannelSetup) : ∀ m : Option Nat,
    (m = none → ((d.curJudged c g m).chan c).cur = (d.chan c).cur) ∧
      (∀ v, m = some v → ((d.curJudged c g m).chan c).cur = (d.chan c).cur.evaluated (decide (g.curLimit < v))
        (decide ((v : Int) ≤ (g.curLimit : Int) - g.curH)) g.curF)
  | none => ⟨fun _ => rfl, nofun⟩
  | some v => by
    have hback : decide (v + g.curH ≤ g.curLimit) = decide ((v : Int) ≤ (g.curLimit : Int) - g.curH) :=
      decide_eq_decide.2 (by omega)
    refine ⟨nofun, fun w h => ?_⟩
    cases h
    rw [← hback]
    exact d.cur_judge ..

theorem Device.handsEvents_curJudged (d : Device) (g : ChannelSetup) (m : Option Nat) :
    (d.chan c).HandsEvents 1 ((d.curJudged c g m).chan c) := by
  cases m with
  | none => exact Channel.handsEvents_of_log 1 rfl
  | some v => exact d.handsEvents_judge v (d.inScope_cur c) ..

/-- The record decision (R149): a record is handed behind what waits, or none is. -/
theorem Device.chan_record (d : Device) (p : ClosedPeriod) :
    (if p.number.toNat % p.plan.interval = 0 then d.hand c (.period p) else d).chan c = { d.chan c with
      log := { (d.chan c).log with waiting := (d.chan c).log.waiting ++
        if p.number.toNat % p.plan.interval = 0 then [.period p] else [] } } := by
  split_ifs
  · rw [Device.hand, Device.chan_modChan_same]
  · simp

/-- What the close leaves of CUR and of the records that wait. -/
theorem Device.chan_closing (d : Device) (g : ChannelSetup) (p : ClosedPeriod) :
    ((d.closing c g p).chan c).cur = ((d.curJudged c g p.metric).chan c).cur ∧
      ((d.closing c g p).chan c).log.waiting = ((d.curJudged c g p.metric).chan c).log.waiting ++
        if p.number.toNat % p.plan.interval = 0 then [.period p] else [] := by
  rw [Device.closing, (Device.acts_selectPeriod _ p).2, Device.chan_record]
  exact ⟨rfl, rfl⟩

theorem Device.onlyAged_aged (d : Device) : (d.chan c).OnlyAged ((d.aged c).chan c) :=
  ⟨d.cur_aged, d.handsEvents_assertCondition _ 0 (d.inScope_age c)⟩

/-- Taking up the set leaves CUR and the log. -/
theorem Device.cur_log_followSet (d : Device) : ((d.followSet c).chan c).cur = (d.chan c).cur ∧
    ((d.followSet c).chan c).log = (d.chan c).log := by
  obtain ⟨-, hold, legs, hchan⟩ := d.acts_followSet (c := c)
  rw [hchan]
  exact ⟨rfl, rfl⟩

theorem Channel.OnlyAged.congr {x y x' y' : Channel} (h : x.OnlyAged y) (hx : x.cur = x'.cur ∧ x.log = x'.log)
    (hy : y'.cur = y.cur ∧ y'.log = y.log) : x'.OnlyAged y' := by
  rw [Channel.OnlyAged, Channel.HandsEvents, hy.1, hy.2, ← hx.1, ← hx.2]
  exact h

/-- AGE is asserted or not, and the set taken up. -/
theorem Device.onlyAged_taken (d : Device) : (d.chan c).OnlyAged ((d.taken c).chan c) := by
  obtain ⟨-, hcoasts, hasserts⟩ := d.taken_cases (c := c)
  have hfollow := Device.cur_log_followSet (c := c)
  cases ht : d.ageTrips c
  · rw [hcoasts ht]
    exact ⟨(hfollow d).1, Channel.handsEvents_of_log 3 (hfollow d).2⟩
  · rcases hasserts ht with h | h <;> rw [h]
    · exact d.onlyAged_aged.congr ⟨rfl, rfl⟩ (hfollow _)
    · exact (d.followSet c).onlyAged_aged.congr (hfollow d) ⟨rfl, rfl⟩

/-- From the close on, a load event hands records of AGE alone. -/
theorem Device.onlyAged_load {d : Device} {e : EdgeSet} (hon : (d.chan c).state ≠ .off)
    (he : (d.chan c).inForce = some e) : ((d.loadClosed c e).chan c).OnlyAged ((d.load c).chan c) := by
  have hopened : (((d.loadClosed c e).nextOpened c).chan c).cur = ((d.loadClosed c e).chan c).cur ∧
      (((d.loadClosed c e).nextOpened c).chan c).log = ((d.loadClosed c e).chan c).log := by
    rw [Device.chan_nextOpened]
    exact ⟨rfl, rfl⟩
  have hout := (Device.handsOut_arbitrate ((((d.loadClosed c e).nextOpened c).taken c).startFetch c)).channels c
  rw [← Device.load_eq hon he, Device.startFetch_taken, Device.chan_setChan_same] at hout
  refine ((d.loadClosed c e).nextOpened c).onlyAged_taken.congr hopened ?_
  rw [hout]
  exact ⟨rfl, rfl⟩

theorem Channel.ActedOn.groups {x y : Channel} (h : x.ActedOn y) :
    y.log.groupNotOk = x.log.groupNotOk ∧ y.log.groupMissed = x.log.groupMissed := by
  have hlog : y.log = { x.log with waiting := y.log.waiting } := congrArg Channel.log h.fields
  rw [hlog]
  exact ⟨rfl, rfl⟩

/-- The group counts after a load event: those of the close (R149). -/
theorem Device.groups_load {d : Device} {e : EdgeSet} (hon : (d.chan c).state ≠ .off)
    (he : (d.chan c).inForce = some e) :
    let counted := Channel.countClose (closedPeriod (d.chan c) e) (d.chan c)
    ((d.load c).chan c).log.groupNotOk = counted.log.groupNotOk ∧
      ((d.load c).chan c).log.groupMissed = counted.log.groupMissed :=
  (Device.load_chan hon he).groups
end

/-- A period counts as not OK where a window of its set is not (R149). -/
theorem EdgeSet.notOk_eq (e : EdgeSet) : (if e.first.notOk || e.second.notOk then 1 else 0) =
    if e.first = .ok ∧ e.second = .ok then 0 else 1 := by
  by_cases h1 : e.first = .ok <;> by_cases h2 : e.second = .ok <;> simp [WindowOutcome.notOk, h1, h2]

/-- The entries that the arbiter reported as missed, by their kinds (R149). -/
theorem ClosedPeriod.missedEntries_eq (p : ClosedPeriod) : p.missedEntries =
    ([RequestKind.first, .second, .zero, .link].filter fun k => p.reports.get k == some .missed).length := by
  have hreports : [p.reports.first, p.reports.second, p.reports.zero, p.reports.link] =
      [RequestKind.first, .second, .zero, .link].map p.reports.get := rfl
  rw [ClosedPeriod.missedEntries, hreports, List.filter_map, List.length_map]
  rfl

/-- Settles O27: the close, and what follows it in the event. -/
theorem theCloseEvaluatesCurAndHandsItsRecord : Obligations.TheCloseEvaluatesCurAndHandsItsRecord := by
  intro s c e hon he p g
  let counted := (s.advanceTo ((s.chan c).loadTime + BitVec.ofNat 32 (4 * e.modulus))).setChan c
    (Channel.countClose p (s.chan c))
  have hchan : counted.chan c = Channel.countClose p (s.chan c) := Device.chan_setChan_same ..
  have hexec : exec (.loadEvent c) s = .next { s with toDevice := publish s.toDevice (s.toDevice.load c) } := rfl
  obtain ⟨hnone, hsome⟩ := counted.cur_curJudged (c := c) g p.metric
  obtain ⟨cur, hcur, hcurs⟩ := counted.handsEvents_curJudged (c := c) g p.metric
  obtain ⟨hkept, hrecord⟩ := counted.chan_closing (c := c) g p
  obtain ⟨hlast, age, hage, hages⟩ := Device.onlyAged_load hon he
  obtain ⟨hnotOk, hmissed⟩ := Device.groups_load hon he
  have hjudged : ((s.load c).chan c).cur = ((counted.curJudged c g p.metric).chan c).cur := hlast.trans hkept
  rw [hchan] at hnone hsome hcur
  refine ⟨_, cur, age, hexec, fun h => hjudged.trans (hnone h), fun m h => hjudged.trans (hsome m h), ?_, hcurs, hages,
    ?_, ?_⟩
  · calc ((s.load c).chan c).log.waiting = ((s.loadClosed c e).chan c).log.waiting ++ age.map .event := hage
      _ = _ := congrArg (· ++ age.map .event) (hrecord.trans (congrArg (· ++ _) hcur))
  · refine hnotOk.trans ?_
    rw [← EdgeSet.notOk_eq]
    rfl
  · refine hmissed.trans ?_
    rw [Channel.countClose, ClosedPeriod.missedEntries_eq]
    rfl

end Sys2Proof.Machine
end

section
/-! The acceptances of the Hall timer (Chapter 9): HAL after an accepted code, the acquisition, and a transition with its
capture, its skip and its snap. -/

namespace Sys2Proof.Machine

open Sys2Proof

/-! ### HAL after an accepted code (R126) -/

/-- The evaluation of HAL in the model is that of the statements. -/
theorem Device.evaluateHal_eq_halJudged (d : Device) : d.evaluateHal d.hall.raw = d.halJudged := by
  have hextra : BitVec.ofNat 16 d.hall.raw.toNat = d.hall.raw.zeroExtend 16 := BitVec.ofNat_toNat ..
  unfold Device.evaluateHal Device.halJudged
  by_cases hoff : (d.chan .ch0).state = .off
  · simp [hoff]
  · cases hsector : hallSector d.words d.hall.raw <;> cases ha : d.hal.asserted <;> simp [hoff, hextra]

/-- What the evaluation does: nothing, an assertion on a code without a sector, or a release on one with a sector. -/
theorem Device.halJudged_cases (d : Device) :
    let sector := hallSector d.words d.hall.raw
    let extra := d.hall.raw.zeroExtend 16
    (d.halJudged = d ∧ d.halAfterCode sector = d.hal) ∨
      (d.halJudged = d.assertCondition .hal 0 extra ∧ d.halAfterCode sector = d.hal.set ∧ sector = none) ∨
      (d.halJudged = d.releaseCondition .hal 0 extra ∧ d.halAfterCode sector = d.hal.cleared) := by
  intro sector extra
  unfold Device.halJudged Device.halAfterCode
  by_cases hoff : (d.chan .ch0).state = .off
  · simp [hoff]
  · cases hsector : hallSector d.words d.hall.raw <;> cases ha : d.hal.asserted <;>
      simp [hoff, sector, extra, hsector, Condition.set, Condition.cleared]

theorem Device.halJudged_rest (d : Device) : d.halJudged = { d with
    channels := d.halJudged.channels, requests := d.halJudged.requests, notice := d.halJudged.notice
    capture := d.halJudged.capture, hal := d.halAfterCode (hallSector d.words d.hall.raw) } := by
  rcases d.halJudged_cases with ⟨he, hh⟩ | ⟨he, hh, -⟩ | ⟨he, hh⟩ <;> rw [he, hh]
  · rw [Device.assertCondition_rest]
    rfl
  · rw [Device.releaseCondition_rest]
    rfl

/-- HAL's assertion or release acts on CH0, and only on a code without a sector changes its state. -/
theorem Device.chan_halJudged (d : Device) : (d.chan .ch0).ActedOn (d.halJudged.chan .ch0) ∧
    (hallSector d.words d.hall.raw ≠ none → (d.halJudged.chan .ch0).state = (d.chan .ch0).state) := by
  rcases d.halJudged_cases with ⟨he, -⟩ | ⟨he, -, hnone⟩ | ⟨he, -⟩ <;> rw [he]
  · exact ⟨.refl _, fun _ => rfl⟩
  · rw [Device.chan_assertCondition, if_pos (by rfl), Device.assertion_channel]
    refine ⟨⟨rfl, fun hon => ?_⟩, fun hs => absurd hnone hs⟩
    cases hf : d.floats .hal .ch0 <;> simp [Device.assertedChannel, hon]
  · rw [Device.chan_releaseCondition, if_pos (by rfl), Device.releasing_channel]
    exact ⟨⟨rfl, id⟩, fun _ => rfl⟩

theorem Device.spares_halJudged (d : Device) : d.Spares .ch0 d.halJudged := by
  rw [← Device.evaluateHal_eq_halJudged]
  exact Device.spares_evaluateHal _ d

@[simp] theorem Device.hall_halJudged (d : Device) : d.halJudged.hall = d.hall := by rw [Device.halJudged_rest]

@[simp] theorem Device.setup_halJudged (d : Device) : d.halJudged.setup = d.setup := by rw [Device.halJudged_rest]

theorem Device.hal_halJudged (d : Device) :
    d.halJudged.hal = d.halAfterCode (hallSector d.words d.hall.raw) := by rw [Device.halJudged_rest]

/-! ### The Hall words and HAL (steps 1 to 3 of R139) -/

/-- The part with the timer's state after an acceptance, the four Hall words shown, and HAL evaluated. -/
def Device.hallShown (h : HallTimer) (d : Device) : Device :=
  ({ d with hall := h }.showStatus hallWords).halJudged

section
variable (h : HallTimer) (d : Device)

theorem Device.evaluateHal_hallShown {code : BitVec 3} (hraw : h.raw = code) :
    ({ d with hall := h }.showStatus hallWords).evaluateHal code = d.hallShown h := by
  subst hraw
  exact Device.evaluateHal_eq_halJudged _

@[simp] theorem Device.hall_hallShown : (d.hallShown h).hall = h := Device.hall_halJudged _

@[simp] theorem Device.setup_hallShown : (d.hallShown h).setup = d.setup := Device.setup_halJudged _

theorem Device.hal_hallShown : (d.hallShown h).hal = d.halAfterCode (hallSector d.words h.raw) :=
  Device.hal_halJudged _

theorem Device.chan_hallShown : (d.chan .ch0).ActedOn ((d.hallShown h).chan .ch0) ∧
    (hallSector d.words h.raw ≠ none → ((d.hallShown h).chan .ch0).state = (d.chan .ch0).state) :=
  Device.chan_halJudged ({ d with hall := h }.showStatus hallWords)

theorem Device.spares_hallShown : d.Spares .ch0 (d.hallShown h) :=
  Device.Spares.trans (y := { d with hall := h }.showStatus hallWords) (.of_channels rfl) (Device.spares_halJudged _)
end

/-! ### The acquisition (R136) -/

theorem Device.acquire_eq_afterAcquisition (d : Device) : d.acquire = d.afterAcquisition :=
  Device.evaluateHal_hallShown _ d rfl

/-! ### The passing of time up to an acceptance -/

/-- Time moves only the two measures of the Hall timer. -/
theorem Device.hall_advanceTo (t : RefCount) (d : Device) : (d.advanceTo t).hall = { d.hall with
    elapsed := (d.advanceTo t).hall.elapsed, run := (d.advanceTo t).hall.run } := by
  unfold Device.advanceTo Device.advanceBy
  split_ifs <;> rfl

theorem Device.words_advanceTo (t : RefCount) (d : Device) : (d.advanceTo t).words = d.words :=
  Device.words_congr (d.advanceTo_setup t)

theorem Device.halAfterCode_advanceTo (t : RefCount) (d : Device) (sector : Option Nat) :
    (d.advanceTo t).halAfterCode sector = d.halAfterCode sector := by
  simp only [Device.halAfterCode, Device.chan_advanceTo, Device.advanceTo_hal]

theorem exec_hallFilterExpiry (s : State) : exec .hallFilterExpiry s = s.apply Device.expireHall := rfl

theorem Device.expireHall_of_acquiring {d : Device} {t : RefCount} (hs : d.setup ≠ none) (ha : d.hall.accepted = none)
    (ht : d.hall.acquiring = some t) : d.expireHall =
      (d.advanceTo (t + BitVec.ofNat 32 (hallTh d.words * 128))).afterAcquisition.arbitrate := by
  have hexpiry : d.hallExpiry = some (t + BitVec.ofNat 32 (hallTh d.words * 128)) := by
    simp [Device.hallExpiry, (d.locked_iff).2 hs, ha, ht, hallHold]
  have haccepted (t' : RefCount) : (d.advanceTo t').hall.accepted = none := by rw [Device.hall_advanceTo, ha]
  simp only [Device.expireHall, hexpiry, Device.acceptHall, haccepted, Device.acquire_eq_afterAcquisition]

/-- Settles O55. -/
theorem theAcquisition : Obligations.TheAcquisition := by
  intro s t0 hs ha ht at_ sector
  have hsector : hallSector at_.words at_.hall.raw = sector := by
    rw [Device.words_advanceTo, Device.hall_advanceTo]
  have hout := at_.afterAcquisition.handsOut_arbitrate
  refine ⟨_, at_.afterAcquisition.arbitrate, ?_, rfl, hout, ?_, ?_, ?_⟩
  · rw [exec_hallFilterExpiry, State.apply_eq, Device.expireHall_of_acquiring hs ha ht]
  · show at_.afterAcquisition.arbitrate.hall = _
    rw [hout.rest, ← hsector]
    have hraw : at_.hall.raw = s.hall.raw := by rw [Device.hall_advanceTo]
    rw [← hraw]
    exact Device.hall_hallShown ..
  · show at_.afterAcquisition.arbitrate.hal = _
    rw [hout.rest, ← hsector]
    exact (Device.hal_hallShown ..).trans (Device.halAfterCode_advanceTo ..)
  · have htime : s.Spares .ch0 at_ := Device.spares_advanceTo _ _ _
    have hshown : at_.Spares .ch0 at_.afterAcquisition := Device.spares_hallShown _ _
    exact (htime.trans hshown).trans (Device.spares_arbitrate _ _)

/-! ### The timer's own state after a transition (R137, R138) -/

theorem hallSector_lt {words : List Word} {code : BitVec 3} {sector : Nat} (h : hallSector words code = some sector) :
    sector < 6 := by
  unfold hallSector at h
  simp only at h
  split_ifs at h with hle
  cases h
  omega

theorem HallTimer.transition_eq (sector : Option Nat) (r : HallRun) (h : HallTimer) :
    let elapsed := if h.elapsed < 4194240 then h.elapsed - r.measure else 4194240
    h.transition sector r = { h with
      accepted := some h.raw, run := none, lastTransition := some r.first, elapsed := r.measure
      direction := classify sector h.refSector, refSector := if sector = none then h.refSector else sector
      interval := if h.lastTransition = none then 65535 else elapsed / 64 } := by
  intro elapsed
  have helapsed : h.elapsedAt r = elapsed := rfl
  cases hs : sector <;> cases hl : h.lastTransition <;>
    simp [HallTimer.transition, HallTimer.intervalAt, helapsed, hl]

/-! ### The capture, the skip and the snap, written out (steps 4 to 6 of R139) -/

theorem Device.gather_eq (c : ChannelId) (f : CaptureBuffer → CaptureBuffer) (d : Device) : d.gather c f =
    if d.capture.mode = .armed ∧ d.capture.channel = c then
      { d with capture := { d.capture with following := d.capture.following.map f } } else d := by
  simp [Device.gather, CaptureUnit.armedFor]

/-- CH0 after a skip. -/
def Channel.skipped (refBefore : Option Nat) (code : BitVec 3) (x : Channel) : Channel :=
  let record : EventRecord := { code := .hallSkip, periodCount := x.periodCount, condition := 0
                                value := (refBefore.getD 0 : Nat), action := 0, extra := code.zeroExtend 16
                                state := x.state }
  { x with
    counters := { x.counters with hallSkips := x.counters.hallSkips + 1 }
    log := { x.log with waiting := x.log.waiting ++ [.event record] } }

theorem Device.reportSkip_eq (refBefore : Option Nat) (code : BitVec 3) (d : Device) : d.reportSkip refBefore code =
    { d.setChan .ch0 ((d.chan .ch0).skipped refBefore code) with notice := d.notice ||| 0x400 } := by
  have hextra : BitVec.ofNat 16 code.toNat = code.zeroExtend 16 := BitVec.ofNat_toNat ..
  simp only [Device.reportSkip, Device.modChan_eq_setChan, Device.hand_setChan, hextra]
  rfl

theorem Device.chan_reportSkip (refBefore : Option Nat) (code : BitVec 3) (d : Device) :
    (d.reportSkip refBefore code).chan .ch0 = (d.chan .ch0).skipped refBefore code := by
  rw [Device.reportSkip_eq]
  rfl

theorem Channel.snaps_iff (x : Channel) (direction : Direction) :
    x.snaps direction = true ↔ x.snapsOn direction := by
  simp [Channel.snaps, Channel.snapsOn, agrees, and_assoc]

/-- The error of a snap (R141), with the division that rounds down. -/
theorem snapError_eq (words : List Word) (x : Channel) (period : Nat) (direction : Direction) (sector : Nat)
    (t : RefCount) : snapError words x period direction sector t =
      (hallBoundary words (if direction = .reverse then (sector + 1) % 6 else sector) -
        (x.theta + BitVec.ofInt 16 (Int.fdiv (x.plan.rate * (t - x.loadTime).toInt) period) + x.q)).toInt := by
  rw [snapError, edgeAngle, snapBoundary, Int.fdiv_eq_ediv_of_nonneg _ (Int.natCast_nonneg period)]

/-- The boundary into one of the six sectors. -/
theorem boundaryIndex_eq {sector : Nat} (h : sector < 6) (direction : Direction) :
    (if direction = .reverse then (sector + 1) % 6 else sector) =
      (sector + if direction = .reverse then 1 else 0) % 6 := by
  split_ifs <;> omega

/-- CH0 after a snap with this error. -/
def Channel.snapped (limit : Nat) (error : Int) (x : Channel) : Channel :=
  { x with
    q := x.q + BitVec.ofInt 16 (max (-(limit : Int)) (min limit error))
    counters := { x.counters with hallSnaps := x.counters.hallSnaps + 1 } }

/-- The error of a snap of CH0 in the present period. -/
def Device.snapErrorNow (d : Device) (direction : Direction) (sector : Nat) (t : RefCount) : Int :=
  snapError d.words (d.chan .ch0) (((d.chan .ch0).inForce.map EdgeSet.period).getD 0) direction sector t

section
variable (direction : Direction) (sector : Nat) (t : RefCount) (d : Device)

theorem Device.snap_eq :
    let error := d.snapErrorNow direction sector t
    d.snap direction sector t = ({ d.setChan .ch0 ((d.chan .ch0).snapped (hallCsnap d.words) error) with
      hall := { d.hall with snapError := some error } } : Device).showStatus [0x11A, 0x11B] := by
  intro error
  have hclamp := clampInt_eq_max_min (show -(hallCsnap d.words : Int) ≤ hallCsnap d.words by omega) error
  rw [Channel.snapped, ← hclamp]
  rfl

theorem Device.snap_eq_afterSnap : d.snap direction sector t = d.afterSnap direction sector t := by
  have hperiod : ((((d.chan .ch0).inForce.map EdgeSet.period).getD 0 : Nat) : Int) =
      match (d.chan .ch0).inForce with
      | some e => 4 * e.modulus
      | none => 0 := by
    cases (d.chan .ch0).inForce with
    | none => rfl
    | some e => exact Int.natCast_mul 4 e.modulus
  rw [Device.snap_eq, Device.snapErrorNow, snapError_eq, hperiod]
  rfl
end

/-! ### A transition but for its snap (steps 1 to 5 of R139) -/

/-- The part with the timer's state after a transition, HAL evaluated, and the transition captured (steps 1 to 4 of R139). -/
def Device.gathered (r : HallRun) (d : Device) : Device :=
  (d.hallShown (d.hall.transition (hallSector d.words d.hall.raw) r)).gather .ch0
    (CaptureBuffer.addHall r.first d.hall.raw)

theorem Device.afterTransition_eq (r : HallRun) (d : Device) : d.afterTransition r =
    if classify (hallSector d.words d.hall.raw) d.hall.refSector = .skip then
      (d.gathered r).reportSkip d.hall.refSector d.hall.raw else d.gathered r := by
  rw [Device.reportSkip_eq, Device.gathered, Device.gather_eq, HallTimer.transition_eq]
  rfl

/-- The acceptance of a transition: what it makes, and the snap of a channel that snaps. -/
theorem Device.acceptTransition_eq (r : HallRun) (d : Device) :
    let sector := hallSector d.words d.hall.raw
    let direction := classify sector d.hall.refSector
    let made := d.afterTransition r
    d.acceptTransition r =
      if (made.chan .ch0).snaps direction then made.snap direction (sector.getD 0) r.first else made := by
  intro sector direction made
  have hshown := d.evaluateHal_hallShown (d.hall.transition sector r) (code := d.hall.raw) rfl
  unfold Device.acceptTransition
  simp only [made, Device.afterTransition_eq, Device.gathered, hshown, direction, sector]

theorem Device.transits_acceptTransition (r : HallRun) (d : Device) : d.Transits r (d.acceptTransition r) := by
  simp only [Device.Transits, ← Channel.snaps_iff, ← Device.snap_eq_afterSnap, Device.acceptTransition_eq]
  exact ⟨fun h => if_pos h, fun h => if_neg h⟩

/-! ### What a transition leaves -/

theorem hallSector_getD_lt (words : List Word) (code : BitVec 3) : (hallSector words code).getD 0 < 6 := by
  cases h : hallSector words code with
  | none => decide
  | some sector => exact hallSector_lt h

/-- Only an INVALID code has no sector (R137). -/
theorem sector_ne_none {sector ref : Option Nat} (h : classify sector ref ≠ .invalid) : sector ≠ none := by
  rintro rfl
  exact h rfl

/-- What a transition of this direction, but for its snap, leaves of CH0. -/
structure Channel.Passed (direction : Direction) (x y : Channel) : Prop where
  plan : y.plan = x.plan
  theta : y.theta = x.theta
  q : y.q = x.q
  loadTime : y.loadTime = x.loadTime
  inForce : y.inForce = x.inForce
  counters : y.counters = { x.counters with
    hallSkips := x.counters.hallSkips + (if direction = Direction.skip then 1 else 0) }
  /-- only HAL's assertion changes the state -/
  state : direction ≠ .invalid → y.state = x.state

/-- HAL's assertion or release passes, with the report of a skip after it. -/
theorem Channel.ActedOn.passed {direction : Direction} {x y z : Channel} (h : x.ActedOn y)
    (hs : direction ≠ .invalid → y.state = x.state) (hz : z = { y with
      counters := { y.counters with
        hallSkips := y.counters.hallSkips + (if direction = Direction.skip then 1 else 0) }
      log := z.log }) : x.Passed direction z where
  plan := by rw [hz, h.fields]
  theta := by rw [hz, h.fields]
  q := by rw [hz, h.fields]
  loadTime := by rw [hz, h.fields]
  inForce := by rw [hz, h.fields]
  counters := by rw [hz, h.fields]
  state := fun hd => by rw [hz, hs hd]

theorem Channel.Passed.snapsOn_iff {direction : Direction} {x y : Channel} (h : x.Passed direction y) :
    y.snapsOn direction ↔ x.snapsOn direction := by
  by_cases hd : direction = .invalid
  · simp [Channel.snapsOn, hd]
  · rw [Channel.snapsOn, h.plan, h.state hd, Channel.snapsOn]

theorem Device.chan_gather (c c' : ChannelId) (f : CaptureBuffer → CaptureBuffer) (d : Device) :
    (d.gather c f).chan c' = d.chan c' := by
  rw [Device.gather_eq]
  split_ifs <;> rfl

section
variable (r : HallRun) (d : Device)

theorem Device.passed_afterTransition :
    (d.chan .ch0).Passed (classify (hallSector d.words d.hall.raw) d.hall.refSector)
      ((d.afterTransition r).chan .ch0) := by
  obtain ⟨hacts, hstate⟩ := d.chan_hallShown (d.hall.transition (hallSector d.words d.hall.raw) r)
  have hgathered : (d.gathered r).chan .ch0 = (d.hallShown _).chan .ch0 := Device.chan_gather ..
  rw [← hgathered] at hacts hstate
  rw [Device.afterTransition_eq]
  by_cases hd : classify (hallSector d.words d.hall.raw) d.hall.refSector = .skip
  · rw [if_pos hd, Device.chan_reportSkip, hd]
    exact hacts.passed (fun _ => hstate (sector_ne_none (hd.trans_ne (by decide)))) rfl
  · rw [if_neg hd]
    exact hacts.passed (fun hinvalid => hstate (sector_ne_none hinvalid)) (by simp [hd])

theorem Device.afterTransition_rest : d.afterTransition r =
    { d.hallShown (d.hall.transition (hallSector d.words d.hall.raw) r) with
      channels := (d.afterTransition r).channels, notice := (d.afterTransition r).notice
      capture := (d.afterTransition r).capture } := by
  rw [Device.afterTransition_eq, Device.reportSkip_eq, Device.gathered, Device.gather_eq]
  split_ifs <;> rfl

theorem Device.hall_afterTransition :
    (d.afterTransition r).hall = d.hall.transition (hallSector d.words d.hall.raw) r := by
  rw [Device.afterTransition_rest]
  exact Device.hall_hallShown ..

theorem Device.hal_afterTransition :
    (d.afterTransition r).hal = d.halAfterCode (hallSector d.words d.hall.raw) := by
  rw [Device.afterTransition_rest]
  exact Device.hal_hallShown ..

theorem Device.words_afterTransition : (d.afterTransition r).words = d.words := by
  refine Device.words_congr ?_
  rw [Device.afterTransition_rest]
  exact Device.setup_hallShown ..

/-- A skip is noticed as HALL. -/
theorem Device.notice_afterTransition (hd : classify (hallSector d.words d.hall.raw) d.hall.refSector = .skip) :
    (d.afterTransition r).notice.getLsbD 10 = true := by
  rw [Device.afterTransition_eq, if_pos hd]
  exact (Device.getLsbD_setNotice_hall _ (by decide)).trans (by simp)

theorem Device.spares_afterTransition : d.Spares .ch0 (d.afterTransition r) := by
  have hgathered : d.Spares .ch0 (d.gathered r) :=
    (d.spares_hallShown _).trans (Device.spares_gather _ _ _ _)
  rw [Device.afterTransition_eq]
  refine .ite (fun _ => hgathered.trans ?_) fun _ => hgathered
  exact ((Device.spares_modChan _ _ _).trans (Device.spares_hand _ _ _)).trans (Device.spares_setNotice _ _ _)
end

/-! ### What a snap leaves -/

section
variable (direction : Direction) (sector : Nat) (t : RefCount) (d : Device)

theorem Device.chan_snap : (d.snap direction sector t).chan .ch0 =
    (d.chan .ch0).snapped (hallCsnap d.words) (d.snapErrorNow direction sector t) := by
  rw [Device.snap_eq]
  rfl

theorem Device.snap_rest : d.snap direction sector t = { d with
    channels := (d.snap direction sector t).channels, ram := (d.snap direction sector t).ram
    statusWrite := (d.snap direction sector t).statusWrite
    hall := { d.hall with snapError := some (d.snapErrorNow direction sector t) } } := by
  rw [Device.snap_eq]
  rfl

theorem Device.spares_snap : d.Spares .ch0 (d.snap direction sector t) := by
  rw [Device.snap_eq]
  exact (Device.spares_modChan .ch0 (fun x => x.snapped _ _) d).trans (.of_channels rfl)
end

/-- The error of a snap into one of the six sectors, in the set in force. -/
theorem Device.snapErrorNow_eq {d : Device} {e : EdgeSet} (he : (d.chan .ch0).inForce = some e) {sector : Nat}
    (h : sector < 6) (direction : Direction) (t : RefCount) : d.snapErrorNow direction sector t =
      (hallBoundary d.words ((sector + if direction = .reverse then 1 else 0) % 6) -
        ((d.chan .ch0).theta + BitVec.ofInt 16 (Int.fdiv ((d.chan .ch0).plan.rate * (t - (d.chan .ch0).loadTime).toInt)
          (4 * e.modulus : Nat)) + (d.chan .ch0).q)).toInt := by
  rw [Device.snapErrorNow, he, snapError_eq, boundaryIndex_eq h]
  rfl

/-! ### The transition as a whole -/

section
variable {r : HallRun} {d : Device} {sector : Option Nat} {direction : Direction}
  (hsector : hallSector d.words d.hall.raw = sector) (hdirection : classify sector d.hall.refSector = direction)

include hsector hdirection

theorem Device.acceptTransition_of_snaps (hs : (d.chan .ch0).snapsOn direction) :
    d.acceptTransition r = (d.afterTransition r).snap direction (sector.getD 0) r.first := by
  subst hsector hdirection
  rw [Device.acceptTransition_eq]
  exact if_pos ((Channel.snaps_iff ..).2 ((d.passed_afterTransition r).snapsOn_iff.2 hs))

theorem Device.acceptTransition_of_not_snaps (hs : ¬(d.chan .ch0).snapsOn direction) :
    d.acceptTransition r = d.afterTransition r := by
  subst hsector hdirection
  rw [Device.acceptTransition_eq]
  exact if_neg fun h => hs ((d.passed_afterTransition r).snapsOn_iff.1 ((Channel.snaps_iff ..).1 h))
end

section
variable (r : HallRun) (d : Device)

/-- What the snap may add to the rest of a transition. -/
theorem Device.acceptTransition_rest : d.acceptTransition r = { d.afterTransition r with
    channels := (d.acceptTransition r).channels, ram := (d.acceptTransition r).ram
    statusWrite := (d.acceptTransition r).statusWrite
    hall := { (d.afterTransition r).hall with snapError := (d.acceptTransition r).hall.snapError } } := by
  rw [Device.acceptTransition_eq]
  split_ifs
  · rw [Device.snap_rest]
  · rfl

theorem Device.hall_acceptTransition : (d.acceptTransition r).hall =
    { d.hall.transition (hallSector d.words d.hall.raw) r with
      snapError := (d.acceptTransition r).hall.snapError } := by
  rw [← Device.hall_afterTransition, Device.acceptTransition_rest]

theorem Device.hal_acceptTransition :
    (d.acceptTransition r).hal = d.halAfterCode (hallSector d.words d.hall.raw) := by
  rw [← Device.hal_afterTransition r, Device.acceptTransition_rest]

theorem Device.notice_acceptTransition : (d.acceptTransition r).notice = (d.afterTransition r).notice := by
  rw [Device.acceptTransition_rest]

theorem Device.counters_acceptTransition : ((d.acceptTransition r).chan .ch0).counters =
    { ((d.afterTransition r).chan .ch0).counters with
      hallSnaps := ((d.acceptTransition r).chan .ch0).counters.hallSnaps } := by
  rw [Device.acceptTransition_eq]
  split_ifs
  · rw [Device.chan_snap, Channel.snapped]
  · rfl

theorem Device.spares_acceptTransition : d.Spares .ch0 (d.acceptTransition r) := by
  rw [Device.acceptTransition_eq]
  exact (d.spares_afterTransition r).trans (.ite (fun _ => Device.spares_snap _ _ _ _) fun _ => .refl _ _)
end

theorem Device.expireHall_of_run {d : Device} {old : BitVec 3} {r0 r : HallRun} (hs : d.setup ≠ none)
    (ha : d.hall.accepted = some old) (hr0 : d.hall.run = some r0)
    (hr : (d.advanceTo (r0.last + BitVec.ofNat 32 (hallTh d.words * 128))).hall.run = some r) : d.expireHall =
      ((d.advanceTo (r0.last + BitVec.ofNat 32 (hallTh d.words * 128))).acceptTransition r).arbitrate := by
  have hexpiry : d.hallExpiry = some (r0.last + BitVec.ofNat 32 (hallTh d.words * 128)) := by
    simp [Device.hallExpiry, (d.locked_iff).2 hs, ha, hr0, hallHold]
  have haccepted (t : RefCount) : (d.advanceTo t).hall.accepted = some old := by rw [Device.hall_advanceTo, ha]
  simp only [Device.expireHall, hexpiry, Device.acceptHall, haccepted, hr]

/-- Settles O56. -/
theorem theTransition : Obligations.TheTransition := by
  intro s old r r0 hs ha hr0 at_ hr h ch sector direction elapsed snaps boundary τ edge error limit
  have hwords : at_.words = s.words := Device.words_advanceTo ..
  have hch : at_.chan .ch0 = ch := Device.chan_advanceTo ..
  have hsector : hallSector at_.words at_.hall.raw = sector := by rw [hwords]
  have hdirection : classify (hallSector at_.words at_.hall.raw) at_.hall.refSector = direction := by rw [hsector]
  have hpassed : ch.Passed direction ((at_.afterTransition r).chan .ch0) := by
    rw [← hch, ← hdirection]
    exact at_.passed_afterTransition r
  have hout := (at_.acceptTransition r).handsOut_arbitrate
  have hexec : exec .hallFilterExpiry s =
      .next { s with toDevice := publish s.toDevice (at_.acceptTransition r).arbitrate } := by
    rw [exec_hallFilterExpiry, State.apply_eq, Device.expireHall_of_run hs ha hr0 hr]
  generalize (at_.acceptTransition r).arbitrate = e at hout hexec
  have hhall : e.hall = (at_.acceptTransition r).hall := by rw [hout.rest]
  have hq : (e.chan .ch0).q = ((at_.acceptTransition r).chan .ch0).q := by rw [hout.channels]
  have hcounters : (e.chan .ch0).counters = ((at_.acceptTransition r).chan .ch0).counters := by rw [hout.channels]
  refine ⟨_, at_.acceptTransition r, e, hexec, rfl, at_.transits_acceptTransition r, hout, ?hall, ?hal,
    fun hskip => ?notice, ?spares, ?counters, fun set hset hsnap => ?snap, fun hsnap => ?still⟩
  case hall =>
    show e.hall = { h with
      accepted := some h.raw, run := none, lastTransition := some r.first, elapsed := r.measure, direction := direction
      refSector := if sector = none then h.refSector else sector
      interval := if h.lastTransition = none then 65535 else elapsed / 64
      snapError := e.hall.snapError }
    rw [hhall, at_.hall_acceptTransition r, hsector, HallTimer.transition_eq]
  case hal =>
    show e.hal = s.halAfterCode sector
    rw [hout.rest]
    exact (at_.hal_acceptTransition r).trans (hsector ▸ Device.halAfterCode_advanceTo ..)
  case notice =>
    show e.notice.getLsbD 10 = true
    have hnotice : e.notice = (at_.afterTransition r).notice := by
      rw [hout.rest]
      exact at_.notice_acceptTransition r
    rw [hnotice]
    exact at_.notice_afterTransition r (hdirection.trans hskip)
  case spares =>
    have htime : s.Spares .ch0 at_ := Device.spares_advanceTo _ _ _
    exact (htime.trans (at_.spares_acceptTransition r)).trans fun c _ => hout.channels c
  case counters =>
    show (e.chan .ch0).counters = { ch.counters with
      hallSkips := ch.counters.hallSkips + (if direction = Direction.skip then 1 else 0)
      hallSnaps := (e.chan .ch0).counters.hallSnaps }
    rw [hcounters, at_.counters_acceptTransition r, hpassed.counters]
  case snap =>
    have hmade := Device.acceptTransition_of_snaps (r := r) hsector rfl (hch ▸ hsnap)
    have herror : (at_.afterTransition r).snapErrorNow direction (sector.getD 0) r.first = error set := by
      rw [Device.snapErrorNow_eq (hpassed.inForce.trans hset) (hallSector_getD_lt ..), hpassed.theta, hpassed.plan,
        hpassed.q, hpassed.loadTime, Device.words_afterTransition, hwords]
    have hchan : (at_.acceptTransition r).chan .ch0 =
        ((at_.afterTransition r).chan .ch0).snapped (hallCsnap s.words) (error set) := by
      rw [hmade, Device.chan_snap, herror, Device.words_afterTransition, hwords]
    refine ⟨?_, ?_, ?_⟩
    · show e.hall.snapError = some (error set)
      rw [hhall, hmade, Device.snap_rest, herror]
    · show (e.chan .ch0).counters.hallSnaps = ch.counters.hallSnaps + 1
      rw [hcounters, hchan, Channel.snapped, hpassed.counters]
    · show (e.chan .ch0).q = _
      rw [hq, hchan, Channel.snapped, hpassed.q]
  case still =>
    have hmade := Device.acceptTransition_of_not_snaps (r := r) hsector rfl (hch ▸ hsnap)
    refine ⟨?_, ?_, ?_⟩
    · show e.hall.snapError = h.snapError
      rw [hhall, hmade, Device.hall_afterTransition, HallTimer.transition_eq]
    · show (e.chan .ch0).counters.hallSnaps = ch.counters.hallSnaps
      rw [hcounters, hmade, hpassed.counters]
    · show (e.chan .ch0).q = ch.q
      rw [hq, hmade, hpassed.q]

end Sys2Proof.Machine
end

section
/-! The setup copy (R163, R165): the checks and the first that fails, and where the fields of the copy stand. -/

namespace Sys2Proof.Machine

open Sys2Proof

/-! ### The first failing check -/

/-- A search of a list in a strict order finds the first: what stands before it in the order gives nothing. -/
theorem findSome?_first {α β : Type} {f : α → Option β} {before : α → α → Prop} {l : List α} {b : β}
    (hl : l.Pairwise before) (h : l.findSome? f = some b) :
    ∃ a ∈ l, f a = some b ∧ ∀ x ∈ l, x ≠ a → ¬before a x → f x = none := by
  obtain ⟨l₁, a, l₂, rfl, ha, hnone⟩ := List.findSome?_eq_some_iff.1 h
  refine ⟨a, by simp, ha, fun x hx hne hbefore => ?_⟩
  rcases List.mem_append.1 hx with hx | hx
  · exact hnone x hx
  · rcases List.mem_cons.1 hx with rfl | hx
    · exact absurd rfl hne
    · exact absurd (List.rel_of_pairwise_cons (List.pairwise_append.1 hl).2.1 hx) hbefore

theorem mem_allChannels (c : ChannelId) : c ∈ allChannels := by cases c <;> simp [allChannels]

theorem channelIndex_injective {c c' : ChannelId} (h : channelIndex c = channelIndex c') : c = c' := by
  have hof (x : ChannelId) : channelOfNat (channelIndex x) = some x := by cases x <;> rfl
  exact Option.some.inj ((hof c).symm.trans (h ▸ hof c'))

/-- R165 has ten checks. -/
theorem checkFails_unlisted {words : List Word} {k : Nat} (hk : k ∉ checkCodes) (c : ChannelId) :
    checkFails words k c = false := by
  unfold checkFails
  split <;> simp_all [checkCodes]

section
variable {words : List Word} {k : Nat} {c : ChannelId}

theorem setupError_eq_none_iff : setupError words = none ↔ ∀ k c, ¬checkFails words k c = true := by
  refine ⟨fun h k c => ?_, fun h => ?_⟩
  · by_cases hk : k ∈ checkCodes
    · simp [checkFails_false h hk c]
    · simp [checkFails_unlisted hk c]
  · simp [setupError, List.findSome?_eq_none_iff, h]

/-- The check and the channel that are found come first, the check before the channel. -/
theorem setupError_first (h : setupError words = some (k, c)) : checkFails words k c = true ∧
    (∀ c', channelIndex c' < channelIndex c → ¬checkFails words k c' = true) ∧
    (∀ j c', j < k → ¬checkFails words j c' = true) := by
  obtain ⟨k', -, hfound, hchecks⟩ := findSome?_first (before := (· < ·)) (by decide) h
  obtain ⟨c', -, hfails, hchannels⟩ :=
    findSome?_first (before := fun x y => channelIndex x < channelIndex y) (by decide) hfound
  obtain ⟨hkc, rfl, rfl⟩ : checkFails words k' c' = true ∧ k' = k ∧ c' = c := by simpa using hfails
  refine ⟨hkc, fun x hx => ?_, fun j x hj => ?_⟩
  · have hne : x ≠ c' := fun he => hx.ne (congrArg channelIndex he)
    simpa using hchannels x (mem_allChannels x) hne (by omega)
  · by_cases hlisted : j ∈ checkCodes
    · have hnone := hchecks j hlisted (by omega) (by omega)
      simpa using List.findSome?_eq_none_iff.1 hnone x (mem_allChannels x)
    · simp [checkFails_unlisted hlisted x]

theorem setupError_eq_some_iff : setupError words = some (k, c) ↔ checkFails words k c = true ∧
    (∀ c', channelIndex c' < channelIndex c → ¬checkFails words k c' = true) ∧
    (∀ j c', j < k → ¬checkFails words j c' = true) := by
  refine ⟨setupError_first, fun ⟨hfails, hchannels, hchecks⟩ => ?_⟩
  cases hfound : setupError words with
  | none => exact absurd hfails (setupError_eq_none_iff.1 hfound k c)
  | some found =>
    obtain ⟨k', c'⟩ := found
    obtain ⟨hfails', hchannels', hchecks'⟩ := setupError_first hfound
    have hk : k' = k := Nat.le_antisymm (not_lt.1 fun hlt => hchecks' k c hlt hfails)
      (not_lt.1 fun hlt => hchecks k' c' hlt hfails')
    subst hk
    have hc : channelIndex c' = channelIndex c := Nat.le_antisymm (not_lt.1 fun hlt => hchannels' c hlt hfails)
      (not_lt.1 fun hlt => hchannels c' hlt hfails')
    rw [channelIndex_injective hc]
end

/-! ### The checks themselves -/

theorem sectorUses_eq_one_iff (words : List Word) (s : Nat) : sectorUses words s = 1 ↔
    ∃ k, k < 8 ∧ wordNat words (18 + k) = s ∧ ∀ j, j < 8 → wordNat words (18 + j) = s → j = k := by
  have hcard : sectorUses words s = ((Finset.range 8).filter fun k => wordNat words (18 + k) = s).card := rfl
  rw [hcard, Finset.card_eq_one]
  refine exists_congr fun k => ?_
  simp only [Finset.eq_singleton_iff_unique_mem, Finset.mem_filter, Finset.mem_range, and_assoc, and_imp]

/-- The sector table fails where one of the six sectors does not stand in it exactly once. -/
theorem checkFails_sectors (words : List Word) (c : ChannelId) : checkFails words 8 c = true ↔
    c = .ch0 ∧ ∃ s, s ≤ 5 ∧
      ¬∃ k, k < 8 ∧ wordNat words (18 + k) = s ∧ ∀ j, j < 8 → wordNat words (18 + j) = s → j = k := by
  simp only [← sectorUses_eq_one_iff]
  simp [checkFails, Nat.lt_succ_iff]

/-! ### Words and their bits (R171) -/

theorem bitField_toNat (x : Word) (low n : Nat) : bitField x.toNat low n = (x.extractLsb' low n).toNat := by
  rw [BitVec.extractLsb'_toNat, Nat.shiftRight_eq_div_pow, bitField]

theorem hallTh_eq (words : List Word) : hallTh words = ((words.getD 16 0).extractLsb' 0 8).toNat := bitField_toNat ..

theorem hallCsnap_eq (words : List Word) : hallCsnap words = ((words.getD 17 0).extractLsb' 0 12).toNat :=
  bitField_toNat ..

theorem faultMapped_eq (words : List Word) (c : ChannelId) :
    faultMapped words .flt0 c = (words.getD 0x6A 0).getLsbD (channelIndex c) ∧
      faultMapped words .flt1 c = (words.getD 0x6B 0).getLsbD (channelIndex c) :=
  ⟨bitSet_toNat .., bitSet_toNat ..⟩

/-- Settles O12. -/
theorem theSetupCheckNamesTheFirstFailure : Obligations.TheSetupCheckNamesTheFirstFailure := by
  refine ⟨?checks, ?fields, ?conditions, rfl⟩
  case checks =>
    intro words fails
    have hfails (k : Nat) (c : ChannelId) : fails k c ↔ checkFails words k c = true := by
      match k with
      | 8 => exact (checkFails_sectors words c).symm
      | 1 | 2 | 3 | 4 | 9 | 10 =>
        simp only [fails, checkFails, Bool.or_eq_true, decide_eq_true_eq, beq_iff_eq]
        omega
      | 5 | 6 => simp only [fails, checkFails, decide_eq_true_eq, beq_iff_eq]
      | 7 => simp only [fails, checkFails, Bool.or_eq_true, Bool.and_eq_true, decide_eq_true_eq, beq_iff_eq, or_assoc]
      | 0 | k + 11 => simp [fails, checkFails]
    simp only [hfails]
    exact ⟨setupError_eq_none_iff, fun k c => setupError_eq_some_iff⟩
  case fields =>
    intro words c word bits base
    have hbase : setupBase c = base := by cases c <;> rfl
    refine ⟨?_, hallTh_eq words, ?_, hallCsnap_eq words, fun _ => rfl, fun _ _ => rfl, fun _ _ => rfl, ?_, ?_⟩
    · simp only [channelSetup, hbase, Nat.add_zero, wordNat, bitSet_toNat, bitField_toNat, word, bits]
    · rw [hallHold, hallTh_eq]
    · simp only [globalSetup, wordNat, bitField_toNat, word, bits]
    · cases c <;> exact ⟨rfl, faultMapped_eq words _⟩
  case conditions =>
    intro d c g coded
    refine ⟨rfl, rfl, rfl, fun id => ?_⟩
    cases id <;> rfl

end Sys2Proof.Machine
end

section
/-! The filter of the Hall timer (R134 to R137): what a change of the lines makes of it, and the classification of a
transition by its sector. -/

namespace Sys2Proof.Machine

open Sys2Proof

/-! ### The classification (R137) -/

/-- The classification of a transition between two of the six sectors. -/
theorem classify_sectors (s r : Nat) : classify (some s) (some r) =
    if r = (s + 5) % 6 then .forward else if r = (s + 1) % 6 then .reverse else if r = s then .back else .skip := rfl

/-- The sector before `s`, in the two spellings. -/
theorem eq_sector_before_iff (s r : Nat) : (r : Int) = ((s : Int) - 1) % 6 ↔ r = (s + 5) % 6 := by omega

/-- Settles O54. -/
theorem transitionsAreClassified : Obligations.TransitionsAreClassified := by
  intro s r hs hr
  rw [eq_sector_before_iff, classify_sectors]
  refine ⟨rfl, rfl, rfl, fun h => if_pos h, fun h => ?reverse, fun h => ?back, fun hf hv hb => ?skip,
    fun h run => ⟨rfl, rfl, fun _ => rfl⟩⟩
  case reverse => rw [if_neg (by omega), if_pos h]
  case back => rw [if_neg (by omega), if_neg (by omega), if_pos h]
  case skip => rw [if_neg (mt (eq_sector_before_iff s r).2 hf), if_neg hv, if_neg hb]

/-! ### What the filter makes of a new code (R135, R136) -/

section
variable {d : Device}

/-- A code while none is accepted: the measure restarts, or with Th = 0 the acquisition is made. -/
theorem Device.filterHall_of_none (ha : d.hall.accepted = none) :
    d.filterHall = if hallTh d.words = 0 then d.afterAcquisition else d.measuring := by
  have haccept : d.measuring.acceptHall = d.afterAcquisition := by
    have hacquire : d.measuring.acceptHall = d.measuring.acquire := by
      simp only [Device.acceptHall, Device.measuring, ha]
    rw [hacquire, Device.acquire_eq_afterAcquisition]
    rfl
  have hfilter : d.filterHall = if hallHold d.words = 0 then d.measuring.acceptHall else d.measuring := by
    simp only [Device.filterHall, ha]
    rfl
  rw [hfilter, haccept]
  simp only [hallHold_eq_zero_iff]

/-- The accepted code again: the run is abandoned. -/
theorem Device.filterHall_of_same (ha : d.hall.accepted = some d.hall.raw) :
    d.filterHall = { d with hall := { d.hall with run := none } } := by
  simp only [Device.filterHall, ha, if_true]

/-- The part whose filter has begun a run with the present change, or continued the pending one. -/
def Device.timing (d : Device) : Device := { d with hall := { d.hall with run := some (d.hall.runAfter d.refCount) } }

theorem Device.timing_eq : d.timing = { d with hall := { d.hall with run := match d.hall.run with
    | none => some { first := d.refCount, last := d.refCount, measure := 0 }
    | some r => some { r with last := d.refCount } } } := by
  rw [Device.timing, HallTimer.runAfter]
  cases d.hall.run <;> rfl

/-- Another code than the accepted one: a run that begins or continues, or with Th = 0 the transition by it. -/
theorem Device.filterHall_of_other {old : BitVec 3} (ha : d.hall.accepted = some old) (hold : old ≠ d.hall.raw) :
    d.filterHall =
      if hallTh d.words = 0 then d.timing.acceptTransition (d.hall.runAfter d.refCount) else d.timing := by
  have haccept : d.timing.acceptHall = d.timing.acceptTransition (d.hall.runAfter d.refCount) := by
    simp only [Device.acceptHall, Device.timing, ha]
  have hfilter : d.filterHall = if hallHold d.words = 0 then d.timing.acceptHall else d.timing := by
    unfold Device.filterHall
    split
    case h_1 hnone => exact absurd (hnone.symm.trans ha) (by simp)
    case h_2 code hcode =>
      obtain rfl : code = old := Option.some.inj (hcode.symm.trans ha)
      exact if_neg hold.symm
  rw [hfilter, haccept]
  simp only [hallHold_eq_zero_iff]

/-- With Th = 0 the code of the lines is the accepted one after every change. -/
theorem Device.hall_filterHall_of_zero (hth : hallTh d.words = 0) :
    d.filterHall.hall.raw = d.hall.raw ∧ d.filterHall.hall.accepted = some d.hall.raw := by
  cases ha : d.hall.accepted with
  | none =>
    have hhall : d.afterAcquisition.hall = d.hall.acquisition (hallSector d.words d.hall.raw) :=
      Device.hall_hallShown ..
    rw [Device.filterHall_of_none ha, if_pos hth, hhall]
    exact ⟨rfl, rfl⟩
  | some old =>
    by_cases hold : old = d.hall.raw
    · rw [Device.filterHall_of_same (ha.trans (congrArg some hold))]
      exact ⟨rfl, ha.trans (congrArg some hold)⟩
    · rw [Device.filterHall_of_other ha hold, if_pos hth, Device.hall_acceptTransition]
      exact ⟨rfl, rfl⟩

/-- A transition ends the pending run, so it is the same with the run still held in the filter. -/
theorem Device.transits_timing (r : HallRun) : d.Transits r (d.timing.acceptTransition r) :=
  d.timing.transits_acceptTransition r
end

/-! ### A change of the Hall lines (R134, R135) -/

theorem exec_hallLineChange (code : BitVec 3) (s : State) :
    exec (.hallLineChange code) s = s.apply (Device.changeHall code) := rfl

/-- The part whose Hall lines spell this code. -/
def Device.withRaw (code : BitVec 3) (d : Device) : Device := { d with hall := { d.hall with raw := code } }

section
variable {code : BitVec 3} {d : Device}

theorem Device.changeHall_same (h : code = d.hall.raw) : d.changeHall code = d := if_pos h

theorem Device.changeHall_unlocked (h : code ≠ d.hall.raw) (hs : d.setup = none) :
    d.changeHall code = d.withRaw code := by
  have hl : d.locked = false := by rw [Device.locked, hs, Option.isSome_none]
  rw [Device.changeHall, if_neg h]
  exact if_neg (hl ▸ Bool.false_ne_true)

theorem Device.changeHall_locked (h : code ≠ d.hall.raw) (hs : d.setup ≠ none) :
    d.changeHall code = (d.withRaw code).filterHall.arbitrate := by
  rw [Device.changeHall, if_neg h]
  exact if_pos (d.locked_iff.2 hs)

/-- The status block does not show the raw code. -/
theorem statusWord_withRaw (code : BitVec 3) (d : Device) : statusWord (d.withRaw code) = statusWord d :=
  statusWord_congr rfl rfl rfl rfl rfl rfl rfl rfl rfl rfl rfl
end

/-- A change of the lines of a locked part leaves what the filter makes of the code, up to the hand-out. -/
theorem State.handsOut_hallLineChange {code : BitVec 3} {s : State} {d : Device} (h : code ≠ s.hall.raw)
    (hs : s.setup ≠ none) (hd : (s.toDevice.withRaw code).filterHall = d) :
    ∃ e, d.HandsOut e ∧ exec (.hallLineChange code) s = .next { s with toDevice := publish s.toDevice e } := by
  subst hd
  refine ⟨_, Device.handsOut_arbitrate _, ?_⟩
  rw [exec_hallLineChange, State.apply_eq, Device.changeHall_locked h hs]

/-- Settles O53. -/
theorem aHallChangeBeginsOrContinuesARun : Obligations.AHallChangeBeginsOrContinuesARun := by
  intro s code handsOut raw
  refine ⟨fun h => ?same, fun h hs => ?unlocked, fun h hs ha hth => ?measures, fun h hs ha => ?abandons,
    fun old h hs ha hold hth => ?runs, fun h hs hth => ?accepts, fun h hs hth ha => ?acquires,
    fun old h hs hth ha hold => ?transits⟩
  case same => rw [exec_hallLineChange, State.apply_eq, Device.changeHall_same h, publish_of_statusWord_eq rfl]
  case unlocked =>
    rw [exec_hallLineChange, State.apply_eq, Device.changeHall_unlocked h hs,
      publish_of_statusWord_eq (statusWord_withRaw ..)]
    rfl
  case measures =>
    exact State.handsOut_hallLineChange h hs ((Device.filterHall_of_none (d := s.withRaw code) ha).trans (if_neg hth))
  case abandons => exact State.handsOut_hallLineChange h hs (Device.filterHall_of_same (d := s.withRaw code) ha)
  case runs =>
    exact State.handsOut_hallLineChange h hs
      (((Device.filterHall_of_other (d := s.withRaw code) ha hold).trans (if_neg hth)).trans Device.timing_eq)
  case accepts =>
    obtain ⟨e, hout, hexec⟩ := State.handsOut_hallLineChange h hs rfl
    obtain ⟨hraw, haccepted⟩ := Device.hall_filterHall_of_zero (d := s.withRaw code) hth
    refine ⟨_, hexec, ?_⟩
    show e.hall.raw = code ∧ e.hall.accepted = some code
    rw [hout.rest]
    exact ⟨hraw, haccepted⟩
  case acquires =>
    exact State.handsOut_hallLineChange h hs ((Device.filterHall_of_none (d := s.withRaw code) ha).trans (if_pos hth))
  case transits =>
    exact ⟨_, Device.transits_timing _, State.handsOut_hallLineChange h hs
      ((Device.filterHall_of_other (d := s.withRaw code) ha hold).trans (if_pos hth))⟩

end Sys2Proof.Machine
end

section
/-! NOTICE, NOTICE_EN and the INT line (R153, R154), and the capture unit: the selection of a period, its copy and the words
of the capture area (R158 to R160). -/

namespace Sys2Proof.Machine

open Sys2Proof

/-! ### The two registers and INT (R153, R154) -/

/-- The status block does not show NOTICE: the write publishes nothing. -/
theorem exec_noticeWrite (value : Word) (s : State) :
    exec (.noticeWrite value) s = .next { s with toDevice := s.writeNotice value } := by
  have hshown : statusWord (s.writeNotice value) = statusWord s.toDevice := by
    unfold Device.writeNotice
    split
    · exact statusWord_congr rfl rfl rfl rfl rfl rfl rfl rfl rfl rfl rfl
    · rfl
  show s.apply (Device.writeNotice value) = _
  rw [State.apply_eq, publish_of_statusWord_eq hshown]

/-- Nor does it show NOTICE_EN. -/
theorem exec_noticeEnWrite (value : Word) (s : State) :
    exec (.noticeEnWrite value) s = .next { s with toDevice := s.writeNoticeEn value } := by
  have hshown : statusWord (s.writeNoticeEn value) = statusWord s.toDevice := by
    unfold Device.writeNoticeEn
    split
    · exact statusWord_congr rfl rfl rfl rfl rfl rfl rfl rfl rfl rfl rfl
    · rfl
  show s.apply (Device.writeNoticeEn value) = _
  rw [State.apply_eq, publish_of_statusWord_eq hshown]

section
variable {d : Device} (value : Word)

theorem Device.writeNotice_ready (h : d.ready = true) :
    d.writeNotice value = { d with notice := d.notice &&& ~~~(value.truncate 13) } := if_pos h

theorem Device.writeNoticeEn_ready (h : d.ready = true) :
    d.writeNoticeEn value = { d with noticeEn := value.truncate 13 } := if_pos h

theorem Device.writeNotice_not_ready (h : d.ready = false) : d.writeNotice value = d := if_neg (by simp [h])

theorem Device.writeNoticeEn_not_ready (h : d.ready = false) : d.writeNoticeEn value = d := if_neg (by simp [h])

theorem portRead_notice (h : d.resetLow = false) : portRead d 0x2003 = some (noticeRegister d) := by
  simp [portRead, h]

theorem portRead_noticeEn (h : d.resetLow = false) : portRead d 0x2004 = some (noticeEnRegister d) := by
  simp [portRead, h]
end

/-- Two registers share a set bit exactly where their conjunction is not 0. -/
theorem and_ne_zero_iff_getLsbD {w : Nat} (x y : BitVec w) :
    x &&& y ≠ 0 ↔ ∃ k, k < w ∧ x.getLsbD k = true ∧ y.getLsbD k = true := by
  simp [Ne, BitVec.eq_of_getLsbD_eq_iff]

/-- INT is active low: it is low while a notice is both set and enabled (R154). -/
theorem Device.intPin_eq_false_iff (d : Device) :
    d.intPin = false ↔ ∃ k, k < 13 ∧ d.notice.getLsbD k = true ∧ d.noticeEn.getLsbD k = true := by
  rw [← and_ne_zero_iff_getLsbD]
  simp [Device.intPin, Device.intAsserted]

/-- Settles O20. -/
theorem noticesAndTheInterruptLine : Obligations.NoticesAndTheInterruptLine := by
  refine ⟨fun s value => ⟨fun h => ⟨⟨s.notice &&& ~~~(value.truncate 13), ?clears, ?cleared⟩,
      value.truncate 13, ?enables, ?enabled⟩, fun h => ⟨?notice, ?noticeEn⟩⟩,
    fun s => ⟨s.intPin_eq_false_iff, fun h => ⟨_, _, portRead_notice h, portRead_noticeEn h, ?bits, ?top⟩⟩⟩
  case clears => rw [exec_noticeWrite, Device.writeNotice_ready value h]
  case cleared =>
    intro k hk
    simp [hk]
  case enables => rw [exec_noticeEnWrite, Device.writeNoticeEn_ready value h]
  case enabled =>
    intro k hk
    simp [hk]
  case notice => rw [exec_noticeWrite, Device.writeNotice_not_ready value h]
  case noticeEn => rw [exec_noticeEnWrite, Device.writeNoticeEn_not_ready value h]
  case bits =>
    intro k hk
    have hword : k < 16 := by omega
    simp [noticeRegister, noticeEnRegister, hword]
  case top =>
    intro k hk
    simp only [noticeRegister, BitVec.truncate_eq_setWidth, BitVec.getLsbD_setWidth, BitVec.getLsbD_of_ge _ _ hk,
      Bool.and_false]

/-! ### The test of a closed period (R159) -/

section
variable {d : Device} {c : ChannelId} {p : ClosedPeriod} {b : CaptureBuffer}

/-- The unit is ARMED for the channel and follows its period, gathered in this buffer. -/
def CaptureUnit.follows (u : CaptureUnit) (c : ChannelId) (b : CaptureBuffer) : Prop :=
  u.mode = .armed ∧ u.channel = c ∧ u.following = some b

/-- The copy that begins at the close of a period. -/
def Device.copyOf (d : Device) (c : ChannelId) (p : ClosedPeriod) (b : CaptureBuffer) : CaptureCopy :=
  { since := d.refCount, words := captureWords (d.chan c).clampedMark p b }

/-- What the unit makes of a followed period: nothing, one match less to go, or the copy. -/
theorem Device.selectPeriod_of_follows (h : d.capture.follows c b) : d.selectPeriod c p =
    if filterMatches d.capture.filter p b then
      if d.capture.skip ≤ 1 then
        { d with
          ram := Memory.write d.ram 0x200 0
          capture := { d.capture with mode := .copying, skip := 0, copy := some (d.copyOf c p b) } }
      else { d with capture := { d.capture with skip := d.capture.skip - 1 } }
    else d := by
  obtain ⟨hmode, hchannel, hfollowing⟩ := h
  simp only [Device.selectPeriod, hfollowing, CaptureUnit.armedFor, hmode, hchannel, beq_self_eq_true, Bool.true_and]
  rfl

theorem Device.selectPeriod_copies (h : d.capture.follows c b) (hm : filterMatches d.capture.filter p b = true)
    (hs : d.capture.skip ≤ 1) : d.selectPeriod c p = { d with
      ram := Memory.write d.ram 0x200 0
      capture := { d.capture with mode := .copying, skip := 0, copy := some (d.copyOf c p b) } } := by
  rw [Device.selectPeriod_of_follows h, if_pos hm, if_pos hs]

theorem Device.selectPeriod_skips (h : d.capture.follows c b) (hm : filterMatches d.capture.filter p b = true)
    (hs : 1 < d.capture.skip) : d.selectPeriod c p =
      { d with capture := { d.capture with skip := d.capture.skip - 1 } } := by
  rw [Device.selectPeriod_of_follows h, if_pos hm, if_neg (by omega)]

/-- A period that is not followed, or that the filter does not match, changes nothing. -/
theorem Device.selectPeriod_passes (h : ∀ b, d.capture.follows c b → ¬filterMatches d.capture.filter p b = true) :
    d.selectPeriod c p = d := by
  by_cases hfollows : ∃ b, d.capture.follows c b
  · obtain ⟨b, hb⟩ := hfollows
    rw [Device.selectPeriod_of_follows hb, if_neg (h b hb)]
  · unfold Device.selectPeriod
    split
    · rename_i b hb
      have harmed : d.capture.armedFor c = false := by
        simp only [CaptureUnit.armedFor, Bool.and_eq_false_iff, beq_eq_false_iff_ne]
        exact not_and_or.1 fun ⟨hmode, hchannel⟩ => hfollows ⟨b, hmode, hchannel, hb⟩
      simp [harmed]
    · rfl
end

theorem filterMatches_shifted_iff (p : ClosedPeriod) (b : CaptureBuffer) :
    filterMatches .shifted p b = true ↔ 0 < p.set.s1 ∨ 0 < p.set.s2 := by
  rw [filterMatches, EdgeSet.shifted_eq, decide_eq_true_iff]

theorem WindowOutcome.notOk_iff (o : WindowOutcome) : o.notOk = true ↔ o ≠ .ok := by
  rw [WindowOutcome.notOk, bne_iff_ne]

theorem filterMatches_failed_iff (p : ClosedPeriod) (b : CaptureBuffer) :
    filterMatches .failed p b = true ↔ p.set.first ≠ .ok ∨ p.set.second ≠ .ok := by
  rw [filterMatches, Bool.or_eq_true, WindowOutcome.notOk_iff, WindowOutcome.notOk_iff]

/-! ### The end of a copy (R160) -/

/-- The exchange RAM at the end of a copy, but for the words that the host has written since. -/
def Device.copiedRam (d : Device) (k : CaptureCopy) : Memory :=
  Memory.write (Memory.writeSome (fun a => !k.kept.contains a) d.ram 0x201 k.words) 0x200 d.capture.generation

theorem Device.wf_copiedRam {d : Device} (h : d.ram.wf = true) (k : CaptureCopy) : (d.copiedRam k).wf = true :=
  Memory.wf_write (Memory.wf_writeSome h _ _ _) _ _

theorem Device.read_copiedRam {d : Device} (h : d.ram.wf = true) (k : CaptureCopy) (a : Nat) :
    Memory.read (d.copiedRam k) a =
      if a = 0x200 then d.capture.generation
      else if 0x201 ≤ a ∧ a < 0x201 + k.words.length ∧ a ∉ k.kept then k.words.getD (a - 0x201) 0
      else Memory.read d.ram a := by
  simp only [Device.copiedRam, Memory.read_write (Memory.wf_writeSome h _ _ _), Memory.read_writeSome h,
    Bool.not_eq_true', List.contains_eq_mem, decide_eq_false_iff_not]

theorem Device.endCopy_eq {d : Device} {k : CaptureCopy} (h : d.capture.copy = some k) : d.endCopy = { d with
    ram := d.copiedRam k
    capture := { d.capture with mode := .idle, following := none, copy := none, lastServed := d.capture.generation }
    notice := d.notice ||| 0x200 } := by
  rw [Device.endCopy, h]
  rfl

/-! ### The words of the capture area (section 12.5) -/

theorem length_flatMap_of_length {α β : Type} {f : α → List β} {n : Nat} (h : ∀ x, (f x).length = n) (l : List α) :
    (l.flatMap f).length = n * l.length := by
  simp [List.length_flatMap, h, Nat.mul_comm]

theorem padTo_changeWords (l : List ConditionChange) :
    padTo 24 (l.flatMap changeWords) = l.flatMap changeWords ++ List.replicate (24 - 3 * l.length) 0 := by
  rw [padTo, length_flatMap_of_length (n := 3) fun _ => rfl]

/-- The code of a Hall transition stands in the low bits of its word. -/
theorem transitionWords_eq : transitionWords = fun x => twoWords x.1 ++ [x.2.zeroExtend 16] := by
  funext x
  rw [transitionWords, BitVec.ofNat_toNat]

theorem padTo_transitionWords (l : List (RefCount × BitVec 3)) : padTo 12 (l.flatMap transitionWords) =
    (l.flatMap fun x => twoWords x.1 ++ [x.2.zeroExtend 16]) ++ List.replicate (12 - 3 * l.length) 0 := by
  rw [padTo, length_flatMap_of_length (n := 3) fun _ => rfl, transitionWords_eq]

/-- The head of a capture: the outcome COPIED, and the period it tells of. -/
theorem captureWords_take (clamped : Bool) (p : ClosedPeriod) (b : CaptureBuffer) :
    (captureWords clamped p b).take 8 = [1, p.loadTime.truncate 16, (p.loadTime >>> 16).truncate 16, p.number.truncate 16,
      (p.number >>> 16).truncate 16, p.plan.generation, p.set.vector.thetaMid, BitVec.ofNat 16 p.set.vector.va] := by
  simp [captureWords, twoWords]

/-- Settles O60. -/
theorem capturesSelectAndCopy : Obligations.CapturesSelectAndCopy := by
  refine ⟨fun d c p => ?selects, fun s k hwf hk => ?copies, fun clamped p b _ => ?words, fun b x timestamp code => ⟨rfl, rfl⟩⟩
  case selects =>
    intro u followed matched
    have hmatched (b : CaptureBuffer) : filterMatches u.filter p b = true ↔ matched b := by
      cases hf : u.filter with
      | any => simp only [matched, hf, filterMatches]
      | shifted => simpa only [matched, hf] using filterMatches_shifted_iff p b
      | failed => simpa only [matched, hf] using filterMatches_failed_iff p b
      | condition => simp only [matched, hf, filterMatches]
    refine ⟨fun b hb hm hs hfits => ⟨captureWords_length _ p hfits, captureWords_take .., ?_⟩, fun b hb hm hs => ?_,
      fun hno => ?_⟩
    · exact Device.selectPeriod_copies hb ((hmatched b).2 hm) hs
    · exact Device.selectPeriod_skips hb ((hmatched b).2 hm) hs
    · exact Device.selectPeriod_passes fun b hb hm => hno b hb ((hmatched b).1 hm)
  case copies =>
    refine ⟨s.copiedRam k, Device.wf_copiedRam hwf k, Device.read_copiedRam hwf k, ?_⟩
    show s.apply Device.endCopy = _
    rw [State.apply_eq, Device.endCopy_eq hk]
  case words =>
    intro e v bit two kind start stop legs outcome current zeros slot
    have hslot (k : RequestKind) : requestSlot p k = slot k := rfl
    have hcurrent (x : Option Current) : currentWord x = current x := by cases x <;> rfl
    have hstart (x : Drive) : driveStart x = start x := by cases x <;> rfl
    have hstop (x : Drive) : driveEnd x = stop x := by cases x <;> rfl
    have hkind (x : Drive) : x.code = kind x := by cases x <;> rfl
    have houtcome (o : WindowOutcome) : o.code = outcome o := by cases o <;> rfl
    have hslots : [RequestKind.first, .second, .zero, .link].flatMap (requestSlot p) =
        slot .first ++ slot .second ++ slot .zero ++ slot .link := by
      simp only [List.flatMap_cons, List.flatMap_nil, List.append_nil, List.append_assoc, hslot]
    simp only [captureWords, flagsWord, EdgeSet.shifted_eq, hslots, hcurrent, hstart, hstop, hkind, houtcome,
      padTo_changeWords, padTo_transitionWords, List.append_assoc]
    rfl

end Sys2Proof.Machine
end

section
/-! The poll of the capture unit (R156, R157): what it makes of the request, by the unit's condition and the generation read. -/

namespace Sys2Proof.Machine

open Sys2Proof

/-! ### The codes of the request (R156) -/

theorem channelOfNat_channelIndex (c : ChannelId) : channelOfNat (channelIndex c) = some c := by cases c <;> rfl

theorem channelOfNat_eq_none : ∀ {n : Nat}, 2 < n → channelOfNat n = none
  | _ + 3, _ => rfl

theorem filterOfNat_eq_none : ∀ {n : Nat}, 3 < n → filterOfNat n = none
  | _ + 4, _ => rfl

/-! ### Serving a new generation (R157) -/

section
variable {d : Device} (g : Word)

/-- A well-formed request arms the unit. -/
theorem Device.serveRequest_arms {c : ChannelId} {f : CaptureFilter}
    (hc : channelOfNat (Memory.read d.ram (captureRequestBase + 1)).toNat = some c)
    (hf : filterOfNat (Memory.read d.ram (captureRequestBase + 2)).toNat = some f) :
    d.serveRequest g = d.armCapture g c f (Memory.read d.ram (captureRequestBase + 3)).toNat := by
  simp only [Device.serveRequest, hc, hf]

/-- A request that names no channel or no filter is refused. -/
theorem Device.serveRequest_refuses (h : 2 < (Memory.read d.ram (captureRequestBase + 1)).toNat ∨
    3 < (Memory.read d.ram (captureRequestBase + 2)).toNat) : d.serveRequest g = d.refuseCapture g := by
  rcases h with hc | hf
  · simp only [Device.serveRequest, channelOfNat_eq_none hc]
  · simp only [Device.serveRequest, filterOfNat_eq_none hf]
    cases channelOfNat (Memory.read d.ram (captureRequestBase + 1)).toNat <;> rfl
end

/-! ### What a poll does with the generation it reads (R157) -/

section
variable {d : Device} {g : Word} (hg : Memory.read d.ram captureRequestBase = g)
include hg

/-- The unit is COPYING, or the generation read is no new one. -/
theorem Device.actOnRequest_stays (h : d.capture.mode = .copying ∨
    (d.capture.mode = .idle ∧ (g = 0 ∨ g = d.capture.lastServed)) ∨
    (d.capture.mode = .armed ∧ g = d.capture.generation)) : d.actOnRequest = d := by
  subst hg
  rcases h with hm | ⟨hm, hold⟩ | ⟨hm, hsame⟩
  · simp only [Device.actOnRequest, hm]
  · simp only [Device.actOnRequest, hm, if_pos hold]
  · simp only [Device.actOnRequest, hm, if_pos hsame]

/-- An armed unit is cancelled by the generation 0 or the one last served. -/
theorem Device.actOnRequest_cancels (hm : d.capture.mode = .armed) (hne : g ≠ d.capture.generation)
    (hold : g = 0 ∨ g = d.capture.lastServed) : d.actOnRequest = { d with capture := d.capture.toIdle } := by
  subst hg
  simp only [Device.actOnRequest, hm, if_neg hne, if_pos hold]

/-- A generation that is neither 0 nor last served, nor the one an armed unit has, is served. -/
theorem Device.actOnRequest_serves (h0 : g ≠ 0) (hl : g ≠ d.capture.lastServed)
    (hm : d.capture.mode = .idle ∨ (d.capture.mode = .armed ∧ g ≠ d.capture.generation)) :
    d.actOnRequest = d.serveRequest g := by
  subst hg
  have hnew := not_or.2 ⟨h0, hl⟩
  rcases hm with hm | ⟨hm, hne⟩
  · simp only [Device.actOnRequest, hm, if_neg hnew]
  · simp only [Device.actOnRequest, hm, if_neg hne, if_neg hnew]
end

/-! ### The poll -/

/-- The part at a poll, its timer set for the next one (R156). -/
def Device.polled (d : Device) (t : RefCount) : Device :=
  { d.advanceTo t with capture := { d.capture with nextPoll := some ((d.advanceTo t).refCount + 32768) } }

theorem Device.pollRequest_eq {d : Device} {t : RefCount} (h : d.capture.nextPoll = some t) :
    d.pollRequest = (d.polled t).actOnRequest := by
  simp only [Device.pollRequest, h, Device.advanceTo_capture]
  rfl

theorem Device.ram_polled (d : Device) (t : RefCount) : (d.polled t).ram = d.ram := Device.advanceTo_ram t d

theorem Device.notice_polled (d : Device) (t : RefCount) : (d.polled t).notice = d.notice := Device.advanceTo_notice t d

theorem exec_poll {s : State} {t : RefCount} (h : s.capture.nextPoll = some t) :
    exec .poll s = .next { s with toDevice := publish s.toDevice (s.polled t).actOnRequest } := by
  rw [← Device.pollRequest_eq h]
  rfl

/-- Settles O59: the unit's mode and the generation read decide among the four outcomes of the poll. -/
theorem aPollActsOnTheRequest : Obligations.APollActsOnTheRequest := by
  intro s t0 ht at_ u w g fresh leaves
  have hw (k : Nat) : (Memory.read (s.polled t0).ram (captureRequestBase + k)).toNat = w k := by rw [Device.ram_polled]; rfl
  have hg : Memory.read (s.polled t0).ram captureRequestBase = g := by rw [Device.ram_polled]; rfl
  have hleaves {d : Device} (h : (s.polled t0).actOnRequest = d) : leaves d := h ▸ exec_poll ht
  have hserves (h : fresh) : (s.polled t0).actOnRequest = (s.polled t0).serveRequest g :=
    Device.actOnRequest_serves hg h.1 h.2.1 h.2.2
  refine ⟨fun h => hleaves (Device.actOnRequest_stays hg h), fun hm hne hold =>
    hleaves (Device.actOnRequest_cancels hg hm hne hold), fun c f hfresh hc hf => hleaves ?arms,
    fun hfresh hbad => hleaves ?refuses⟩
  case arms =>
    have hchannel : channelOfNat (w 1) = some c := hc ▸ channelOfNat_channelIndex c
    have hfilter : filterOfNat (w 2) = some f := by rw [hf]; cases f <;> rfl
    rw [← hw] at hchannel hfilter
    rw [hserves hfresh, Device.serveRequest_arms g hchannel hfilter, hw]
    rfl
  case refuses =>
    rw [← hw, ← hw] at hbad
    rw [hserves hfresh, Device.serveRequest_refuses g hbad, Device.refuseCapture, Device.setNotice, Device.ram_polled]
    simp only [Device.notice_polled]
    rfl

end Sys2Proof.Machine
end

section
/-! The exchange RAM and the host (R171): which words no command but a host write touches. -/

namespace Sys2Proof.Machine

open Sys2Proof

theorem Device.host_changeFault (line : FaultLine) (level : Bool) (d : Device) :
    d.HostKept (d.changeFault line level) := by
  have hset (x : FaultFilter) : d.HostKept (d.setFault line x) := by cases line <;> exact fun _ _ => rfl
  unfold Device.changeFault
  split
  · exact hset _
  · exact hset _

/-- The beginning of a power-on or pin reset abandons the writings in progress, all of the part's own words. -/
theorem Device.host_hardReset {d : Device} (h : d.Sound) : d.HostKept d.hardReset :=
  fun _ ha => Device.host_abandonedRam h ha

/-- Every command but a host write and the clearing at the end of a power-on reset keeps the words that are not the part's
to write. -/
theorem exec_hostKept {s t : State} (h : s.Inv) {i : Instr} (hclear : i ≠ .powerOnResetEnd)
    (hwrite : ∀ address value, i ≠ .registerWrite address value) (ht : exec i s = .next t) :
    s.toDevice.HostKept t.toDevice := by
  have h : s.toDevice.Good := h
  have ran {f : Device → Device} (hf : s.toDevice.HostKept (f s.toDevice)) (ht : s.run f = .next t) :
      s.toDevice.HostKept t.toDevice := by
    cases ht
    exact hf
  have shown {f : Device → Device} (hf : s.toDevice.HostKept (f s.toDevice)) (hg : (f s.toDevice).Good)
      (ht : s.apply f = .next t) : s.toDevice.HostKept t.toDevice := ran (hf.publish hg.1) ht
  have led {f : Device → Device} (hf : s.toDevice.Leads (f s.toDevice)) (ht : s.apply f = .next t) :
      s.toDevice.HostKept t.toDevice := shown (hf.host h.1) (h.leads hf) ht
  have written {code : BitVec 4} {field : BitVec 2} (ht : s.run (Device.writeCmd code field) = .next t) :
      s.toDevice.HostKept t.toDevice := ran (Device.host_writeCmd h code field) ht
  cases i with
  | powerOnResetEnd => exact absurd rfl hclear
  | registerWrite address value => exact absurd rfl (hwrite address value)
  | lock | start | stop | resume | softReset | unknownCommand | commandDuringLock => exact written ht
  | powerOnReset => exact ran (f := Device.beginPowerOn) (Device.host_hardReset h.1) ht
  | pinReset => exact ran (f := Device.beginPin) (Device.host_hardReset h.1) ht
  | pinResetEnd => exact ran (Device.host_endPin _) ht
  | statusResetWriteEnd => exact ran (Device.host_endStatusWrite h.1) ht
  | lockEnd => exact shown (Device.host_endLock h) (Device.good_endLock h) ht
  | faultLineChange line level => exact shown (Device.host_changeFault line level _) (Device.good_changeFault h _ _) ht
  | faultFilterExpiry line => exact shown (Device.host_expireFault h line) (Device.good_expireFault h _) ht
  | noticeWrite v => exact led (Device.leads_writeNotice v _) ht
  | noticeEnWrite v => exact led (Device.leads_writeNoticeEn v _) ht
  | loadEvent c => exact led (Device.leads_load c _) ht
  | planFetchEnd c => exact led (Device.leads_endFetch c _) ht
  | peakEvent c => exact led (Device.leads_peak c _) ht
  | vectorComputationEnd c => exact led (Device.leads_endComputation c _) ht
  | placementRunEnd c => exact led (Device.leads_endPlacement c _) ht
  | legEdge c leg edge => exact led (Device.leads_pulseEdge c leg edge _) ht
  | pendingTurnOn c leg => exact led (Device.leads_takeTurnOn c leg _) ht
  | entryDue c k => exact led (Device.leads_entryFallsDue c k _) ht
  | conversionComplete cv raw => exact led (Device.leads_completeConversion cv raw _) ht
  | entryMissed c k => exact led (Device.leads_entryPassesDeadline c k _) ht
  | hallLineChange code => exact led (Device.leads_changeHall code _) ht
  | hallFilterExpiry => exact led (Device.leads_expireHall _) ht
  | poll => exact led (Device.leads_pollRequest _) ht
  | captureCopyEnd => exact led (Device.leads_endCopy _) ht
  | recordTake c => exact led (Device.leads_takeRecord c _) ht
  | recordWriteEnd c => exact led (Device.leads_endRecord c _) ht

/-- Settles O6: a word outside the part's own regions is one that `exec_hostKept` names. -/
theorem theHostsWordsAreTheHosts : Obligations.TheHostsWordsAreTheHosts :=
  fun _ _ _ a h hclear hwrite ha ht => exec_hostKept h hclear hwrite ht a ha

/-! ### A host write of one word (R19, R164, R171) -/

/-- A read in progress before a host write of the word at `a`: `n` further words of the RAM as it stands, if it has `a`
still to read. -/
def WordReader.settled (a n : Nat) (m : Memory) (r : WordReader) : WordReader :=
  if a ∈ r.todo then r.advance n m else r

theorem WordReader.beforeWrite_eq (free a : Nat) (m : Memory) :
    WordReader.beforeWrite free a m = WordReader.settled a (Config.wordsRead free) m := by
  funext r
  simp [WordReader.beforeWrite, WordReader.settled]

section
variable (a : Nat) (d : Device)

theorem Device.settleReads_rest : d.settleReads a = { d with
    lockRun := d.lockRun.map (WordReader.settled a (Config.wordsRead d.freeIndex) d.ram)
    freeIndex := d.freeIndex + 1, channels := (d.settleReads a).channels } := by
  rw [← WordReader.beforeWrite_eq]
  rfl

theorem Device.chan_settleReads (c : ChannelId) : (d.settleReads a).chan c = { d.chan c with
    fetch := (d.chan c).fetch.map fun f =>
      { f with reader := f.reader.settled a (Config.wordsRead d.freeIndex) d.ram } } := by
  rw [← WordReader.beforeWrite_eq]
  cases c <;> rfl

theorem Device.keepHostWord_rest : d.keepHostWord a = { d with
    capture := { d.capture with copy := d.capture.copy.map fun k => { k with kept := k.kept ++ [a] } }
    statusWrite := d.statusWrite.map fun w => { w with touched := w.touched ++ [a] }
    channels := (d.keepHostWord a).channels } := rfl

theorem Device.chan_keepHostWord (c : ChannelId) : (d.keepHostWord a).chan c = { d.chan c with
    log := { (d.chan c).log with
      writing := (d.chan c).log.writing.map fun w => { w with kept := w.kept ++ [a] } } } := by
  cases c <;> rfl

end

/-- A change of every channel that the status block does not show. -/
theorem statusWord_foldl_modChan {f : Channel → Channel} (hf : ∀ x, (f x).ShowsAs x) (l : List ChannelId) (d : Device) :
    statusWord (l.foldl (fun x c => x.modChan c f) d) = statusWord d := by
  induction l generalizing d with
  | nil => rfl
  | cons c rest ih =>
    rw [List.foldl_cons, ih, Device.modChan_eq_setChan, statusWord_setChan (hf _)]

/-- No read in progress shows in the status block. -/
theorem statusWord_settleReads (a : Nat) (d : Device) : statusWord (d.settleReads a) = statusWord d := by
  refine (statusWord_foldl_modChan (fun x => ?_) allChannels _).trans
    (statusWord_congr rfl rfl rfl rfl rfl rfl rfl rfl rfl rfl rfl)
  exact ⟨rfl, rfl, rfl, rfl, rfl, rfl, rfl, rfl, rfl⟩

theorem wordsUnderWay_congr {d e : Device} (hword : statusWord e = statusWord d)
    (hlog : ∀ c, (e.chan c).log.writing = (d.chan c).log.writing) (hcopy : e.capture.copy = d.capture.copy)
    (hstatus : e.statusWrite = d.statusWrite) : wordsUnderWay e = wordsUnderWay d := by
  simp only [wordsUnderWay, hword, hlog, hcopy, hstatus]

/-- The reads in progress are no part of what the part writes. -/
theorem Device.writesAt_settleReads (a : Nat) (d : Device) : (d.settleReads a).writesAt = d.writesAt := by
  have hwords : wordsUnderWay (d.settleReads a) = wordsUnderWay d :=
    wordsUnderWay_congr (statusWord_settleReads a d) (fun c => by rw [Device.chan_settleReads]) rfl rfl
  funext b
  rw [Device.writesAt, Device.writesAt, hwords]

/-- A host write while READY is low is not made. -/
theorem Device.hostWrite_of_not_ready {d : Device} (h : d.ready = false) (a : Nat) (v : Word) : d.hostWrite a v = d :=
  if_neg (by simp [h])

/-- The part as a host write of the word at `a` finds it: the reads in progress settled, if one has the word still to
read. -/
def Device.readsSettled (a : Nat) (d : Device) : Device := if d.readsAhead a then d.settleReads a else d

/-- The writings in progress as a host write of the word at `a` leaves them: the host's word is kept, if the part had
written its own there. -/
def Device.hostWordKept (a : Nat) (d : Device) : Device :=
  if d.writesAt a && Config.wordWritten d.freeIndex a then d.keepHostWord a else d

theorem Device.hostWrite_of_ready {d : Device} (h : d.ready = true) (a : Nat) (v : Word) : d.hostWrite a v =
    { (d.readsSettled a).hostWordKept a with ram := Memory.write ((d.readsSettled a).hostWordKept a).ram a v } := if_pos h

/-- `e` is `d` after the reads in progress have gone on before a host write at `a`. -/
structure Device.ReadsOn (a : Nat) (d e : Device) : Prop where
  rest : e = { d with lockRun := e.lockRun, channels := e.channels, freeIndex := e.freeIndex }
  chan : ∀ c, e.chan c = { d.chan c with fetch := (e.chan c).fetch }
  surelyRead : d.readsAhead a = false →
    e.lockRun = d.lockRun ∧ (∀ c, (e.chan c).fetch = (d.chan c).fetch) ∧ e.freeIndex = d.freeIndex
  ahead : d.readsAhead a = true → ∃ n, e.lockRun = d.lockRun.map (WordReader.settled a n d.ram) ∧
    e.freeIndex = d.freeIndex + 1 ∧
    ∀ c, (e.chan c).fetch = (d.chan c).fetch.map fun f => { f with reader := f.reader.settled a n d.ram }
  writesAt : e.writesAt = d.writesAt

theorem Device.readsOn_readsSettled (a : Nat) (d : Device) : d.ReadsOn a (d.readsSettled a) := by
  unfold Device.readsSettled
  split
  case isTrue hahead =>
    have hrest := d.settleReads_rest a
    have hchan := d.chan_settleReads a
    have hwrites := Device.writesAt_settleReads a d
    generalize d.settleReads a = e at hrest hchan hwrites
    refine ⟨?_, fun c => ?_, fun h => by simp [h] at hahead, fun _ =>
      ⟨Config.wordsRead d.freeIndex, ?_, ?_, fun c => ?_⟩, hwrites⟩
    · rw [hrest]
    · rw [hchan]
    · rw [hrest]
    · rw [hrest]
    · rw [hchan]
  case isFalse hread =>
    exact ⟨rfl, fun _ => rfl, fun _ => ⟨rfl, fun _ => rfl, rfl⟩, fun h => absurd h hread, rfl⟩

/-- `e` is `d` once the writings in progress either replace the host's word at `a` at their end or leave it. -/
structure Device.WritesOn (a : Nat) (d e : Device) : Prop where
  rest : e = { d with
    channels := e.channels, capture := { d.capture with copy := e.capture.copy }, statusWrite := e.statusWrite }
  chan : ∀ c, e.chan c = { d.chan c with log := { (d.chan c).log with writing := (e.chan c).log.writing } }
  writings : (e.statusWrite = d.statusWrite ∧ e.capture = d.capture ∧
      ∀ c, (e.chan c).log.writing = (d.chan c).log.writing) ∨
    (d.writesAt a = true ∧
      e.statusWrite = d.statusWrite.map (fun w => { w with touched := w.touched ++ [a] }) ∧
      e.capture.copy = d.capture.copy.map (fun k => { k with kept := k.kept ++ [a] }) ∧
      ∀ c, (e.chan c).log.writing = (d.chan c).log.writing.map fun w => { w with kept := w.kept ++ [a] })

theorem Device.writesOn_hostWordKept (a : Nat) (d : Device) : d.WritesOn a (d.hostWordKept a) := by
  unfold Device.hostWordKept
  split
  case isTrue hwritten =>
    have hwrites : d.writesAt a = true := by
      rw [Bool.and_eq_true] at hwritten
      exact hwritten.1
    have hrest := d.keepHostWord_rest a
    have hchan := d.chan_keepHostWord a
    generalize d.keepHostWord a = e at hrest hchan
    refine ⟨?_, fun c => ?_, .inr ⟨hwrites, ?_, ?_, fun c => ?_⟩⟩
    · rw [hrest]
    · rw [hchan]
    · rw [hrest]
    · rw [hrest]
    · rw [hchan]
  case isFalse => exact ⟨rfl, fun _ => rfl, .inl ⟨rfl, rfl, fun _ => rfl⟩⟩

/-- REGISTER_WRITE at an address of the exchange RAM. -/
theorem exec_registerWrite_ram (s : State) {address : BitVec 14} (h : address.toNat < 0x2000) (v : Word) :
    exec (.registerWrite address v) s = .next { s with toDevice := s.hostWrite address.toNat v } := by
  have hport : s.portWrite address v = s.hostWrite address.toNat v := if_pos h
  rw [← hport]
  rfl

/-- Settles O21: the reads in progress go on, the writings in progress make room, and the one word is written. -/
theorem hostWritesOneWord : Obligations.HostWritesOneWord := by
  intro s address v hwf haddress
  refine ⟨fun hlow => ?_, fun hready => ⟨_, exec_registerWrite_ram s haddress v, ?_⟩⟩
  · rw [exec_registerWrite_ram s haddress, Device.hostWrite_of_not_ready hlow]
  · rw [Device.hostWrite_of_ready hready]
    have hreads := Device.readsOn_readsSettled address.toNat s.toDevice
    generalize s.readsSettled address.toNat = d at hreads
    have hwrites := Device.writesOn_hostWordKept address.toNat d
    generalize d.hostWordKept address.toNat = e at hwrites
    obtain ⟨hdrest, hdchan, hsurely, hahead, hdwrites⟩ := hreads
    obtain ⟨herest, hechan, hwritings⟩ := hwrites
    have hlock : e.lockRun = d.lockRun := by rw [herest]
    have hfree : e.freeIndex = d.freeIndex := by rw [herest]
    have hfetch (c : ChannelId) : (e.chan c).fetch = (d.chan c).fetch := by rw [hechan]
    have hlog (c : ChannelId) : (d.chan c).log = (s.chan c).log := by rw [hdchan]
    have hcapture : d.capture = s.capture := by rw [hdrest]
    have hstatus : d.statusWrite = s.statusWrite := by rw [hdrest]
    have hram : e.ram = s.ram := by rw [herest, hdrest]
    have hread (a : Nat) := Memory.read_write hwf address.toNat a v
    simp only [hdwrites, hlog, hcapture, hstatus] at hwritings
    simp only [← hlock, ← hfree, ← hfetch] at hsurely hahead
    refine ⟨?_, fun a ha => ?_, ?_, fun c => ?_, hsurely, hahead, hwritings, rfl⟩
    · show (Memory.write e.ram _ v).read _ = v
      rw [hram, hread, if_pos rfl]
    · show (Memory.write e.ram _ v).read a = _
      rw [hram, hread, if_neg ha]
    · show ({ e with ram := _ } : Device) = _
      rw [← hcapture, herest, hdrest]
    · show e.chan c = { s.chan c with
        fetch := (e.chan c).fetch, log := { (s.chan c).log with writing := (e.chan c).log.writing } }
      rw [hechan, hdchan]

end Sys2Proof.Machine
end

section
/-! The resets at their beginning: the power-on and pin resets, and SOFT_RESET on a locked part (section 12.4). -/

namespace Sys2Proof.Machine

open Sys2Proof

/-! ### The power-on and pin resets (R168, R169) -/

/-- Settles O23: both resets give the part of `hardReset`, the one with its supply, the other with its line. -/
theorem hardResetsTakeTheirValues : Obligations.HardResetsTakeTheirValues := by
  refine ⟨?_, fun _ => rfl, rfl, rfl, fun _ => rfl, fun _ => rfl⟩
  intro s hinv taken
  have held (p l : Bool) (h : (p || l) = true) :
      taken { s with toDevice := { s.hardReset with powerOn := p, resetLow := l } } := by
    refine ⟨?ready, rfl, rfl, rfl, rfl, rfl, rfl, rfl, rfl, rfl, fun c => ?channels, rfl, rfl, rfl, fun id => ?conditions,
      rfl, rfl, rfl, rfl, fun a ha => ?host, fun a ha => ?others, rfl⟩
    case ready => simp [Device.ready, Device.inReset, h]
    case channels => cases c <;> rfl
    case conditions =>
      cases id with
      | cur c | zer c | age c => cases c <;> rfl
      | hal | lov | lun | fl0 | fl1 => rfl
    case host => exact Device.host_hardReset hinv.1 a ha
    case others => exact Device.read_abandonedRam hinv.1.ram ha
  exact ⟨⟨_, rfl, rfl, rfl, held true s.resetLow rfl⟩, ⟨_, rfl, rfl, rfl, held s.powerOn true (Bool.or_true _)⟩⟩

/-! ### SOFT_RESET (R166, R170) -/

theorem Device.locked_of_setup_none {d : Device} (h : d.setup = none) : d.locked = false := by simp [Device.locked, h]

theorem Device.writeCmd_softReset {d : Device} (h : d.portOpen) (field : BitVec 2) : d.writeCmd 5 field =
    if d.locked then d.softReset field else d.answer 5 field .notLocked := by
  have hknown : cmdUnknown 5#4 field = false := by decide +revert
  simp [Device.writeCmd, h.1, h.2, hknown]

theorem Device.showStatus_nil (d : Device) : d.showStatus [] = d := by
  have hsame : (d.statusWrite.map fun w => { w with touched := w.touched ++ [] }) = d.statusWrite := by
    cases d.statusWrite <;> simp
  simp only [Device.showStatus, List.foldl_nil, hsame]

/-- The Hall words that an acquisition shows as it begins: with Th = 0 it is made at once. -/
def wordsOfAcquisition (words : List Word) : List Nat := if hallHold words = 0 then hallWords else []

/-- The acquisition begins on a part that has accepted no code, while CH0 is OFF. -/
theorem Device.beginAcquisition_eq {d : Device} (ha : d.hall.accepted = none) (hoff : (d.chan .ch0).state = .off) :
    d.beginAcquisition =
      ({ d with hall := d.hallAtLock d.words } : Device).showStatus (wordsOfAcquisition d.words) := by
  have hbegin : d.beginAcquisition = if hallHold d.words = 0 then d.measuring.acceptHall else d.measuring := rfl
  rw [hbegin, Device.acceptHall_of_off (d := d.measuring) ha hoff, Device.hallAtLock, wordsOfAcquisition]
  simp only [hallHold_eq_zero_iff]
  split
  · rfl
  · exact (Device.showStatus_nil _).symm

/-- The part that a SOFT_RESET leaves, but for the words that its acquisition shows. -/
def Device.softResetPart (d : Device) (field : BitVec 2) : Device :=
  { d.softResetValues field with hall := (d.softResetValues field).hallAtLock d.words }

/-- SOFT_RESET on a locked part (R170): the reset values, and the Hall words as the acquisition shows them. -/
theorem Device.softReset_eq (d : Device) (field : BitVec 2) :
    d.softReset field = (d.softResetPart field).showStatus (wordsOfAcquisition d.words) :=
  Device.beginAcquisition_eq (d := d.softResetValues field) rfl rfl

theorem Device.read_softReset {d : Device} (hw : d.ram.wf = true) (field : BitVec 2) (a : Nat) :
    (d.softReset field).ram.read a =
      if a ∈ wordsOfAcquisition d.words then statusWord (d.softReset field) a else d.abandonedRam.read a := by
  rw [Device.softReset_eq, statusWord_showStatus]
  exact Device.read_showStatus (d := d.softResetPart field) (Device.wf_abandonedRam hw) _ a

/-- Settles O25: the part of `softResetPart`, with the Hall words that its acquisition shows. -/
theorem softResetKeepsTheLock : Obligations.SoftResetKeepsTheLock := by
  intro s field hinv hopen
  have hexec : exec (.softReset field) s = .next { s with toDevice := s.writeCmd 5 field } := rfl
  rw [hexec, Device.writeCmd_softReset hopen]
  refine ⟨fun hn => by rw [Device.locked_of_setup_none hn]; rfl, fun hl => ?_⟩
  rw [(Device.locked_iff _).2 hl, if_pos rfl]
  have hhost := Device.host_softReset hinv ((Device.locked_iff _).2 hl) field
  have hread := Device.read_softReset hinv.1.ram field
  rw [Device.softReset_eq] at hhost hread ⊢
  refine ⟨_, rfl, rfl, rfl, rfl, rfl, rfl, rfl, rfl, rfl, rfl, rfl, fun c => ?channels, rfl, rfl, rfl, rfl, rfl, rfl, rfl,
    rfl, rfl, fun hth => ?measures, fun hth => ?accepts, ⟨?writing, fun a ha => ?shown, fun a ha hw => ?others⟩, hhost, rfl⟩
  case channels => cases c <;> rfl
  case measures => exact if_neg (mt (hallHold_eq_zero_iff _).2 hth)
  case accepts => exact if_pos ((hallHold_eq_zero_iff _).1 hth)
  case writing => rfl
  case shown => exact (hread a).trans (if_pos ha)
  case others => exact ((hread a).trans (if_neg ha)).trans (Device.read_abandonedRam hinv.1.ram hw)

end Sys2Proof.Machine
end

section
/-! The step, the command port where it takes no command, an unknown one or a LOCK, and the registers (R164 to R167). -/

namespace Sys2Proof.Machine

open Sys2Proof

/-! ### The step -/

/-- Settles O1. -/
theorem stepCarriesOutTheFrontCommand : Obligations.StepCarriesOutTheFrontCommand := by
  intro s i rest h
  simp only [step, h]

/-- Every command is a change of the part alone: none stops the machine. -/
theorem exec_eq_next (i : Instr) (s : State) : ∃ d : Device, exec i s = .next { s with toDevice := d } := by
  cases i <;> exact ⟨_, rfl⟩

/-- Settles O3, by `exec_eq_next`. -/
theorem everyCommandCompletes : Obligations.EveryCommandCompletes := by
  intro i s
  obtain ⟨d, hd⟩ := exec_eq_next i s
  exact ⟨_, hd, rfl⟩

/-! ### LOCK (R164, R165) -/

theorem Device.writeCmd_lock {d : Device} (h : d.portOpen) (field : BitVec 2) : d.writeCmd 1 field =
    if d.locked then d.answer 1 field .wrongState else d.beginLock field := by
  have hknown : cmdUnknown 1#4 field = false := by decide +revert
  simp [Device.writeCmd, h.1, h.2, hknown]

/-- LOCK_END of a copy that fails a check. -/
theorem Device.endLock_of_invalid {d : Device} {r : WordReader} {code : Nat} {c : ChannelId} (hr : d.lockRun = some r)
    (hfails : setupError (r.finish d.ram) = some (code, c)) : d.endLock = d.failLock code c := by
  simp only [Device.endLock, hr, hfails]

/-- Settles O10. -/
theorem lockBeginsOrFails : Obligations.LockBeginsOrFails := by
  refine ⟨fun s field hopen => ?_, fun s r code c hr hfails => ?_⟩
  · have hexec : exec (.lock field) s = .next { s with toDevice := s.writeCmd 1 field } := rfl
    rw [hexec, Device.writeCmd_lock hopen]
    refine ⟨fun hn => ?_, fun hl => ?_⟩
    · rw [Device.locked_of_setup_none hn]
      rfl
    · rw [(Device.locked_iff _).2 hl]
      rfl
  · have hexec : exec .lockEnd s = .next { s with toDevice := publish s.toDevice s.endLock } := rfl
    rw [hexec, Device.endLock_of_invalid hr hfails]
    have hshown : statusWord (s.failLock code c) = statusWord s.toDevice :=
      statusWord_congr rfl rfl rfl rfl rfl rfl rfl rfl rfl rfl rfl
    rw [publish_of_statusWord_eq hshown]
    rfl

/-! ### Commands not taken, and unknown ones (R164, R166) -/

theorem Device.not_portOpen {d : Device} (h : d.lockRun ≠ none ∨ d.takesCommands = false) : ¬d.portOpen := by
  rintro ⟨htakes, hidle⟩
  rcases h with h | h
  · exact h hidle
  · simp [htakes] at h

/-- A write of CMD with fields that name no command answers UNKNOWN. -/
theorem Device.writeCmd_unknown {d : Device} (h : d.portOpen) {code : BitVec 4} {field : BitVec 2}
    (hu : cmdUnknown code field = true) : d.writeCmd code field = d.answer code field .unknown := by
  simp [Device.writeCmd, h.1, h.2, hu]

theorem cmdUnknown_iff (code : BitVec 4) (field : BitVec 2) : cmdUnknown code field = true ↔
    code = 0 ∨ 5 < code.toNat ∨ ((code = 2 ∨ code = 3 ∨ code = 4) ∧ field = 3) := by
  decide +revert

/-- Settles O11: every one of these commands is a write of CMD. -/
theorem commandsUntakenOrUnknown : Obligations.CommandsUntakenOrUnknown := by
  refine ⟨fun s hclosed => ?_, fun s code field hopen hu => ?_⟩
  · have untaken (code : BitVec 4) (field : BitVec 2) : s.run (Device.writeCmd code field) = .next s := by
      rw [State.run_eq, Device.writeCmd_closed (Device.not_portOpen hclosed)]
    exact ⟨untaken, fun field => ⟨untaken 1 field, untaken 5 field⟩,
      fun c => ⟨untaken 2 _, untaken 3 _, untaken 4 _⟩, untaken⟩
  · have hexec : exec (.unknownCommand code field) s = .next { s with toDevice := s.writeCmd code field } := rfl
    rw [hexec, Device.writeCmd_unknown hopen ((cmdUnknown_iff code field).2 hu)]
    rfl

/-! ### Writes of the registers (R167) -/

theorem Device.portWrite_cmd (v : Word) (d : Device) :
    d.portWrite 0x2001 v = d.writeCmd (v.extractLsb' 4 4) (v.extractLsb' 8 2) := by
  have hport : d.portWrite 0x2001 v =
      d.writeCmd (BitVec.ofNat 4 (bitField v.toNat 4 4)) (BitVec.ofNat 2 (bitField v.toNat 8 2)) := rfl
  rw [hport, bitField_toNat, bitField_toNat, BitVec.ofNat_toNat, BitVec.ofNat_toNat, BitVec.setWidth_eq, BitVec.setWidth_eq]

/-- A write of an address that is neither an exchange RAM word nor CMD, NOTICE or NOTICE_EN has no effect. -/
theorem Device.portWrite_idle {address : BitVec 14} (h : address = 0x2000 ∨ address = 0x2002 ∨ 0x2005 ≤ address.toNat)
    (v : Word) (d : Device) : d.portWrite address v = d := by
  rcases h with rfl | rfl | h
  · rfl
  · rfl
  · simp only [Device.portWrite]
    rw [if_neg (by omega), if_neg (by omega), if_neg (by omega), if_neg (by omega)]

/-! ### Reads of the registers (R166, R167) -/

/-- The field from bit `low` up of a word made of a number. -/
theorem extractLsb'_ofNat_eq {n low len : Nat} {x : BitVec len} (h : low + len ≤ 16)
    (hx : n / 2 ^ low % 2 ^ len = x.toNat) : (BitVec.ofNat 16 n).extractLsb' low len = x := by
  have hword : n % 2 ^ 16 / 2 ^ low % 2 ^ len = n / 2 ^ low % 2 ^ len := by
    rw [show (16 : Nat) = low + (16 - low) by omega, Nat.pow_add, Nat.mod_mul_right_div_self,
      Nat.mod_mod_of_dvd _ (Nat.pow_dvd_pow 2 (by omega))]
  apply BitVec.eq_of_toNat_eq
  rw [BitVec.extractLsb'_toNat, BitVec.toNat_ofNat, Nat.shiftRight_eq_div_pow, hword, hx]

theorem extractLsb'_ofNat {n low len m : Nat} (h : low + len ≤ 16) (hm : n / 2 ^ low % 2 ^ len = m % 2 ^ len) :
    (BitVec.ofNat 16 n).extractLsb' low len = BitVec.ofNat len m :=
  extractLsb'_ofNat_eq h (by rw [hm, BitVec.toNat_ofNat])

/-- Bit `k` of a word made of a number. -/
theorem getLsbD_ofNat_eq {n k : Nat} {b : Bool} (h : k < 16) (hb : n / 2 ^ k % 2 = b.toNat) :
    (BitVec.ofNat 16 n).getLsbD k = b := by
  rw [BitVec.getLsbD_ofNat, Nat.testBit_eq_decide_div_mod_eq, hb]
  cases b <;> simp [h]

theorem flagBit_eq (b : Bool) (k : Nat) : flagBit b k = b.toNat * 2 ^ k := by cases b <;> simp [flagBit]

theorem CmdResult.code_le (r : CmdResult) : r.code ≤ 8 := by cases r <;> decide

theorem ChannelState.code_le (x : ChannelState) : x.code ≤ 2 := by cases x <;> decide

/-- The layout of a CMD read (R166, section 12.5). -/
theorem cmdRegister_fields (d : Device) :
    (cmdRegister d).extractLsb' 0 4 = BitVec.ofNat 4 d.cmd.result.code ∧
      (cmdRegister d).extractLsb' 4 4 = d.cmd.command ∧ (cmdRegister d).extractLsb' 8 2 = d.cmd.channel ∧
      (cmdRegister d).extractLsb' 10 6 = 0 := by
  have hresult := d.cmd.result.code_le
  have hcommand := d.cmd.command.isLt
  have hchannel := d.cmd.channel.isLt
  refine ⟨extractLsb'_ofNat (by decide) ?_, extractLsb'_ofNat_eq (by decide) ?_, extractLsb'_ofNat_eq (by decide) ?_,
    extractLsb'_ofNat (m := 0) (by decide) ?_⟩ <;> omega

/-- The layout of a STAT read (R167, section 12.5). -/
theorem statRegister_fields (d : Device) :
    (statRegister d).getLsbD 0 = d.locked ∧ (statRegister d).extractLsb' 1 4 = d.setupErrorCode ∧
      (statRegister d).extractLsb' 5 2 = d.setupErrorChannel ∧
      (statRegister d).extractLsb' 7 2 = BitVec.ofNat 2 (d.chan .ch0).state.code ∧
      (statRegister d).extractLsb' 9 2 = BitVec.ofNat 2 (d.chan .ch1).state.code ∧
      (statRegister d).extractLsb' 11 2 = BitVec.ofNat 2 (d.chan .ch2).state.code ∧
      (statRegister d).getLsbD 13 = d.flt0.filtered ∧ (statRegister d).getLsbD 14 = d.flt1.filtered ∧
      (statRegister d).getLsbD 15 = d.ready := by
  have hlocked := d.locked.toNat_le
  have hcode := d.setupErrorCode.isLt
  have hchannel := d.setupErrorChannel.isLt
  have h0 := (d.chan .ch0).state.code_le
  have h1 := (d.chan .ch1).state.code_le
  have h2 := (d.chan .ch2).state.code_le
  have hflt0 := d.flt0.filtered.toNat_le
  have hflt1 := d.flt1.filtered.toNat_le
  have hready := d.ready.toNat_le
  unfold statRegister
  simp only [flagBit_eq]
  refine ⟨getLsbD_ofNat_eq (by decide) ?_, extractLsb'_ofNat_eq (by decide) ?_, extractLsb'_ofNat_eq (by decide) ?_,
    extractLsb'_ofNat (by decide) ?_, extractLsb'_ofNat (by decide) ?_, extractLsb'_ofNat (by decide) ?_,
    getLsbD_ofNat_eq (by decide) ?_, getLsbD_ofNat_eq (by decide) ?_, getLsbD_ofNat_eq (by decide) ?_⟩ <;> omega

section
variable {d : Device}

theorem portRead_of_resetLow (h : d.resetLow = true) (address : BitVec 14) : portRead d address = none := if_pos h

theorem portRead_id (h : d.resetLow = false) : portRead d 0x2000 = some 0xE330 := by
  simp [portRead, h, idRegister]

theorem portRead_cmd (h : d.resetLow = false) : portRead d 0x2001 = some (cmdRegister d) := by
  simp [portRead, h]

theorem portRead_stat (h : d.resetLow = false) : portRead d 0x2002 = some (statRegister d) := by
  simp [portRead, h]

theorem portRead_unused (h : d.resetLow = false) {address : BitVec 14} (ha : 0x2005 ≤ address.toNat) :
    portRead d address = some 0 := by
  simp only [portRead, h, Bool.false_eq_true, if_false]
  rw [if_neg (by omega), if_neg (by omega), if_neg (by omega), if_neg (by omega), if_neg (by omega), if_neg (by omega)]

/-- An exchange RAM word reads 0 while READY is low (R168). -/
theorem portRead_ram_of_not_ready (h : d.resetLow = false) (hr : d.ready = false) {address : BitVec 14}
    (ha : address.toNat < 0x2000) : portRead d address = some 0 := by
  simp [portRead, h, ha, ramRead, hr]
end

/-- Settles O22: the addresses one by one, CMD and STAT by the layouts of their words. -/
theorem registerAddressesBehave : Obligations.RegisterAddressesBehave := by
  intro s address v
  refine ⟨fun h => ?idle, ?commands, ?notice, ?noticeEn, ?registers, fun hlow => ⟨portRead_id hlow, portRead_unused hlow,
    fun hr => portRead_ram_of_not_ready hlow hr⟩, fun hlow => portRead_of_resetLow hlow address⟩
  case idle =>
    show s.run (Device.portWrite address v) = _
    rw [State.run_eq, Device.portWrite_idle h]
  case commands =>
    intro code field
    have hcmd : exec (.registerWrite 0x2001 v) s = s.run (Device.writeCmd code field) := by
      show s.run (Device.portWrite 0x2001 v) = _
      rw [State.run_eq, State.run_eq, Device.portWrite_cmd]
    rw [hcmd]
    refine ⟨fun hcode => ?_, fun c hfield => ⟨fun hcode => ?_, fun hcode => ?_, fun hcode => ?_⟩, fun hcode => ?_,
      fun _ => rfl⟩
    · rw [hcode]
      rfl
    · rw [hcode, hfield]
      rfl
    · rw [hcode, hfield]
      rfl
    · rw [hcode, hfield]
      rfl
    · rw [hcode]
      rfl
  case notice => exact (exec_noticeWrite v s).symm
  case noticeEn => exact (exec_noticeEnWrite v s).symm
  case registers =>
    intro result state hlow
    have hresult : result s.cmd.result = s.cmd.result.code := by cases s.cmd.result <;> rfl
    have hstate (c : ChannelId) : state c = (s.chan c).state.code := by
      simp only [state]
      cases (s.chan c).state <;> rfl
    rw [hresult, hstate, hstate, hstate]
    obtain ⟨h0, h1, h2, h3⟩ := cmdRegister_fields s.toDevice
    exact ⟨_, _, portRead_cmd hlow, portRead_stat hlow, h0, h1, h2, h3, statRegister_fields s.toDevice⟩

end Sys2Proof.Machine
end
